-- ==== Sys2Proof/Word.lean ====
section
/-! DEFINITION. The word types of the machine (spec 00_scope.md R4, R5): registers and addresses are 32-bit vectors,
memory is made of bytes, a register number is a 5-bit field. -/

namespace Sys2Proof

/-- XLEN = 32: an x register, an f register, the pc, an address (00_scope.md R4). -/
abbrev Word := BitVec 32

/-- A half-word: a 16-bit parcel of an instruction, a 16-bit vector element. -/
abbrev Half := BitVec 16

/-- The smallest unit of memory (20_memory.md R50, R103). -/
abbrev Byte := BitVec 8

/-- A register field of an instruction: it selects x0 to x31 or f0 to f31 (10_state.md R20, R25). -/
abbrev Reg := BitVec 5

/-- A 3-bit register field of a compressed instruction: it selects x8 to x15 or f8 to f15 (30_encoding.md R161). -/
abbrev CReg := BitVec 3

/-- A CSR number (10_state.md R26). -/
abbrev CsrNum := BitVec 12

end Sys2Proof
end

