-- ==== Sys2Proof/Syntax.lean ====
section
/-! DEFINITION. The instructions of RI5CY: one constructor per row of spec/opcode_table.json (414 rows), operands as the
fields of the encoding, immediates already put back in order (30_encoding.md R143, R147, R160) but not yet extended:
`off` of a branch or jump holds bits 12:1, 20:1, 11:1 or 8:1 of the byte offset (bit 0 is always 0), `imm` of `lui` and
`auipc` bits 31:12, a scaled compressed immediate only its stored bits. The two ways a word can fail to be an instruction
stand here too. -/

namespace Sys2Proof

/-- An instruction (30_encoding.md R175). -/
inductive Instr where
  -- RV32I base (40_rv32i_base.md)
  /-- `lui`, R201. -/
  | lui (rd : Reg) (imm : BitVec 20)
  /-- `auipc`, R202. -/
  | auipc (rd : Reg) (imm : BitVec 20)
  /-- `jal`, R203. -/
  | jal (rd : Reg) (off : BitVec 20)
  /-- `jalr`, R204. -/
  | jalr (rd : Reg) (rs1 : Reg) (imm : BitVec 12)
  /-- `beq`, R205. -/
  | beq (rs1 : Reg) (rs2 : Reg) (off : BitVec 12)
  /-- `bne`, R206. -/
  | bne (rs1 : Reg) (rs2 : Reg) (off : BitVec 12)
  /-- `blt`, R207. -/
  | blt (rs1 : Reg) (rs2 : Reg) (off : BitVec 12)
  /-- `bge`, R208. -/
  | bge (rs1 : Reg) (rs2 : Reg) (off : BitVec 12)
  /-- `bltu`, R209. -/
  | bltu (rs1 : Reg) (rs2 : Reg) (off : BitVec 12)
  /-- `bgeu`, R210. -/
  | bgeu (rs1 : Reg) (rs2 : Reg) (off : BitVec 12)
  /-- `lb`, R211. -/
  | lb (rd : Reg) (rs1 : Reg) (imm : BitVec 12)
  /-- `lh`, R212. -/
  | lh (rd : Reg) (rs1 : Reg) (imm : BitVec 12)
  /-- `lw`, R213. -/
  | lw (rd : Reg) (rs1 : Reg) (imm : BitVec 12)
  /-- `lbu`, R214. -/
  | lbu (rd : Reg) (rs1 : Reg) (imm : BitVec 12)
  /-- `lhu`, R215. -/
  | lhu (rd : Reg) (rs1 : Reg) (imm : BitVec 12)
  /-- `sb`, R216. -/
  | sb (rs2 : Reg) (rs1 : Reg) (imm : BitVec 12)
  /-- `sh`, R217. -/
  | sh (rs2 : Reg) (rs1 : Reg) (imm : BitVec 12)
  /-- `sw`, R218. -/
  | sw (rs2 : Reg) (rs1 : Reg) (imm : BitVec 12)
  /-- `addi`, R219. -/
  | addi (rd : Reg) (rs1 : Reg) (imm : BitVec 12)
  /-- `slti`, R220. -/
  | slti (rd : Reg) (rs1 : Reg) (imm : BitVec 12)
  /-- `sltiu`, R221. -/
  | sltiu (rd : Reg) (rs1 : Reg) (imm : BitVec 12)
  /-- `xori`, R222. -/
  | xori (rd : Reg) (rs1 : Reg) (imm : BitVec 12)
  /-- `ori`, R223. -/
  | ori (rd : Reg) (rs1 : Reg) (imm : BitVec 12)
  /-- `andi`, R224. -/
  | andi (rd : Reg) (rs1 : Reg) (imm : BitVec 12)
  /-- `slli`, R225. -/
  | slli (rd : Reg) (rs1 : Reg) (shamt : BitVec 5)
  /-- `srli`, R226. -/
  | srli (rd : Reg) (rs1 : Reg) (shamt : BitVec 5)
  /-- `srai`, R227. -/
  | srai (rd : Reg) (rs1 : Reg) (shamt : BitVec 5)
  /-- `add`, R228. -/
  | add (rd : Reg) (rs1 : Reg) (rs2 : Reg)
  /-- `sub`, R229. -/
  | sub (rd : Reg) (rs1 : Reg) (rs2 : Reg)
  /-- `sll`, R230. -/
  | sll (rd : Reg) (rs1 : Reg) (rs2 : Reg)
  /-- `slt`, R231. -/
  | slt (rd : Reg) (rs1 : Reg) (rs2 : Reg)
  /-- `sltu`, R232. -/
  | sltu (rd : Reg) (rs1 : Reg) (rs2 : Reg)
  /-- `xor`, R233. -/
  | xor (rd : Reg) (rs1 : Reg) (rs2 : Reg)
  /-- `srl`, R234. -/
  | srl (rd : Reg) (rs1 : Reg) (rs2 : Reg)
  /-- `sra`, R235. -/
  | sra (rd : Reg) (rs1 : Reg) (rs2 : Reg)
  /-- `or`, R236. -/
  | or (rd : Reg) (rs1 : Reg) (rs2 : Reg)
  /-- `and`, R237. -/
  | and (rd : Reg) (rs1 : Reg) (rs2 : Reg)
  /-- `fence`, R240. -/
  | fence (pred : BitVec 4) (succ : BitVec 4)
  /-- `fence.i`, R241. -/
  | fenceI
  -- system and CSR instructions (41_rv32i_system.md)
  /-- `ecall`, R250. -/
  | ecall
  /-- `ebreak`, R251. -/
  | ebreak
  /-- `mret`, R252. -/
  | mret
  /-- `wfi`, R253. -/
  | wfi
  /-- `csrrw`, R257. -/
  | csrrw (rd : Reg) (rs1 : Reg) (csr : CsrNum)
  /-- `csrrs`, R258. -/
  | csrrs (rd : Reg) (rs1 : Reg) (csr : CsrNum)
  /-- `csrrc`, R259. -/
  | csrrc (rd : Reg) (rs1 : Reg) (csr : CsrNum)
  /-- `csrrwi`, R260. -/
  | csrrwi (rd : Reg) (uimm : BitVec 5) (csr : CsrNum)
  /-- `csrrsi`, R261. -/
  | csrrsi (rd : Reg) (uimm : BitVec 5) (csr : CsrNum)
  /-- `csrrci`, R262. -/
  | csrrci (rd : Reg) (uimm : BitVec 5) (csr : CsrNum)
  -- RV32M (43_rv32m.md)
  /-- `mul`, R331. -/
  | mul (rd : Reg) (rs1 : Reg) (rs2 : Reg)
  /-- `mulh`, R332. -/
  | mulh (rd : Reg) (rs1 : Reg) (rs2 : Reg)
  /-- `mulhsu`, R333. -/
  | mulhsu (rd : Reg) (rs1 : Reg) (rs2 : Reg)
  /-- `mulhu`, R334. -/
  | mulhu (rd : Reg) (rs1 : Reg) (rs2 : Reg)
  /-- `div`, R335. -/
  | div (rd : Reg) (rs1 : Reg) (rs2 : Reg)
  /-- `divu`, R336. -/
  | divu (rd : Reg) (rs1 : Reg) (rs2 : Reg)
  /-- `rem`, R337. -/
  | rem (rd : Reg) (rs1 : Reg) (rs2 : Reg)
  /-- `remu`, R338. -/
  | remu (rd : Reg) (rs1 : Reg) (rs2 : Reg)
  -- RV32F (44_rv32f.md)
  /-- `flw`, R354. -/
  | flw (rd : Reg) (rs1 : Reg) (imm : BitVec 12)
  /-- `fsw`, R355. -/
  | fsw (rs2 : Reg) (rs1 : Reg) (imm : BitVec 12)
  /-- `fmadd.s`, R356. -/
  | fmaddS (rd : Reg) (rs1 : Reg) (rs2 : Reg) (rs3 : Reg) (rm : BitVec 3)
  /-- `fmsub.s`, R357. -/
  | fmsubS (rd : Reg) (rs1 : Reg) (rs2 : Reg) (rs3 : Reg) (rm : BitVec 3)
  /-- `fnmsub.s`, R358. -/
  | fnmsubS (rd : Reg) (rs1 : Reg) (rs2 : Reg) (rs3 : Reg) (rm : BitVec 3)
  /-- `fnmadd.s`, R359. -/
  | fnmaddS (rd : Reg) (rs1 : Reg) (rs2 : Reg) (rs3 : Reg) (rm : BitVec 3)
  /-- `fadd.s`, R360. -/
  | faddS (rd : Reg) (rs1 : Reg) (rs2 : Reg) (rm : BitVec 3)
  /-- `fsub.s`, R361. -/
  | fsubS (rd : Reg) (rs1 : Reg) (rs2 : Reg) (rm : BitVec 3)
  /-- `fmul.s`, R362. -/
  | fmulS (rd : Reg) (rs1 : Reg) (rs2 : Reg) (rm : BitVec 3)
  /-- `fdiv.s`, R363. -/
  | fdivS (rd : Reg) (rs1 : Reg) (rs2 : Reg) (rm : BitVec 3)
  /-- `fsqrt.s`, R364. -/
  | fsqrtS (rd : Reg) (rs1 : Reg) (rm : BitVec 3)
  /-- `fsgnj.s`, R365. -/
  | fsgnjS (rd : Reg) (rs1 : Reg) (rs2 : Reg)
  /-- `fsgnjn.s`, R366. -/
  | fsgnjnS (rd : Reg) (rs1 : Reg) (rs2 : Reg)
  /-- `fsgnjx.s`, R367. -/
  | fsgnjxS (rd : Reg) (rs1 : Reg) (rs2 : Reg)
  /-- `fmin.s`, R368. -/
  | fminS (rd : Reg) (rs1 : Reg) (rs2 : Reg)
  /-- `fmax.s`, R369. -/
  | fmaxS (rd : Reg) (rs1 : Reg) (rs2 : Reg)
  /-- `fcvt.w.s`, R370. -/
  | fcvtWS (rd : Reg) (rs1 : Reg) (rm : BitVec 3)
  /-- `fcvt.wu.s`, R371. -/
  | fcvtWuS (rd : Reg) (rs1 : Reg) (rm : BitVec 3)
  /-- `fmv.x.w`, R372. -/
  | fmvXW (rd : Reg) (rs1 : Reg)
  /-- `feq.s`, R373. -/
  | feqS (rd : Reg) (rs1 : Reg) (rs2 : Reg)
  /-- `flt.s`, R374. -/
  | fltS (rd : Reg) (rs1 : Reg) (rs2 : Reg)
  /-- `fle.s`, R375. -/
  | fleS (rd : Reg) (rs1 : Reg) (rs2 : Reg)
  /-- `fclass.s`, R376. -/
  | fclassS (rd : Reg) (rs1 : Reg)
  /-- `fcvt.s.w`, R377. -/
  | fcvtSW (rd : Reg) (rs1 : Reg) (rm : BitVec 3)
  /-- `fcvt.s.wu`, R378. -/
  | fcvtSWu (rd : Reg) (rs1 : Reg) (rm : BitVec 3)
  /-- `fmv.w.x`, R379. -/
  | fmvWX (rd : Reg) (rs1 : Reg)
  -- RV32C (42_rv32c.md); compressed register fields are 3 bits and select x8 to x15
  /-- `c.addi4spn`, R281. -/
  | cAddi4spn (rd : CReg) (nzuimm : BitVec 8)
  /-- `c.lw`, R282. -/
  | cLw (rd : CReg) (rs1 : CReg) (uimm : BitVec 5)
  /-- `c.sw`, R283. -/
  | cSw (rs2 : CReg) (rs1 : CReg) (uimm : BitVec 5)
  /-- `c.flw`, R284. -/
  | cFlw (rd : CReg) (rs1 : CReg) (uimm : BitVec 5)
  /-- `c.fsw`, R285. -/
  | cFsw (rs2 : CReg) (rs1 : CReg) (uimm : BitVec 5)
  /-- `c.nop`, R286. -/
  | cNop (imm : BitVec 6)
  /-- `c.addi`, R287. -/
  | cAddi (rd : Reg) (imm : BitVec 6)
  /-- `c.jal`, R288. -/
  | cJal (off : BitVec 11)
  /-- `c.li`, R289. -/
  | cLi (rd : Reg) (imm : BitVec 6)
  /-- `c.addi16sp`, R290. -/
  | cAddi16sp (nzimm : BitVec 6)
  /-- `c.lui`, R291. -/
  | cLui (rd : Reg) (nzimm : BitVec 6)
  /-- `c.srli`, R292. -/
  | cSrli (rd : CReg) (shamt : BitVec 5)
  /-- `c.srai`, R293. -/
  | cSrai (rd : CReg) (shamt : BitVec 5)
  /-- `c.andi`, R294. -/
  | cAndi (rd : CReg) (imm : BitVec 6)
  /-- `c.sub`, R295. -/
  | cSub (rd : CReg) (rs2 : CReg)
  /-- `c.xor`, R296. -/
  | cXor (rd : CReg) (rs2 : CReg)
  /-- `c.or`, R297. -/
  | cOr (rd : CReg) (rs2 : CReg)
  /-- `c.and`, R298. -/
  | cAnd (rd : CReg) (rs2 : CReg)
  /-- `c.j`, R299. -/
  | cJ (off : BitVec 11)
  /-- `c.beqz`, R300. -/
  | cBeqz (rs1 : CReg) (off : BitVec 8)
  /-- `c.bnez`, R301. -/
  | cBnez (rs1 : CReg) (off : BitVec 8)
  /-- `c.slli`, R302. -/
  | cSlli (rd : Reg) (shamt : BitVec 5)
  /-- `c.lwsp`, R303. -/
  | cLwsp (rd : Reg) (uimm : BitVec 6)
  /-- `c.flwsp`, R304. -/
  | cFlwsp (rd : Reg) (uimm : BitVec 6)
  /-- `c.jr`, R305. -/
  | cJr (rs1 : Reg)
  /-- `c.mv`, R306. -/
  | cMv (rd : Reg) (rs2 : Reg)
  /-- `c.ebreak`, R307. -/
  | cEbreak
  /-- `c.jalr`, R308. -/
  | cJalr (rs1 : Reg)
  /-- `c.add`, R309. -/
  | cAdd (rd : Reg) (rs2 : Reg)
  /-- `c.swsp`, R310. -/
  | cSwsp (rs2 : Reg) (uimm : BitVec 6)
  /-- `c.fswsp`, R311. -/
  | cFswsp (rs2 : Reg) (uimm : BitVec 6)
  -- PULP post-incrementing and register-offset loads and stores (45_pulp_postinc_loadstore.md)
  /-- `p.lb rD, Imm(rs1!)`, R401. -/
  | pLbPostImm (rd : Reg) (rs1 : Reg) (imm : BitVec 12)
  /-- `p.lbu rD, Imm(rs1!)`, R402. -/
  | pLbuPostImm (rd : Reg) (rs1 : Reg) (imm : BitVec 12)
  /-- `p.lh rD, Imm(rs1!)`, R403. -/
  | pLhPostImm (rd : Reg) (rs1 : Reg) (imm : BitVec 12)
  /-- `p.lhu rD, Imm(rs1!)`, R404. -/
  | pLhuPostImm (rd : Reg) (rs1 : Reg) (imm : BitVec 12)
  /-- `p.lw rD, Imm(rs1!)`, R405. -/
  | pLwPostImm (rd : Reg) (rs1 : Reg) (imm : BitVec 12)
  /-- `p.lb rD, rs2(rs1!)`, R406. -/
  | pLbPostReg (rd : Reg) (rs1 : Reg) (rs2 : Reg)
  /-- `p.lbu rD, rs2(rs1!)`, R407. -/
  | pLbuPostReg (rd : Reg) (rs1 : Reg) (rs2 : Reg)
  /-- `p.lh rD, rs2(rs1!)`, R408. -/
  | pLhPostReg (rd : Reg) (rs1 : Reg) (rs2 : Reg)
  /-- `p.lhu rD, rs2(rs1!)`, R409. -/
  | pLhuPostReg (rd : Reg) (rs1 : Reg) (rs2 : Reg)
  /-- `p.lw rD, rs2(rs1!)`, R410. -/
  | pLwPostReg (rd : Reg) (rs1 : Reg) (rs2 : Reg)
  /-- `p.lb rD, rs2(rs1)`, R411. -/
  | pLbOff (rd : Reg) (rs1 : Reg) (rs2 : Reg)
  /-- `p.lbu rD, rs2(rs1)`, R412. -/
  | pLbuOff (rd : Reg) (rs1 : Reg) (rs2 : Reg)
  /-- `p.lh rD, rs2(rs1)`, R413. -/
  | pLhOff (rd : Reg) (rs1 : Reg) (rs2 : Reg)
  /-- `p.lhu rD, rs2(rs1)`, R414. -/
  | pLhuOff (rd : Reg) (rs1 : Reg) (rs2 : Reg)
  /-- `p.lw rD, rs2(rs1)`, R415. -/
  | pLwOff (rd : Reg) (rs1 : Reg) (rs2 : Reg)
  /-- `p.sb rs2, Imm(rs1!)`, R416. -/
  | pSbPostImm (rs2 : Reg) (rs1 : Reg) (imm : BitVec 12)
  /-- `p.sh rs2, Imm(rs1!)`, R417. -/
  | pShPostImm (rs2 : Reg) (rs1 : Reg) (imm : BitVec 12)
  /-- `p.sw rs2, Imm(rs1!)`, R418. -/
  | pSwPostImm (rs2 : Reg) (rs1 : Reg) (imm : BitVec 12)
  /-- `p.sb rs2, rs3(rs1!)`, R419. -/
  | pSbPostReg (rs2 : Reg) (rs3 : Reg) (rs1 : Reg)
  /-- `p.sh rs2, rs3(rs1!)`, R420. -/
  | pShPostReg (rs2 : Reg) (rs3 : Reg) (rs1 : Reg)
  /-- `p.sw rs2, rs3(rs1!)`, R421. -/
  | pSwPostReg (rs2 : Reg) (rs3 : Reg) (rs1 : Reg)
  /-- `p.sb rs2, rs3(rs1)`, R422. -/
  | pSbOff (rs2 : Reg) (rs3 : Reg) (rs1 : Reg)
  /-- `p.sh rs2, rs3(rs1)`, R423. -/
  | pShOff (rs2 : Reg) (rs3 : Reg) (rs1 : Reg)
  /-- `p.sw rs2, rs3(rs1)`, R424. -/
  | pSwOff (rs2 : Reg) (rs3 : Reg) (rs1 : Reg)
  -- PULP hardware loops (46_pulp_hwloop.md)
  /-- `lp.starti`, R441. -/
  | lpStarti (l : BitVec 1) (uimmL : BitVec 12)
  /-- `lp.endi`, R442. -/
  | lpEndi (l : BitVec 1) (uimmL : BitVec 12)
  /-- `lp.count`, R443. -/
  | lpCount (l : BitVec 1) (rs1 : Reg)
  /-- `lp.counti`, R444. -/
  | lpCounti (l : BitVec 1) (uimmL : BitVec 12)
  /-- `lp.setup`, R445. -/
  | lpSetup (l : BitVec 1) (rs1 : Reg) (uimmL : BitVec 12)
  /-- `lp.setupi`, R446. -/
  | lpSetupi (l : BitVec 1) (uimmL : BitVec 12) (uimmS : BitVec 5)
  -- PULP ALU extensions (47_pulp_alu.md)
  /-- `p.extract`, R471. -/
  | pExtract (rd : Reg) (rs1 : Reg) (ls3 : BitVec 5) (ls2 : BitVec 5)
  /-- `p.extractu`, R472. -/
  | pExtractu (rd : Reg) (rs1 : Reg) (ls3 : BitVec 5) (ls2 : BitVec 5)
  /-- `p.insert`, R473. -/
  | pInsert (rd : Reg) (rs1 : Reg) (ls3 : BitVec 5) (ls2 : BitVec 5)
  /-- `p.bclr`, R474. -/
  | pBclr (rd : Reg) (rs1 : Reg) (ls3 : BitVec 5) (ls2 : BitVec 5)
  /-- `p.bset`, R475. -/
  | pBset (rd : Reg) (rs1 : Reg) (ls3 : BitVec 5) (ls2 : BitVec 5)
  /-- `p.extractr`, R476. -/
  | pExtractr (rd : Reg) (rs1 : Reg) (rs2 : Reg)
  /-- `p.extractur`, R477. -/
  | pExtractur (rd : Reg) (rs1 : Reg) (rs2 : Reg)
  /-- `p.insertr`, R478. -/
  | pInsertr (rd : Reg) (rs1 : Reg) (rs2 : Reg)
  /-- `p.bclrr`, R479. -/
  | pBclrr (rd : Reg) (rs1 : Reg) (rs2 : Reg)
  /-- `p.bsetr`, R480. -/
  | pBsetr (rd : Reg) (rs1 : Reg) (rs2 : Reg)
  /-- `p.ror`, R481. -/
  | pRor (rd : Reg) (rs1 : Reg) (rs2 : Reg)
  /-- `p.ff1`, R482. -/
  | pFf1 (rd : Reg) (rs1 : Reg)
  /-- `p.fl1`, R483. -/
  | pFl1 (rd : Reg) (rs1 : Reg)
  /-- `p.clb`, R484. -/
  | pClb (rd : Reg) (rs1 : Reg)
  /-- `p.cnt`, R485. -/
  | pCnt (rd : Reg) (rs1 : Reg)
  /-- `p.abs`, R486. -/
  | pAbs (rd : Reg) (rs1 : Reg)
  /-- `p.slet`, R487. -/
  | pSlet (rd : Reg) (rs1 : Reg) (rs2 : Reg)
  /-- `p.sletu`, R488. -/
  | pSletu (rd : Reg) (rs1 : Reg) (rs2 : Reg)
  /-- `p.min`, R489. -/
  | pMin (rd : Reg) (rs1 : Reg) (rs2 : Reg)
  /-- `p.minu`, R490. -/
  | pMinu (rd : Reg) (rs1 : Reg) (rs2 : Reg)
  /-- `p.max`, R491. -/
  | pMax (rd : Reg) (rs1 : Reg) (rs2 : Reg)
  /-- `p.maxu`, R492. -/
  | pMaxu (rd : Reg) (rs1 : Reg) (rs2 : Reg)
  /-- `p.exths`, R493. -/
  | pExths (rd : Reg) (rs1 : Reg)
  /-- `p.exthz`, R494. -/
  | pExthz (rd : Reg) (rs1 : Reg)
  /-- `p.extbs`, R495. -/
  | pExtbs (rd : Reg) (rs1 : Reg)
  /-- `p.extbz`, R496. -/
  | pExtbz (rd : Reg) (rs1 : Reg)
  /-- `p.clip`, R497. -/
  | pClip (rd : Reg) (rs1 : Reg) (ls2 : BitVec 5)
  /-- `p.clipu`, R498. -/
  | pClipu (rd : Reg) (rs1 : Reg) (ls2 : BitVec 5)
  /-- `p.clipr`, R499. -/
  | pClipr (rd : Reg) (rs1 : Reg) (rs2 : Reg)
  /-- `p.clipur`, R500. -/
  | pClipur (rd : Reg) (rs1 : Reg) (rs2 : Reg)
  /-- `p.addN`, R501. -/
  | pAddN (rd : Reg) (rs1 : Reg) (rs2 : Reg) (ls3 : BitVec 5)
  /-- `p.adduN`, R502. -/
  | pAdduN (rd : Reg) (rs1 : Reg) (rs2 : Reg) (ls3 : BitVec 5)
  /-- `p.addRN`, R503. -/
  | pAddRN (rd : Reg) (rs1 : Reg) (rs2 : Reg) (ls3 : BitVec 5)
  /-- `p.adduRN`, R504. -/
  | pAdduRN (rd : Reg) (rs1 : Reg) (rs2 : Reg) (ls3 : BitVec 5)
  /-- `p.addNr`, R505. -/
  | pAddNr (rd : Reg) (rs1 : Reg) (rs2 : Reg)
  /-- `p.adduNr`, R506. -/
  | pAdduNr (rd : Reg) (rs1 : Reg) (rs2 : Reg)
  /-- `p.addRNr`, R507. -/
  | pAddRNr (rd : Reg) (rs1 : Reg) (rs2 : Reg)
  /-- `p.adduRNr`, R508. -/
  | pAdduRNr (rd : Reg) (rs1 : Reg) (rs2 : Reg)
  /-- `p.subN`, R509. -/
  | pSubN (rd : Reg) (rs1 : Reg) (rs2 : Reg) (ls3 : BitVec 5)
  /-- `p.subuN`, R510. -/
  | pSubuN (rd : Reg) (rs1 : Reg) (rs2 : Reg) (ls3 : BitVec 5)
  /-- `p.subRN`, R511. -/
  | pSubRN (rd : Reg) (rs1 : Reg) (rs2 : Reg) (ls3 : BitVec 5)
  /-- `p.subuRN`, R512. -/
  | pSubuRN (rd : Reg) (rs1 : Reg) (rs2 : Reg) (ls3 : BitVec 5)
  /-- `p.subNr`, R513. -/
  | pSubNr (rd : Reg) (rs1 : Reg) (rs2 : Reg)
  /-- `p.subuNr`, R514. -/
  | pSubuNr (rd : Reg) (rs1 : Reg) (rs2 : Reg)
  /-- `p.subRNr`, R515. -/
  | pSubRNr (rd : Reg) (rs1 : Reg) (rs2 : Reg)
  /-- `p.subuRNr`, R516. -/
  | pSubuRNr (rd : Reg) (rs1 : Reg) (rs2 : Reg)
  /-- `p.beqimm`, R518. -/
  | pBeqimm (rs1 : Reg) (imm5 : BitVec 5) (off : BitVec 12)
  /-- `p.bneimm`, R519. -/
  | pBneimm (rs1 : Reg) (imm5 : BitVec 5) (off : BitVec 12)
  -- PULP multiply-accumulate (48_pulp_mac.md)
  /-- `p.mac`, R541. -/
  | pMac (rd : Reg) (rs1 : Reg) (rs2 : Reg)
  /-- `p.msu`, R542. -/
  | pMsu (rd : Reg) (rs1 : Reg) (rs2 : Reg)
  /-- `p.muls`, R543. -/
  | pMuls (rd : Reg) (rs1 : Reg) (rs2 : Reg)
  /-- `p.mulhhs`, R544. -/
  | pMulhhs (rd : Reg) (rs1 : Reg) (rs2 : Reg)
  /-- `p.mulsN`, R545. -/
  | pMulsN (rd : Reg) (rs1 : Reg) (rs2 : Reg) (ls3 : BitVec 5)
  /-- `p.mulhhsN`, R546. -/
  | pMulhhsN (rd : Reg) (rs1 : Reg) (rs2 : Reg) (ls3 : BitVec 5)
  /-- `p.mulsRN`, R547. -/
  | pMulsRN (rd : Reg) (rs1 : Reg) (rs2 : Reg) (ls3 : BitVec 5)
  /-- `p.mulhhsRN`, R548. -/
  | pMulhhsRN (rd : Reg) (rs1 : Reg) (rs2 : Reg) (ls3 : BitVec 5)
  /-- `p.mulu`, R549. -/
  | pMulu (rd : Reg) (rs1 : Reg) (rs2 : Reg)
  /-- `p.mulhhu`, R550. -/
  | pMulhhu (rd : Reg) (rs1 : Reg) (rs2 : Reg)
  /-- `p.muluN`, R551. -/
  | pMuluN (rd : Reg) (rs1 : Reg) (rs2 : Reg) (ls3 : BitVec 5)
  /-- `p.mulhhuN`, R552. -/
  | pMulhhuN (rd : Reg) (rs1 : Reg) (rs2 : Reg) (ls3 : BitVec 5)
  /-- `p.muluRN`, R553. -/
  | pMuluRN (rd : Reg) (rs1 : Reg) (rs2 : Reg) (ls3 : BitVec 5)
  /-- `p.mulhhuRN`, R554. -/
  | pMulhhuRN (rd : Reg) (rs1 : Reg) (rs2 : Reg) (ls3 : BitVec 5)
  /-- `p.macsN`, R555. -/
  | pMacsN (rd : Reg) (rs1 : Reg) (rs2 : Reg) (ls3 : BitVec 5)
  /-- `p.machhsN`, R556. -/
  | pMachhsN (rd : Reg) (rs1 : Reg) (rs2 : Reg) (ls3 : BitVec 5)
  /-- `p.macsRN`, R557. -/
  | pMacsRN (rd : Reg) (rs1 : Reg) (rs2 : Reg) (ls3 : BitVec 5)
  /-- `p.machhsRN`, R558. -/
  | pMachhsRN (rd : Reg) (rs1 : Reg) (rs2 : Reg) (ls3 : BitVec 5)
  /-- `p.macuN`, R559. -/
  | pMacuN (rd : Reg) (rs1 : Reg) (rs2 : Reg) (ls3 : BitVec 5)
  /-- `p.machhuN`, R560. -/
  | pMachhuN (rd : Reg) (rs1 : Reg) (rs2 : Reg) (ls3 : BitVec 5)
  /-- `p.macuRN`, R561. -/
  | pMacuRN (rd : Reg) (rs1 : Reg) (rs2 : Reg) (ls3 : BitVec 5)
  /-- `p.machhuRN`, R562. -/
  | pMachhuRN (rd : Reg) (rs1 : Reg) (rs2 : Reg) (ls3 : BitVec 5)
  -- PULP vectorial (49_pulp_vector.md)
  /-- `pv.add.h`, R584. -/
  | pvAddH (rd : Reg) (rs1 : Reg) (rs2 : Reg)
  /-- `pv.add.sc.h`, R584. -/
  | pvAddScH (rd : Reg) (rs1 : Reg) (rs2 : Reg)
  /-- `pv.add.sci.h`, R584. -/
  | pvAddSciH (rd : Reg) (rs1 : Reg) (imm6 : BitVec 6)
  /-- `pv.add.b`, R584. -/
  | pvAddB (rd : Reg) (rs1 : Reg) (rs2 : Reg)
  /-- `pv.add.sc.b`, R584. -/
  | pvAddScB (rd : Reg) (rs1 : Reg) (rs2 : Reg)
  /-- `pv.add.sci.b`, R584. -/
  | pvAddSciB (rd : Reg) (rs1 : Reg) (imm6 : BitVec 6)
  /-- `pv.sub.h`, R585. -/
  | pvSubH (rd : Reg) (rs1 : Reg) (rs2 : Reg)
  /-- `pv.sub.sc.h`, R585. -/
  | pvSubScH (rd : Reg) (rs1 : Reg) (rs2 : Reg)
  /-- `pv.sub.sci.h`, R585. -/
  | pvSubSciH (rd : Reg) (rs1 : Reg) (imm6 : BitVec 6)
  /-- `pv.sub.b`, R585. -/
  | pvSubB (rd : Reg) (rs1 : Reg) (rs2 : Reg)
  /-- `pv.sub.sc.b`, R585. -/
  | pvSubScB (rd : Reg) (rs1 : Reg) (rs2 : Reg)
  /-- `pv.sub.sci.b`, R585. -/
  | pvSubSciB (rd : Reg) (rs1 : Reg) (imm6 : BitVec 6)
  /-- `pv.avg.h`, R586. -/
  | pvAvgH (rd : Reg) (rs1 : Reg) (rs2 : Reg)
  /-- `pv.avg.sc.h`, R586. -/
  | pvAvgScH (rd : Reg) (rs1 : Reg) (rs2 : Reg)
  /-- `pv.avg.sci.h`, R586. -/
  | pvAvgSciH (rd : Reg) (rs1 : Reg) (imm6 : BitVec 6)
  /-- `pv.avg.b`, R586. -/
  | pvAvgB (rd : Reg) (rs1 : Reg) (rs2 : Reg)
  /-- `pv.avg.sc.b`, R586. -/
  | pvAvgScB (rd : Reg) (rs1 : Reg) (rs2 : Reg)
  /-- `pv.avg.sci.b`, R586. -/
  | pvAvgSciB (rd : Reg) (rs1 : Reg) (imm6 : BitVec 6)
  /-- `pv.avgu.h`, R587. -/
  | pvAvguH (rd : Reg) (rs1 : Reg) (rs2 : Reg)
  /-- `pv.avgu.sc.h`, R587. -/
  | pvAvguScH (rd : Reg) (rs1 : Reg) (rs2 : Reg)
  /-- `pv.avgu.sci.h`, R587. -/
  | pvAvguSciH (rd : Reg) (rs1 : Reg) (imm6 : BitVec 6)
  /-- `pv.avgu.b`, R587. -/
  | pvAvguB (rd : Reg) (rs1 : Reg) (rs2 : Reg)
  /-- `pv.avgu.sc.b`, R587. -/
  | pvAvguScB (rd : Reg) (rs1 : Reg) (rs2 : Reg)
  /-- `pv.avgu.sci.b`, R587. -/
  | pvAvguSciB (rd : Reg) (rs1 : Reg) (imm6 : BitVec 6)
  /-- `pv.min.h`, R588. -/
  | pvMinH (rd : Reg) (rs1 : Reg) (rs2 : Reg)
  /-- `pv.min.sc.h`, R588. -/
  | pvMinScH (rd : Reg) (rs1 : Reg) (rs2 : Reg)
  /-- `pv.min.sci.h`, R588. -/
  | pvMinSciH (rd : Reg) (rs1 : Reg) (imm6 : BitVec 6)
  /-- `pv.min.b`, R588. -/
  | pvMinB (rd : Reg) (rs1 : Reg) (rs2 : Reg)
  /-- `pv.min.sc.b`, R588. -/
  | pvMinScB (rd : Reg) (rs1 : Reg) (rs2 : Reg)
  /-- `pv.min.sci.b`, R588. -/
  | pvMinSciB (rd : Reg) (rs1 : Reg) (imm6 : BitVec 6)
  /-- `pv.minu.h`, R589. -/
  | pvMinuH (rd : Reg) (rs1 : Reg) (rs2 : Reg)
  /-- `pv.minu.sc.h`, R589. -/
  | pvMinuScH (rd : Reg) (rs1 : Reg) (rs2 : Reg)
  /-- `pv.minu.sci.h`, R589. -/
  | pvMinuSciH (rd : Reg) (rs1 : Reg) (imm6 : BitVec 6)
  /-- `pv.minu.b`, R589. -/
  | pvMinuB (rd : Reg) (rs1 : Reg) (rs2 : Reg)
  /-- `pv.minu.sc.b`, R589. -/
  | pvMinuScB (rd : Reg) (rs1 : Reg) (rs2 : Reg)
  /-- `pv.minu.sci.b`, R589. -/
  | pvMinuSciB (rd : Reg) (rs1 : Reg) (imm6 : BitVec 6)
  /-- `pv.max.h`, R590. -/
  | pvMaxH (rd : Reg) (rs1 : Reg) (rs2 : Reg)
  /-- `pv.max.sc.h`, R590. -/
  | pvMaxScH (rd : Reg) (rs1 : Reg) (rs2 : Reg)
  /-- `pv.max.sci.h`, R590. -/
  | pvMaxSciH (rd : Reg) (rs1 : Reg) (imm6 : BitVec 6)
  /-- `pv.max.b`, R590. -/
  | pvMaxB (rd : Reg) (rs1 : Reg) (rs2 : Reg)
  /-- `pv.max.sc.b`, R590. -/
  | pvMaxScB (rd : Reg) (rs1 : Reg) (rs2 : Reg)
  /-- `pv.max.sci.b`, R590. -/
  | pvMaxSciB (rd : Reg) (rs1 : Reg) (imm6 : BitVec 6)
  /-- `pv.maxu.h`, R591. -/
  | pvMaxuH (rd : Reg) (rs1 : Reg) (rs2 : Reg)
  /-- `pv.maxu.sc.h`, R591. -/
  | pvMaxuScH (rd : Reg) (rs1 : Reg) (rs2 : Reg)
  /-- `pv.maxu.sci.h`, R591. -/
  | pvMaxuSciH (rd : Reg) (rs1 : Reg) (imm6 : BitVec 6)
  /-- `pv.maxu.b`, R591. -/
  | pvMaxuB (rd : Reg) (rs1 : Reg) (rs2 : Reg)
  /-- `pv.maxu.sc.b`, R591. -/
  | pvMaxuScB (rd : Reg) (rs1 : Reg) (rs2 : Reg)
  /-- `pv.maxu.sci.b`, R591. -/
  | pvMaxuSciB (rd : Reg) (rs1 : Reg) (imm6 : BitVec 6)
  /-- `pv.srl.h`, R592. -/
  | pvSrlH (rd : Reg) (rs1 : Reg) (rs2 : Reg)
  /-- `pv.srl.sc.h`, R592. -/
  | pvSrlScH (rd : Reg) (rs1 : Reg) (rs2 : Reg)
  /-- `pv.srl.sci.h`, R592. -/
  | pvSrlSciH (rd : Reg) (rs1 : Reg) (imm6 : BitVec 6)
  /-- `pv.srl.b`, R592. -/
  | pvSrlB (rd : Reg) (rs1 : Reg) (rs2 : Reg)
  /-- `pv.srl.sc.b`, R592. -/
  | pvSrlScB (rd : Reg) (rs1 : Reg) (rs2 : Reg)
  /-- `pv.srl.sci.b`, R592. -/
  | pvSrlSciB (rd : Reg) (rs1 : Reg) (imm6 : BitVec 6)
  /-- `pv.sra.h`, R593. -/
  | pvSraH (rd : Reg) (rs1 : Reg) (rs2 : Reg)
  /-- `pv.sra.sc.h`, R593. -/
  | pvSraScH (rd : Reg) (rs1 : Reg) (rs2 : Reg)
  /-- `pv.sra.sci.h`, R593. -/
  | pvSraSciH (rd : Reg) (rs1 : Reg) (imm6 : BitVec 6)
  /-- `pv.sra.b`, R593. -/
  | pvSraB (rd : Reg) (rs1 : Reg) (rs2 : Reg)
  /-- `pv.sra.sc.b`, R593. -/
  | pvSraScB (rd : Reg) (rs1 : Reg) (rs2 : Reg)
  /-- `pv.sra.sci.b`, R593. -/
  | pvSraSciB (rd : Reg) (rs1 : Reg) (imm6 : BitVec 6)
  /-- `pv.sll.h`, R594. -/
  | pvSllH (rd : Reg) (rs1 : Reg) (rs2 : Reg)
  /-- `pv.sll.sc.h`, R594. -/
  | pvSllScH (rd : Reg) (rs1 : Reg) (rs2 : Reg)
  /-- `pv.sll.sci.h`, R594. -/
  | pvSllSciH (rd : Reg) (rs1 : Reg) (imm6 : BitVec 6)
  /-- `pv.sll.b`, R594. -/
  | pvSllB (rd : Reg) (rs1 : Reg) (rs2 : Reg)
  /-- `pv.sll.sc.b`, R594. -/
  | pvSllScB (rd : Reg) (rs1 : Reg) (rs2 : Reg)
  /-- `pv.sll.sci.b`, R594. -/
  | pvSllSciB (rd : Reg) (rs1 : Reg) (imm6 : BitVec 6)
  /-- `pv.or.h`, R595. -/
  | pvOrH (rd : Reg) (rs1 : Reg) (rs2 : Reg)
  /-- `pv.or.sc.h`, R595. -/
  | pvOrScH (rd : Reg) (rs1 : Reg) (rs2 : Reg)
  /-- `pv.or.sci.h`, R595. -/
  | pvOrSciH (rd : Reg) (rs1 : Reg) (imm6 : BitVec 6)
  /-- `pv.or.b`, R595. -/
  | pvOrB (rd : Reg) (rs1 : Reg) (rs2 : Reg)
  /-- `pv.or.sc.b`, R595. -/
  | pvOrScB (rd : Reg) (rs1 : Reg) (rs2 : Reg)
  /-- `pv.or.sci.b`, R595. -/
  | pvOrSciB (rd : Reg) (rs1 : Reg) (imm6 : BitVec 6)
  /-- `pv.xor.h`, R596. -/
  | pvXorH (rd : Reg) (rs1 : Reg) (rs2 : Reg)
  /-- `pv.xor.sc.h`, R596. -/
  | pvXorScH (rd : Reg) (rs1 : Reg) (rs2 : Reg)
  /-- `pv.xor.sci.h`, R596. -/
  | pvXorSciH (rd : Reg) (rs1 : Reg) (imm6 : BitVec 6)
  /-- `pv.xor.b`, R596. -/
  | pvXorB (rd : Reg) (rs1 : Reg) (rs2 : Reg)
  /-- `pv.xor.sc.b`, R596. -/
  | pvXorScB (rd : Reg) (rs1 : Reg) (rs2 : Reg)
  /-- `pv.xor.sci.b`, R596. -/
  | pvXorSciB (rd : Reg) (rs1 : Reg) (imm6 : BitVec 6)
  /-- `pv.and.h`, R597. -/
  | pvAndH (rd : Reg) (rs1 : Reg) (rs2 : Reg)
  /-- `pv.and.sc.h`, R597. -/
  | pvAndScH (rd : Reg) (rs1 : Reg) (rs2 : Reg)
  /-- `pv.and.sci.h`, R597. -/
  | pvAndSciH (rd : Reg) (rs1 : Reg) (imm6 : BitVec 6)
  /-- `pv.and.b`, R597. -/
  | pvAndB (rd : Reg) (rs1 : Reg) (rs2 : Reg)
  /-- `pv.and.sc.b`, R597. -/
  | pvAndScB (rd : Reg) (rs1 : Reg) (rs2 : Reg)
  /-- `pv.and.sci.b`, R597. -/
  | pvAndSciB (rd : Reg) (rs1 : Reg) (imm6 : BitVec 6)
  /-- `pv.abs.h`, R598. -/
  | pvAbsH (rd : Reg) (rs1 : Reg)
  /-- `pv.abs.b`, R598. -/
  | pvAbsB (rd : Reg) (rs1 : Reg)
  /-- `pv.extract.h`, R599. -/
  | pvExtractH (rd : Reg) (rs1 : Reg) (imm6 : BitVec 6)
  /-- `pv.extract.b`, R599. -/
  | pvExtractB (rd : Reg) (rs1 : Reg) (imm6 : BitVec 6)
  /-- `pv.extractu.h`, R600. -/
  | pvExtractuH (rd : Reg) (rs1 : Reg) (imm6 : BitVec 6)
  /-- `pv.extractu.b`, R600. -/
  | pvExtractuB (rd : Reg) (rs1 : Reg) (imm6 : BitVec 6)
  /-- `pv.insert.h`, R601. -/
  | pvInsertH (rd : Reg) (rs1 : Reg) (imm6 : BitVec 6)
  /-- `pv.insert.b`, R601. -/
  | pvInsertB (rd : Reg) (rs1 : Reg) (imm6 : BitVec 6)
  /-- `pv.dotup.h`, R602. -/
  | pvDotupH (rd : Reg) (rs1 : Reg) (rs2 : Reg)
  /-- `pv.dotup.sc.h`, R602. -/
  | pvDotupScH (rd : Reg) (rs1 : Reg) (rs2 : Reg)
  /-- `pv.dotup.sci.h`, R602. -/
  | pvDotupSciH (rd : Reg) (rs1 : Reg) (imm6 : BitVec 6)
  /-- `pv.dotup.b`, R602. -/
  | pvDotupB (rd : Reg) (rs1 : Reg) (rs2 : Reg)
  /-- `pv.dotup.sc.b`, R602. -/
  | pvDotupScB (rd : Reg) (rs1 : Reg) (rs2 : Reg)
  /-- `pv.dotup.sci.b`, R602. -/
  | pvDotupSciB (rd : Reg) (rs1 : Reg) (imm6 : BitVec 6)
  /-- `pv.dotusp.h`, R603. -/
  | pvDotuspH (rd : Reg) (rs1 : Reg) (rs2 : Reg)
  /-- `pv.dotusp.sc.h`, R603. -/
  | pvDotuspScH (rd : Reg) (rs1 : Reg) (rs2 : Reg)
  /-- `pv.dotusp.sci.h`, R603. -/
  | pvDotuspSciH (rd : Reg) (rs1 : Reg) (imm6 : BitVec 6)
  /-- `pv.dotusp.b`, R603. -/
  | pvDotuspB (rd : Reg) (rs1 : Reg) (rs2 : Reg)
  /-- `pv.dotusp.sc.b`, R603. -/
  | pvDotuspScB (rd : Reg) (rs1 : Reg) (rs2 : Reg)
  /-- `pv.dotusp.sci.b`, R603. -/
  | pvDotuspSciB (rd : Reg) (rs1 : Reg) (imm6 : BitVec 6)
  /-- `pv.dotsp.h`, R604. -/
  | pvDotspH (rd : Reg) (rs1 : Reg) (rs2 : Reg)
  /-- `pv.dotsp.sc.h`, R604. -/
  | pvDotspScH (rd : Reg) (rs1 : Reg) (rs2 : Reg)
  /-- `pv.dotsp.sci.h`, R604. -/
  | pvDotspSciH (rd : Reg) (rs1 : Reg) (imm6 : BitVec 6)
  /-- `pv.dotsp.b`, R604. -/
  | pvDotspB (rd : Reg) (rs1 : Reg) (rs2 : Reg)
  /-- `pv.dotsp.sc.b`, R604. -/
  | pvDotspScB (rd : Reg) (rs1 : Reg) (rs2 : Reg)
  /-- `pv.dotsp.sci.b`, R604. -/
  | pvDotspSciB (rd : Reg) (rs1 : Reg) (imm6 : BitVec 6)
  /-- `pv.sdotup.h`, R605. -/
  | pvSdotupH (rd : Reg) (rs1 : Reg) (rs2 : Reg)
  /-- `pv.sdotup.sc.h`, R605. -/
  | pvSdotupScH (rd : Reg) (rs1 : Reg) (rs2 : Reg)
  /-- `pv.sdotup.sci.h`, R605. -/
  | pvSdotupSciH (rd : Reg) (rs1 : Reg) (imm6 : BitVec 6)
  /-- `pv.sdotup.b`, R605. -/
  | pvSdotupB (rd : Reg) (rs1 : Reg) (rs2 : Reg)
  /-- `pv.sdotup.sc.b`, R605. -/
  | pvSdotupScB (rd : Reg) (rs1 : Reg) (rs2 : Reg)
  /-- `pv.sdotup.sci.b`, R605. -/
  | pvSdotupSciB (rd : Reg) (rs1 : Reg) (imm6 : BitVec 6)
  /-- `pv.sdotusp.h`, R606. -/
  | pvSdotuspH (rd : Reg) (rs1 : Reg) (rs2 : Reg)
  /-- `pv.sdotusp.sc.h`, R606. -/
  | pvSdotuspScH (rd : Reg) (rs1 : Reg) (rs2 : Reg)
  /-- `pv.sdotusp.sci.h`, R606. -/
  | pvSdotuspSciH (rd : Reg) (rs1 : Reg) (imm6 : BitVec 6)
  /-- `pv.sdotusp.b`, R606. -/
  | pvSdotuspB (rd : Reg) (rs1 : Reg) (rs2 : Reg)
  /-- `pv.sdotusp.sc.b`, R606. -/
  | pvSdotuspScB (rd : Reg) (rs1 : Reg) (rs2 : Reg)
  /-- `pv.sdotusp.sci.b`, R606. -/
  | pvSdotuspSciB (rd : Reg) (rs1 : Reg) (imm6 : BitVec 6)
  /-- `pv.sdotsp.h`, R607. -/
  | pvSdotspH (rd : Reg) (rs1 : Reg) (rs2 : Reg)
  /-- `pv.sdotsp.sc.h`, R607. -/
  | pvSdotspScH (rd : Reg) (rs1 : Reg) (rs2 : Reg)
  /-- `pv.sdotsp.sci.h`, R607. -/
  | pvSdotspSciH (rd : Reg) (rs1 : Reg) (imm6 : BitVec 6)
  /-- `pv.sdotsp.b`, R607. -/
  | pvSdotspB (rd : Reg) (rs1 : Reg) (rs2 : Reg)
  /-- `pv.sdotsp.sc.b`, R607. -/
  | pvSdotspScB (rd : Reg) (rs1 : Reg) (rs2 : Reg)
  /-- `pv.sdotsp.sci.b`, R607. -/
  | pvSdotspSciB (rd : Reg) (rs1 : Reg) (imm6 : BitVec 6)
  /-- `pv.shuffle.h`, R608. -/
  | pvShuffleH (rd : Reg) (rs1 : Reg) (rs2 : Reg)
  /-- `pv.shuffle.b`, R608. -/
  | pvShuffleB (rd : Reg) (rs1 : Reg) (rs2 : Reg)
  /-- `pv.shuffle.sci.h`, R609. -/
  | pvShuffleSciH (rd : Reg) (rs1 : Reg) (imm6 : BitVec 6)
  /-- `pv.shuffleI0.sci.b`, R610. -/
  | pvShuffleI0SciB (rd : Reg) (rs1 : Reg) (imm6 : BitVec 6)
  /-- `pv.shuffleI1.sci.b`, R611. -/
  | pvShuffleI1SciB (rd : Reg) (rs1 : Reg) (imm6 : BitVec 6)
  /-- `pv.shuffleI2.sci.b`, R612. -/
  | pvShuffleI2SciB (rd : Reg) (rs1 : Reg) (imm6 : BitVec 6)
  /-- `pv.shuffleI3.sci.b`, R613. -/
  | pvShuffleI3SciB (rd : Reg) (rs1 : Reg) (imm6 : BitVec 6)
  /-- `pv.shuffle2.h`, R614. -/
  | pvShuffle2H (rd : Reg) (rs1 : Reg) (rs2 : Reg)
  /-- `pv.shuffle2.b`, R614. -/
  | pvShuffle2B (rd : Reg) (rs1 : Reg) (rs2 : Reg)
  /-- `pv.pack.h`, R615. -/
  | pvPackH (rd : Reg) (rs1 : Reg) (rs2 : Reg)
  /-- `pv.packhi.b`, R616. -/
  | pvPackhiB (rd : Reg) (rs1 : Reg) (rs2 : Reg)
  /-- `pv.packlo.b`, R617. -/
  | pvPackloB (rd : Reg) (rs1 : Reg) (rs2 : Reg)
  /-- `pv.cmpeq.h`, R619. -/
  | pvCmpeqH (rd : Reg) (rs1 : Reg) (rs2 : Reg)
  /-- `pv.cmpeq.sc.h`, R619. -/
  | pvCmpeqScH (rd : Reg) (rs1 : Reg) (rs2 : Reg)
  /-- `pv.cmpeq.sci.h`, R619. -/
  | pvCmpeqSciH (rd : Reg) (rs1 : Reg) (imm6 : BitVec 6)
  /-- `pv.cmpeq.b`, R619. -/
  | pvCmpeqB (rd : Reg) (rs1 : Reg) (rs2 : Reg)
  /-- `pv.cmpeq.sc.b`, R619. -/
  | pvCmpeqScB (rd : Reg) (rs1 : Reg) (rs2 : Reg)
  /-- `pv.cmpeq.sci.b`, R619. -/
  | pvCmpeqSciB (rd : Reg) (rs1 : Reg) (imm6 : BitVec 6)
  /-- `pv.cmpne.h`, R620. -/
  | pvCmpneH (rd : Reg) (rs1 : Reg) (rs2 : Reg)
  /-- `pv.cmpne.sc.h`, R620. -/
  | pvCmpneScH (rd : Reg) (rs1 : Reg) (rs2 : Reg)
  /-- `pv.cmpne.sci.h`, R620. -/
  | pvCmpneSciH (rd : Reg) (rs1 : Reg) (imm6 : BitVec 6)
  /-- `pv.cmpne.b`, R620. -/
  | pvCmpneB (rd : Reg) (rs1 : Reg) (rs2 : Reg)
  /-- `pv.cmpne.sc.b`, R620. -/
  | pvCmpneScB (rd : Reg) (rs1 : Reg) (rs2 : Reg)
  /-- `pv.cmpne.sci.b`, R620. -/
  | pvCmpneSciB (rd : Reg) (rs1 : Reg) (imm6 : BitVec 6)
  /-- `pv.cmpgt.h`, R621. -/
  | pvCmpgtH (rd : Reg) (rs1 : Reg) (rs2 : Reg)
  /-- `pv.cmpgt.sc.h`, R621. -/
  | pvCmpgtScH (rd : Reg) (rs1 : Reg) (rs2 : Reg)
  /-- `pv.cmpgt.sci.h`, R621. -/
  | pvCmpgtSciH (rd : Reg) (rs1 : Reg) (imm6 : BitVec 6)
  /-- `pv.cmpgt.b`, R621. -/
  | pvCmpgtB (rd : Reg) (rs1 : Reg) (rs2 : Reg)
  /-- `pv.cmpgt.sc.b`, R621. -/
  | pvCmpgtScB (rd : Reg) (rs1 : Reg) (rs2 : Reg)
  /-- `pv.cmpgt.sci.b`, R621. -/
  | pvCmpgtSciB (rd : Reg) (rs1 : Reg) (imm6 : BitVec 6)
  /-- `pv.cmpge.h`, R622. -/
  | pvCmpgeH (rd : Reg) (rs1 : Reg) (rs2 : Reg)
  /-- `pv.cmpge.sc.h`, R622. -/
  | pvCmpgeScH (rd : Reg) (rs1 : Reg) (rs2 : Reg)
  /-- `pv.cmpge.sci.h`, R622. -/
  | pvCmpgeSciH (rd : Reg) (rs1 : Reg) (imm6 : BitVec 6)
  /-- `pv.cmpge.b`, R622. -/
  | pvCmpgeB (rd : Reg) (rs1 : Reg) (rs2 : Reg)
  /-- `pv.cmpge.sc.b`, R622. -/
  | pvCmpgeScB (rd : Reg) (rs1 : Reg) (rs2 : Reg)
  /-- `pv.cmpge.sci.b`, R622. -/
  | pvCmpgeSciB (rd : Reg) (rs1 : Reg) (imm6 : BitVec 6)
  /-- `pv.cmplt.h`, R623. -/
  | pvCmpltH (rd : Reg) (rs1 : Reg) (rs2 : Reg)
  /-- `pv.cmplt.sc.h`, R623. -/
  | pvCmpltScH (rd : Reg) (rs1 : Reg) (rs2 : Reg)
  /-- `pv.cmplt.sci.h`, R623. -/
  | pvCmpltSciH (rd : Reg) (rs1 : Reg) (imm6 : BitVec 6)
  /-- `pv.cmplt.b`, R623. -/
  | pvCmpltB (rd : Reg) (rs1 : Reg) (rs2 : Reg)
  /-- `pv.cmplt.sc.b`, R623. -/
  | pvCmpltScB (rd : Reg) (rs1 : Reg) (rs2 : Reg)
  /-- `pv.cmplt.sci.b`, R623. -/
  | pvCmpltSciB (rd : Reg) (rs1 : Reg) (imm6 : BitVec 6)
  /-- `pv.cmple.h`, R624. -/
  | pvCmpleH (rd : Reg) (rs1 : Reg) (rs2 : Reg)
  /-- `pv.cmple.sc.h`, R624. -/
  | pvCmpleScH (rd : Reg) (rs1 : Reg) (rs2 : Reg)
  /-- `pv.cmple.sci.h`, R624. -/
  | pvCmpleSciH (rd : Reg) (rs1 : Reg) (imm6 : BitVec 6)
  /-- `pv.cmple.b`, R624. -/
  | pvCmpleB (rd : Reg) (rs1 : Reg) (rs2 : Reg)
  /-- `pv.cmple.sc.b`, R624. -/
  | pvCmpleScB (rd : Reg) (rs1 : Reg) (rs2 : Reg)
  /-- `pv.cmple.sci.b`, R624. -/
  | pvCmpleSciB (rd : Reg) (rs1 : Reg) (imm6 : BitVec 6)
  /-- `pv.cmpgtu.h`, R625. -/
  | pvCmpgtuH (rd : Reg) (rs1 : Reg) (rs2 : Reg)
  /-- `pv.cmpgtu.sc.h`, R625. -/
  | pvCmpgtuScH (rd : Reg) (rs1 : Reg) (rs2 : Reg)
  /-- `pv.cmpgtu.sci.h`, R625. -/
  | pvCmpgtuSciH (rd : Reg) (rs1 : Reg) (imm6 : BitVec 6)
  /-- `pv.cmpgtu.b`, R625. -/
  | pvCmpgtuB (rd : Reg) (rs1 : Reg) (rs2 : Reg)
  /-- `pv.cmpgtu.sc.b`, R625. -/
  | pvCmpgtuScB (rd : Reg) (rs1 : Reg) (rs2 : Reg)
  /-- `pv.cmpgtu.sci.b`, R625. -/
  | pvCmpgtuSciB (rd : Reg) (rs1 : Reg) (imm6 : BitVec 6)
  /-- `pv.cmpgeu.h`, R626. -/
  | pvCmpgeuH (rd : Reg) (rs1 : Reg) (rs2 : Reg)
  /-- `pv.cmpgeu.sc.h`, R626. -/
  | pvCmpgeuScH (rd : Reg) (rs1 : Reg) (rs2 : Reg)
  /-- `pv.cmpgeu.sci.h`, R626. -/
  | pvCmpgeuSciH (rd : Reg) (rs1 : Reg) (imm6 : BitVec 6)
  /-- `pv.cmpgeu.b`, R626. -/
  | pvCmpgeuB (rd : Reg) (rs1 : Reg) (rs2 : Reg)
  /-- `pv.cmpgeu.sc.b`, R626. -/
  | pvCmpgeuScB (rd : Reg) (rs1 : Reg) (rs2 : Reg)
  /-- `pv.cmpgeu.sci.b`, R626. -/
  | pvCmpgeuSciB (rd : Reg) (rs1 : Reg) (imm6 : BitVec 6)
  /-- `pv.cmpltu.h`, R627. -/
  | pvCmpltuH (rd : Reg) (rs1 : Reg) (rs2 : Reg)
  /-- `pv.cmpltu.sc.h`, R627. -/
  | pvCmpltuScH (rd : Reg) (rs1 : Reg) (rs2 : Reg)
  /-- `pv.cmpltu.sci.h`, R627. -/
  | pvCmpltuSciH (rd : Reg) (rs1 : Reg) (imm6 : BitVec 6)
  /-- `pv.cmpltu.b`, R627. -/
  | pvCmpltuB (rd : Reg) (rs1 : Reg) (rs2 : Reg)
  /-- `pv.cmpltu.sc.b`, R627. -/
  | pvCmpltuScB (rd : Reg) (rs1 : Reg) (rs2 : Reg)
  /-- `pv.cmpltu.sci.b`, R627. -/
  | pvCmpltuSciB (rd : Reg) (rs1 : Reg) (imm6 : BitVec 6)
  /-- `pv.cmpleu.h`, R628. -/
  | pvCmpleuH (rd : Reg) (rs1 : Reg) (rs2 : Reg)
  /-- `pv.cmpleu.sc.h`, R628. -/
  | pvCmpleuScH (rd : Reg) (rs1 : Reg) (rs2 : Reg)
  /-- `pv.cmpleu.sci.h`, R628. -/
  | pvCmpleuSciH (rd : Reg) (rs1 : Reg) (imm6 : BitVec 6)
  /-- `pv.cmpleu.b`, R628. -/
  | pvCmpleuB (rd : Reg) (rs1 : Reg) (rs2 : Reg)
  /-- `pv.cmpleu.sc.b`, R628. -/
  | pvCmpleuScB (rd : Reg) (rs1 : Reg) (rs2 : Reg)
  /-- `pv.cmpleu.sci.b`, R628. -/
  | pvCmpleuSciB (rd : Reg) (rs1 : Reg) (imm6 : BitVec 6)
deriving DecidableEq, Repr

/-- The reserved classes of words that the spec neither executes nor traps: item n of 30_encoding.md R171, and the
reserved RV32C words of 42_rv32c.md R312 (93_implementation_defined.md U22). -/
inductive ReservedClass where
  /-- R171 item 1: a vectorial register form with inst[25] = 1. -/
  | vectorBit25
  /-- R171 items 2 and 3: a one-operand PULP instruction with inst[24:20] nonzero. -/
  | rs2Nonzero
  /-- R171 item 4: a hardware-loop instruction with a nonzero fixed-zero field. -/
  | hwLoopField
  /-- R171 item 5: a register form (BFR rows, `p.addNr` family) with inst[29:25] nonzero. -/
  | registerFormLs3
  /-- R171 item 6, 49_pulp_vector.md R629: a funct5/F/funct3 combination that names no vectorial instruction. -/
  | vectorUnused
  /-- R171 item 7: an unused funct3/funct7 combination of a custom opcode. -/
  | customUnused
  /-- R171 item 8: `fence` or `fence.i` with a nonzero fixed-zero field. -/
  | fenceField
  /-- 42_rv32c.md R312: `c.addi16sp` or `c.lui` with nzimm = 0, `c.lwsp` with rd = x0, `c.jr` with rs1 = x0. -/
  | compressed
deriving DecidableEq, Repr

/-- Why a word is no instruction. -/
inductive DecodeError where
  /-- It matches no row of the opcode table: the illegal-instruction exception (30_encoding.md R170). -/
  | illegal
  /-- It is in a reserved class: no behaviour is given (30_encoding.md R171, 42_rv32c.md R312). -/
  | reserved (c : ReservedClass)
  /-- Fewer bytes than the instruction has. -/
  | truncated
deriving DecidableEq, Repr

/-- The words of one instruction: 16 or 32 bits (30_encoding.md R141). -/
inductive Code where
  | half (w : BitVec 16)
  | word (w : BitVec 32)
deriving DecidableEq, Repr

end Sys2Proof
end

