-- ==== Sys2Proof/WellFormed.lean ====
section
/-! DEFINITION. Which terms of `Instr` are instructions: those whose operands the encoding of their own row admits
(30_encoding.md R159, 42_rv32c.md R281 to R312). Every other constructor admits every value of its fields. -/

namespace Sys2Proof

/-- The operands are ones that the row of the opcode table names. The excluded ones are illegal, reserved, or the words of
another row: the check says which. -/
def Instr.wf : Instr → Bool
  -- nzuimm = 0 is illegal (42_rv32c.md R281)
  | .cAddi4spn _ nzuimm => nzuimm != 0
  -- rd = x0 is c.nop (R286, R287)
  | .cAddi rd _ => rd != 0
  -- nzimm = 0 is reserved (R290)
  | .cAddi16sp nzimm => nzimm != 0
  -- rd = x2 is c.addi16sp, nzimm = 0 is reserved (R291)
  | .cLui rd nzimm => rd != 2 && nzimm != 0
  -- rd = x0 is reserved (R303)
  | .cLwsp rd _ => rd != 0
  -- rs1 = x0 is reserved (R305)
  | .cJr rs1 => rs1 != 0
  -- rs1 = x0 is c.ebreak (R308)
  | .cJalr rs1 => rs1 != 0
  -- rs2 = x0 is c.jr (R306)
  | .cMv _ rs2 => rs2 != 0
  -- rs2 = x0 is c.jalr or c.ebreak (R309)
  | .cAdd _ rs2 => rs2 != 0
  -- ls3 = 0 is the plain multiplication (30_encoding.md R159)
  | .pMulsN _ _ _ ls3 => ls3 != 0
  | .pMulhhsN _ _ _ ls3 => ls3 != 0
  | .pMuluN _ _ _ ls3 => ls3 != 0
  | .pMulhhuN _ _ _ ls3 => ls3 != 0
  | _ => true

end Sys2Proof
end

