-- ==== Sys2Proof/Decode.lean ====
section
/-! DEFINITION. Decoding (30_encoding.md): from the bytes or the words of an instruction to the instruction, total, a
refusal by name for what is none; and the encoder, from the same tables. A 32-bit word is seen as the six fields of the
R format; every other format is a way to read the same six fields (30_encoding.md R142, R145).

`noncomputable` marks the functions that build an instruction beyond the 244th constructor: Lean's compiled code has no
room for such a constructor. They are plain definitions all the same, and Lean's kernel evaluates them. -/

namespace Sys2Proof

/-- inst[6:0]. -/
def fOp (w : BitVec 32) : BitVec 7 := w.extractLsb' 0 7
/-- inst[11:7]. -/
def fRd (w : BitVec 32) : BitVec 5 := w.extractLsb' 7 5
/-- inst[14:12]. -/
def fF3 (w : BitVec 32) : BitVec 3 := w.extractLsb' 12 3
/-- inst[19:15]. -/
def fRs1 (w : BitVec 32) : BitVec 5 := w.extractLsb' 15 5
/-- inst[24:20]. -/
def fRs2 (w : BitVec 32) : BitVec 5 := w.extractLsb' 20 5
/-- inst[31:25]. -/
def fF7 (w : BitVec 32) : BitVec 7 := w.extractLsb' 25 7

/-! Immediates as fields, from inst[31:25] and the 5-bit field that holds the rest (30_encoding.md R143, R145, R147). -/

/-- inst[31:20] of format I. -/
def immI (f7 : BitVec 7) (rs2 : BitVec 5) : BitVec 12 := f7 ++ rs2
/-- The 12 bits of format S. -/
def immS (f7 : BitVec 7) (rd : BitVec 5) : BitVec 12 := f7 ++ rd
/-- imm[12:1] of format B, from `imm[12] imm[10:5]` and `imm[4:1] imm[11]`. -/
def immB (f7 : BitVec 7) (rd : BitVec 5) : BitVec 12 :=
  f7.extractLsb' 6 1 ++ rd.extractLsb' 0 1 ++ f7.extractLsb' 0 6 ++ rd.extractLsb' 1 4
/-- imm[31:12] of format U. -/
def immU (f7 : BitVec 7) (rs2 rs1 : BitVec 5) (f3 : BitVec 3) : BitVec 20 := f7 ++ rs2 ++ rs1 ++ f3
/-- imm[20:1] of format J, from `imm[20] imm[10:1] imm[11] imm[19:12]`. -/
def immJ (f7 : BitVec 7) (rs2 rs1 : BitVec 5) (f3 : BitVec 3) : BitVec 20 :=
  f7.extractLsb' 6 1 ++ rs1 ++ f3 ++ rs2.extractLsb' 0 1 ++ f7.extractLsb' 0 6 ++ rs2.extractLsb' 1 4
/-- Imm6 = inst[24:20], inst[25] of format PVI. -/
def imm6 (f7 : BitVec 7) (rs2 : BitVec 5) : BitVec 6 := rs2 ++ f7.extractLsb' 0 1

/-- The instruction, when the fields that must be zero are. -/
def whenZero (zero : Bool) (c : ReservedClass) (i : Instr) : Except DecodeError Instr :=
  if zero then .ok i else .error (.reserved c)

/-- The instruction of a table, or the reserved class of a word the table does not name. -/
def orReserved (c : ReservedClass) : Option Instr → Except DecodeError Instr
  | some i => .ok i
  | none => .error (.reserved c)

/-- The instruction of a table of a standard opcode, or illegal. -/
def orIllegal : Option Instr → Except DecodeError Instr
  | some i => .ok i
  | none => .error .illegal

/-- Opcode 0000011: loads, and at funct3 111 the register-offset loads (30_encoding.md R151, R158). -/
def decodeLoad (f7 : BitVec 7) (rs2 rs1 : Reg) (f3 : BitVec 3) (rd : Reg) : Option Instr :=
  match f3 with
  | 0#3 => some (.lb rd rs1 (immI f7 rs2))
  | 1#3 => some (.lh rd rs1 (immI f7 rs2))
  | 2#3 => some (.lw rd rs1 (immI f7 rs2))
  | 4#3 => some (.lbu rd rs1 (immI f7 rs2))
  | 5#3 => some (.lhu rd rs1 (immI f7 rs2))
  | 7#3 =>
    match f7 with
    | 0x00#7 => some (.pLbOff rd rs1 rs2)
    | 0x20#7 => some (.pLbuOff rd rs1 rs2)
    | 0x08#7 => some (.pLhOff rd rs1 rs2)
    | 0x28#7 => some (.pLhuOff rd rs1 rs2)
    | 0x10#7 => some (.pLwOff rd rs1 rs2)
    | _ => none
  | _ => none

/-- Opcode 0001011: post-increment loads (30_encoding.md R158). -/
def decodePostLoad (f7 : BitVec 7) (rs2 rs1 : Reg) (f3 : BitVec 3) (rd : Reg) : Option Instr :=
  match f3 with
  | 0#3 => some (.pLbPostImm rd rs1 (immI f7 rs2))
  | 1#3 => some (.pLhPostImm rd rs1 (immI f7 rs2))
  | 2#3 => some (.pLwPostImm rd rs1 (immI f7 rs2))
  | 4#3 => some (.pLbuPostImm rd rs1 (immI f7 rs2))
  | 5#3 => some (.pLhuPostImm rd rs1 (immI f7 rs2))
  | 7#3 =>
    match f7 with
    | 0x00#7 => some (.pLbPostReg rd rs1 rs2)
    | 0x20#7 => some (.pLbuPostReg rd rs1 rs2)
    | 0x08#7 => some (.pLhPostReg rd rs1 rs2)
    | 0x28#7 => some (.pLhuPostReg rd rs1 rs2)
    | 0x10#7 => some (.pLwPostReg rd rs1 rs2)
    | _ => none
  | _ => none

/-- Opcode 0100011: stores, and at funct3 100 to 110 the register-offset stores (30_encoding.md R151, R158). -/
def decodeStore (f7 : BitVec 7) (rs2 rs1 : Reg) (f3 : BitVec 3) (rd : Reg) : Option Instr :=
  match f3 with
  | 0#3 => some (.sb rs2 rs1 (immS f7 rd))
  | 1#3 => some (.sh rs2 rs1 (immS f7 rd))
  | 2#3 => some (.sw rs2 rs1 (immS f7 rd))
  | 4#3 => if f7 = 0 then some (.pSbOff rs2 rd rs1) else none
  | 5#3 => if f7 = 0 then some (.pShOff rs2 rd rs1) else none
  | 6#3 => if f7 = 0 then some (.pSwOff rs2 rd rs1) else none
  | _ => none

/-- Opcode 0101011: post-increment stores (30_encoding.md R158). -/
def decodePostStore (f7 : BitVec 7) (rs2 rs1 : Reg) (f3 : BitVec 3) (rd : Reg) : Option Instr :=
  match f3 with
  | 0#3 => some (.pSbPostImm rs2 rs1 (immS f7 rd))
  | 1#3 => some (.pShPostImm rs2 rs1 (immS f7 rd))
  | 2#3 => some (.pSwPostImm rs2 rs1 (immS f7 rd))
  | 4#3 => if f7 = 0 then some (.pSbPostReg rs2 rd rs1) else none
  | 5#3 => if f7 = 0 then some (.pShPostReg rs2 rd rs1) else none
  | 6#3 => if f7 = 0 then some (.pSwPostReg rs2 rd rs1) else none
  | _ => none

/-- Opcode 0001111 (40_rv32i_base.md R240, R241; 30_encoding.md R171 item 8). -/
def decodeFence (f7 : BitVec 7) (rs2 rs1 : Reg) (f3 : BitVec 3) (rd : Reg) : Except DecodeError Instr :=
  match f3 with
  | 0#3 => whenZero (f7.extractLsb' 3 4 == 0 && rs1 == 0 && rd == 0) .fenceField
      (.fence ((immI f7 rs2).extractLsb' 4 4) ((immI f7 rs2).extractLsb' 0 4))
  | 1#3 => whenZero (f7 == 0 && rs2 == 0 && rs1 == 0 && rd == 0) .fenceField .fenceI
  | _ => .error .illegal

/-- Opcode 0010011 (40_rv32i_base.md R219 to R227). -/
def decodeOpImm (f7 : BitVec 7) (rs2 rs1 : Reg) (f3 : BitVec 3) (rd : Reg) : Option Instr :=
  match f3 with
  | 0#3 => some (.addi rd rs1 (immI f7 rs2))
  | 2#3 => some (.slti rd rs1 (immI f7 rs2))
  | 3#3 => some (.sltiu rd rs1 (immI f7 rs2))
  | 4#3 => some (.xori rd rs1 (immI f7 rs2))
  | 6#3 => some (.ori rd rs1 (immI f7 rs2))
  | 7#3 => some (.andi rd rs1 (immI f7 rs2))
  | 1#3 => if f7 = 0 then some (.slli rd rs1 rs2) else none
  | 5#3 => if f7 = 0 then some (.srli rd rs1 rs2) else if f7 = 0x20#7 then some (.srai rd rs1 rs2) else none
  | _ => none

/-- Opcode 0110011 with funct7 0000000 (30_encoding.md R153). -/
def decodeOp00 (rs2 rs1 : Reg) (f3 : BitVec 3) (rd : Reg) : Option Instr :=
  match f3 with
  | 0#3 => some (.add rd rs1 rs2)
  | 1#3 => some (.sll rd rs1 rs2)
  | 2#3 => some (.slt rd rs1 rs2)
  | 3#3 => some (.sltu rd rs1 rs2)
  | 4#3 => some (.xor rd rs1 rs2)
  | 5#3 => some (.srl rd rs1 rs2)
  | 6#3 => some (.or rd rs1 rs2)
  | 7#3 => some (.and rd rs1 rs2)
  | _ => none

/-- Opcode 0110011 with funct7 0000001 (43_rv32m.md). -/
def decodeOp01 (rs2 rs1 : Reg) (f3 : BitVec 3) (rd : Reg) : Option Instr :=
  match f3 with
  | 0#3 => some (.mul rd rs1 rs2)
  | 1#3 => some (.mulh rd rs1 rs2)
  | 2#3 => some (.mulhsu rd rs1 rs2)
  | 3#3 => some (.mulhu rd rs1 rs2)
  | 4#3 => some (.div rd rs1 rs2)
  | 5#3 => some (.divu rd rs1 rs2)
  | 6#3 => some (.rem rd rs1 rs2)
  | 7#3 => some (.remu rd rs1 rs2)
  | _ => none

/-- Opcode 0110011 with funct7 0000010 (30_encoding.md R153; p.abs: R171 item 3). -/
def decodeOp02 (rs2 rs1 : Reg) (f3 : BitVec 3) (rd : Reg) : Except DecodeError Instr :=
  match f3 with
  | 0#3 => whenZero (rs2 == 0) .rs2Nonzero (.pAbs rd rs1)
  | 2#3 => .ok (.pSlet rd rs1 rs2)
  | 3#3 => .ok (.pSletu rd rs1 rs2)
  | 4#3 => .ok (.pMin rd rs1 rs2)
  | 5#3 => .ok (.pMinu rd rs1 rs2)
  | 6#3 => .ok (.pMax rd rs1 rs2)
  | 7#3 => .ok (.pMaxu rd rs1 rs2)
  | _ => .error .illegal

/-- Opcode 0110011 with funct7 0001000: one operand, inst[24:20] = 0 (30_encoding.md R153, R171 item 3). -/
def decodeOp08 (rs1 : Reg) (f3 : BitVec 3) (rd : Reg) : Option Instr :=
  match f3 with
  | 0#3 => some (.pFf1 rd rs1)
  | 1#3 => some (.pFl1 rd rs1)
  | 2#3 => some (.pClb rd rs1)
  | 3#3 => some (.pCnt rd rs1)
  | 4#3 => some (.pExths rd rs1)
  | 5#3 => some (.pExthz rd rs1)
  | 6#3 => some (.pExtbs rd rs1)
  | 7#3 => some (.pExtbz rd rs1)
  | _ => none

/-- Opcode 0110011 with funct7 0001010 (30_encoding.md R153, R156). -/
def decodeOp0A (rs2 rs1 : Reg) (f3 : BitVec 3) (rd : Reg) : Option Instr :=
  match f3 with
  | 1#3 => some (.pClip rd rs1 rs2)
  | 2#3 => some (.pClipu rd rs1 rs2)
  | 5#3 => some (.pClipr rd rs1 rs2)
  | 6#3 => some (.pClipur rd rs1 rs2)
  | _ => none

/-- Opcode 0110011 with f2 = 11: bit fields with immediates (30_encoding.md R153). -/
def decodeBF (ls3 ls2 : BitVec 5) (rs1 : Reg) (f3 : BitVec 3) (rd : Reg) : Option Instr :=
  match f3 with
  | 0#3 => some (.pExtract rd rs1 ls3 ls2)
  | 1#3 => some (.pExtractu rd rs1 ls3 ls2)
  | 2#3 => some (.pInsert rd rs1 ls3 ls2)
  | 3#3 => some (.pBclr rd rs1 ls3 ls2)
  | 4#3 => some (.pBset rd rs1 ls3 ls2)
  | _ => none

/-- Opcode 0110011 with f2 = 10: bit fields from a register, inst[29:25] = 0 (30_encoding.md R153, R171 item 5). -/
def decodeBFR (ls3 : BitVec 5) (rs2 rs1 : Reg) (f3 : BitVec 3) (rd : Reg) : Except DecodeError Instr :=
  match f3 with
  | 0#3 => whenZero (ls3 == 0) .registerFormLs3 (.pExtractr rd rs1 rs2)
  | 1#3 => whenZero (ls3 == 0) .registerFormLs3 (.pExtractur rd rs1 rs2)
  | 2#3 => whenZero (ls3 == 0) .registerFormLs3 (.pInsertr rd rs1 rs2)
  | 3#3 => whenZero (ls3 == 0) .registerFormLs3 (.pBclrr rd rs1 rs2)
  | 4#3 => whenZero (ls3 == 0) .registerFormLs3 (.pBsetr rd rs1 rs2)
  | _ => .error .illegal

/-- Opcode 0110011 with inst[31] = 0 (30_encoding.md R153). -/
def decodeOpLow (f7 : BitVec 7) (rs2 rs1 : Reg) (f3 : BitVec 3) (rd : Reg) : Except DecodeError Instr :=
  match f7 with
  | 0x00#7 => orIllegal (decodeOp00 rs2 rs1 f3 rd)
  | 0x20#7 =>
    match f3 with
    | 0#3 => .ok (.sub rd rs1 rs2)
    | 5#3 => .ok (.sra rd rs1 rs2)
    | _ => .error .illegal
  | 0x01#7 => orIllegal (decodeOp01 rs2 rs1 f3 rd)
  | 0x21#7 =>
    match f3 with
    | 0#3 => .ok (.pMac rd rs1 rs2)
    | 1#3 => .ok (.pMsu rd rs1 rs2)
    | _ => .error .illegal
  | 0x02#7 => decodeOp02 rs2 rs1 f3 rd
  | 0x04#7 => if f3 = 5#3 then .ok (.pRor rd rs1 rs2) else .error .illegal
  | 0x08#7 => if rs2 = 0 then orIllegal (decodeOp08 rs1 f3 rd) else .error (.reserved .rs2Nonzero)
  | 0x0A#7 => orIllegal (decodeOp0A rs2 rs1 f3 rd)
  | _ => .error .illegal

/-- Opcode 0110011 (30_encoding.md R153). -/
def decodeOp (f7 : BitVec 7) (rs2 rs1 : Reg) (f3 : BitVec 3) (rd : Reg) : Except DecodeError Instr :=
  match f7.extractLsb' 5 2 with
  | 3#2 => orIllegal (decodeBF (f7.extractLsb' 0 5) rs2 rs1 f3 rd)
  | 2#2 => decodeBFR (f7.extractLsb' 0 5) rs2 rs1 f3 rd
  | _ => decodeOpLow f7 rs2 rs1 f3 rd

/-- Opcode 1010011, RV32F computational (44_rv32f.md). -/
def decodeOpFp (f7 : BitVec 7) (rs2 rs1 : Reg) (f3 : BitVec 3) (rd : Reg) : Option Instr :=
  match f7 with
  | 0x00#7 => some (.faddS rd rs1 rs2 f3)
  | 0x04#7 => some (.fsubS rd rs1 rs2 f3)
  | 0x08#7 => some (.fmulS rd rs1 rs2 f3)
  | 0x0C#7 => some (.fdivS rd rs1 rs2 f3)
  | 0x2C#7 => if rs2 = 0 then some (.fsqrtS rd rs1 f3) else none
  | 0x10#7 =>
    match f3 with
    | 0#3 => some (.fsgnjS rd rs1 rs2)
    | 1#3 => some (.fsgnjnS rd rs1 rs2)
    | 2#3 => some (.fsgnjxS rd rs1 rs2)
    | _ => none
  | 0x14#7 =>
    match f3 with
    | 0#3 => some (.fminS rd rs1 rs2)
    | 1#3 => some (.fmaxS rd rs1 rs2)
    | _ => none
  | 0x60#7 => if rs2 = 0 then some (.fcvtWS rd rs1 f3) else if rs2 = 1 then some (.fcvtWuS rd rs1 f3) else none
  | 0x70#7 =>
    if rs2 = 0 then
      match f3 with
      | 0#3 => some (.fmvXW rd rs1)
      | 1#3 => some (.fclassS rd rs1)
      | _ => none
    else none
  | 0x50#7 =>
    match f3 with
    | 2#3 => some (.feqS rd rs1 rs2)
    | 1#3 => some (.fltS rd rs1 rs2)
    | 0#3 => some (.fleS rd rs1 rs2)
    | _ => none
  | 0x68#7 => if rs2 = 0 then some (.fcvtSW rd rs1 f3) else if rs2 = 1 then some (.fcvtSWu rd rs1 f3) else none
  | 0x78#7 => if rs2 = 0 && f3 = 0 then some (.fmvWX rd rs1) else none
  | _ => none

/-- Opcodes 1000011 to 1001111, format R4 with fmt = 00 (30_encoding.md R144). -/
def decodeFma (op : BitVec 7) (f7 : BitVec 7) (rs2 rs1 : Reg) (rm : BitVec 3) (rd : Reg) : Option Instr :=
  if f7.extractLsb' 0 2 = 0 then
    match op with
    | 0x43#7 => some (.fmaddS rd rs1 rs2 (f7.extractLsb' 2 5) rm)
    | 0x47#7 => some (.fmsubS rd rs1 rs2 (f7.extractLsb' 2 5) rm)
    | 0x4B#7 => some (.fnmsubS rd rs1 rs2 (f7.extractLsb' 2 5) rm)
    | 0x4F#7 => some (.fnmaddS rd rs1 rs2 (f7.extractLsb' 2 5) rm)
    | _ => none
  else none

/-- The .h column of the table of 30_encoding.md R155, by funct5, F, but for pv.abs. -/
noncomputable def decodePvH (f6 : BitVec 6) (rs2 rs1 rd : Reg) : Option Instr :=
  match f6 with
  | 0x00#6 => some (.pvAddH rd rs1 rs2)
  | 0x01#6 => some (.pvCmpeqH rd rs1 rs2)
  | 0x02#6 => some (.pvSubH rd rs1 rs2)
  | 0x03#6 => some (.pvCmpneH rd rs1 rs2)
  | 0x04#6 => some (.pvAvgH rd rs1 rs2)
  | 0x05#6 => some (.pvCmpgtH rd rs1 rs2)
  | 0x06#6 => some (.pvAvguH rd rs1 rs2)
  | 0x07#6 => some (.pvCmpgeH rd rs1 rs2)
  | 0x08#6 => some (.pvMinH rd rs1 rs2)
  | 0x09#6 => some (.pvCmpltH rd rs1 rs2)
  | 0x0A#6 => some (.pvMinuH rd rs1 rs2)
  | 0x0B#6 => some (.pvCmpleH rd rs1 rs2)
  | 0x0C#6 => some (.pvMaxH rd rs1 rs2)
  | 0x0D#6 => some (.pvCmpgtuH rd rs1 rs2)
  | 0x0E#6 => some (.pvMaxuH rd rs1 rs2)
  | 0x0F#6 => some (.pvCmpgeuH rd rs1 rs2)
  | 0x10#6 => some (.pvSrlH rd rs1 rs2)
  | 0x11#6 => some (.pvCmpltuH rd rs1 rs2)
  | 0x12#6 => some (.pvSraH rd rs1 rs2)
  | 0x13#6 => some (.pvCmpleuH rd rs1 rs2)
  | 0x14#6 => some (.pvSllH rd rs1 rs2)
  | 0x16#6 => some (.pvOrH rd rs1 rs2)
  | 0x18#6 => some (.pvXorH rd rs1 rs2)
  | 0x1A#6 => some (.pvAndH rd rs1 rs2)
  | 0x20#6 => some (.pvDotupH rd rs1 rs2)
  | 0x22#6 => some (.pvDotuspH rd rs1 rs2)
  | 0x26#6 => some (.pvDotspH rd rs1 rs2)
  | 0x28#6 => some (.pvSdotupH rd rs1 rs2)
  | 0x2A#6 => some (.pvSdotuspH rd rs1 rs2)
  | 0x2E#6 => some (.pvSdotspH rd rs1 rs2)
  | 0x30#6 => some (.pvShuffleH rd rs1 rs2)
  | 0x32#6 => some (.pvShuffle2H rd rs1 rs2)
  | 0x34#6 => some (.pvPackH rd rs1 rs2)
  | _ => none

/-- The .b column of the table of 30_encoding.md R155, by funct5, F, but for pv.abs. -/
noncomputable def decodePvB (f6 : BitVec 6) (rs2 rs1 rd : Reg) : Option Instr :=
  match f6 with
  | 0x00#6 => some (.pvAddB rd rs1 rs2)
  | 0x01#6 => some (.pvCmpeqB rd rs1 rs2)
  | 0x02#6 => some (.pvSubB rd rs1 rs2)
  | 0x03#6 => some (.pvCmpneB rd rs1 rs2)
  | 0x04#6 => some (.pvAvgB rd rs1 rs2)
  | 0x05#6 => some (.pvCmpgtB rd rs1 rs2)
  | 0x06#6 => some (.pvAvguB rd rs1 rs2)
  | 0x07#6 => some (.pvCmpgeB rd rs1 rs2)
  | 0x08#6 => some (.pvMinB rd rs1 rs2)
  | 0x09#6 => some (.pvCmpltB rd rs1 rs2)
  | 0x0A#6 => some (.pvMinuB rd rs1 rs2)
  | 0x0B#6 => some (.pvCmpleB rd rs1 rs2)
  | 0x0C#6 => some (.pvMaxB rd rs1 rs2)
  | 0x0D#6 => some (.pvCmpgtuB rd rs1 rs2)
  | 0x0E#6 => some (.pvMaxuB rd rs1 rs2)
  | 0x0F#6 => some (.pvCmpgeuB rd rs1 rs2)
  | 0x10#6 => some (.pvSrlB rd rs1 rs2)
  | 0x11#6 => some (.pvCmpltuB rd rs1 rs2)
  | 0x12#6 => some (.pvSraB rd rs1 rs2)
  | 0x13#6 => some (.pvCmpleuB rd rs1 rs2)
  | 0x14#6 => some (.pvSllB rd rs1 rs2)
  | 0x16#6 => some (.pvOrB rd rs1 rs2)
  | 0x18#6 => some (.pvXorB rd rs1 rs2)
  | 0x1A#6 => some (.pvAndB rd rs1 rs2)
  | 0x20#6 => some (.pvDotupB rd rs1 rs2)
  | 0x22#6 => some (.pvDotuspB rd rs1 rs2)
  | 0x26#6 => some (.pvDotspB rd rs1 rs2)
  | 0x28#6 => some (.pvSdotupB rd rs1 rs2)
  | 0x2A#6 => some (.pvSdotuspB rd rs1 rs2)
  | 0x2E#6 => some (.pvSdotspB rd rs1 rs2)
  | 0x30#6 => some (.pvShuffleB rd rs1 rs2)
  | 0x32#6 => some (.pvShuffle2B rd rs1 rs2)
  | 0x36#6 => some (.pvPackhiB rd rs1 rs2)
  | 0x38#6 => some (.pvPackloB rd rs1 rs2)
  | _ => none

/-- The .sc.h column of the table of 30_encoding.md R155, by funct5, F. -/
noncomputable def decodePvScH (f6 : BitVec 6) (rs2 rs1 rd : Reg) : Option Instr :=
  match f6 with
  | 0x00#6 => some (.pvAddScH rd rs1 rs2)
  | 0x01#6 => some (.pvCmpeqScH rd rs1 rs2)
  | 0x02#6 => some (.pvSubScH rd rs1 rs2)
  | 0x03#6 => some (.pvCmpneScH rd rs1 rs2)
  | 0x04#6 => some (.pvAvgScH rd rs1 rs2)
  | 0x05#6 => some (.pvCmpgtScH rd rs1 rs2)
  | 0x06#6 => some (.pvAvguScH rd rs1 rs2)
  | 0x07#6 => some (.pvCmpgeScH rd rs1 rs2)
  | 0x08#6 => some (.pvMinScH rd rs1 rs2)
  | 0x09#6 => some (.pvCmpltScH rd rs1 rs2)
  | 0x0A#6 => some (.pvMinuScH rd rs1 rs2)
  | 0x0B#6 => some (.pvCmpleScH rd rs1 rs2)
  | 0x0C#6 => some (.pvMaxScH rd rs1 rs2)
  | 0x0D#6 => some (.pvCmpgtuScH rd rs1 rs2)
  | 0x0E#6 => some (.pvMaxuScH rd rs1 rs2)
  | 0x0F#6 => some (.pvCmpgeuScH rd rs1 rs2)
  | 0x10#6 => some (.pvSrlScH rd rs1 rs2)
  | 0x11#6 => some (.pvCmpltuScH rd rs1 rs2)
  | 0x12#6 => some (.pvSraScH rd rs1 rs2)
  | 0x13#6 => some (.pvCmpleuScH rd rs1 rs2)
  | 0x14#6 => some (.pvSllScH rd rs1 rs2)
  | 0x16#6 => some (.pvOrScH rd rs1 rs2)
  | 0x18#6 => some (.pvXorScH rd rs1 rs2)
  | 0x1A#6 => some (.pvAndScH rd rs1 rs2)
  | 0x20#6 => some (.pvDotupScH rd rs1 rs2)
  | 0x22#6 => some (.pvDotuspScH rd rs1 rs2)
  | 0x26#6 => some (.pvDotspScH rd rs1 rs2)
  | 0x28#6 => some (.pvSdotupScH rd rs1 rs2)
  | 0x2A#6 => some (.pvSdotuspScH rd rs1 rs2)
  | 0x2E#6 => some (.pvSdotspScH rd rs1 rs2)
  | _ => none

/-- The .sc.b column of the table of 30_encoding.md R155, by funct5, F. -/
noncomputable def decodePvScB (f6 : BitVec 6) (rs2 rs1 rd : Reg) : Option Instr :=
  match f6 with
  | 0x00#6 => some (.pvAddScB rd rs1 rs2)
  | 0x01#6 => some (.pvCmpeqScB rd rs1 rs2)
  | 0x02#6 => some (.pvSubScB rd rs1 rs2)
  | 0x03#6 => some (.pvCmpneScB rd rs1 rs2)
  | 0x04#6 => some (.pvAvgScB rd rs1 rs2)
  | 0x05#6 => some (.pvCmpgtScB rd rs1 rs2)
  | 0x06#6 => some (.pvAvguScB rd rs1 rs2)
  | 0x07#6 => some (.pvCmpgeScB rd rs1 rs2)
  | 0x08#6 => some (.pvMinScB rd rs1 rs2)
  | 0x09#6 => some (.pvCmpltScB rd rs1 rs2)
  | 0x0A#6 => some (.pvMinuScB rd rs1 rs2)
  | 0x0B#6 => some (.pvCmpleScB rd rs1 rs2)
  | 0x0C#6 => some (.pvMaxScB rd rs1 rs2)
  | 0x0D#6 => some (.pvCmpgtuScB rd rs1 rs2)
  | 0x0E#6 => some (.pvMaxuScB rd rs1 rs2)
  | 0x0F#6 => some (.pvCmpgeuScB rd rs1 rs2)
  | 0x10#6 => some (.pvSrlScB rd rs1 rs2)
  | 0x11#6 => some (.pvCmpltuScB rd rs1 rs2)
  | 0x12#6 => some (.pvSraScB rd rs1 rs2)
  | 0x13#6 => some (.pvCmpleuScB rd rs1 rs2)
  | 0x14#6 => some (.pvSllScB rd rs1 rs2)
  | 0x16#6 => some (.pvOrScB rd rs1 rs2)
  | 0x18#6 => some (.pvXorScB rd rs1 rs2)
  | 0x1A#6 => some (.pvAndScB rd rs1 rs2)
  | 0x20#6 => some (.pvDotupScB rd rs1 rs2)
  | 0x22#6 => some (.pvDotuspScB rd rs1 rs2)
  | 0x26#6 => some (.pvDotspScB rd rs1 rs2)
  | 0x28#6 => some (.pvSdotupScB rd rs1 rs2)
  | 0x2A#6 => some (.pvSdotuspScB rd rs1 rs2)
  | 0x2E#6 => some (.pvSdotspScB rd rs1 rs2)
  | _ => none

/-- The .sci.h column of the table of 30_encoding.md R155, by funct5, F. -/
noncomputable def decodePvSciH (f6 : BitVec 6) (imm6 : BitVec 6) (rs1 rd : Reg) : Option Instr :=
  match f6 with
  | 0x00#6 => some (.pvAddSciH rd rs1 imm6)
  | 0x01#6 => some (.pvCmpeqSciH rd rs1 imm6)
  | 0x02#6 => some (.pvSubSciH rd rs1 imm6)
  | 0x03#6 => some (.pvCmpneSciH rd rs1 imm6)
  | 0x04#6 => some (.pvAvgSciH rd rs1 imm6)
  | 0x05#6 => some (.pvCmpgtSciH rd rs1 imm6)
  | 0x06#6 => some (.pvAvguSciH rd rs1 imm6)
  | 0x07#6 => some (.pvCmpgeSciH rd rs1 imm6)
  | 0x08#6 => some (.pvMinSciH rd rs1 imm6)
  | 0x09#6 => some (.pvCmpltSciH rd rs1 imm6)
  | 0x0A#6 => some (.pvMinuSciH rd rs1 imm6)
  | 0x0B#6 => some (.pvCmpleSciH rd rs1 imm6)
  | 0x0C#6 => some (.pvMaxSciH rd rs1 imm6)
  | 0x0D#6 => some (.pvCmpgtuSciH rd rs1 imm6)
  | 0x0E#6 => some (.pvMaxuSciH rd rs1 imm6)
  | 0x0F#6 => some (.pvCmpgeuSciH rd rs1 imm6)
  | 0x10#6 => some (.pvSrlSciH rd rs1 imm6)
  | 0x11#6 => some (.pvCmpltuSciH rd rs1 imm6)
  | 0x12#6 => some (.pvSraSciH rd rs1 imm6)
  | 0x13#6 => some (.pvCmpleuSciH rd rs1 imm6)
  | 0x14#6 => some (.pvSllSciH rd rs1 imm6)
  | 0x16#6 => some (.pvOrSciH rd rs1 imm6)
  | 0x18#6 => some (.pvXorSciH rd rs1 imm6)
  | 0x1A#6 => some (.pvAndSciH rd rs1 imm6)
  | 0x1E#6 => some (.pvExtractH rd rs1 imm6)
  | 0x20#6 => some (.pvDotupSciH rd rs1 imm6)
  | 0x22#6 => some (.pvDotuspSciH rd rs1 imm6)
  | 0x24#6 => some (.pvExtractuH rd rs1 imm6)
  | 0x26#6 => some (.pvDotspSciH rd rs1 imm6)
  | 0x28#6 => some (.pvSdotupSciH rd rs1 imm6)
  | 0x2A#6 => some (.pvSdotuspSciH rd rs1 imm6)
  | 0x2C#6 => some (.pvInsertH rd rs1 imm6)
  | 0x2E#6 => some (.pvSdotspSciH rd rs1 imm6)
  | 0x30#6 => some (.pvShuffleSciH rd rs1 imm6)
  | _ => none

/-- The .sci.b column of the table of 30_encoding.md R155, by funct5, F. -/
noncomputable def decodePvSciB (f6 : BitVec 6) (imm6 : BitVec 6) (rs1 rd : Reg) : Option Instr :=
  match f6 with
  | 0x00#6 => some (.pvAddSciB rd rs1 imm6)
  | 0x01#6 => some (.pvCmpeqSciB rd rs1 imm6)
  | 0x02#6 => some (.pvSubSciB rd rs1 imm6)
  | 0x03#6 => some (.pvCmpneSciB rd rs1 imm6)
  | 0x04#6 => some (.pvAvgSciB rd rs1 imm6)
  | 0x05#6 => some (.pvCmpgtSciB rd rs1 imm6)
  | 0x06#6 => some (.pvAvguSciB rd rs1 imm6)
  | 0x07#6 => some (.pvCmpgeSciB rd rs1 imm6)
  | 0x08#6 => some (.pvMinSciB rd rs1 imm6)
  | 0x09#6 => some (.pvCmpltSciB rd rs1 imm6)
  | 0x0A#6 => some (.pvMinuSciB rd rs1 imm6)
  | 0x0B#6 => some (.pvCmpleSciB rd rs1 imm6)
  | 0x0C#6 => some (.pvMaxSciB rd rs1 imm6)
  | 0x0D#6 => some (.pvCmpgtuSciB rd rs1 imm6)
  | 0x0E#6 => some (.pvMaxuSciB rd rs1 imm6)
  | 0x0F#6 => some (.pvCmpgeuSciB rd rs1 imm6)
  | 0x10#6 => some (.pvSrlSciB rd rs1 imm6)
  | 0x11#6 => some (.pvCmpltuSciB rd rs1 imm6)
  | 0x12#6 => some (.pvSraSciB rd rs1 imm6)
  | 0x13#6 => some (.pvCmpleuSciB rd rs1 imm6)
  | 0x14#6 => some (.pvSllSciB rd rs1 imm6)
  | 0x16#6 => some (.pvOrSciB rd rs1 imm6)
  | 0x18#6 => some (.pvXorSciB rd rs1 imm6)
  | 0x1A#6 => some (.pvAndSciB rd rs1 imm6)
  | 0x1E#6 => some (.pvExtractB rd rs1 imm6)
  | 0x20#6 => some (.pvDotupSciB rd rs1 imm6)
  | 0x22#6 => some (.pvDotuspSciB rd rs1 imm6)
  | 0x24#6 => some (.pvExtractuB rd rs1 imm6)
  | 0x26#6 => some (.pvDotspSciB rd rs1 imm6)
  | 0x28#6 => some (.pvSdotupSciB rd rs1 imm6)
  | 0x2A#6 => some (.pvSdotuspSciB rd rs1 imm6)
  | 0x2C#6 => some (.pvInsertB rd rs1 imm6)
  | 0x2E#6 => some (.pvSdotspSciB rd rs1 imm6)
  | 0x30#6 => some (.pvShuffleI0SciB rd rs1 imm6)
  | 0x3A#6 => some (.pvShuffleI1SciB rd rs1 imm6)
  | 0x3C#6 => some (.pvShuffleI2SciB rd rs1 imm6)
  | 0x3E#6 => some (.pvShuffleI3SciB rd rs1 imm6)
  | _ => none

/-- Opcode 1010111: the vectorial instructions (30_encoding.md R155, R171 items 1, 2, 6). -/
noncomputable def decodePV (f7 : BitVec 7) (rs2 rs1 : Reg) (f3 : BitVec 3) (rd : Reg) : Except DecodeError Instr :=
  let f6 := f7.extractLsb' 1 6
  let reg (t : Option Instr) : Except DecodeError Instr :=
    if f7.extractLsb' 0 1 = 0 then orReserved .vectorUnused t else .error (.reserved .vectorBit25)
  match f3 with
  | 0#3 => reg (if f6 = 0x1C#6 then (if rs2 = 0 then some (.pvAbsH rd rs1) else none) else decodePvH f6 rs2 rs1 rd)
  | 1#3 => reg (if f6 = 0x1C#6 then (if rs2 = 0 then some (.pvAbsB rd rs1) else none) else decodePvB f6 rs2 rs1 rd)
  | 4#3 => reg (decodePvScH f6 rs2 rs1 rd)
  | 5#3 => reg (decodePvScB f6 rs2 rs1 rd)
  | 6#3 => orReserved .vectorUnused (decodePvSciH f6 (imm6 f7 rs2) rs1 rd)
  | 7#3 => orReserved .vectorUnused (decodePvSciB f6 (imm6 f7 rs2) rs1 rd)
  | _ => .error (.reserved .vectorUnused)

/-- Opcode 1011011: funct3 and f2 select, ls3 = inst[29:25] (30_encoding.md R154). -/
def decodePN (f2 : BitVec 2) (ls3 rs2 rs1 : BitVec 5) (f3 : BitVec 3) (rd : Reg) : Except DecodeError Instr :=
  match f3, f2 with
  | 0#3, 0#2 => if ls3 = 0 then .ok (.pMulu rd rs1 rs2) else .ok (.pMuluN rd rs1 rs2 ls3)
  | 0#3, 1#2 => if ls3 = 0 then .ok (.pMulhhu rd rs1 rs2) else .ok (.pMulhhuN rd rs1 rs2 ls3)
  | 0#3, 2#2 => if ls3 = 0 then .ok (.pMuls rd rs1 rs2) else .ok (.pMulsN rd rs1 rs2 ls3)
  | 0#3, 3#2 => if ls3 = 0 then .ok (.pMulhhs rd rs1 rs2) else .ok (.pMulhhsN rd rs1 rs2 ls3)
  | 1#3, 0#2 => .ok (.pMacuN rd rs1 rs2 ls3)
  | 1#3, 1#2 => .ok (.pMachhuN rd rs1 rs2 ls3)
  | 1#3, 2#2 => .ok (.pMacsN rd rs1 rs2 ls3)
  | 1#3, 3#2 => .ok (.pMachhsN rd rs1 rs2 ls3)
  | 2#3, 0#2 => .ok (.pAddN rd rs1 rs2 ls3)
  | 2#3, 1#2 => whenZero (ls3 == 0) .registerFormLs3 (.pAddNr rd rs1 rs2)
  | 2#3, 2#2 => .ok (.pAdduN rd rs1 rs2 ls3)
  | 2#3, 3#2 => whenZero (ls3 == 0) .registerFormLs3 (.pAdduNr rd rs1 rs2)
  | 3#3, 0#2 => .ok (.pSubN rd rs1 rs2 ls3)
  | 3#3, 1#2 => whenZero (ls3 == 0) .registerFormLs3 (.pSubNr rd rs1 rs2)
  | 3#3, 2#2 => .ok (.pSubuN rd rs1 rs2 ls3)
  | 3#3, 3#2 => whenZero (ls3 == 0) .registerFormLs3 (.pSubuNr rd rs1 rs2)
  | 4#3, 0#2 => .ok (.pMuluRN rd rs1 rs2 ls3)
  | 4#3, 1#2 => .ok (.pMulhhuRN rd rs1 rs2 ls3)
  | 4#3, 2#2 => .ok (.pMulsRN rd rs1 rs2 ls3)
  | 4#3, 3#2 => .ok (.pMulhhsRN rd rs1 rs2 ls3)
  | 5#3, 0#2 => .ok (.pMacuRN rd rs1 rs2 ls3)
  | 5#3, 1#2 => .ok (.pMachhuRN rd rs1 rs2 ls3)
  | 5#3, 2#2 => .ok (.pMacsRN rd rs1 rs2 ls3)
  | 5#3, 3#2 => .ok (.pMachhsRN rd rs1 rs2 ls3)
  | 6#3, 0#2 => .ok (.pAddRN rd rs1 rs2 ls3)
  | 6#3, 1#2 => whenZero (ls3 == 0) .registerFormLs3 (.pAddRNr rd rs1 rs2)
  | 6#3, 2#2 => .ok (.pAdduRN rd rs1 rs2 ls3)
  | 6#3, 3#2 => whenZero (ls3 == 0) .registerFormLs3 (.pAdduRNr rd rs1 rs2)
  | 7#3, 0#2 => .ok (.pSubRN rd rs1 rs2 ls3)
  | 7#3, 1#2 => whenZero (ls3 == 0) .registerFormLs3 (.pSubRNr rd rs1 rs2)
  | 7#3, 2#2 => .ok (.pSubuRN rd rs1 rs2 ls3)
  | 7#3, 3#2 => whenZero (ls3 == 0) .registerFormLs3 (.pSubuRNr rd rs1 rs2)
  | _, _ => .error (.reserved .customUnused)

/-- Opcode 1100011 (30_encoding.md R151, R158). -/
def decodeBranch (f7 : BitVec 7) (rs2 rs1 : Reg) (f3 : BitVec 3) (rd : Reg) : Option Instr :=
  match f3 with
  | 0#3 => some (.beq rs1 rs2 (immB f7 rd))
  | 1#3 => some (.bne rs1 rs2 (immB f7 rd))
  | 2#3 => some (.pBeqimm rs1 rs2 (immB f7 rd))
  | 3#3 => some (.pBneimm rs1 rs2 (immB f7 rd))
  | 4#3 => some (.blt rs1 rs2 (immB f7 rd))
  | 5#3 => some (.bge rs1 rs2 (immB f7 rd))
  | 6#3 => some (.bltu rs1 rs2 (immB f7 rd))
  | 7#3 => some (.bgeu rs1 rs2 (immB f7 rd))
  | _ => none

/-- Opcode 1110011 (41_rv32i_system.md). -/
def decodeSystem (f7 : BitVec 7) (rs2 rs1 : Reg) (f3 : BitVec 3) (rd : Reg) : Option Instr :=
  match f3 with
  | 0#3 =>
    if rs1 = 0 && rd = 0 then
      match immI f7 rs2 with
      | 0x000#12 => some .ecall
      | 0x001#12 => some .ebreak
      | 0x302#12 => some .mret
      | 0x105#12 => some .wfi
      | _ => none
    else none
  | 1#3 => some (.csrrw rd rs1 (immI f7 rs2))
  | 2#3 => some (.csrrs rd rs1 (immI f7 rs2))
  | 3#3 => some (.csrrc rd rs1 (immI f7 rs2))
  | 5#3 => some (.csrrwi rd rs1 (immI f7 rs2))
  | 6#3 => some (.csrrsi rd rs1 (immI f7 rs2))
  | 7#3 => some (.csrrci rd rs1 (immI f7 rs2))
  | _ => none

/-- Opcode 1111011: hardware loops; L = inst[7], inst[11:8] = 0 (30_encoding.md R157, R171 items 4, 7). -/
def decodeHwLoop (f7 : BitVec 7) (rs2 rs1 : BitVec 5) (f3 : BitVec 3) (rd : BitVec 5) : Except DecodeError Instr :=
  let l := rd.extractLsb' 0 1
  let uimmL := immI f7 rs2
  let z := rd.extractLsb' 1 4 == 0
  match f3 with
  | 0#3 => whenZero (z && rs1 == 0) .hwLoopField (.lpStarti l uimmL)
  | 1#3 => whenZero (z && rs1 == 0) .hwLoopField (.lpEndi l uimmL)
  | 2#3 => whenZero (z && uimmL == 0) .hwLoopField (.lpCount l rs1)
  | 3#3 => whenZero (z && rs1 == 0) .hwLoopField (.lpCounti l uimmL)
  | 4#3 => whenZero z .hwLoopField (.lpSetup l rs1 uimmL)
  | 5#3 => whenZero z .hwLoopField (.lpSetupi l uimmL rs1)
  | _ => .error (.reserved .customUnused)

/-- A 32-bit instruction from its six fields: the major opcode map (30_encoding.md R151). -/
noncomputable def decodeFields (f7 : BitVec 7) (rs2 rs1 : BitVec 5) (f3 : BitVec 3) (rd : BitVec 5) (op : BitVec 7) :
    Except DecodeError Instr :=
  match op with
  | 0x03#7 => orIllegal (decodeLoad f7 rs2 rs1 f3 rd)
  | 0x07#7 => if f3 = 2#3 then .ok (.flw rd rs1 (immI f7 rs2)) else .error .illegal
  | 0x0B#7 => orReserved .customUnused (decodePostLoad f7 rs2 rs1 f3 rd)
  | 0x0F#7 => decodeFence f7 rs2 rs1 f3 rd
  | 0x13#7 => orIllegal (decodeOpImm f7 rs2 rs1 f3 rd)
  | 0x17#7 => .ok (.auipc rd (immU f7 rs2 rs1 f3))
  | 0x23#7 => orIllegal (decodeStore f7 rs2 rs1 f3 rd)
  | 0x27#7 => if f3 = 2#3 then .ok (.fsw rs2 rs1 (immS f7 rd)) else .error .illegal
  | 0x2B#7 => orReserved .customUnused (decodePostStore f7 rs2 rs1 f3 rd)
  | 0x33#7 => decodeOp f7 rs2 rs1 f3 rd
  | 0x37#7 => .ok (.lui rd (immU f7 rs2 rs1 f3))
  | 0x43#7 => orIllegal (decodeFma 0x43#7 f7 rs2 rs1 f3 rd)
  | 0x47#7 => orIllegal (decodeFma 0x47#7 f7 rs2 rs1 f3 rd)
  | 0x4B#7 => orIllegal (decodeFma 0x4B#7 f7 rs2 rs1 f3 rd)
  | 0x4F#7 => orIllegal (decodeFma 0x4F#7 f7 rs2 rs1 f3 rd)
  | 0x53#7 => orIllegal (decodeOpFp f7 rs2 rs1 f3 rd)
  | 0x57#7 => decodePV f7 rs2 rs1 f3 rd
  | 0x5B#7 => decodePN (f7.extractLsb' 5 2) (f7.extractLsb' 0 5) rs2 rs1 f3 rd
  | 0x63#7 => orIllegal (decodeBranch f7 rs2 rs1 f3 rd)
  | 0x67#7 => if f3 = 0 then .ok (.jalr rd rs1 (immI f7 rs2)) else .error .illegal
  | 0x6F#7 => .ok (.jal rd (immJ f7 rs2 rs1 f3))
  | 0x73#7 => orIllegal (decodeSystem f7 rs2 rs1 f3 rd)
  | 0x7B#7 => decodeHwLoop f7 rs2 rs1 f3 rd
  | _ => .error .illegal

/-- A 32-bit word (30_encoding.md R140). -/
noncomputable def decode32 (w : BitVec 32) : Except DecodeError Instr :=
  decodeFields (fF7 w) (fRs2 w) (fRs1 w) (fF3 w) (fRd w) (fOp w)

/-! Compressed instructions: inst[15:13], inst[12], inst[11:7], inst[6:2], inst[1:0] (30_encoding.md R160). -/

/-- inst[1:0]. -/
def cOp (w : BitVec 16) : BitVec 2 := w.extractLsb' 0 2
/-- inst[6:2]. -/
def cLo (w : BitVec 16) : BitVec 5 := w.extractLsb' 2 5
/-- inst[11:7]. -/
def cHi (w : BitVec 16) : BitVec 5 := w.extractLsb' 7 5
/-- inst[12]. -/
def cB12 (w : BitVec 16) : BitVec 1 := w.extractLsb' 12 1
/-- inst[15:13]. -/
def cF3 (w : BitVec 16) : BitVec 3 := w.extractLsb' 13 3

/-- The 6-bit immediate inst[12], inst[6:2] of format CI. -/
def immCI (b : BitVec 1) (lo : BitVec 5) : BitVec 6 := b ++ lo
/-- uimm[6:2] of c.lw and c.sw: inst[5], inst[12:10], inst[6] (42_rv32c.md R282). -/
def immCL (b : BitVec 1) (hi lo : BitVec 5) : BitVec 5 :=
  lo.extractLsb' 3 1 ++ b ++ hi.extractLsb' 3 2 ++ lo.extractLsb' 4 1
/-- nzuimm[9:2] of c.addi4spn: inst[10:7], inst[12:11], inst[5], inst[6] (42_rv32c.md R281). -/
def immCIW (b : BitVec 1) (hi lo : BitVec 5) : BitVec 8 :=
  hi.extractLsb' 0 4 ++ b ++ hi.extractLsb' 4 1 ++ lo.extractLsb' 3 1 ++ lo.extractLsb' 4 1
/-- nzimm[9:4] of c.addi16sp: inst[12], inst[4:3], inst[5], inst[2], inst[6] (42_rv32c.md R290). -/
def immSP16 (b : BitVec 1) (lo : BitVec 5) : BitVec 6 :=
  b ++ lo.extractLsb' 1 2 ++ lo.extractLsb' 3 1 ++ lo.extractLsb' 0 1 ++ lo.extractLsb' 4 1
/-- uimm[7:2] of c.lwsp: inst[3:2], inst[12], inst[6:4] (42_rv32c.md R303). -/
def immLwsp (b : BitVec 1) (lo : BitVec 5) : BitVec 6 := lo.extractLsb' 0 2 ++ b ++ lo.extractLsb' 2 3
/-- uimm[7:2] of c.swsp: inst[8:7], inst[12:9] (42_rv32c.md R310). -/
def immSwsp (b : BitVec 1) (hi : BitVec 5) : BitVec 6 := hi.extractLsb' 0 2 ++ b ++ hi.extractLsb' 2 3
/-- offset[11:1] of c.j: inst[12], inst[8], inst[10:9], inst[6], inst[7], inst[2], inst[11], inst[5:3]
(42_rv32c.md R288). -/
def immCJ (b : BitVec 1) (hi lo : BitVec 5) : BitVec 11 :=
  b ++ hi.extractLsb' 1 1 ++ hi.extractLsb' 2 2 ++ lo.extractLsb' 4 1 ++ hi.extractLsb' 0 1 ++ lo.extractLsb' 0 1
    ++ hi.extractLsb' 4 1 ++ lo.extractLsb' 1 3
/-- offset[8:1] of c.beqz: inst[12], inst[6:5], inst[2], inst[11:10], inst[4:3] (42_rv32c.md R300). -/
def immCB (b : BitVec 1) (hi lo : BitVec 5) : BitVec 8 :=
  b ++ lo.extractLsb' 3 2 ++ lo.extractLsb' 0 1 ++ hi.extractLsb' 3 2 ++ lo.extractLsb' 1 2

/-- Quadrant 0 (42_rv32c.md R281 to R285). -/
def decodeC0 (f3 : BitVec 3) (b : BitVec 1) (hi lo : BitVec 5) : Option Instr :=
  let rs1 : CReg := hi.extractLsb' 0 3
  let rd : CReg := lo.extractLsb' 0 3
  match f3 with
  | 0#3 => if immCIW b hi lo = 0 then none else some (.cAddi4spn rd (immCIW b hi lo))
  | 2#3 => some (.cLw rd rs1 (immCL b hi lo))
  | 3#3 => some (.cFlw rd rs1 (immCL b hi lo))
  | 6#3 => some (.cSw rd rs1 (immCL b hi lo))
  | 7#3 => some (.cFsw rd rs1 (immCL b hi lo))
  | _ => none

/-- Quadrant 1, funct3 100 (42_rv32c.md R292 to R298). -/
def decodeC1Alu (b : BitVec 1) (hi lo : BitVec 5) : Option Instr :=
  let rd : CReg := hi.extractLsb' 0 3
  let rs2 : CReg := lo.extractLsb' 0 3
  match hi.extractLsb' 3 2 with
  | 0#2 => if b = 0 then some (.cSrli rd lo) else none
  | 1#2 => if b = 0 then some (.cSrai rd lo) else none
  | 2#2 => some (.cAndi rd (immCI b lo))
  | _ =>
    if b = 0 then
      match lo.extractLsb' 3 2 with
      | 0#2 => some (.cSub rd rs2)
      | 1#2 => some (.cXor rd rs2)
      | 2#2 => some (.cOr rd rs2)
      | _ => some (.cAnd rd rs2)
    else none

/-- Quadrant 1 (42_rv32c.md R286 to R301, R312). -/
def decodeC1 (f3 : BitVec 3) (b : BitVec 1) (hi lo : BitVec 5) : Except DecodeError Instr :=
  match f3 with
  | 0#3 => if hi = 0 then .ok (.cNop (immCI b lo)) else .ok (.cAddi hi (immCI b lo))
  | 1#3 => .ok (.cJal (immCJ b hi lo))
  | 2#3 => .ok (.cLi hi (immCI b lo))
  | 3#3 =>
    if immCI b lo = 0 then .error (.reserved .compressed)
    else if hi = 2 then .ok (.cAddi16sp (immSP16 b lo))
    else .ok (.cLui hi (immCI b lo))
  | 4#3 => orIllegal (decodeC1Alu b hi lo)
  | 5#3 => .ok (.cJ (immCJ b hi lo))
  | 6#3 => .ok (.cBeqz (hi.extractLsb' 0 3) (immCB b hi lo))
  | _ => .ok (.cBnez (hi.extractLsb' 0 3) (immCB b hi lo))

/-- Quadrant 2, funct3 100 (42_rv32c.md R305 to R309, R312). -/
def decodeC2Jump (b : BitVec 1) (hi lo : BitVec 5) : Except DecodeError Instr :=
  if b = 0 then
    if lo = 0 then (if hi = 0 then .error (.reserved .compressed) else .ok (.cJr hi))
    else .ok (.cMv hi lo)
  else if lo = 0 then (if hi = 0 then .ok .cEbreak else .ok (.cJalr hi))
  else .ok (.cAdd hi lo)

/-- Quadrant 2 (42_rv32c.md R302 to R311, R312). -/
def decodeC2 (f3 : BitVec 3) (b : BitVec 1) (hi lo : BitVec 5) : Except DecodeError Instr :=
  match f3 with
  | 0#3 => if b = 0 then .ok (.cSlli hi lo) else .error .illegal
  | 2#3 => if hi = 0 then .error (.reserved .compressed) else .ok (.cLwsp hi (immLwsp b lo))
  | 3#3 => .ok (.cFlwsp hi (immLwsp b lo))
  | 4#3 => decodeC2Jump b hi lo
  | 6#3 => .ok (.cSwsp lo (immSwsp b hi))
  | 7#3 => .ok (.cFswsp lo (immSwsp b hi))
  | _ => .error .illegal

/-- A compressed instruction from its fields (30_encoding.md R162). -/
def decodeCFields (f3 : BitVec 3) (b : BitVec 1) (hi lo : BitVec 5) (op : BitVec 2) : Except DecodeError Instr :=
  match op with
  | 0#2 => orIllegal (decodeC0 f3 b hi lo)
  | 1#2 => decodeC1 f3 b hi lo
  | 2#2 => decodeC2 f3 b hi lo
  | _ => .error .illegal

/-- A 16-bit word (30_encoding.md R140, R162). -/
def decode16 (w : BitVec 16) : Except DecodeError Instr :=
  decodeCFields (cF3 w) (cB12 w) (cHi w) (cLo w) (cOp w)

/-- The instruction of a word (30_encoding.md R140). -/
noncomputable def decodeCode : Code → Except DecodeError Instr
  | .half w => decode16 w
  | .word w => decode32 w

/-- Whether the instruction that begins with the parcel `lo` has a second parcel (30_encoding.md R141). -/
def isLong (lo : Half) : Bool := cOp lo == 3#2

/-- The words of the first instruction of a list of bytes, parcels and words little-endian (20_memory.md R104,
00_scope.md R11 step 2), and the bytes after it. -/
def codeOfBytes : List Byte → Option (Code × List Byte)
  | b0 :: b1 :: rest =>
    if isLong (b1 ++ b0) then
      match rest with
      | b2 :: b3 :: rest' => some (.word (b3 ++ b2 ++ b1 ++ b0), rest')
      | _ => none
    else some (.half (b1 ++ b0), rest)
  | _ => none

/-- The first instruction of a list of bytes, and the bytes after it. -/
noncomputable def decode (bs : List Byte) : Except DecodeError (Instr × List Byte) :=
  match codeOfBytes bs with
  | none => .error .truncated
  | some (c, rest) =>
    match decodeCode c with
    | .ok i => .ok (i, rest)
    | .error e => .error e

/-- The `nbits / 8` bytes of a table word as the hardware stores them, then zeros up to four bytes. -/
def tableBytes (nbits w : Nat) : List Byte :=
  (List.range 4).map fun k => if 8 * k < nbits then BitVec.ofNat 8 (w / 256 ^ k) else 0

/-- What the decoder reads from an instruction whose bits are `w`, numbered as spec/opcode_table.json numbers them. -/
noncomputable def decodeTableWord (nbits w : Nat) : Option Instr :=
  match decode (tableBytes nbits w) with
  | .ok (i, _) => some i
  | .error _ => none

/-! The encoder, from the same tables (30_encoding.md R142, R145, R147, R160). -/

/-- Format R, and the six fields of every 32-bit format. -/
def encR (f7 : BitVec 7) (rs2 rs1 : BitVec 5) (f3 : BitVec 3) (rd : BitVec 5) (op : BitVec 7) : BitVec 32 :=
  f7 ++ rs2 ++ rs1 ++ f3 ++ rd ++ op
/-- Format I. -/
def encI (imm : BitVec 12) (rs1 : BitVec 5) (f3 : BitVec 3) (rd : BitVec 5) (op : BitVec 7) : BitVec 32 :=
  encR (imm.extractLsb' 5 7) (imm.extractLsb' 0 5) rs1 f3 rd op
/-- Format S. -/
def encS (imm : BitVec 12) (rs2 rs1 : BitVec 5) (f3 : BitVec 3) (op : BitVec 7) : BitVec 32 :=
  encR (imm.extractLsb' 5 7) rs2 rs1 f3 (imm.extractLsb' 0 5) op
/-- Format B; `off` is imm[12:1]. -/
def encB (off : BitVec 12) (rs2 rs1 : BitVec 5) (f3 : BitVec 3) (op : BitVec 7) : BitVec 32 :=
  encR (off.extractLsb' 11 1 ++ off.extractLsb' 4 6) rs2 rs1 f3 (off.extractLsb' 0 4 ++ off.extractLsb' 10 1) op
/-- Format U; `imm` is imm[31:12]. -/
def encU (imm : BitVec 20) (rd : BitVec 5) (op : BitVec 7) : BitVec 32 :=
  encR (imm.extractLsb' 13 7) (imm.extractLsb' 8 5) (imm.extractLsb' 3 5) (imm.extractLsb' 0 3) rd op
/-- Format J; `off` is imm[20:1]. -/
def encJ (off : BitVec 20) (rd : BitVec 5) (op : BitVec 7) : BitVec 32 :=
  encR (off.extractLsb' 19 1 ++ off.extractLsb' 4 6) (off.extractLsb' 0 4 ++ off.extractLsb' 10 1)
    (off.extractLsb' 14 5) (off.extractLsb' 11 3) rd op
/-- Format PVI; `f6` is funct5, F. -/
def encPVI (f6 : BitVec 6) (imm6 : BitVec 6) (rs1 : BitVec 5) (f3 : BitVec 3) (rd : BitVec 5) : BitVec 32 :=
  encR (f6 ++ imm6.extractLsb' 0 1) (imm6.extractLsb' 1 5) rs1 f3 rd 0x57#7
/-- The five fields of every compressed format. -/
def encC (f3 : BitVec 3) (b : BitVec 1) (hi lo : BitVec 5) (op : BitVec 2) : BitVec 16 := f3 ++ b ++ hi ++ lo ++ op
/-- Format CI. -/
def encCI (f3 : BitVec 3) (imm : BitVec 6) (hi : BitVec 5) (op : BitVec 2) : BitVec 16 :=
  encC f3 (imm.extractLsb' 5 1) hi (imm.extractLsb' 0 5) op
/-- Formats CL and CS; `uimm` is uimm[6:2]. -/
def encCL (f3 : BitVec 3) (uimm : BitVec 5) (rs1 rd : CReg) (op : BitVec 2) : BitVec 16 :=
  encC f3 (uimm.extractLsb' 3 1) (uimm.extractLsb' 1 2 ++ rs1) (uimm.extractLsb' 0 1 ++ uimm.extractLsb' 4 1 ++ rd) op
/-- Format CJ; `off` is offset[11:1]. -/
def encCJ (f3 : BitVec 3) (off : BitVec 11) (op : BitVec 2) : BitVec 16 :=
  encC f3 (off.extractLsb' 10 1)
    (off.extractLsb' 3 1 ++ off.extractLsb' 7 2 ++ off.extractLsb' 9 1 ++ off.extractLsb' 5 1)
    (off.extractLsb' 6 1 ++ off.extractLsb' 0 3 ++ off.extractLsb' 4 1) op
/-- Format CB with an offset; `off` is offset[8:1]. -/
def encCB (f3 : BitVec 3) (off : BitVec 8) (rs1 : CReg) (op : BitVec 2) : BitVec 16 :=
  encC f3 (off.extractLsb' 7 1) (off.extractLsb' 2 2 ++ rs1)
    (off.extractLsb' 5 2 ++ off.extractLsb' 0 2 ++ off.extractLsb' 4 1) op

/-- The words of an instruction, from its row of the opcode table. -/
def encode : Instr → Code
  | .lui rd imm => .word (encU imm rd 0x37#7)
  | .auipc rd imm => .word (encU imm rd 0x17#7)
  | .jal rd off => .word (encJ off rd 0x6F#7)
  | .jalr rd rs1 imm => .word (encI imm rs1 0#3 rd 0x67#7)
  | .beq rs1 rs2 off => .word (encB off rs2 rs1 0#3 0x63#7)
  | .bne rs1 rs2 off => .word (encB off rs2 rs1 1#3 0x63#7)
  | .blt rs1 rs2 off => .word (encB off rs2 rs1 4#3 0x63#7)
  | .bge rs1 rs2 off => .word (encB off rs2 rs1 5#3 0x63#7)
  | .bltu rs1 rs2 off => .word (encB off rs2 rs1 6#3 0x63#7)
  | .bgeu rs1 rs2 off => .word (encB off rs2 rs1 7#3 0x63#7)
  | .lb rd rs1 imm => .word (encI imm rs1 0#3 rd 0x03#7)
  | .lh rd rs1 imm => .word (encI imm rs1 1#3 rd 0x03#7)
  | .lw rd rs1 imm => .word (encI imm rs1 2#3 rd 0x03#7)
  | .lbu rd rs1 imm => .word (encI imm rs1 4#3 rd 0x03#7)
  | .lhu rd rs1 imm => .word (encI imm rs1 5#3 rd 0x03#7)
  | .sb rs2 rs1 imm => .word (encS imm rs2 rs1 0#3 0x23#7)
  | .sh rs2 rs1 imm => .word (encS imm rs2 rs1 1#3 0x23#7)
  | .sw rs2 rs1 imm => .word (encS imm rs2 rs1 2#3 0x23#7)
  | .addi rd rs1 imm => .word (encI imm rs1 0#3 rd 0x13#7)
  | .slti rd rs1 imm => .word (encI imm rs1 2#3 rd 0x13#7)
  | .sltiu rd rs1 imm => .word (encI imm rs1 3#3 rd 0x13#7)
  | .xori rd rs1 imm => .word (encI imm rs1 4#3 rd 0x13#7)
  | .ori rd rs1 imm => .word (encI imm rs1 6#3 rd 0x13#7)
  | .andi rd rs1 imm => .word (encI imm rs1 7#3 rd 0x13#7)
  | .slli rd rs1 shamt => .word (encR 0x00#7 shamt rs1 1#3 rd 0x13#7)
  | .srli rd rs1 shamt => .word (encR 0x00#7 shamt rs1 5#3 rd 0x13#7)
  | .srai rd rs1 shamt => .word (encR 0x20#7 shamt rs1 5#3 rd 0x13#7)
  | .add rd rs1 rs2 => .word (encR 0x00#7 rs2 rs1 0#3 rd 0x33#7)
  | .sub rd rs1 rs2 => .word (encR 0x20#7 rs2 rs1 0#3 rd 0x33#7)
  | .sll rd rs1 rs2 => .word (encR 0x00#7 rs2 rs1 1#3 rd 0x33#7)
  | .slt rd rs1 rs2 => .word (encR 0x00#7 rs2 rs1 2#3 rd 0x33#7)
  | .sltu rd rs1 rs2 => .word (encR 0x00#7 rs2 rs1 3#3 rd 0x33#7)
  | .xor rd rs1 rs2 => .word (encR 0x00#7 rs2 rs1 4#3 rd 0x33#7)
  | .srl rd rs1 rs2 => .word (encR 0x00#7 rs2 rs1 5#3 rd 0x33#7)
  | .sra rd rs1 rs2 => .word (encR 0x20#7 rs2 rs1 5#3 rd 0x33#7)
  | .or rd rs1 rs2 => .word (encR 0x00#7 rs2 rs1 6#3 rd 0x33#7)
  | .and rd rs1 rs2 => .word (encR 0x00#7 rs2 rs1 7#3 rd 0x33#7)
  | .fence pred succ => .word (encI (0#4 ++ pred ++ succ) 0 0#3 0 0x0F#7)
  | .fenceI => .word (encI 0x000#12 0 1#3 0 0x0F#7)
  | .ecall => .word (encI 0x000#12 0 0#3 0 0x73#7)
  | .ebreak => .word (encI 0x001#12 0 0#3 0 0x73#7)
  | .mret => .word (encI 0x302#12 0 0#3 0 0x73#7)
  | .wfi => .word (encI 0x105#12 0 0#3 0 0x73#7)
  | .csrrw rd rs1 csr => .word (encI csr rs1 1#3 rd 0x73#7)
  | .csrrs rd rs1 csr => .word (encI csr rs1 2#3 rd 0x73#7)
  | .csrrc rd rs1 csr => .word (encI csr rs1 3#3 rd 0x73#7)
  | .csrrwi rd uimm csr => .word (encI csr uimm 5#3 rd 0x73#7)
  | .csrrsi rd uimm csr => .word (encI csr uimm 6#3 rd 0x73#7)
  | .csrrci rd uimm csr => .word (encI csr uimm 7#3 rd 0x73#7)
  | .mul rd rs1 rs2 => .word (encR 0x01#7 rs2 rs1 0#3 rd 0x33#7)
  | .mulh rd rs1 rs2 => .word (encR 0x01#7 rs2 rs1 1#3 rd 0x33#7)
  | .mulhsu rd rs1 rs2 => .word (encR 0x01#7 rs2 rs1 2#3 rd 0x33#7)
  | .mulhu rd rs1 rs2 => .word (encR 0x01#7 rs2 rs1 3#3 rd 0x33#7)
  | .div rd rs1 rs2 => .word (encR 0x01#7 rs2 rs1 4#3 rd 0x33#7)
  | .divu rd rs1 rs2 => .word (encR 0x01#7 rs2 rs1 5#3 rd 0x33#7)
  | .rem rd rs1 rs2 => .word (encR 0x01#7 rs2 rs1 6#3 rd 0x33#7)
  | .remu rd rs1 rs2 => .word (encR 0x01#7 rs2 rs1 7#3 rd 0x33#7)
  | .flw rd rs1 imm => .word (encI imm rs1 2#3 rd 0x07#7)
  | .fsw rs2 rs1 imm => .word (encS imm rs2 rs1 2#3 0x27#7)
  | .fmaddS rd rs1 rs2 rs3 rm => .word (encR (rs3 ++ 0#2) rs2 rs1 rm rd 0x43#7)
  | .fmsubS rd rs1 rs2 rs3 rm => .word (encR (rs3 ++ 0#2) rs2 rs1 rm rd 0x47#7)
  | .fnmsubS rd rs1 rs2 rs3 rm => .word (encR (rs3 ++ 0#2) rs2 rs1 rm rd 0x4B#7)
  | .fnmaddS rd rs1 rs2 rs3 rm => .word (encR (rs3 ++ 0#2) rs2 rs1 rm rd 0x4F#7)
  | .faddS rd rs1 rs2 rm => .word (encR 0x00#7 rs2 rs1 rm rd 0x53#7)
  | .fsubS rd rs1 rs2 rm => .word (encR 0x04#7 rs2 rs1 rm rd 0x53#7)
  | .fmulS rd rs1 rs2 rm => .word (encR 0x08#7 rs2 rs1 rm rd 0x53#7)
  | .fdivS rd rs1 rs2 rm => .word (encR 0x0C#7 rs2 rs1 rm rd 0x53#7)
  | .fsqrtS rd rs1 rm => .word (encR 0x2C#7 0 rs1 rm rd 0x53#7)
  | .fsgnjS rd rs1 rs2 => .word (encR 0x10#7 rs2 rs1 0#3 rd 0x53#7)
  | .fsgnjnS rd rs1 rs2 => .word (encR 0x10#7 rs2 rs1 1#3 rd 0x53#7)
  | .fsgnjxS rd rs1 rs2 => .word (encR 0x10#7 rs2 rs1 2#3 rd 0x53#7)
  | .fminS rd rs1 rs2 => .word (encR 0x14#7 rs2 rs1 0#3 rd 0x53#7)
  | .fmaxS rd rs1 rs2 => .word (encR 0x14#7 rs2 rs1 1#3 rd 0x53#7)
  | .fcvtWS rd rs1 rm => .word (encR 0x60#7 0 rs1 rm rd 0x53#7)
  | .fcvtWuS rd rs1 rm => .word (encR 0x60#7 1 rs1 rm rd 0x53#7)
  | .fmvXW rd rs1 => .word (encR 0x70#7 0 rs1 0#3 rd 0x53#7)
  | .feqS rd rs1 rs2 => .word (encR 0x50#7 rs2 rs1 2#3 rd 0x53#7)
  | .fltS rd rs1 rs2 => .word (encR 0x50#7 rs2 rs1 1#3 rd 0x53#7)
  | .fleS rd rs1 rs2 => .word (encR 0x50#7 rs2 rs1 0#3 rd 0x53#7)
  | .fclassS rd rs1 => .word (encR 0x70#7 0 rs1 1#3 rd 0x53#7)
  | .fcvtSW rd rs1 rm => .word (encR 0x68#7 0 rs1 rm rd 0x53#7)
  | .fcvtSWu rd rs1 rm => .word (encR 0x68#7 1 rs1 rm rd 0x53#7)
  | .fmvWX rd rs1 => .word (encR 0x78#7 0 rs1 0#3 rd 0x53#7)
  | .cAddi4spn rd nzuimm => .half (encC 0#3 (nzuimm.extractLsb' 3 1) (nzuimm.extractLsb' 2 1 ++ nzuimm.extractLsb' 4 4) (nzuimm.extractLsb' 0 1 ++ nzuimm.extractLsb' 1 1 ++ rd) 0#2)
  | .cLw rd rs1 uimm => .half (encCL 2#3 uimm rs1 rd 0#2)
  | .cSw rs2 rs1 uimm => .half (encCL 6#3 uimm rs1 rs2 0#2)
  | .cFlw rd rs1 uimm => .half (encCL 3#3 uimm rs1 rd 0#2)
  | .cFsw rs2 rs1 uimm => .half (encCL 7#3 uimm rs1 rs2 0#2)
  | .cNop imm => .half (encCI 0#3 imm 0 1#2)
  | .cAddi rd imm => .half (encCI 0#3 imm rd 1#2)
  | .cJal off => .half (encCJ 1#3 off 1#2)
  | .cLi rd imm => .half (encCI 2#3 imm rd 1#2)
  | .cAddi16sp nzimm => .half (encC 3#3 (nzimm.extractLsb' 5 1) 2 (nzimm.extractLsb' 0 1 ++ nzimm.extractLsb' 2 1 ++ nzimm.extractLsb' 3 2 ++ nzimm.extractLsb' 1 1) 1#2)
  | .cLui rd nzimm => .half (encCI 3#3 nzimm rd 1#2)
  | .cSrli rd shamt => .half (encC 4#3 0 (0#2 ++ rd) shamt 1#2)
  | .cSrai rd shamt => .half (encC 4#3 0 (1#2 ++ rd) shamt 1#2)
  | .cAndi rd imm => .half (encC 4#3 (imm.extractLsb' 5 1) (2#2 ++ rd) (imm.extractLsb' 0 5) 1#2)
  | .cSub rd rs2 => .half (encC 4#3 0 (3#2 ++ rd) (0#2 ++ rs2) 1#2)
  | .cXor rd rs2 => .half (encC 4#3 0 (3#2 ++ rd) (1#2 ++ rs2) 1#2)
  | .cOr rd rs2 => .half (encC 4#3 0 (3#2 ++ rd) (2#2 ++ rs2) 1#2)
  | .cAnd rd rs2 => .half (encC 4#3 0 (3#2 ++ rd) (3#2 ++ rs2) 1#2)
  | .cJ off => .half (encCJ 5#3 off 1#2)
  | .cBeqz rs1 off => .half (encCB 6#3 off rs1 1#2)
  | .cBnez rs1 off => .half (encCB 7#3 off rs1 1#2)
  | .cSlli rd shamt => .half (encC 0#3 0 rd shamt 2#2)
  | .cLwsp rd uimm => .half (encC 2#3 (uimm.extractLsb' 3 1) rd (uimm.extractLsb' 0 3 ++ uimm.extractLsb' 4 2) 2#2)
  | .cFlwsp rd uimm => .half (encC 3#3 (uimm.extractLsb' 3 1) rd (uimm.extractLsb' 0 3 ++ uimm.extractLsb' 4 2) 2#2)
  | .cJr rs1 => .half (encC 4#3 0 rs1 0 2#2)
  | .cMv rd rs2 => .half (encC 4#3 0 rd rs2 2#2)
  | .cEbreak => .half (encC 4#3 1 0 0 2#2)
  | .cJalr rs1 => .half (encC 4#3 1 rs1 0 2#2)
  | .cAdd rd rs2 => .half (encC 4#3 1 rd rs2 2#2)
  | .cSwsp rs2 uimm => .half (encC 6#3 (uimm.extractLsb' 3 1) (uimm.extractLsb' 0 3 ++ uimm.extractLsb' 4 2) rs2 2#2)
  | .cFswsp rs2 uimm => .half (encC 7#3 (uimm.extractLsb' 3 1) (uimm.extractLsb' 0 3 ++ uimm.extractLsb' 4 2) rs2 2#2)
  | .pLbPostImm rd rs1 imm => .word (encI imm rs1 0#3 rd 0x0B#7)
  | .pLbuPostImm rd rs1 imm => .word (encI imm rs1 4#3 rd 0x0B#7)
  | .pLhPostImm rd rs1 imm => .word (encI imm rs1 1#3 rd 0x0B#7)
  | .pLhuPostImm rd rs1 imm => .word (encI imm rs1 5#3 rd 0x0B#7)
  | .pLwPostImm rd rs1 imm => .word (encI imm rs1 2#3 rd 0x0B#7)
  | .pLbPostReg rd rs1 rs2 => .word (encR 0x00#7 rs2 rs1 7#3 rd 0x0B#7)
  | .pLbuPostReg rd rs1 rs2 => .word (encR 0x20#7 rs2 rs1 7#3 rd 0x0B#7)
  | .pLhPostReg rd rs1 rs2 => .word (encR 0x08#7 rs2 rs1 7#3 rd 0x0B#7)
  | .pLhuPostReg rd rs1 rs2 => .word (encR 0x28#7 rs2 rs1 7#3 rd 0x0B#7)
  | .pLwPostReg rd rs1 rs2 => .word (encR 0x10#7 rs2 rs1 7#3 rd 0x0B#7)
  | .pLbOff rd rs1 rs2 => .word (encR 0x00#7 rs2 rs1 7#3 rd 0x03#7)
  | .pLbuOff rd rs1 rs2 => .word (encR 0x20#7 rs2 rs1 7#3 rd 0x03#7)
  | .pLhOff rd rs1 rs2 => .word (encR 0x08#7 rs2 rs1 7#3 rd 0x03#7)
  | .pLhuOff rd rs1 rs2 => .word (encR 0x28#7 rs2 rs1 7#3 rd 0x03#7)
  | .pLwOff rd rs1 rs2 => .word (encR 0x10#7 rs2 rs1 7#3 rd 0x03#7)
  | .pSbPostImm rs2 rs1 imm => .word (encS imm rs2 rs1 0#3 0x2B#7)
  | .pShPostImm rs2 rs1 imm => .word (encS imm rs2 rs1 1#3 0x2B#7)
  | .pSwPostImm rs2 rs1 imm => .word (encS imm rs2 rs1 2#3 0x2B#7)
  | .pSbPostReg rs2 rs3 rs1 => .word (encR 0x00#7 rs2 rs1 4#3 rs3 0x2B#7)
  | .pShPostReg rs2 rs3 rs1 => .word (encR 0x00#7 rs2 rs1 5#3 rs3 0x2B#7)
  | .pSwPostReg rs2 rs3 rs1 => .word (encR 0x00#7 rs2 rs1 6#3 rs3 0x2B#7)
  | .pSbOff rs2 rs3 rs1 => .word (encR 0x00#7 rs2 rs1 4#3 rs3 0x23#7)
  | .pShOff rs2 rs3 rs1 => .word (encR 0x00#7 rs2 rs1 5#3 rs3 0x23#7)
  | .pSwOff rs2 rs3 rs1 => .word (encR 0x00#7 rs2 rs1 6#3 rs3 0x23#7)
  | .lpStarti l uimmL => .word (encI uimmL 0 0#3 (0#4 ++ l) 0x7B#7)
  | .lpEndi l uimmL => .word (encI uimmL 0 1#3 (0#4 ++ l) 0x7B#7)
  | .lpCount l rs1 => .word (encI 0 rs1 2#3 (0#4 ++ l) 0x7B#7)
  | .lpCounti l uimmL => .word (encI uimmL 0 3#3 (0#4 ++ l) 0x7B#7)
  | .lpSetup l rs1 uimmL => .word (encI uimmL rs1 4#3 (0#4 ++ l) 0x7B#7)
  | .lpSetupi l uimmL uimmS => .word (encI uimmL uimmS 5#3 (0#4 ++ l) 0x7B#7)
  | .pExtract rd rs1 ls3 ls2 => .word (encR (3#2 ++ ls3) ls2 rs1 0#3 rd 0x33#7)
  | .pExtractu rd rs1 ls3 ls2 => .word (encR (3#2 ++ ls3) ls2 rs1 1#3 rd 0x33#7)
  | .pInsert rd rs1 ls3 ls2 => .word (encR (3#2 ++ ls3) ls2 rs1 2#3 rd 0x33#7)
  | .pBclr rd rs1 ls3 ls2 => .word (encR (3#2 ++ ls3) ls2 rs1 3#3 rd 0x33#7)
  | .pBset rd rs1 ls3 ls2 => .word (encR (3#2 ++ ls3) ls2 rs1 4#3 rd 0x33#7)
  | .pExtractr rd rs1 rs2 => .word (encR 0x40#7 rs2 rs1 0#3 rd 0x33#7)
  | .pExtractur rd rs1 rs2 => .word (encR 0x40#7 rs2 rs1 1#3 rd 0x33#7)
  | .pInsertr rd rs1 rs2 => .word (encR 0x40#7 rs2 rs1 2#3 rd 0x33#7)
  | .pBclrr rd rs1 rs2 => .word (encR 0x40#7 rs2 rs1 3#3 rd 0x33#7)
  | .pBsetr rd rs1 rs2 => .word (encR 0x40#7 rs2 rs1 4#3 rd 0x33#7)
  | .pRor rd rs1 rs2 => .word (encR 0x04#7 rs2 rs1 5#3 rd 0x33#7)
  | .pFf1 rd rs1 => .word (encR 0x08#7 0 rs1 0#3 rd 0x33#7)
  | .pFl1 rd rs1 => .word (encR 0x08#7 0 rs1 1#3 rd 0x33#7)
  | .pClb rd rs1 => .word (encR 0x08#7 0 rs1 2#3 rd 0x33#7)
  | .pCnt rd rs1 => .word (encR 0x08#7 0 rs1 3#3 rd 0x33#7)
  | .pAbs rd rs1 => .word (encR 0x02#7 0 rs1 0#3 rd 0x33#7)
  | .pSlet rd rs1 rs2 => .word (encR 0x02#7 rs2 rs1 2#3 rd 0x33#7)
  | .pSletu rd rs1 rs2 => .word (encR 0x02#7 rs2 rs1 3#3 rd 0x33#7)
  | .pMin rd rs1 rs2 => .word (encR 0x02#7 rs2 rs1 4#3 rd 0x33#7)
  | .pMinu rd rs1 rs2 => .word (encR 0x02#7 rs2 rs1 5#3 rd 0x33#7)
  | .pMax rd rs1 rs2 => .word (encR 0x02#7 rs2 rs1 6#3 rd 0x33#7)
  | .pMaxu rd rs1 rs2 => .word (encR 0x02#7 rs2 rs1 7#3 rd 0x33#7)
  | .pExths rd rs1 => .word (encR 0x08#7 0 rs1 4#3 rd 0x33#7)
  | .pExthz rd rs1 => .word (encR 0x08#7 0 rs1 5#3 rd 0x33#7)
  | .pExtbs rd rs1 => .word (encR 0x08#7 0 rs1 6#3 rd 0x33#7)
  | .pExtbz rd rs1 => .word (encR 0x08#7 0 rs1 7#3 rd 0x33#7)
  | .pClip rd rs1 ls2 => .word (encR 0x0A#7 ls2 rs1 1#3 rd 0x33#7)
  | .pClipu rd rs1 ls2 => .word (encR 0x0A#7 ls2 rs1 2#3 rd 0x33#7)
  | .pClipr rd rs1 rs2 => .word (encR 0x0A#7 rs2 rs1 5#3 rd 0x33#7)
  | .pClipur rd rs1 rs2 => .word (encR 0x0A#7 rs2 rs1 6#3 rd 0x33#7)
  | .pAddN rd rs1 rs2 ls3 => .word (encR (0#2 ++ ls3) rs2 rs1 2#3 rd 0x5B#7)
  | .pAdduN rd rs1 rs2 ls3 => .word (encR (2#2 ++ ls3) rs2 rs1 2#3 rd 0x5B#7)
  | .pAddRN rd rs1 rs2 ls3 => .word (encR (0#2 ++ ls3) rs2 rs1 6#3 rd 0x5B#7)
  | .pAdduRN rd rs1 rs2 ls3 => .word (encR (2#2 ++ ls3) rs2 rs1 6#3 rd 0x5B#7)
  | .pAddNr rd rs1 rs2 => .word (encR 0x20#7 rs2 rs1 2#3 rd 0x5B#7)
  | .pAdduNr rd rs1 rs2 => .word (encR 0x60#7 rs2 rs1 2#3 rd 0x5B#7)
  | .pAddRNr rd rs1 rs2 => .word (encR 0x20#7 rs2 rs1 6#3 rd 0x5B#7)
  | .pAdduRNr rd rs1 rs2 => .word (encR 0x60#7 rs2 rs1 6#3 rd 0x5B#7)
  | .pSubN rd rs1 rs2 ls3 => .word (encR (0#2 ++ ls3) rs2 rs1 3#3 rd 0x5B#7)
  | .pSubuN rd rs1 rs2 ls3 => .word (encR (2#2 ++ ls3) rs2 rs1 3#3 rd 0x5B#7)
  | .pSubRN rd rs1 rs2 ls3 => .word (encR (0#2 ++ ls3) rs2 rs1 7#3 rd 0x5B#7)
  | .pSubuRN rd rs1 rs2 ls3 => .word (encR (2#2 ++ ls3) rs2 rs1 7#3 rd 0x5B#7)
  | .pSubNr rd rs1 rs2 => .word (encR 0x20#7 rs2 rs1 3#3 rd 0x5B#7)
  | .pSubuNr rd rs1 rs2 => .word (encR 0x60#7 rs2 rs1 3#3 rd 0x5B#7)
  | .pSubRNr rd rs1 rs2 => .word (encR 0x20#7 rs2 rs1 7#3 rd 0x5B#7)
  | .pSubuRNr rd rs1 rs2 => .word (encR 0x60#7 rs2 rs1 7#3 rd 0x5B#7)
  | .pBeqimm rs1 imm5 off => .word (encB off imm5 rs1 2#3 0x63#7)
  | .pBneimm rs1 imm5 off => .word (encB off imm5 rs1 3#3 0x63#7)
  | .pMac rd rs1 rs2 => .word (encR 0x21#7 rs2 rs1 0#3 rd 0x33#7)
  | .pMsu rd rs1 rs2 => .word (encR 0x21#7 rs2 rs1 1#3 rd 0x33#7)
  | .pMuls rd rs1 rs2 => .word (encR 0x40#7 rs2 rs1 0#3 rd 0x5B#7)
  | .pMulhhs rd rs1 rs2 => .word (encR 0x60#7 rs2 rs1 0#3 rd 0x5B#7)
  | .pMulsN rd rs1 rs2 ls3 => .word (encR (2#2 ++ ls3) rs2 rs1 0#3 rd 0x5B#7)
  | .pMulhhsN rd rs1 rs2 ls3 => .word (encR (3#2 ++ ls3) rs2 rs1 0#3 rd 0x5B#7)
  | .pMulsRN rd rs1 rs2 ls3 => .word (encR (2#2 ++ ls3) rs2 rs1 4#3 rd 0x5B#7)
  | .pMulhhsRN rd rs1 rs2 ls3 => .word (encR (3#2 ++ ls3) rs2 rs1 4#3 rd 0x5B#7)
  | .pMulu rd rs1 rs2 => .word (encR 0x00#7 rs2 rs1 0#3 rd 0x5B#7)
  | .pMulhhu rd rs1 rs2 => .word (encR 0x20#7 rs2 rs1 0#3 rd 0x5B#7)
  | .pMuluN rd rs1 rs2 ls3 => .word (encR (0#2 ++ ls3) rs2 rs1 0#3 rd 0x5B#7)
  | .pMulhhuN rd rs1 rs2 ls3 => .word (encR (1#2 ++ ls3) rs2 rs1 0#3 rd 0x5B#7)
  | .pMuluRN rd rs1 rs2 ls3 => .word (encR (0#2 ++ ls3) rs2 rs1 4#3 rd 0x5B#7)
  | .pMulhhuRN rd rs1 rs2 ls3 => .word (encR (1#2 ++ ls3) rs2 rs1 4#3 rd 0x5B#7)
  | .pMacsN rd rs1 rs2 ls3 => .word (encR (2#2 ++ ls3) rs2 rs1 1#3 rd 0x5B#7)
  | .pMachhsN rd rs1 rs2 ls3 => .word (encR (3#2 ++ ls3) rs2 rs1 1#3 rd 0x5B#7)
  | .pMacsRN rd rs1 rs2 ls3 => .word (encR (2#2 ++ ls3) rs2 rs1 5#3 rd 0x5B#7)
  | .pMachhsRN rd rs1 rs2 ls3 => .word (encR (3#2 ++ ls3) rs2 rs1 5#3 rd 0x5B#7)
  | .pMacuN rd rs1 rs2 ls3 => .word (encR (0#2 ++ ls3) rs2 rs1 1#3 rd 0x5B#7)
  | .pMachhuN rd rs1 rs2 ls3 => .word (encR (1#2 ++ ls3) rs2 rs1 1#3 rd 0x5B#7)
  | .pMacuRN rd rs1 rs2 ls3 => .word (encR (0#2 ++ ls3) rs2 rs1 5#3 rd 0x5B#7)
  | .pMachhuRN rd rs1 rs2 ls3 => .word (encR (1#2 ++ ls3) rs2 rs1 5#3 rd 0x5B#7)
  | .pvAddH rd rs1 rs2 => .word (encR 0x00#7 rs2 rs1 0#3 rd 0x57#7)
  | .pvAddScH rd rs1 rs2 => .word (encR 0x00#7 rs2 rs1 4#3 rd 0x57#7)
  | .pvAddSciH rd rs1 imm6 => .word (encPVI 0x00#6 imm6 rs1 6#3 rd)
  | .pvAddB rd rs1 rs2 => .word (encR 0x00#7 rs2 rs1 1#3 rd 0x57#7)
  | .pvAddScB rd rs1 rs2 => .word (encR 0x00#7 rs2 rs1 5#3 rd 0x57#7)
  | .pvAddSciB rd rs1 imm6 => .word (encPVI 0x00#6 imm6 rs1 7#3 rd)
  | .pvSubH rd rs1 rs2 => .word (encR 0x04#7 rs2 rs1 0#3 rd 0x57#7)
  | .pvSubScH rd rs1 rs2 => .word (encR 0x04#7 rs2 rs1 4#3 rd 0x57#7)
  | .pvSubSciH rd rs1 imm6 => .word (encPVI 0x02#6 imm6 rs1 6#3 rd)
  | .pvSubB rd rs1 rs2 => .word (encR 0x04#7 rs2 rs1 1#3 rd 0x57#7)
  | .pvSubScB rd rs1 rs2 => .word (encR 0x04#7 rs2 rs1 5#3 rd 0x57#7)
  | .pvSubSciB rd rs1 imm6 => .word (encPVI 0x02#6 imm6 rs1 7#3 rd)
  | .pvAvgH rd rs1 rs2 => .word (encR 0x08#7 rs2 rs1 0#3 rd 0x57#7)
  | .pvAvgScH rd rs1 rs2 => .word (encR 0x08#7 rs2 rs1 4#3 rd 0x57#7)
  | .pvAvgSciH rd rs1 imm6 => .word (encPVI 0x04#6 imm6 rs1 6#3 rd)
  | .pvAvgB rd rs1 rs2 => .word (encR 0x08#7 rs2 rs1 1#3 rd 0x57#7)
  | .pvAvgScB rd rs1 rs2 => .word (encR 0x08#7 rs2 rs1 5#3 rd 0x57#7)
  | .pvAvgSciB rd rs1 imm6 => .word (encPVI 0x04#6 imm6 rs1 7#3 rd)
  | .pvAvguH rd rs1 rs2 => .word (encR 0x0C#7 rs2 rs1 0#3 rd 0x57#7)
  | .pvAvguScH rd rs1 rs2 => .word (encR 0x0C#7 rs2 rs1 4#3 rd 0x57#7)
  | .pvAvguSciH rd rs1 imm6 => .word (encPVI 0x06#6 imm6 rs1 6#3 rd)
  | .pvAvguB rd rs1 rs2 => .word (encR 0x0C#7 rs2 rs1 1#3 rd 0x57#7)
  | .pvAvguScB rd rs1 rs2 => .word (encR 0x0C#7 rs2 rs1 5#3 rd 0x57#7)
  | .pvAvguSciB rd rs1 imm6 => .word (encPVI 0x06#6 imm6 rs1 7#3 rd)
  | .pvMinH rd rs1 rs2 => .word (encR 0x10#7 rs2 rs1 0#3 rd 0x57#7)
  | .pvMinScH rd rs1 rs2 => .word (encR 0x10#7 rs2 rs1 4#3 rd 0x57#7)
  | .pvMinSciH rd rs1 imm6 => .word (encPVI 0x08#6 imm6 rs1 6#3 rd)
  | .pvMinB rd rs1 rs2 => .word (encR 0x10#7 rs2 rs1 1#3 rd 0x57#7)
  | .pvMinScB rd rs1 rs2 => .word (encR 0x10#7 rs2 rs1 5#3 rd 0x57#7)
  | .pvMinSciB rd rs1 imm6 => .word (encPVI 0x08#6 imm6 rs1 7#3 rd)
  | .pvMinuH rd rs1 rs2 => .word (encR 0x14#7 rs2 rs1 0#3 rd 0x57#7)
  | .pvMinuScH rd rs1 rs2 => .word (encR 0x14#7 rs2 rs1 4#3 rd 0x57#7)
  | .pvMinuSciH rd rs1 imm6 => .word (encPVI 0x0A#6 imm6 rs1 6#3 rd)
  | .pvMinuB rd rs1 rs2 => .word (encR 0x14#7 rs2 rs1 1#3 rd 0x57#7)
  | .pvMinuScB rd rs1 rs2 => .word (encR 0x14#7 rs2 rs1 5#3 rd 0x57#7)
  | .pvMinuSciB rd rs1 imm6 => .word (encPVI 0x0A#6 imm6 rs1 7#3 rd)
  | .pvMaxH rd rs1 rs2 => .word (encR 0x18#7 rs2 rs1 0#3 rd 0x57#7)
  | .pvMaxScH rd rs1 rs2 => .word (encR 0x18#7 rs2 rs1 4#3 rd 0x57#7)
  | .pvMaxSciH rd rs1 imm6 => .word (encPVI 0x0C#6 imm6 rs1 6#3 rd)
  | .pvMaxB rd rs1 rs2 => .word (encR 0x18#7 rs2 rs1 1#3 rd 0x57#7)
  | .pvMaxScB rd rs1 rs2 => .word (encR 0x18#7 rs2 rs1 5#3 rd 0x57#7)
  | .pvMaxSciB rd rs1 imm6 => .word (encPVI 0x0C#6 imm6 rs1 7#3 rd)
  | .pvMaxuH rd rs1 rs2 => .word (encR 0x1C#7 rs2 rs1 0#3 rd 0x57#7)
  | .pvMaxuScH rd rs1 rs2 => .word (encR 0x1C#7 rs2 rs1 4#3 rd 0x57#7)
  | .pvMaxuSciH rd rs1 imm6 => .word (encPVI 0x0E#6 imm6 rs1 6#3 rd)
  | .pvMaxuB rd rs1 rs2 => .word (encR 0x1C#7 rs2 rs1 1#3 rd 0x57#7)
  | .pvMaxuScB rd rs1 rs2 => .word (encR 0x1C#7 rs2 rs1 5#3 rd 0x57#7)
  | .pvMaxuSciB rd rs1 imm6 => .word (encPVI 0x0E#6 imm6 rs1 7#3 rd)
  | .pvSrlH rd rs1 rs2 => .word (encR 0x20#7 rs2 rs1 0#3 rd 0x57#7)
  | .pvSrlScH rd rs1 rs2 => .word (encR 0x20#7 rs2 rs1 4#3 rd 0x57#7)
  | .pvSrlSciH rd rs1 imm6 => .word (encPVI 0x10#6 imm6 rs1 6#3 rd)
  | .pvSrlB rd rs1 rs2 => .word (encR 0x20#7 rs2 rs1 1#3 rd 0x57#7)
  | .pvSrlScB rd rs1 rs2 => .word (encR 0x20#7 rs2 rs1 5#3 rd 0x57#7)
  | .pvSrlSciB rd rs1 imm6 => .word (encPVI 0x10#6 imm6 rs1 7#3 rd)
  | .pvSraH rd rs1 rs2 => .word (encR 0x24#7 rs2 rs1 0#3 rd 0x57#7)
  | .pvSraScH rd rs1 rs2 => .word (encR 0x24#7 rs2 rs1 4#3 rd 0x57#7)
  | .pvSraSciH rd rs1 imm6 => .word (encPVI 0x12#6 imm6 rs1 6#3 rd)
  | .pvSraB rd rs1 rs2 => .word (encR 0x24#7 rs2 rs1 1#3 rd 0x57#7)
  | .pvSraScB rd rs1 rs2 => .word (encR 0x24#7 rs2 rs1 5#3 rd 0x57#7)
  | .pvSraSciB rd rs1 imm6 => .word (encPVI 0x12#6 imm6 rs1 7#3 rd)
  | .pvSllH rd rs1 rs2 => .word (encR 0x28#7 rs2 rs1 0#3 rd 0x57#7)
  | .pvSllScH rd rs1 rs2 => .word (encR 0x28#7 rs2 rs1 4#3 rd 0x57#7)
  | .pvSllSciH rd rs1 imm6 => .word (encPVI 0x14#6 imm6 rs1 6#3 rd)
  | .pvSllB rd rs1 rs2 => .word (encR 0x28#7 rs2 rs1 1#3 rd 0x57#7)
  | .pvSllScB rd rs1 rs2 => .word (encR 0x28#7 rs2 rs1 5#3 rd 0x57#7)
  | .pvSllSciB rd rs1 imm6 => .word (encPVI 0x14#6 imm6 rs1 7#3 rd)
  | .pvOrH rd rs1 rs2 => .word (encR 0x2C#7 rs2 rs1 0#3 rd 0x57#7)
  | .pvOrScH rd rs1 rs2 => .word (encR 0x2C#7 rs2 rs1 4#3 rd 0x57#7)
  | .pvOrSciH rd rs1 imm6 => .word (encPVI 0x16#6 imm6 rs1 6#3 rd)
  | .pvOrB rd rs1 rs2 => .word (encR 0x2C#7 rs2 rs1 1#3 rd 0x57#7)
  | .pvOrScB rd rs1 rs2 => .word (encR 0x2C#7 rs2 rs1 5#3 rd 0x57#7)
  | .pvOrSciB rd rs1 imm6 => .word (encPVI 0x16#6 imm6 rs1 7#3 rd)
  | .pvXorH rd rs1 rs2 => .word (encR 0x30#7 rs2 rs1 0#3 rd 0x57#7)
  | .pvXorScH rd rs1 rs2 => .word (encR 0x30#7 rs2 rs1 4#3 rd 0x57#7)
  | .pvXorSciH rd rs1 imm6 => .word (encPVI 0x18#6 imm6 rs1 6#3 rd)
  | .pvXorB rd rs1 rs2 => .word (encR 0x30#7 rs2 rs1 1#3 rd 0x57#7)
  | .pvXorScB rd rs1 rs2 => .word (encR 0x30#7 rs2 rs1 5#3 rd 0x57#7)
  | .pvXorSciB rd rs1 imm6 => .word (encPVI 0x18#6 imm6 rs1 7#3 rd)
  | .pvAndH rd rs1 rs2 => .word (encR 0x34#7 rs2 rs1 0#3 rd 0x57#7)
  | .pvAndScH rd rs1 rs2 => .word (encR 0x34#7 rs2 rs1 4#3 rd 0x57#7)
  | .pvAndSciH rd rs1 imm6 => .word (encPVI 0x1A#6 imm6 rs1 6#3 rd)
  | .pvAndB rd rs1 rs2 => .word (encR 0x34#7 rs2 rs1 1#3 rd 0x57#7)
  | .pvAndScB rd rs1 rs2 => .word (encR 0x34#7 rs2 rs1 5#3 rd 0x57#7)
  | .pvAndSciB rd rs1 imm6 => .word (encPVI 0x1A#6 imm6 rs1 7#3 rd)
  | .pvAbsH rd rs1 => .word (encR 0x38#7 0 rs1 0#3 rd 0x57#7)
  | .pvAbsB rd rs1 => .word (encR 0x38#7 0 rs1 1#3 rd 0x57#7)
  | .pvExtractH rd rs1 imm6 => .word (encPVI 0x1E#6 imm6 rs1 6#3 rd)
  | .pvExtractB rd rs1 imm6 => .word (encPVI 0x1E#6 imm6 rs1 7#3 rd)
  | .pvExtractuH rd rs1 imm6 => .word (encPVI 0x24#6 imm6 rs1 6#3 rd)
  | .pvExtractuB rd rs1 imm6 => .word (encPVI 0x24#6 imm6 rs1 7#3 rd)
  | .pvInsertH rd rs1 imm6 => .word (encPVI 0x2C#6 imm6 rs1 6#3 rd)
  | .pvInsertB rd rs1 imm6 => .word (encPVI 0x2C#6 imm6 rs1 7#3 rd)
  | .pvDotupH rd rs1 rs2 => .word (encR 0x40#7 rs2 rs1 0#3 rd 0x57#7)
  | .pvDotupScH rd rs1 rs2 => .word (encR 0x40#7 rs2 rs1 4#3 rd 0x57#7)
  | .pvDotupSciH rd rs1 imm6 => .word (encPVI 0x20#6 imm6 rs1 6#3 rd)
  | .pvDotupB rd rs1 rs2 => .word (encR 0x40#7 rs2 rs1 1#3 rd 0x57#7)
  | .pvDotupScB rd rs1 rs2 => .word (encR 0x40#7 rs2 rs1 5#3 rd 0x57#7)
  | .pvDotupSciB rd rs1 imm6 => .word (encPVI 0x20#6 imm6 rs1 7#3 rd)
  | .pvDotuspH rd rs1 rs2 => .word (encR 0x44#7 rs2 rs1 0#3 rd 0x57#7)
  | .pvDotuspScH rd rs1 rs2 => .word (encR 0x44#7 rs2 rs1 4#3 rd 0x57#7)
  | .pvDotuspSciH rd rs1 imm6 => .word (encPVI 0x22#6 imm6 rs1 6#3 rd)
  | .pvDotuspB rd rs1 rs2 => .word (encR 0x44#7 rs2 rs1 1#3 rd 0x57#7)
  | .pvDotuspScB rd rs1 rs2 => .word (encR 0x44#7 rs2 rs1 5#3 rd 0x57#7)
  | .pvDotuspSciB rd rs1 imm6 => .word (encPVI 0x22#6 imm6 rs1 7#3 rd)
  | .pvDotspH rd rs1 rs2 => .word (encR 0x4C#7 rs2 rs1 0#3 rd 0x57#7)
  | .pvDotspScH rd rs1 rs2 => .word (encR 0x4C#7 rs2 rs1 4#3 rd 0x57#7)
  | .pvDotspSciH rd rs1 imm6 => .word (encPVI 0x26#6 imm6 rs1 6#3 rd)
  | .pvDotspB rd rs1 rs2 => .word (encR 0x4C#7 rs2 rs1 1#3 rd 0x57#7)
  | .pvDotspScB rd rs1 rs2 => .word (encR 0x4C#7 rs2 rs1 5#3 rd 0x57#7)
  | .pvDotspSciB rd rs1 imm6 => .word (encPVI 0x26#6 imm6 rs1 7#3 rd)
  | .pvSdotupH rd rs1 rs2 => .word (encR 0x50#7 rs2 rs1 0#3 rd 0x57#7)
  | .pvSdotupScH rd rs1 rs2 => .word (encR 0x50#7 rs2 rs1 4#3 rd 0x57#7)
  | .pvSdotupSciH rd rs1 imm6 => .word (encPVI 0x28#6 imm6 rs1 6#3 rd)
  | .pvSdotupB rd rs1 rs2 => .word (encR 0x50#7 rs2 rs1 1#3 rd 0x57#7)
  | .pvSdotupScB rd rs1 rs2 => .word (encR 0x50#7 rs2 rs1 5#3 rd 0x57#7)
  | .pvSdotupSciB rd rs1 imm6 => .word (encPVI 0x28#6 imm6 rs1 7#3 rd)
  | .pvSdotuspH rd rs1 rs2 => .word (encR 0x54#7 rs2 rs1 0#3 rd 0x57#7)
  | .pvSdotuspScH rd rs1 rs2 => .word (encR 0x54#7 rs2 rs1 4#3 rd 0x57#7)
  | .pvSdotuspSciH rd rs1 imm6 => .word (encPVI 0x2A#6 imm6 rs1 6#3 rd)
  | .pvSdotuspB rd rs1 rs2 => .word (encR 0x54#7 rs2 rs1 1#3 rd 0x57#7)
  | .pvSdotuspScB rd rs1 rs2 => .word (encR 0x54#7 rs2 rs1 5#3 rd 0x57#7)
  | .pvSdotuspSciB rd rs1 imm6 => .word (encPVI 0x2A#6 imm6 rs1 7#3 rd)
  | .pvSdotspH rd rs1 rs2 => .word (encR 0x5C#7 rs2 rs1 0#3 rd 0x57#7)
  | .pvSdotspScH rd rs1 rs2 => .word (encR 0x5C#7 rs2 rs1 4#3 rd 0x57#7)
  | .pvSdotspSciH rd rs1 imm6 => .word (encPVI 0x2E#6 imm6 rs1 6#3 rd)
  | .pvSdotspB rd rs1 rs2 => .word (encR 0x5C#7 rs2 rs1 1#3 rd 0x57#7)
  | .pvSdotspScB rd rs1 rs2 => .word (encR 0x5C#7 rs2 rs1 5#3 rd 0x57#7)
  | .pvSdotspSciB rd rs1 imm6 => .word (encPVI 0x2E#6 imm6 rs1 7#3 rd)
  | .pvShuffleH rd rs1 rs2 => .word (encR 0x60#7 rs2 rs1 0#3 rd 0x57#7)
  | .pvShuffleB rd rs1 rs2 => .word (encR 0x60#7 rs2 rs1 1#3 rd 0x57#7)
  | .pvShuffleSciH rd rs1 imm6 => .word (encPVI 0x30#6 imm6 rs1 6#3 rd)
  | .pvShuffleI0SciB rd rs1 imm6 => .word (encPVI 0x30#6 imm6 rs1 7#3 rd)
  | .pvShuffleI1SciB rd rs1 imm6 => .word (encPVI 0x3A#6 imm6 rs1 7#3 rd)
  | .pvShuffleI2SciB rd rs1 imm6 => .word (encPVI 0x3C#6 imm6 rs1 7#3 rd)
  | .pvShuffleI3SciB rd rs1 imm6 => .word (encPVI 0x3E#6 imm6 rs1 7#3 rd)
  | .pvShuffle2H rd rs1 rs2 => .word (encR 0x64#7 rs2 rs1 0#3 rd 0x57#7)
  | .pvShuffle2B rd rs1 rs2 => .word (encR 0x64#7 rs2 rs1 1#3 rd 0x57#7)
  | .pvPackH rd rs1 rs2 => .word (encR 0x68#7 rs2 rs1 0#3 rd 0x57#7)
  | .pvPackhiB rd rs1 rs2 => .word (encR 0x6C#7 rs2 rs1 1#3 rd 0x57#7)
  | .pvPackloB rd rs1 rs2 => .word (encR 0x70#7 rs2 rs1 1#3 rd 0x57#7)
  | .pvCmpeqH rd rs1 rs2 => .word (encR 0x02#7 rs2 rs1 0#3 rd 0x57#7)
  | .pvCmpeqScH rd rs1 rs2 => .word (encR 0x02#7 rs2 rs1 4#3 rd 0x57#7)
  | .pvCmpeqSciH rd rs1 imm6 => .word (encPVI 0x01#6 imm6 rs1 6#3 rd)
  | .pvCmpeqB rd rs1 rs2 => .word (encR 0x02#7 rs2 rs1 1#3 rd 0x57#7)
  | .pvCmpeqScB rd rs1 rs2 => .word (encR 0x02#7 rs2 rs1 5#3 rd 0x57#7)
  | .pvCmpeqSciB rd rs1 imm6 => .word (encPVI 0x01#6 imm6 rs1 7#3 rd)
  | .pvCmpneH rd rs1 rs2 => .word (encR 0x06#7 rs2 rs1 0#3 rd 0x57#7)
  | .pvCmpneScH rd rs1 rs2 => .word (encR 0x06#7 rs2 rs1 4#3 rd 0x57#7)
  | .pvCmpneSciH rd rs1 imm6 => .word (encPVI 0x03#6 imm6 rs1 6#3 rd)
  | .pvCmpneB rd rs1 rs2 => .word (encR 0x06#7 rs2 rs1 1#3 rd 0x57#7)
  | .pvCmpneScB rd rs1 rs2 => .word (encR 0x06#7 rs2 rs1 5#3 rd 0x57#7)
  | .pvCmpneSciB rd rs1 imm6 => .word (encPVI 0x03#6 imm6 rs1 7#3 rd)
  | .pvCmpgtH rd rs1 rs2 => .word (encR 0x0A#7 rs2 rs1 0#3 rd 0x57#7)
  | .pvCmpgtScH rd rs1 rs2 => .word (encR 0x0A#7 rs2 rs1 4#3 rd 0x57#7)
  | .pvCmpgtSciH rd rs1 imm6 => .word (encPVI 0x05#6 imm6 rs1 6#3 rd)
  | .pvCmpgtB rd rs1 rs2 => .word (encR 0x0A#7 rs2 rs1 1#3 rd 0x57#7)
  | .pvCmpgtScB rd rs1 rs2 => .word (encR 0x0A#7 rs2 rs1 5#3 rd 0x57#7)
  | .pvCmpgtSciB rd rs1 imm6 => .word (encPVI 0x05#6 imm6 rs1 7#3 rd)
  | .pvCmpgeH rd rs1 rs2 => .word (encR 0x0E#7 rs2 rs1 0#3 rd 0x57#7)
  | .pvCmpgeScH rd rs1 rs2 => .word (encR 0x0E#7 rs2 rs1 4#3 rd 0x57#7)
  | .pvCmpgeSciH rd rs1 imm6 => .word (encPVI 0x07#6 imm6 rs1 6#3 rd)
  | .pvCmpgeB rd rs1 rs2 => .word (encR 0x0E#7 rs2 rs1 1#3 rd 0x57#7)
  | .pvCmpgeScB rd rs1 rs2 => .word (encR 0x0E#7 rs2 rs1 5#3 rd 0x57#7)
  | .pvCmpgeSciB rd rs1 imm6 => .word (encPVI 0x07#6 imm6 rs1 7#3 rd)
  | .pvCmpltH rd rs1 rs2 => .word (encR 0x12#7 rs2 rs1 0#3 rd 0x57#7)
  | .pvCmpltScH rd rs1 rs2 => .word (encR 0x12#7 rs2 rs1 4#3 rd 0x57#7)
  | .pvCmpltSciH rd rs1 imm6 => .word (encPVI 0x09#6 imm6 rs1 6#3 rd)
  | .pvCmpltB rd rs1 rs2 => .word (encR 0x12#7 rs2 rs1 1#3 rd 0x57#7)
  | .pvCmpltScB rd rs1 rs2 => .word (encR 0x12#7 rs2 rs1 5#3 rd 0x57#7)
  | .pvCmpltSciB rd rs1 imm6 => .word (encPVI 0x09#6 imm6 rs1 7#3 rd)
  | .pvCmpleH rd rs1 rs2 => .word (encR 0x16#7 rs2 rs1 0#3 rd 0x57#7)
  | .pvCmpleScH rd rs1 rs2 => .word (encR 0x16#7 rs2 rs1 4#3 rd 0x57#7)
  | .pvCmpleSciH rd rs1 imm6 => .word (encPVI 0x0B#6 imm6 rs1 6#3 rd)
  | .pvCmpleB rd rs1 rs2 => .word (encR 0x16#7 rs2 rs1 1#3 rd 0x57#7)
  | .pvCmpleScB rd rs1 rs2 => .word (encR 0x16#7 rs2 rs1 5#3 rd 0x57#7)
  | .pvCmpleSciB rd rs1 imm6 => .word (encPVI 0x0B#6 imm6 rs1 7#3 rd)
  | .pvCmpgtuH rd rs1 rs2 => .word (encR 0x1A#7 rs2 rs1 0#3 rd 0x57#7)
  | .pvCmpgtuScH rd rs1 rs2 => .word (encR 0x1A#7 rs2 rs1 4#3 rd 0x57#7)
  | .pvCmpgtuSciH rd rs1 imm6 => .word (encPVI 0x0D#6 imm6 rs1 6#3 rd)
  | .pvCmpgtuB rd rs1 rs2 => .word (encR 0x1A#7 rs2 rs1 1#3 rd 0x57#7)
  | .pvCmpgtuScB rd rs1 rs2 => .word (encR 0x1A#7 rs2 rs1 5#3 rd 0x57#7)
  | .pvCmpgtuSciB rd rs1 imm6 => .word (encPVI 0x0D#6 imm6 rs1 7#3 rd)
  | .pvCmpgeuH rd rs1 rs2 => .word (encR 0x1E#7 rs2 rs1 0#3 rd 0x57#7)
  | .pvCmpgeuScH rd rs1 rs2 => .word (encR 0x1E#7 rs2 rs1 4#3 rd 0x57#7)
  | .pvCmpgeuSciH rd rs1 imm6 => .word (encPVI 0x0F#6 imm6 rs1 6#3 rd)
  | .pvCmpgeuB rd rs1 rs2 => .word (encR 0x1E#7 rs2 rs1 1#3 rd 0x57#7)
  | .pvCmpgeuScB rd rs1 rs2 => .word (encR 0x1E#7 rs2 rs1 5#3 rd 0x57#7)
  | .pvCmpgeuSciB rd rs1 imm6 => .word (encPVI 0x0F#6 imm6 rs1 7#3 rd)
  | .pvCmpltuH rd rs1 rs2 => .word (encR 0x22#7 rs2 rs1 0#3 rd 0x57#7)
  | .pvCmpltuScH rd rs1 rs2 => .word (encR 0x22#7 rs2 rs1 4#3 rd 0x57#7)
  | .pvCmpltuSciH rd rs1 imm6 => .word (encPVI 0x11#6 imm6 rs1 6#3 rd)
  | .pvCmpltuB rd rs1 rs2 => .word (encR 0x22#7 rs2 rs1 1#3 rd 0x57#7)
  | .pvCmpltuScB rd rs1 rs2 => .word (encR 0x22#7 rs2 rs1 5#3 rd 0x57#7)
  | .pvCmpltuSciB rd rs1 imm6 => .word (encPVI 0x11#6 imm6 rs1 7#3 rd)
  | .pvCmpleuH rd rs1 rs2 => .word (encR 0x26#7 rs2 rs1 0#3 rd 0x57#7)
  | .pvCmpleuScH rd rs1 rs2 => .word (encR 0x26#7 rs2 rs1 4#3 rd 0x57#7)
  | .pvCmpleuSciH rd rs1 imm6 => .word (encPVI 0x13#6 imm6 rs1 6#3 rd)
  | .pvCmpleuB rd rs1 rs2 => .word (encR 0x26#7 rs2 rs1 1#3 rd 0x57#7)
  | .pvCmpleuScB rd rs1 rs2 => .word (encR 0x26#7 rs2 rs1 5#3 rd 0x57#7)
  | .pvCmpleuSciB rd rs1 imm6 => .word (encPVI 0x13#6 imm6 rs1 7#3 rd)

/-- The bytes of a word as the hardware stores them (20_memory.md R104). -/
def Code.bytes : Code → List Byte
  | .half w => [w.extractLsb' 0 8, w.extractLsb' 8 8]
  | .word w => [w.extractLsb' 0 8, w.extractLsb' 8 8, w.extractLsb' 16 8, w.extractLsb' 24 8]

end Sys2Proof
end

