-- ==== Sys2Proof/Config.lean ====
section
/-! DEFINITION. What one instance of the core fixes (00_scope.md R4, the parameters marked OPEN), and the free values: the
values that the spec leaves open while the machine goes on (00_scope.md R10, `draw`). A free value is a constant with no
body, applied to the number of values drawn so far (`State.draws`), so nothing can be proved of it and a claim holds
whatever it is (notes/assumptions/12.md). -/

namespace Sys2Proof

/-- Parameter PERF_COUNTERS: one shared counter (ASIC) or one counter per event (60_exceptions.md R722). -/
inductive PerfCounters where
  | single
  | individual
deriving DecidableEq, Repr

/-- Parameter EXTRACT_WIDTH: the length of the field of the four extract instructions, ls3 + 1 or ls3
(47_pulp_alu.md R520, D22). -/
inductive ExtractWidth where
  | plus1
  | literal
deriving DecidableEq, Repr

/-- What stands behind a range of addresses (92_eei_decisions.md D2). -/
inductive RegionKind where
  /-- Storage. -/
  | memory
  /-- A device: it answers every access; what a read gives is not in the spec (20_memory.md R120). -/
  | device
  /-- It never grants or never answers: an access leaves the core stuck (20_memory.md R111,
  70_reset_and_hazards.md R813). -/
  | silent
deriving DecidableEq, Repr

/-- One range of addresses of the platform (parameter MEM, 92_eei_decisions.md D2): `size` bytes from `base`. -/
structure Region where
  base : Nat
  size : Nat
  readable : Bool
  writable : Bool
  executable : Bool
  /-- Other bus masters may store here (20_memory.md R119, 92_eei_decisions.md D35). -/
  shared : Bool
  kind : RegionKind
deriving DecidableEq, Repr

/-- The OPEN parameters of 00_scope.md R4. BOOT_ADDR is an input that may change at run time, so it is state. -/
structure Params where
  /-- FPU = 1: the f registers, the FP CSRs and RV32F are present. -/
  fpu : Bool
  clusterId : BitVec 6
  coreId : BitVec 4
  perfCounters : PerfCounters
  extractWidth : ExtractWidth
  /-- CLB_MINUS_ONE = 1: p.clb answers the count less one (47_pulp_alu.md R484). -/
  clbMinusOne : Bool
  /-- MEM: an address that no region covers does not answer (20_memory.md R110). -/
  mem : List Region
  /-- MEM: the instruction port and the data port reach the same storage (10_state.md R50, 20_memory.md R100). -/
  unified : Bool
deriving DecidableEq, Repr

/-- The instance the reset state has: FPU present, EXTRACT_WIDTH and CLB_MINUS_ONE at the spec's defaults, and one
storage behind every address of both ports. DESIGN CHOICE: the spec leaves the instance open; unsafe (notes/assumptions/6.md and 7.md). -/
def Params.default : Params where
  fpu := true
  clusterId := 0
  coreId := 0
  perfCounters := .individual
  extractWidth := .plus1
  clbMinusOne := false
  mem := [{ base := 0, size := 2 ^ 32, readable := true, writable := true, executable := true, shared := true,
            kind := .memory }]
  unified := true

namespace Config

/-- What a bit-field instruction writes when its field runs past bit 31 (47_pulp_alu.md R520). -/
opaque freeField : Nat → Word

/-- What a post-increment load leaves in the register that is both destination and base (45_pulp_postinc_loadstore.md
R425). -/
opaque freeLoadResult : Nat → Word

/-- What pv.extract, pv.extractu and pv.insert write when the immediate names no element (49_pulp_vector.md R599 to
R601). -/
opaque freeElement : Nat → Word

/-- The result of fdiv.s and fsqrt.s while fprec is not 0 (44_rv32f.md R383). -/
opaque freeFpResult : Nat → Word

/-- The flags that fdiv.s and fsqrt.s raise while fprec is not 0 (44_rv32f.md R383). -/
opaque freeFpFlags : Nat → BitVec 5

/-- What a read of a live performance counter gives (60_exceptions.md R725). -/
opaque freeCounterRead : Nat → Word

/-- By how much event counter `n` advances in a step where the spec does not say (60_exceptions.md R721, R722). -/
opaque freeCount : Nat → Nat → Nat

/-- What a data read of a device gives at an address (20_memory.md R120). -/
opaque freeDeviceByte : Nat → Nat → Byte

/-- What an instruction read of a device gives at an address (20_memory.md R120). -/
opaque freeDeviceCode : Nat → Nat → Byte

/-- Whether an interrupt request that was pending across a halt is held for one more instruction (60_exceptions.md
R741). -/
opaque freeHolds : Nat → Bool

/-- DBG_CAUSE.CAUSE after a halt request or a single step (60_exceptions.md R745). -/
opaque freeCause : Nat → BitVec 5

/-- What a read of DBG_BPDATAk gives (60_exceptions.md R746). -/
opaque freeBpData : Nat → Word

/-- Whether a debug halt request leaves a sleeping core asleep (60_exceptions.md R756). -/
opaque freeStaysAsleep : Nat → Bool

end Config

end Sys2Proof
end

