-- ==== Sys2Proof/Machine/State.lean ====
section
/-! DEFINITION. The state of the machine: one RI5CY hart, its memory, its debug unit and its inputs (10_state.md), as
plain data; the reasons a step can stop; the state after reset (10_state.md R49). -/

namespace Sys2Proof.Machine

/-- One hardware-loop register set: lpstart, lpend (the address of the last instruction of the body), lpcount
(10_state.md R36). -/
structure LoopRegs where
  start : Word
  stop : Word
  count : Word
deriving DecidableEq, Repr

/-- The two ports of the core to memory (20_memory.md R100). -/
inductive Port where
  | data
  | instr
deriving DecidableEq, Repr

/-- What the world outside the core can do between two steps of the hart. DESIGN CHOICE in form: the spec names the
inputs, the list of them is the model's (notes/assumptions/9.md). DESIGN CHOICE: reset is the initial state only, no input
asserts it again during a run; the spec says nothing of what happens then (70_reset_and_hazards.md R800;
notes/assumptions/47.md). -/
inductive Input where
  /-- The hart takes one step. -/
  | tick
  /-- The event/interrupt controller presents this request, or none (10_state.md R44). -/
  | irq (line : Option (BitVec 5))
  /-- The BOOT_ADDR input takes this value (10_state.md R48). -/
  | bootAddr (a : Word)
  /-- The debug host reads a debug address (60_exceptions.md R753). -/
  | debugRead (a : BitVec 15)
  /-- The debug host writes a debug address (60_exceptions.md R753). -/
  | debugWrite (a : BitVec 15) (v : Word)
  /-- debug_halt_i is pulsed (60_exceptions.md R741). -/
  | haltPulse
  /-- debug_resume_i is pulsed (60_exceptions.md R741). -/
  | resumePulse
  /-- Another bus master stores a byte in the storage that a port of the core reaches (20_memory.md R119). -/
  | busWrite (p : Port) (a : Word) (b : Byte)
  /-- Another bus master will store a byte between the two transactions of the hart's next split access
  (20_memory.md R108). -/
  | busWriteBetween (a : Word) (b : Byte)
deriving DecidableEq, Repr

/-- Everything the spec gives the machine. Fields marked OWN are the model's, not the spec's. -/
structure State where
  /-- The parameters of the instance; no step changes them (00_scope.md R4). -/
  params : Params
  /-- x1 to x31; x0 is no state (10_state.md R20, R21). -/
  x : Vector Word 31
  /-- f0 to f31, used when FPU = 1 (10_state.md R25). -/
  f : Vector Word 32
  /-- The address of the next instruction; also DBG_NPC (10_state.md R23, 60_exceptions.md R747). -/
  pc : Word
  /-- CSR 0x300 (10_state.md R27). -/
  mstatus : Word
  /-- CSR 0x341 (10_state.md R29). -/
  mepc : Word
  /-- CSR 0x342 (10_state.md R30). -/
  mcause : Word
  /-- CSR 0x7A1 (10_state.md R33). -/
  pcmr : Word
  /-- CSR 0x7A0 (10_state.md R34). -/
  pcer : Word
  /-- PCCR0 to PCCR30, CSRs 0x780 to 0x79E; with PERF_COUNTERS = single the first is the one shared counter
  (10_state.md R35). -/
  pccr : Vector Word 31
  /-- CSR 0x001: NV, DZ, OF, UF, NX from bit 4 down (10_state.md R38). -/
  fflags : BitVec 5
  /-- CSR 0x002 (10_state.md R39). -/
  frm : BitVec 3
  /-- CSR 0x006 (10_state.md R41). -/
  fprec : BitVec 5
  /-- CSRs 0x7B0 to 0x7B2 (10_state.md R36). -/
  loop0 : LoopRegs
  /-- CSRs 0x7B4 to 0x7B6 (10_state.md R36). -/
  loop1 : LoopRegs
  /-- The core is sleeping (10_state.md R45). -/
  sleeping : Bool
  /-- The interrupt request input: no request, or one with its id (10_state.md R44). -/
  irq : Option (BitVec 5)
  /-- The acknowledge output of the last step: the id of the interrupt it took (60_exceptions.md R713). -/
  irqAck : Option (BitVec 5)
  /-- The BOOT_ADDR input (10_state.md R48). -/
  bootAddr : Word
  /-- The core is in debug mode: DBG_CTRL.HALT, debug_halted_o (60_exceptions.md R741). -/
  halted : Bool
  /-- DBG_CTRL.SSTE (60_exceptions.md R742). -/
  sste : Bool
  /-- DBG_HIT.SSTH (60_exceptions.md R743). -/
  ssth : Bool
  /-- DBG_IE: bits 11 and 7:0 (60_exceptions.md R744). -/
  dbgIe : Word
  /-- DBG_CAUSE.CAUSE (60_exceptions.md R745). -/
  dbgCause : BitVec 5
  /-- DBG_PPC: the address of the last instruction executed (60_exceptions.md R748, R750). -/
  ppc : Word
  /-- debug_rdata_o: what the last debug read gave (60_exceptions.md R753). -/
  dbgRdata : Word
  /-- The bytes, not 0, of the storage that the data port reaches, by rising address; with `params.unified` the instruction
  port reaches it too (10_state.md R50). -/
  mem : List Host.Cell
  /-- The bytes, not 0, of the storage that only the instruction port reaches, when the two differ (10_state.md R50). -/
  imem : List Host.Cell
  /-- The prefetch buffer as far as a program can see it: the addresses, of the instruction port's storage and of
  devices, stored to since the last `fence.i`, rising (10_state.md R43, 20_memory.md R118). -/
  dirty : List Nat
  /-- OWN: the stores of another bus master that take effect between the two transactions of the hart's next split access,
  in order (20_memory.md R108). -/
  between : List (Word × Byte)
  /-- OWN: the registers that the immediately preceding instruction wrote (40_rv32i_base.md R204); nothing is known of them
  after a trap entry and after debug mode (notes/assumptions/48.md). -/
  prevWrites : Option (List Reg)
  /-- OWN: the interrupt request was pending when the core left debug mode, and has not been taken or withdrawn since: when
  it is taken is not promised (60_exceptions.md R741). -/
  heldIrq : Bool
  /-- OWN: what the world does next; when the list is empty the hart runs on. -/
  inputs : List Input
  /-- OWN: how many free values have been drawn. -/
  draws : Nat
deriving DecidableEq, Repr

/-- Why the machine stops with a fault. -/
inductive Fault where
  /-- An access that the memory never grants or never answers: the core is stuck, no timeout exists (20_memory.md R111,
  70_reset_and_hazards.md R813). Raised by every load, store and fetch of a silent region. Safe: the core goes no
  further. -/
  | stuck (a : Word)
deriving DecidableEq, Repr

/-- Why the model gives a step no meaning. All are safe: nothing can be proved of a run that ends in one. -/
inductive Refusal where
  /-- The instruction has no meaning in this model yet. Raised by no arm of `exec`. -/
  | notModelled (mnemonic : String)
  /-- The word is in a reserved class; raised by the hart's decode (30_encoding.md R171, 42_rv32c.md R312). -/
  | reservedEncoding (c : ReservedClass)
  /-- A reserved rounding mode; raised by the instructions with an rm field (44_rv32f.md R381). -/
  | reservedRounding
  /-- A CSR that does not exist; raised by the CSR instructions and the debug window (10_state.md R42). -/
  | csrUnimplemented (n : CsrNum)
  /-- A write to a read-only CSR; raised by the CSR instructions and the debug window (10_state.md R42). -/
  | csrReadOnly (n : CsrNum)
  /-- `ebreak` with DBG_IE.BP = 0; raised by `ebreak` and `c.ebreak` (41_rv32i_system.md R251). -/
  | breakpointUnhandled
  /-- A hit of a loop whose body is shorter than two instructions; raised by every instruction that ends at lpend
  (46_pulp_hwloop.md R450). -/
  | loopTooShort
  /-- A jump or branch at a hit address; raised by jumps, branches and `mret` (46_pulp_hwloop.md R450). -/
  | loopEndsInJump
  /-- A loop's registers written from inside its active body; raised by `lp.*` and the CSR instructions
  (46_pulp_hwloop.md R450, R452). -/
  | loopWriteInBody
  /-- A fetch of a byte stored since the last `fence.i`; raised by the hart's fetch (20_memory.md R118). -/
  | staleFetch (a : Word)
  /-- An access to an address that MEM does not cover; raised by loads, stores and fetch (20_memory.md R110,
  92_eei_decisions.md D39, 93_implementation_defined.md U4). -/
  | noMemory (a : Word)
  /-- A store of another bus master at an address where MEM does not allow one; raised by the bus inputs (20_memory.md R119,
  92_eei_decisions.md D35). -/
  | busWriteOutside (a : Word)
  /-- A debug access that the spec does not describe; raised by a debug input (10_state.md R46, 60_exceptions.md
  R745, R747, R748). -/
  | debugAccess (a : BitVec 15)
  /-- A halt request in a state where an interrupt or an exception is pending; raised by a debug input (60_exceptions.md
  R709). -/
  | haltRace
deriving DecidableEq, Repr

/-- What an instruction or a step answers. -/
abbrev Result := Host.Outcome State Fault Refusal

/-- An instance with these parameters right after reset, with this BOOT_ADDR (10_state.md R49, 70_reset_and_hazards.md R801,
R802): the pc is `{BOOT_ADDR[31:8], 8'h80}`. The spec gives no value for x, f (notes/assumptions/1.md, 2.md), memory (5.md)
and DBG_PPC (4.md); those of the loop registers, fflags, frm (3.md) and the debug bits (4.md) are the spec's own choice. -/
def State.resetOf (p : Params) (boot : Word) : State where
  params := p
  x := Vector.replicate 31 0
  f := Vector.replicate 32 0
  pc := boot.extractLsb' 8 24 ++ 0x80#8
  mstatus := 0x00001800
  mepc := 0
  mcause := 0
  pcmr := 0x00000003
  pcer := 0
  pccr := Vector.replicate 31 0
  fflags := 0
  frm := 0
  fprec := 0
  loop0 := { start := 0, stop := 0, count := 0 }
  loop1 := { start := 0, stop := 0, count := 0 }
  sleeping := false
  irq := none
  irqAck := none
  bootAddr := boot
  halted := false
  sste := false
  ssth := false
  dbgIe := 0
  dbgCause := 0
  ppc := 0
  dbgRdata := 0
  mem := []
  imem := []
  dirty := []
  between := []
  prevWrites := some []
  heldIrq := false
  inputs := []
  draws := 0

/-- The machine right after reset: the default instance with BOOT_ADDR = 0 (notes/assumptions/7.md). -/
def State.reset : State := State.resetOf Params.default 0

end Sys2Proof.Machine
end

