-- ==== Sys2Proof/Machine/Memory.lean ====
section
/-! DEFINITION. Memory as a list of bytes by rising address in one canonical form, the accesses of 20_memory.md over it, the
set of bytes stored since the last `fence.i`, what MEM answers, devices, and the two transactions of a split access
(20_memory.md R100 to R123). -/

namespace Sys2Proof.Machine

namespace Memory

/-- What an address that the list does not name reads as. DESIGN CHOICE, unsafe: the spec leaves the contents of memory to
the platform (10_state.md R49; notes/assumptions/5.md). -/
def unlisted : Byte := 0

/-- The byte at an address. -/
def lookup : List Host.Cell → Nat → Byte
  | [], _ => unlisted
  | (k, v) :: m, a => if k = a then v else lookup m a

/-- The canonical form above address `lo`: addresses at least `lo`, strictly rising, below 2^32, no entry that an unlisted
address would read as. -/
def wfFrom : Nat → List Host.Cell → Bool
  | _, [] => true
  | lo, (k, v) :: m => decide (lo ≤ k) && decide (k < 2 ^ 32) && decide (v ≠ unlisted) && wfFrom (k + 1) m

/-- The canonical form of memory. -/
def wf (m : List Host.Cell) : Bool := wfFrom 0 m

/-- The byte at an address becomes `v`, in canonical form. -/
def update (a : Nat) (v : Byte) : List Host.Cell → List Host.Cell
  | [] => if v = unlisted then [] else [(a, v)]
  | (k, w) :: m =>
    if k < a then (k, w) :: update a v m
    else if k = a then (if v = unlisted then m else (a, v) :: m)
    else if v = unlisted then (k, w) :: m
    else (a, v) :: (k, w) :: m

/-- Byte read (20_memory.md R103). -/
def read8 (m : List Host.Cell) (a : Word) : Byte := lookup m a.toNat

/-- Byte write (20_memory.md R125). -/
def write8 (m : List Host.Cell) (a : Word) (v : Byte) : List Host.Cell := update a.toNat v m

end Memory

namespace AddrSet

/-- The canonical form of a set of addresses, at least `lo`: strictly rising and below 2^32. -/
def wfFrom : Nat → List Nat → Bool
  | _, [] => true
  | lo, k :: d => decide (lo ≤ k) && decide (k < 2 ^ 32) && wfFrom (k + 1) d

/-- The canonical form of a set of addresses. -/
def wf (d : List Nat) : Bool := wfFrom 0 d

/-- The set with one more address. -/
def insert (a : Nat) : List Nat → List Nat
  | [] => [a]
  | k :: d => if k < a then k :: insert a d else if k = a then k :: d else a :: k :: d

/-- The set without an address. -/
def erase (a : Nat) : List Nat → List Nat
  | [] => []
  | k :: d => if k = a then d else k :: erase a d

end AddrSet

/-- What an access is for. -/
inductive Access where
  | load
  | store
  | fetch
deriving DecidableEq, Repr

/-- Why an access, a fetch or a control transfer ends the step. -/
inductive Stop where
  | fault (f : Fault)
  | refuse (r : Refusal)
deriving DecidableEq, Repr

/-- The outcome of a step that stops. -/
def Stop.result : Stop → Result
  | .fault f => .fault f
  | .refuse r => .refused r

/-- The region covers the address. -/
def Region.covers (r : Region) (a : Nat) : Bool := decide (r.base ≤ a) && decide (a < r.base + r.size)

/-- The region covers the address and permits the access. -/
def Region.answers (r : Region) (k : Access) (a : Nat) : Bool :=
  Region.covers r a &&
    match k with
    | .load => r.readable
    | .store => r.writable
    | .fetch => r.executable

/-- The region that answers an access to one byte: the first of MEM that does (20_memory.md R110, D2). -/
def State.regionAt (s : State) (k : Access) (a : Word) : Option Region :=
  s.params.mem.find? fun r => Region.answers r k a.toNat

/-- What stops an access to one byte: MEM does not cover the address, or nothing ever grants there (20_memory.md R110,
R111). -/
def State.stopAt (s : State) (k : Access) (a : Word) : Option Stop :=
  match s.regionAt k a with
  | none => some (.refuse (.noMemory a))
  | some r =>
    match r.kind with
    | .silent => some (.fault (.stuck a))
    | .memory => none
    | .device => none

/-- A device answers the access to one byte (20_memory.md R120). -/
def State.deviceAt (s : State) (k : Access) (a : Word) : Bool :=
  (s.regionAt k a).any fun r => r.kind == .device

/-- Another bus master may store at the address (20_memory.md R119, D35). -/
def State.sharedAt (s : State) (a : Word) : Bool :=
  s.params.mem.any fun r => Region.covers r a.toNat && r.shared && r.kind == .memory

/-- What stops an access to `n` bytes, the lowest address first (20_memory.md R107). -/
def State.stopAccess (s : State) (k : Access) (a : Word) : Nat → Option Stop
  | 0 => none
  | n + 1 => (s.stopAt k a).or (s.stopAccess k (a + 1) n)

/-- The access to `n` bytes at `a` is made in two transactions: its bytes do not all lie in one aligned word
(20_memory.md R107). -/
def splits (a : Word) (n : Nat) : Bool := decide (4 < a.toNat % 4 + n)

/-- The address of a byte stored to since the last `fence.i` (20_memory.md R118). -/
def State.isDirty (s : State) (a : Word) : Bool := s.dirty.contains a.toNat

/-- The storage that the instruction port reaches (10_state.md R50; notes/assumptions/52.md). -/
def State.codeMem (s : State) : List Host.Cell := if s.params.unified then s.mem else s.imem

/-- The byte of storage at an address, behind the data port. -/
def State.read8 (s : State) (a : Word) : Byte := Memory.read8 s.mem a

/-- A byte is stored behind the data port: memory changes, and a fetch of the byte may be stale (20_memory.md R118;
notes/assumptions/26.md). -/
def State.put8 (s : State) (a : Word) (v : Byte) : State :=
  { s with
    mem := Memory.write8 s.mem a v
    dirty := if s.params.unified then AddrSet.insert a.toNat s.dirty else s.dirty }

/-- A byte is stored behind the instruction port. -/
def State.putCode8 (s : State) (a : Word) (v : Byte) : State :=
  if s.params.unified then s.put8 a v
  else { s with imem := Memory.write8 s.imem a v, dirty := AddrSet.insert a.toNat s.dirty }

/-- The stores of another master that fall between the two transactions of a split access have taken effect
(20_memory.md R108; notes/assumptions/39.md). -/
def State.landed (s : State) : State :=
  s.between.foldl (fun t c => t.put8 c.1 c.2) { s with between := [] }

/-- The state after the transactions of an access to `n` bytes at `a`, apart from what the access itself stores. -/
def State.settle (s : State) (a : Word) (n : Nat) : State := if splits a n then s.landed else s

/-- A load of the byte at an address: what storage holds, or a free value from a device (20_memory.md R120;
notes/assumptions/50.md). -/
def State.load8 (s : State) (a : Word) : Byte :=
  if s.deviceAt .load a then Config.freeDeviceByte s.draws a.toNat else s.read8 a

/-- A fetch of the byte at an address may be stale (20_memory.md R118; notes/assumptions/26.md). -/
def State.markStale (s : State) (a : Word) : State := { s with dirty := AddrSet.insert a.toNat s.dirty }

/-- A store of a byte. What a store to a device does there is outside the core, but a fetch of the byte may be stale as after
every store of this hart (20_memory.md R118, R120; notes/assumptions/50.md). -/
def State.store8 (s : State) (a : Word) (v : Byte) : State :=
  if s.deviceAt .store a then s.markStale a else s.put8 a v

/-- Byte `j` of a load at `a`: one in the next aligned word comes with the second transaction (20_memory.md R107, R108). -/
def State.accessByte (s : State) (a : Word) (j : Nat) : Byte :=
  (if a.toNat % 4 + j < 4 then s else s.landed).load8 (a + BitVec.ofNat 32 j)

/-- Byte `j` of a store at `a`; the second transaction begins with the first byte of the next aligned word (20_memory.md
R107, R108). -/
def State.storeByte (s : State) (a : Word) (j : Nat) (v : Byte) : State :=
  (if a.toNat % 4 + j = 4 then s.landed else s).store8 (a + BitVec.ofNat 32 j) v

/-- A fetch of the byte at an address: what the instruction port's storage holds, or a free value from a device
(20_memory.md R100, R120). -/
def State.code8 (s : State) (a : Word) : Byte :=
  if s.deviceAt .fetch a then Config.freeDeviceCode s.draws a.toNat else Memory.read8 s.codeMem a

/-- A fetch of a half-word, little-endian, addresses modulo 2^32 (20_memory.md R104, R123). -/
def State.code16 (s : State) (a : Word) : Half := s.code8 (a + 1) ++ s.code8 a

end Sys2Proof.Machine
end

