-- ==== Sys2Proof/Machine/Ops.lean ====
section
/-! DEFINITION. The named operations of the machine: registers (00_scope.md R7), loads and stores (R8), the end of an
instruction with the hardware-loop step (46_pulp_hwloop.md R448), control transfers, taking a trap and returning from one
(60_exceptions.md R707, R708), entering debug mode (R750). -/

namespace Sys2Proof.Machine

/-- The length of an instruction in bytes (30_encoding.md R141). -/
abbrev ilen4 : Word := 4
/-- The length of a compressed instruction. -/
abbrev ilen2 : Word := 2

/-- The answer with its next state changed. -/
def mapNext (g : State → State) : Result → Result
  | .next s => .next (g s)
  | .fault f => .fault f
  | .refused r => .refused r

/-! ## Registers -/

/-- `x[r]`; x0 reads 0 (10_state.md R21). -/
def State.readX (s : State) (r : Reg) : Word := if r = 0 then 0 else s.x.getD (r.toNat - 1) 0

/-- `x[r] <- v`; a write to x0 is discarded (10_state.md R21). -/
def State.writeX (s : State) (r : Reg) (v : Word) : State :=
  if r = 0 then s else { s with x := s.x.setIfInBounds (r.toNat - 1) v }

/-- `f[r]`; f0 is an ordinary register (10_state.md R25). -/
def State.readF (s : State) (r : Reg) : Word := s.f.getD r.toNat 0

/-- `f[r] <- v` (10_state.md R25). -/
def State.writeF (s : State) (r : Reg) (v : Word) : State := { s with f := s.f.setIfInBounds r.toNat v }

/-- The register that a 3-bit field names (30_encoding.md R161). -/
def creg (r : CReg) : Reg := 1#2 ++ r

/-- `x1`, the link register of the compressed calls (10_state.md R22). -/
abbrev ra : Reg := 1
/-- `x2`, the base of the stack-pointer forms (20_memory.md R122). -/
abbrev sp : Reg := 2

/-- Flags are sticky: an instruction ORs them in (10_state.md R38). -/
def State.raise (s : State) (flags : BitVec 5) : State := { s with fflags := s.fflags ||| flags }

/-! ## The end of an instruction -/

/-- `hit(L)` for one register set: the instruction at `pc` is the last of the body of an active loop (46_pulp_hwloop.md
R448). -/
def LoopRegs.hit (l : LoopRegs) (pc : Word) : Bool := l.stop == pc && l.count != 0

/-- A hit of either loop. -/
def State.hitsLoop (s : State) : Bool := s.loop0.hit s.pc || s.loop1.hit s.pc

/-- The register set has a body shorter than two instructions: lpstart >= lpend (46_pulp_hwloop.md R450). -/
def LoopRegs.tooShort (l : LoopRegs) : Bool := l.stop.ule l.start

/-- A hit of a loop whose body is too short (46_pulp_hwloop.md R450). -/
def State.hitsShortLoop (s : State) : Bool :=
  (s.loop0.hit s.pc && s.loop0.tooShort) || (s.loop1.hit s.pc && s.loop1.tooShort)

/-- The counter after one more pass. -/
def LoopRegs.pass (l : LoopRegs) : LoopRegs := { l with count := l.count - 1 }

/-- A computed target with bit 0 cleared (10_state.md R23). -/
def evenTarget (t : Word) : Word := t &&& 0xFFFFFFFE

/-- The start of the body, where the next pass begins; bit 0 of the pc is always 0 (46_pulp_hwloop.md R448, 10_state.md R23;
notes/assumptions/45.md). -/
def LoopRegs.entry (l : LoopRegs) : Word := evenTarget l.start

/-- Where loop 1 leaves the pc, once it is loop 1's turn (46_pulp_hwloop.md R448). -/
def State.stepLoop1 (s : State) (next : Word) : State :=
  if s.loop1.hit s.pc then
    if 1 < s.loop1.count.toNat then { s with loop1 := s.loop1.pass, pc := s.loop1.entry }
    else { s with loop1 := s.loop1.pass, pc := next }
  else { s with pc := next }

/-- The hardware-loop step: the pc after an instruction that did not assign it, and the loop counters (46_pulp_hwloop.md
R448, R449). -/
def State.stepLoops (s : State) (next : Word) : State :=
  if s.loop0.hit s.pc then
    if 1 < s.loop0.count.toNat then { s with loop0 := s.loop0.pass, pc := s.loop0.entry }
    else State.stepLoop1 { s with loop0 := s.loop0.pass } next
  else s.stepLoop1 next

/-- The end of an instruction of length `ilen` that did not assign pc: the loop step, or the refusal of a loop that is too
short (46_pulp_hwloop.md R448, R450). -/
def retire (ilen : Word) (s : State) : Result :=
  if s.hitsShortLoop then .refused .loopTooShort else .next (s.stepLoops (s.pc + ilen))

/-- The end of a jump: `pc <- t`; at a hit address it is refused (46_pulp_hwloop.md R450). -/
def jumpTo (t : Word) (s : State) : Result :=
  if s.hitsLoop then .refused .loopEndsInJump else .next { s with pc := t }

/-- The end of a conditional branch, taken or not (40_rv32i_base.md R242, 46_pulp_hwloop.md R450). -/
def branchTo (taken : Bool) (t : Word) (ilen : Word) (s : State) : Result :=
  if taken then jumpTo t s else jumpTo (s.pc + ilen) s

/-- `x[rd] <- v`, and the instruction ends. -/
def writeBack (ilen : Word) (rd : Reg) (v : Word) (s : State) : Result := retire ilen (s.writeX rd v)

/-- `f[rd] <- v` with the flags it raised, and the instruction ends. -/
def writeBackF (ilen : Word) (rd : Reg) (v : Word) (flags : BitVec 5) (s : State) : Result :=
  retire ilen ((s.writeF rd v).raise flags)

/-! ## Memory -/

/-- `k`, when the platform answers the access to `n` bytes at `a`. -/
def guardAccess (k : Access) (a : Word) (n : Nat) (s : State) (r : Result) : Result :=
  match s.stopAccess k a n with
  | none => r
  | some e => e.result

/-- The sizes and extensions of a load (20_memory.md R125). -/
inductive LoadKind where
  | lb
  | lbu
  | lh
  | lhu
  | lw
deriving DecidableEq, Repr

/-- How many bytes a load reads. -/
def LoadKind.size : LoadKind → Nat
  | .lb => 1
  | .lbu => 1
  | .lh => 2
  | .lhu => 2
  | .lw => 4

/-- The half-word a load reads at `a`, little-endian (20_memory.md R104, R123). -/
def State.accessHalf (s : State) (a : Word) : Half := s.accessByte a 1 ++ s.accessByte a 0

/-- The word a load reads at `a`, little-endian (20_memory.md R104, R123). -/
def State.accessWord (s : State) (a : Word) : Word :=
  s.accessByte a 3 ++ s.accessByte a 2 ++ s.accessByte a 1 ++ s.accessByte a 0

/-- `ext(MemRead(a, n))` (20_memory.md R103, R104, R125). -/
def State.loadValue (s : State) (k : LoadKind) (a : Word) : Word :=
  match k with
  | .lb => (s.accessByte a 0).signExtend 32
  | .lbu => (s.accessByte a 0).setWidth 32
  | .lh => (s.accessHalf a).signExtend 32
  | .lhu => (s.accessHalf a).setWidth 32
  | .lw => s.accessWord a

/-- The sizes of a store (20_memory.md R125). -/
inductive StoreKind where
  | sb
  | sh
  | sw
deriving DecidableEq, Repr

/-- How many bytes a store writes. -/
def StoreKind.size : StoreKind → Nat
  | .sb => 1
  | .sh => 2
  | .sw => 4

/-- `MemWrite(a, n, v)`: the low bytes of `v`, the one at the lowest address first (20_memory.md R104, R107, R125). -/
def State.storeValue (s : State) (k : StoreKind) (a v : Word) : State :=
  (List.range k.size).foldl (fun t j => t.storeByte a j (v.extractLsb' (8 * j) 8)) s

/-- A load to an integer register: `x[rd] <- ext(MemRead(a, n))`. -/
def loadX (ilen : Word) (k : LoadKind) (rd : Reg) (a : Word) (s : State) : Result :=
  guardAccess .load a k.size s (writeBack ilen rd (s.loadValue k a) (s.settle a k.size))

/-- A load to a floating-point register (44_rv32f.md R354). -/
def loadF (ilen : Word) (rd : Reg) (a : Word) (s : State) : Result :=
  guardAccess .load a 4 s (retire ilen ((s.settle a 4).writeF rd (s.accessWord a)))

/-- A store: `MemWrite(a, n, v)`. -/
def storeTo (ilen : Word) (k : StoreKind) (a v : Word) (s : State) : Result :=
  guardAccess .store a k.size s (retire ilen (s.storeValue k a v))

/-! ## Traps -/

/-- MSTATUS.MIE (10_state.md R27). -/
def State.mie (s : State) : Bool := s.mstatus.getLsbD 3

/-- MSTATUS.MPIE (10_state.md R27). -/
def State.mpie (s : State) : Bool := s.mstatus.getLsbD 7

/-- An MSTATUS word with these two bits in place of its own (10_state.md R27). -/
def withMie (w : Word) (mpie mie : Bool) : Word :=
  (w &&& 0xFFFFFF77) ||| (if mpie then 0x80 else 0) ||| (if mie then 0x8 else 0)

/-- `{BOOT_ADDR[31:8], o}` (60_exceptions.md R703). -/
def State.vector (s : State) (o : BitVec 8) : Word := s.bootAddr.extractLsb' 8 24 ++ o

/-- Trap entry with exception program counter `epc`, cause `c` and vector offset `o` (60_exceptions.md R707). -/
def State.enterTrap (s : State) (epc c : Word) (o : BitVec 8) : State :=
  { s with mepc := epc, mcause := c, mstatus := withMie s.mstatus s.mie false, pc := s.vector o }

/-- The core enters debug mode with this DBG_CAUSE.CAUSE (60_exceptions.md R741, R745). -/
def State.halt (s : State) (cause : BitVec 5) : State := { s with halted := true, dbgCause := cause }

/-- A synchronous exception at pc with this code; when its bit of DBG_IE is set the core then enters debug mode
(60_exceptions.md R701, R704, R744, R750). -/
def State.takeException (s : State) (code : BitVec 5) (o : BitVec 8) : State :=
  let t := s.enterTrap s.pc (code.setWidth 32) o
  if s.dbgIe.getLsbD code.toNat then t.halt code else t

/-- The illegal-instruction exception (60_exceptions.md R701). -/
def State.illegalInstruction (s : State) : State := s.takeException 2 0x84

/-- The ecall exception (60_exceptions.md R701). -/
def State.envCall (s : State) : State := s.takeException 11 0x88

/-- Taking the interrupt with id `i`: MEPC is the address of the instruction that has not executed
(60_exceptions.md R706, R713). -/
def State.takeInterrupt (s : State) (i : BitVec 5) : State :=
  { s.enterTrap s.pc (0x80000000 ||| i.setWidth 32) (i.setWidth 8 <<< 2) with
    irqAck := some i
    heldIrq := false }

/-- Return from a trap: `pc <- MEPC & 0xFFFFFFFE; MIE <- MPIE; MPIE <- 1` (41_rv32i_system.md R252, 60_exceptions.md
R708). A jump, so refused at a hit address. -/
def returnFromTrap (s : State) : Result :=
  jumpTo (evenTarget s.mepc) { s with mstatus := withMie s.mstatus true s.mpie }

/-- `ebreak`: with DBG_IE.BP = 1 the core halts, DBG_NPC is the next instruction, no CSR changes; otherwise the spec gives
no target (41_rv32i_system.md R251, 60_exceptions.md R750, R751). -/
def breakpoint (ilen : Word) (s : State) : Result :=
  if s.dbgIe.getLsbD 3 then .next (State.halt { s with pc := s.pc + ilen } 3) else .refused .breakpointUnhandled

/-! ## Hardware-loop registers -/

/-- The register set that `L` selects (46_pulp_hwloop.md R440). -/
def State.loopRegs (s : State) (l : BitVec 1) : LoopRegs := if l = 0 then s.loop0 else s.loop1

/-- The register set that `L` selects becomes `v`. -/
def State.setLoopRegs (s : State) (l : BitVec 1) (v : LoopRegs) : State :=
  if l = 0 then { s with loop0 := v } else { s with loop1 := v }

/-- The instruction at `pc` is inside the active body of the loop (46_pulp_hwloop.md R450, R452). -/
def LoopRegs.insideActive (l : LoopRegs) (pc : Word) : Bool := l.count != 0 && l.start.ule pc && pc.ule l.stop

/-- The common end of the six `lp.*` instructions: the registers are written, or the write is refused inside the active
body of the same loop (46_pulp_hwloop.md R441 to R446, R450). -/
def writeLoop (l : BitVec 1) (v : LoopRegs) (s : State) : Result :=
  if (s.loopRegs l).insideActive s.pc then .refused .loopWriteInBody else retire ilen4 (s.setLoopRegs l v)

end Sys2Proof.Machine
end

