-- ==== Sys2Proof/Machine/Operands.lean ====
section
/-! DEFINITION. The operand forms: immediates extended to 32 bits (30_encoding.md R143 to R149, 42_rv32c.md), the halves and
elements of a word (49_pulp_vector.md R580), the second vector operand (R581, R582), the geometry of a bit field
(47_pulp_alu.md R520), shift amounts and rounding constants (R517, 48_pulp_mac.md R540). -/

namespace Sys2Proof.Machine

/-! ## Immediates -/

/-- The 12-bit immediate of formats I and S (30_encoding.md R143). -/
def simm12 (imm : BitVec 12) : Word := imm.signExtend 32
/-- `inst[31:12], 12'b0` (30_encoding.md R143). -/
def uimm20 (imm : BitVec 20) : Word := imm ++ 0#12
/-- The offset of a conditional branch (30_encoding.md R143). -/
def offsetB (off : BitVec 12) : Word := (off ++ 0#1).signExtend 32
/-- The offset of `jal` (30_encoding.md R143). -/
def offsetJ (off : BitVec 20) : Word := (off ++ 0#1).signExtend 32
/-- The offset of `c.j` and `c.jal` (42_rv32c.md R288). -/
def offsetCJ (off : BitVec 11) : Word := (off ++ 0#1).signExtend 32
/-- The offset of `c.beqz` and `c.bnez` (42_rv32c.md R300). -/
def offsetCB (off : BitVec 8) : Word := (off ++ 0#1).signExtend 32
/-- The 6-bit immediate of format CI (42_rv32c.md R287). -/
def simm6 (imm : BitVec 6) : Word := imm.signExtend 32
/-- The value of `c.lui` (42_rv32c.md R291). -/
def luiC (imm : BitVec 6) : Word := (imm ++ 0#12).signExtend 32
/-- The value of `c.addi16sp` (42_rv32c.md R290). -/
def simm16sp (imm : BitVec 6) : Word := (imm ++ 0#4).signExtend 32
/-- The value of `c.addi4spn` (42_rv32c.md R281). -/
def uimm4spn (imm : BitVec 8) : Word := (imm ++ 0#2).setWidth 32
/-- The offset of `c.lw` and its like (42_rv32c.md R282). -/
def uimmCL (imm : BitVec 5) : Word := (imm ++ 0#2).setWidth 32
/-- The offset of `c.lwsp` and its like (42_rv32c.md R303). -/
def uimmSp (imm : BitVec 6) : Word := (imm ++ 0#2).setWidth 32
/-- The 5-bit immediate of an immediate branch (30_encoding.md R149). -/
def simm5 (imm : BitVec 5) : Word := imm.signExtend 32
/-- `zext_32(uimmL) << 1` (30_encoding.md R148). -/
def loopOffset (u : BitVec 12) : Word := u.setWidth 32 <<< 1
/-- `zext_32(uimmS) << 1` (30_encoding.md R148). -/
def loopOffsetS (u : BitVec 5) : Word := u.setWidth 32 <<< 1

/-! ## Effective addresses (20_memory.md R121) -/

/-- `x[rs1] + sext_32(imm12)`. -/
def State.addrImm (s : State) (rs1 : Reg) (imm : BitVec 12) : Word := s.readX rs1 + simm12 imm
/-- `x[rs1] + x[r]`. -/
def State.addrReg (s : State) (rs1 r : Reg) : Word := s.readX rs1 + s.readX r
/-- The address of `c.lw` and its like. -/
def State.addrC (s : State) (rs1 : CReg) (imm : BitVec 5) : Word := s.readX (creg rs1) + uimmCL imm
/-- The address of `c.lwsp` and its like. -/
def State.addrSp (s : State) (imm : BitVec 6) : Word := s.readX sp + uimmSp imm

/-! ## Truth values, shift amounts, rounding -/

/-- 1 or 0. -/
def ofBool (b : Bool) : Word := if b then 1 else 0
/-- `v[4:0]`: the shift amount that a register names. -/
def amount (v : Word) : Nat := (v.extractLsb' 0 5).toNat
/-- `rnd(k) = 2^(k-1)`, and 0 for k = 0 (47_pulp_alu.md R517, 48_pulp_mac.md R540, D21). -/
def rnd (k : Nat) : Word := if k = 0 then 0 else BitVec.twoPow 32 (k - 1)

/-! ## Branch conditions -/

/-- The conditions of the branches (40_rv32i_base.md R205 to R210). -/
inductive Cond where
  | eq
  | ne
  | lt
  | ge
  | ltu
  | geu
deriving DecidableEq, Repr

/-- The condition holds of two words. -/
def Cond.holds (c : Cond) (a b : Word) : Bool :=
  match c with
  | .eq => a == b
  | .ne => a != b
  | .lt => a.slt b
  | .ge => !a.slt b
  | .ltu => a.ult b
  | .geu => !a.ult b

/-! ## Halves and elements -/

/-- `v[15:0]`. -/
def lo16 (v : Word) : Half := v.extractLsb' 0 16
/-- `v[31:16]` (48_pulp_mac.md R540). -/
def hi16 (v : Word) : Half := v.extractLsb' 16 16
/-- Byte element `i` (49_pulp_vector.md R580). -/
def byteAt (v : Word) (i : Nat) : Byte := v.extractLsb' (8 * i) 8
/-- Half-word element `i` (49_pulp_vector.md R580). -/
def halfAt (v : Word) (i : Nat) : Half := v.extractLsb' (16 * i) 16
/-- The word with these half-word elements, element 0 last. -/
def ofHalves (e1 e0 : Half) : Word := e1 ++ e0
/-- The word with these byte elements, element 0 last. -/
def ofBytes (e3 e2 e1 e0 : Byte) : Word := e3 ++ e2 ++ e1 ++ e0

/-- An operation on each pair of half-word elements (49_pulp_vector.md R580). -/
def zipH (g : Half → Half → Half) (a b : Word) : Word :=
  ofHalves (g (halfAt a 1) (halfAt b 1)) (g (halfAt a 0) (halfAt b 0))
/-- An operation on each pair of byte elements (49_pulp_vector.md R580). -/
def zipB (g : Byte → Byte → Byte) (a b : Word) : Word :=
  ofBytes (g (byteAt a 3) (byteAt b 3)) (g (byteAt a 2) (byteAt b 2)) (g (byteAt a 1) (byteAt b 1))
    (g (byteAt a 0) (byteAt b 0))

/-! ## The second vector operand (49_pulp_vector.md R581, R582) -/

/-- Two copies of a half-word. -/
def replH (e : Half) : Word := ofHalves e e
/-- Four copies of a byte. -/
def replB (e : Byte) : Word := ofBytes e e e e
/-- `.sc.h`: element 0 of the register, replicated. -/
def scH (v : Word) : Word := replH (halfAt v 0)
/-- `.sc.b`: element 0 of the register, replicated. -/
def scB (v : Word) : Word := replB (byteAt v 0)
/-- `.sci.h`, the immediate sign-extended (D34). -/
def sciH (imm : BitVec 6) : Word := replH (imm.signExtend 16)
/-- `.sci.b`, the immediate sign-extended (D34). -/
def sciB (imm : BitVec 6) : Word := replB (imm.signExtend 8)
/-- `.sci.h`, the immediate zero-extended: pv.minu, pv.maxu, pv.srl, pv.sra, pv.sll. -/
def sciuH (imm : BitVec 6) : Word := replH (imm.setWidth 16)
/-- `.sci.b`, the immediate zero-extended: pv.minu, pv.maxu, pv.srl, pv.sra, pv.sll. -/
def sciuB (imm : BitVec 6) : Word := replB (imm.setWidth 8)

/-! ## Bit fields (47_pulp_alu.md R520) -/

/-- Where a field lies: the position of its lowest bit and its length. -/
structure BitField where
  pos : Nat
  len : Nat
deriving DecidableEq, Repr

/-- The field of an immediate form, length ls3 + 1. -/
def fieldImm (ls3 ls2 : BitVec 5) : BitField := { pos := ls2.toNat, len := ls3.toNat + 1 }
/-- The field that a register names: position in bits 4:0, length code in bits 9:5. -/
def fieldReg (v : Word) : BitField := fieldImm (v.extractLsb' 5 5) (v.extractLsb' 0 5)
/-- The field of an extract instruction: its length is ls3 + 1 or ls3 by EXTRACT_WIDTH (D22). -/
def BitField.forExtract (b : BitField) (w : ExtractWidth) : BitField :=
  match w with
  | .plus1 => b
  | .literal => { b with len := b.len - 1 }
/-- The field lies inside the word. -/
def BitField.fits (b : BitField) : Bool := decide (b.pos + b.len ≤ 32)
/-- `mask(p, w) = ((1 << w) - 1) << p`. -/
def BitField.mask (b : BitField) : Word := BitVec.ofNat 32 (2 ^ b.len - 1) <<< b.pos
/-- `sext_32((v >>u p)[w-1:0])`. -/
def BitField.extractSigned (b : BitField) (v : Word) : Word := ((v >>> b.pos).setWidth b.len).signExtend 32
/-- `zext_32((v >>u p)[w-1:0])`. -/
def BitField.extractUnsigned (b : BitField) (v : Word) : Word := ((v >>> b.pos).setWidth b.len).setWidth 32
/-- The field of `d` replaced by the low bits of `v` (D23). -/
def BitField.insert (b : BitField) (d v : Word) : Word := (d &&& ~~~b.mask) ||| ((v <<< b.pos) &&& b.mask)

end Sys2Proof.Machine
end

