-- ==== Sys2Proof/Machine/Flags.lean ====
section
/-! DEFINITION. The only flags of the machine, the floating-point exception flags (10_state.md R24, R38), and the rounding
modes (R39). No integer instruction writes a flag. -/

namespace Sys2Proof.Machine

namespace Flag

/-- No flag. -/
def none : BitVec 5 := 0
/-- NX, inexact. -/
def nx : BitVec 5 := 0x01
/-- UF, underflow. -/
def uf : BitVec 5 := 0x02
/-- OF, overflow. -/
def of : BitVec 5 := 0x04
/-- DZ, division by zero. -/
def dz : BitVec 5 := 0x08
/-- NV, invalid operation. -/
def nv : BitVec 5 := 0x10

/-- The flag, if it is raised. -/
def when (b : Bool) (flag : BitVec 5) : BitVec 5 := if b then flag else none

end Flag

/-- The five rounding modes (10_state.md R39). -/
inductive Rounding where
  /-- To nearest, ties to even. -/
  | rne
  /-- Toward zero. -/
  | rtz
  /-- Down. -/
  | rdn
  /-- Up. -/
  | rup
  /-- To nearest, ties to the larger magnitude. -/
  | rmm
deriving DecidableEq, Repr

/-- The mode of a 3-bit code; 101, 110 and 111 are reserved (10_state.md R39). -/
def Rounding.ofCode (c : BitVec 3) : Option Rounding :=
  match c with
  | 0#3 => some .rne
  | 1#3 => some .rtz
  | 2#3 => some .rdn
  | 3#3 => some .rup
  | 4#3 => some .rmm
  | _ => none

/-- The mode of an instruction's rm field: its own, or that of frm when rm = 111 (44_rv32f.md R380, R381). -/
def State.rounding (s : State) (rm : BitVec 3) : Option Rounding :=
  if rm = 7 then Rounding.ofCode s.frm else Rounding.ofCode rm

end Sys2Proof.Machine
end

