-- ==== Sys2Proof/Machine/Csr.lean ====
section
/-! DEFINITION. The control and status registers (10_state.md R26 to R42): their names, what a read gives, what a write
does, and the common rule of the six CSR instructions (41_rv32i_system.md R254 to R256). -/

namespace Sys2Proof.Machine

/-- The CSRs of 10_state.md R26. -/
inductive Csr where
  | fflags
  | frm
  | fcsr
  | fprec
  | uhartid
  | mstatus
  | mtvec
  | mepc
  | mcause
  /-- PCCRn for n = 0 to 31. -/
  | pccr (n : BitVec 5)
  | pcer
  | pcmr
  | lpstart (l : BitVec 1)
  | lpend (l : BitVec 1)
  | lpcount (l : BitVec 1)
  | privlv
  | mhartid
deriving DecidableEq, Repr

/-- The CSR at an address; the floating-point ones exist when FPU = 1 (10_state.md R26, R37, R42). -/
def Csr.ofNumber (fpu : Bool) (n : CsrNum) : Option Csr :=
  if n.extractLsb' 5 7 = 0x3C#7 then some (.pccr (n.extractLsb' 0 5))
  else
    match n with
    | 0x001#12 => if fpu then some .fflags else none
    | 0x002#12 => if fpu then some .frm else none
    | 0x003#12 => if fpu then some .fcsr else none
    | 0x006#12 => if fpu then some .fprec else none
    | 0x014#12 => some .uhartid
    | 0x300#12 => some .mstatus
    | 0x305#12 => some .mtvec
    | 0x341#12 => some .mepc
    | 0x342#12 => some .mcause
    | 0x7A0#12 => some .pcer
    | 0x7A1#12 => some .pcmr
    | 0x7B0#12 => some (.lpstart 0)
    | 0x7B1#12 => some (.lpend 0)
    | 0x7B2#12 => some (.lpcount 0)
    | 0x7B4#12 => some (.lpstart 1)
    | 0x7B5#12 => some (.lpend 1)
    | 0x7B6#12 => some (.lpcount 1)
    | 0xC10#12 => some .privlv
    | 0xF14#12 => some .mhartid
    | _ => none

/-- MTVEC, PRIVLV, UHARTID, MHARTID (10_state.md R42). -/
def Csr.readOnly : Csr → Bool
  | .uhartid => true
  | .mtvec => true
  | .privlv => true
  | .mhartid => true
  | _ => false

/-! ## Performance counters -/

/-- PCMR.Global Enable (10_state.md R33). -/
def State.countersOn (s : State) : Bool := s.pcmr.getLsbD 1
/-- PCMR.Saturation (10_state.md R33). -/
def State.countersSaturate (s : State) : Bool := s.pcmr.getLsbD 0
/-- The bits of PCER that name an event (10_state.md R34). -/
def pcerMask : Word := 0x001FFFFF
/-- Event counter `n` is live (60_exceptions.md R722). -/
def State.live (s : State) (n : Nat) : Bool := s.countersOn && decide (n < 21) && s.pcer.getLsbD n
/-- The one shared counter is live: some event is enabled (60_exceptions.md R722). -/
def State.liveShared (s : State) : Bool := s.countersOn && s.pcer &&& pcerMask != 0
/-- Counter register `n`. -/
def State.counter (s : State) (n : Nat) : Word := s.pccr.getD n 0
/-- Counter register `n` becomes `v`. -/
def State.setCounter (s : State) (n : Nat) (v : Word) : State := { s with pccr := s.pccr.setIfInBounds n v }

/-- What a read of PCCRn gives: a free value while the counter is live, else what it holds; PCCR31 of individual counters
is a free value (60_exceptions.md R724, R725; 10_state.md R35). -/
def State.readPccr (s : State) (n : BitVec 5) : Word :=
  match s.params.perfCounters with
  | .single => if s.liveShared then Config.freeCounterRead s.draws else s.counter 0
  | .individual =>
    if n = 31 || s.live n.toNat then Config.freeCounterRead s.draws else s.counter n.toNat

/-- A write to PCCRn sets it, or the one shared counter; a write to PCCR31 sets all (60_exceptions.md R724). -/
def State.writePccr (s : State) (n : BitVec 5) (v : Word) : State :=
  match s.params.perfCounters with
  | .single => s.setCounter 0 v
  | .individual => if n = 31 then { s with pccr := Vector.replicate 31 v } else s.setCounter n.toNat v

/-! ## Reads and writes -/

/-- `21'b0, CLUSTER_ID, 1'b0, CORE_ID` (10_state.md R32). -/
def State.hartId (s : State) : Word := 0#21 ++ s.params.clusterId ++ 0#1 ++ s.params.coreId

/-- What a CSR reads as; bits that no field names read 0 (10_state.md R27 to R41, D10, D11). -/
def State.readCsr (s : State) : Csr → Word
  | .fflags => s.fflags.setWidth 32
  | .frm => s.frm.setWidth 32
  | .fcsr => (s.frm ++ s.fflags).setWidth 32
  | .fprec => s.fprec.setWidth 32
  | .uhartid => s.hartId
  | .mstatus => s.mstatus
  | .mtvec => s.vector 0
  | .mepc => s.mepc
  | .mcause => s.mcause
  | .pccr n => s.readPccr n
  | .pcer => s.pcer
  | .pcmr => s.pcmr
  | .lpstart l => (s.loopRegs l).start
  | .lpend l => (s.loopRegs l).stop
  | .lpcount l => (s.loopRegs l).count
  | .privlv => 3
  | .mhartid => s.hartId

/-- The bits of MSTATUS that a write changes: MPIE and MIE (10_state.md R27). -/
def mstatusMask : Word := 0x00000088
/-- The bits of MCAUSE that a write keeps (10_state.md R30). -/
def mcauseMask : Word := 0x8000001F

/-- What a write does; only the writable bits change (41_rv32i_system.md R254, 10_state.md R27 to R41). A read-only CSR
stays as it is: `State.csrWriteStop` refuses the write before. DESIGN CHOICE: fprec keeps the low 5 bits of every value, also of one that
R41 does not describe (1 to 7, 24 and above; notes/assumptions/53.md). -/
def State.writeCsr (s : State) (c : Csr) (v : Word) : State :=
  match c with
  | .fflags => { s with fflags := v.extractLsb' 0 5 }
  | .frm => { s with frm := v.extractLsb' 0 3 }
  | .fcsr => { s with frm := v.extractLsb' 5 3, fflags := v.extractLsb' 0 5 }
  | .fprec => { s with fprec := v.extractLsb' 0 5 }
  | .uhartid => s
  | .mstatus => { s with mstatus := (s.mstatus &&& ~~~mstatusMask) ||| (v &&& mstatusMask) }
  | .mtvec => s
  | .mepc => { s with mepc := v }
  | .mcause => { s with mcause := v &&& mcauseMask }
  | .pccr n => s.writePccr n v
  | .pcer => { s with pcer := v &&& pcerMask }
  | .pcmr => { s with pcmr := v &&& 3 }
  | .lpstart l => s.setLoopRegs l { s.loopRegs l with start := v }
  | .lpend l => s.setLoopRegs l { s.loopRegs l with stop := v }
  | .lpcount l => s.setLoopRegs l { s.loopRegs l with count := v }
  | .privlv => s
  | .mhartid => s

/-- The loop whose registers a CSR is part of. -/
def Csr.loop? : Csr → Option (BitVec 1)
  | .lpstart l => some l
  | .lpend l => some l
  | .lpcount l => some l
  | _ => none

/-- The CSR is a register of a loop inside whose active body the instruction at pc is (46_pulp_hwloop.md R450, R452). -/
def State.csrInBody (s : State) (c : Csr) : Bool :=
  match c.loop? with
  | some l => (s.loopRegs l).insideActive s.pc
  | none => false

/-! ## The common rule of the CSR instructions -/

/-- The read half: the CSR and its value, or the refusal (10_state.md R42). -/
def State.csrLookup (s : State) (n : CsrNum) : Except Refusal Csr :=
  match Csr.ofNumber s.params.fpu n with
  | none => .error (.csrUnimplemented n)
  | some c => .ok c

/-- The write half: a write to a read-only CSR is refused, and one to a register of the loop whose body runs
(10_state.md R42, 46_pulp_hwloop.md R450). -/
def State.csrWriteStop (s : State) (n : CsrNum) (c : Csr) : Option Refusal :=
  if c.readOnly then some (.csrReadOnly n)
  else if s.csrInBody c then some .loopWriteInBody
  else none

/-- A CSR instruction that only reads: `x[rd] <- CSR[csr]` (41_rv32i_system.md R256). -/
def csrReadOnlyForm (rd : Reg) (n : CsrNum) (s : State) : Result :=
  match s.csrLookup n with
  | .error r => .refused r
  | .ok c => writeBack ilen4 rd (s.readCsr c) s

/-- A CSR instruction that reads the old value `t`, writes `g t` and answers `t` (41_rv32i_system.md R254). -/
def csrReadWrite (rd : Reg) (n : CsrNum) (g : Word → Word) (s : State) : Result :=
  match s.csrLookup n with
  | .error r => .refused r
  | .ok c =>
    match s.csrWriteStop n c with
    | some r => .refused r
    | none => writeBack ilen4 rd (s.readCsr c) (s.writeCsr c (g (s.readCsr c)))

end Sys2Proof.Machine
end

