-- ==== Sys2Proof/Machine/Written.lean ====
section
/-! DEFINITION. The integer registers that each instruction writes. -/

namespace Sys2Proof.Machine

/-- The integer registers that the rule of an instruction writes: the destination, the base that a post-increment form
updates, the link register of the compressed calls, the stack pointer of c.addi16sp. -/
def xWritten : Instr → List Reg
  | .lui rd _ => [rd]
  | .auipc rd _ => [rd]
  | .jal rd _ => [rd]
  | .jalr rd _ _ => [rd]
  | .beq _ _ _ => []
  | .bne _ _ _ => []
  | .blt _ _ _ => []
  | .bge _ _ _ => []
  | .bltu _ _ _ => []
  | .bgeu _ _ _ => []
  | .lb rd _ _ => [rd]
  | .lh rd _ _ => [rd]
  | .lw rd _ _ => [rd]
  | .lbu rd _ _ => [rd]
  | .lhu rd _ _ => [rd]
  | .sb _ _ _ => []
  | .sh _ _ _ => []
  | .sw _ _ _ => []
  | .addi rd _ _ => [rd]
  | .slti rd _ _ => [rd]
  | .sltiu rd _ _ => [rd]
  | .xori rd _ _ => [rd]
  | .ori rd _ _ => [rd]
  | .andi rd _ _ => [rd]
  | .slli rd _ _ => [rd]
  | .srli rd _ _ => [rd]
  | .srai rd _ _ => [rd]
  | .add rd _ _ => [rd]
  | .sub rd _ _ => [rd]
  | .sll rd _ _ => [rd]
  | .slt rd _ _ => [rd]
  | .sltu rd _ _ => [rd]
  | .xor rd _ _ => [rd]
  | .srl rd _ _ => [rd]
  | .sra rd _ _ => [rd]
  | .or rd _ _ => [rd]
  | .and rd _ _ => [rd]
  | .fence _ _ => []
  | .fenceI => []
  | .ecall => []
  | .ebreak => []
  | .mret => []
  | .wfi => []
  | .csrrw rd _ _ => [rd]
  | .csrrs rd _ _ => [rd]
  | .csrrc rd _ _ => [rd]
  | .csrrwi rd _ _ => [rd]
  | .csrrsi rd _ _ => [rd]
  | .csrrci rd _ _ => [rd]
  | .mul rd _ _ => [rd]
  | .mulh rd _ _ => [rd]
  | .mulhsu rd _ _ => [rd]
  | .mulhu rd _ _ => [rd]
  | .div rd _ _ => [rd]
  | .divu rd _ _ => [rd]
  | .rem rd _ _ => [rd]
  | .remu rd _ _ => [rd]
  | .flw _ _ _ => []
  | .fsw _ _ _ => []
  | .fmaddS _ _ _ _ _ => []
  | .fmsubS _ _ _ _ _ => []
  | .fnmsubS _ _ _ _ _ => []
  | .fnmaddS _ _ _ _ _ => []
  | .faddS _ _ _ _ => []
  | .fsubS _ _ _ _ => []
  | .fmulS _ _ _ _ => []
  | .fdivS _ _ _ _ => []
  | .fsqrtS _ _ _ => []
  | .fsgnjS _ _ _ => []
  | .fsgnjnS _ _ _ => []
  | .fsgnjxS _ _ _ => []
  | .fminS _ _ _ => []
  | .fmaxS _ _ _ => []
  | .fcvtWS rd _ _ => [rd]
  | .fcvtWuS rd _ _ => [rd]
  | .fmvXW rd _ => [rd]
  | .feqS rd _ _ => [rd]
  | .fltS rd _ _ => [rd]
  | .fleS rd _ _ => [rd]
  | .fclassS rd _ => [rd]
  | .fcvtSW _ _ _ => []
  | .fcvtSWu _ _ _ => []
  | .fmvWX _ _ => []
  | .cAddi4spn rd _ => [creg rd]
  | .cLw rd _ _ => [creg rd]
  | .cSw _ _ _ => []
  | .cFlw _ _ _ => []
  | .cFsw _ _ _ => []
  | .cNop _ => []
  | .cAddi rd _ => [rd]
  | .cJal _ => [ra]
  | .cLi rd _ => [rd]
  | .cAddi16sp _ => [sp]
  | .cLui rd _ => [rd]
  | .cSrli rd _ => [creg rd]
  | .cSrai rd _ => [creg rd]
  | .cAndi rd _ => [creg rd]
  | .cSub rd _ => [creg rd]
  | .cXor rd _ => [creg rd]
  | .cOr rd _ => [creg rd]
  | .cAnd rd _ => [creg rd]
  | .cJ _ => []
  | .cBeqz _ _ => []
  | .cBnez _ _ => []
  | .cSlli rd _ => [rd]
  | .cLwsp rd _ => [rd]
  | .cFlwsp _ _ => []
  | .cJr _ => []
  | .cMv rd _ => [rd]
  | .cEbreak => []
  | .cJalr _ => [ra]
  | .cAdd rd _ => [rd]
  | .cSwsp _ _ => []
  | .cFswsp _ _ => []
  | .pLbPostImm rd rs1 _ => [rd, rs1]
  | .pLbuPostImm rd rs1 _ => [rd, rs1]
  | .pLhPostImm rd rs1 _ => [rd, rs1]
  | .pLhuPostImm rd rs1 _ => [rd, rs1]
  | .pLwPostImm rd rs1 _ => [rd, rs1]
  | .pLbPostReg rd rs1 _ => [rd, rs1]
  | .pLbuPostReg rd rs1 _ => [rd, rs1]
  | .pLhPostReg rd rs1 _ => [rd, rs1]
  | .pLhuPostReg rd rs1 _ => [rd, rs1]
  | .pLwPostReg rd rs1 _ => [rd, rs1]
  | .pLbOff rd _ _ => [rd]
  | .pLbuOff rd _ _ => [rd]
  | .pLhOff rd _ _ => [rd]
  | .pLhuOff rd _ _ => [rd]
  | .pLwOff rd _ _ => [rd]
  | .pSbPostImm _ rs1 _ => [rs1]
  | .pShPostImm _ rs1 _ => [rs1]
  | .pSwPostImm _ rs1 _ => [rs1]
  | .pSbPostReg _ _ rs1 => [rs1]
  | .pShPostReg _ _ rs1 => [rs1]
  | .pSwPostReg _ _ rs1 => [rs1]
  | .pSbOff _ _ _ => []
  | .pShOff _ _ _ => []
  | .pSwOff _ _ _ => []
  | .lpStarti _ _ => []
  | .lpEndi _ _ => []
  | .lpCount _ _ => []
  | .lpCounti _ _ => []
  | .lpSetup _ _ _ => []
  | .lpSetupi _ _ _ => []
  | .pExtract rd _ _ _ => [rd]
  | .pExtractu rd _ _ _ => [rd]
  | .pInsert rd _ _ _ => [rd]
  | .pBclr rd _ _ _ => [rd]
  | .pBset rd _ _ _ => [rd]
  | .pExtractr rd _ _ => [rd]
  | .pExtractur rd _ _ => [rd]
  | .pInsertr rd _ _ => [rd]
  | .pBclrr rd _ _ => [rd]
  | .pBsetr rd _ _ => [rd]
  | .pRor rd _ _ => [rd]
  | .pFf1 rd _ => [rd]
  | .pFl1 rd _ => [rd]
  | .pClb rd _ => [rd]
  | .pCnt rd _ => [rd]
  | .pAbs rd _ => [rd]
  | .pSlet rd _ _ => [rd]
  | .pSletu rd _ _ => [rd]
  | .pMin rd _ _ => [rd]
  | .pMinu rd _ _ => [rd]
  | .pMax rd _ _ => [rd]
  | .pMaxu rd _ _ => [rd]
  | .pExths rd _ => [rd]
  | .pExthz rd _ => [rd]
  | .pExtbs rd _ => [rd]
  | .pExtbz rd _ => [rd]
  | .pClip rd _ _ => [rd]
  | .pClipu rd _ _ => [rd]
  | .pClipr rd _ _ => [rd]
  | .pClipur rd _ _ => [rd]
  | .pAddN rd _ _ _ => [rd]
  | .pAdduN rd _ _ _ => [rd]
  | .pAddRN rd _ _ _ => [rd]
  | .pAdduRN rd _ _ _ => [rd]
  | .pAddNr rd _ _ => [rd]
  | .pAdduNr rd _ _ => [rd]
  | .pAddRNr rd _ _ => [rd]
  | .pAdduRNr rd _ _ => [rd]
  | .pSubN rd _ _ _ => [rd]
  | .pSubuN rd _ _ _ => [rd]
  | .pSubRN rd _ _ _ => [rd]
  | .pSubuRN rd _ _ _ => [rd]
  | .pSubNr rd _ _ => [rd]
  | .pSubuNr rd _ _ => [rd]
  | .pSubRNr rd _ _ => [rd]
  | .pSubuRNr rd _ _ => [rd]
  | .pBeqimm _ _ _ => []
  | .pBneimm _ _ _ => []
  | .pMac rd _ _ => [rd]
  | .pMsu rd _ _ => [rd]
  | .pMuls rd _ _ => [rd]
  | .pMulhhs rd _ _ => [rd]
  | .pMulsN rd _ _ _ => [rd]
  | .pMulhhsN rd _ _ _ => [rd]
  | .pMulsRN rd _ _ _ => [rd]
  | .pMulhhsRN rd _ _ _ => [rd]
  | .pMulu rd _ _ => [rd]
  | .pMulhhu rd _ _ => [rd]
  | .pMuluN rd _ _ _ => [rd]
  | .pMulhhuN rd _ _ _ => [rd]
  | .pMuluRN rd _ _ _ => [rd]
  | .pMulhhuRN rd _ _ _ => [rd]
  | .pMacsN rd _ _ _ => [rd]
  | .pMachhsN rd _ _ _ => [rd]
  | .pMacsRN rd _ _ _ => [rd]
  | .pMachhsRN rd _ _ _ => [rd]
  | .pMacuN rd _ _ _ => [rd]
  | .pMachhuN rd _ _ _ => [rd]
  | .pMacuRN rd _ _ _ => [rd]
  | .pMachhuRN rd _ _ _ => [rd]
  | .pvAddH rd _ _ => [rd]
  | .pvAddScH rd _ _ => [rd]
  | .pvAddSciH rd _ _ => [rd]
  | .pvAddB rd _ _ => [rd]
  | .pvAddScB rd _ _ => [rd]
  | .pvAddSciB rd _ _ => [rd]
  | .pvSubH rd _ _ => [rd]
  | .pvSubScH rd _ _ => [rd]
  | .pvSubSciH rd _ _ => [rd]
  | .pvSubB rd _ _ => [rd]
  | .pvSubScB rd _ _ => [rd]
  | .pvSubSciB rd _ _ => [rd]
  | .pvAvgH rd _ _ => [rd]
  | .pvAvgScH rd _ _ => [rd]
  | .pvAvgSciH rd _ _ => [rd]
  | .pvAvgB rd _ _ => [rd]
  | .pvAvgScB rd _ _ => [rd]
  | .pvAvgSciB rd _ _ => [rd]
  | .pvAvguH rd _ _ => [rd]
  | .pvAvguScH rd _ _ => [rd]
  | .pvAvguSciH rd _ _ => [rd]
  | .pvAvguB rd _ _ => [rd]
  | .pvAvguScB rd _ _ => [rd]
  | .pvAvguSciB rd _ _ => [rd]
  | .pvMinH rd _ _ => [rd]
  | .pvMinScH rd _ _ => [rd]
  | .pvMinSciH rd _ _ => [rd]
  | .pvMinB rd _ _ => [rd]
  | .pvMinScB rd _ _ => [rd]
  | .pvMinSciB rd _ _ => [rd]
  | .pvMinuH rd _ _ => [rd]
  | .pvMinuScH rd _ _ => [rd]
  | .pvMinuSciH rd _ _ => [rd]
  | .pvMinuB rd _ _ => [rd]
  | .pvMinuScB rd _ _ => [rd]
  | .pvMinuSciB rd _ _ => [rd]
  | .pvMaxH rd _ _ => [rd]
  | .pvMaxScH rd _ _ => [rd]
  | .pvMaxSciH rd _ _ => [rd]
  | .pvMaxB rd _ _ => [rd]
  | .pvMaxScB rd _ _ => [rd]
  | .pvMaxSciB rd _ _ => [rd]
  | .pvMaxuH rd _ _ => [rd]
  | .pvMaxuScH rd _ _ => [rd]
  | .pvMaxuSciH rd _ _ => [rd]
  | .pvMaxuB rd _ _ => [rd]
  | .pvMaxuScB rd _ _ => [rd]
  | .pvMaxuSciB rd _ _ => [rd]
  | .pvSrlH rd _ _ => [rd]
  | .pvSrlScH rd _ _ => [rd]
  | .pvSrlSciH rd _ _ => [rd]
  | .pvSrlB rd _ _ => [rd]
  | .pvSrlScB rd _ _ => [rd]
  | .pvSrlSciB rd _ _ => [rd]
  | .pvSraH rd _ _ => [rd]
  | .pvSraScH rd _ _ => [rd]
  | .pvSraSciH rd _ _ => [rd]
  | .pvSraB rd _ _ => [rd]
  | .pvSraScB rd _ _ => [rd]
  | .pvSraSciB rd _ _ => [rd]
  | .pvSllH rd _ _ => [rd]
  | .pvSllScH rd _ _ => [rd]
  | .pvSllSciH rd _ _ => [rd]
  | .pvSllB rd _ _ => [rd]
  | .pvSllScB rd _ _ => [rd]
  | .pvSllSciB rd _ _ => [rd]
  | .pvOrH rd _ _ => [rd]
  | .pvOrScH rd _ _ => [rd]
  | .pvOrSciH rd _ _ => [rd]
  | .pvOrB rd _ _ => [rd]
  | .pvOrScB rd _ _ => [rd]
  | .pvOrSciB rd _ _ => [rd]
  | .pvXorH rd _ _ => [rd]
  | .pvXorScH rd _ _ => [rd]
  | .pvXorSciH rd _ _ => [rd]
  | .pvXorB rd _ _ => [rd]
  | .pvXorScB rd _ _ => [rd]
  | .pvXorSciB rd _ _ => [rd]
  | .pvAndH rd _ _ => [rd]
  | .pvAndScH rd _ _ => [rd]
  | .pvAndSciH rd _ _ => [rd]
  | .pvAndB rd _ _ => [rd]
  | .pvAndScB rd _ _ => [rd]
  | .pvAndSciB rd _ _ => [rd]
  | .pvAbsH rd _ => [rd]
  | .pvAbsB rd _ => [rd]
  | .pvExtractH rd _ _ => [rd]
  | .pvExtractB rd _ _ => [rd]
  | .pvExtractuH rd _ _ => [rd]
  | .pvExtractuB rd _ _ => [rd]
  | .pvInsertH rd _ _ => [rd]
  | .pvInsertB rd _ _ => [rd]
  | .pvDotupH rd _ _ => [rd]
  | .pvDotupScH rd _ _ => [rd]
  | .pvDotupSciH rd _ _ => [rd]
  | .pvDotupB rd _ _ => [rd]
  | .pvDotupScB rd _ _ => [rd]
  | .pvDotupSciB rd _ _ => [rd]
  | .pvDotuspH rd _ _ => [rd]
  | .pvDotuspScH rd _ _ => [rd]
  | .pvDotuspSciH rd _ _ => [rd]
  | .pvDotuspB rd _ _ => [rd]
  | .pvDotuspScB rd _ _ => [rd]
  | .pvDotuspSciB rd _ _ => [rd]
  | .pvDotspH rd _ _ => [rd]
  | .pvDotspScH rd _ _ => [rd]
  | .pvDotspSciH rd _ _ => [rd]
  | .pvDotspB rd _ _ => [rd]
  | .pvDotspScB rd _ _ => [rd]
  | .pvDotspSciB rd _ _ => [rd]
  | .pvSdotupH rd _ _ => [rd]
  | .pvSdotupScH rd _ _ => [rd]
  | .pvSdotupSciH rd _ _ => [rd]
  | .pvSdotupB rd _ _ => [rd]
  | .pvSdotupScB rd _ _ => [rd]
  | .pvSdotupSciB rd _ _ => [rd]
  | .pvSdotuspH rd _ _ => [rd]
  | .pvSdotuspScH rd _ _ => [rd]
  | .pvSdotuspSciH rd _ _ => [rd]
  | .pvSdotuspB rd _ _ => [rd]
  | .pvSdotuspScB rd _ _ => [rd]
  | .pvSdotuspSciB rd _ _ => [rd]
  | .pvSdotspH rd _ _ => [rd]
  | .pvSdotspScH rd _ _ => [rd]
  | .pvSdotspSciH rd _ _ => [rd]
  | .pvSdotspB rd _ _ => [rd]
  | .pvSdotspScB rd _ _ => [rd]
  | .pvSdotspSciB rd _ _ => [rd]
  | .pvShuffleH rd _ _ => [rd]
  | .pvShuffleB rd _ _ => [rd]
  | .pvShuffleSciH rd _ _ => [rd]
  | .pvShuffleI0SciB rd _ _ => [rd]
  | .pvShuffleI1SciB rd _ _ => [rd]
  | .pvShuffleI2SciB rd _ _ => [rd]
  | .pvShuffleI3SciB rd _ _ => [rd]
  | .pvShuffle2H rd _ _ => [rd]
  | .pvShuffle2B rd _ _ => [rd]
  | .pvPackH rd _ _ => [rd]
  | .pvPackhiB rd _ _ => [rd]
  | .pvPackloB rd _ _ => [rd]
  | .pvCmpeqH rd _ _ => [rd]
  | .pvCmpeqScH rd _ _ => [rd]
  | .pvCmpeqSciH rd _ _ => [rd]
  | .pvCmpeqB rd _ _ => [rd]
  | .pvCmpeqScB rd _ _ => [rd]
  | .pvCmpeqSciB rd _ _ => [rd]
  | .pvCmpneH rd _ _ => [rd]
  | .pvCmpneScH rd _ _ => [rd]
  | .pvCmpneSciH rd _ _ => [rd]
  | .pvCmpneB rd _ _ => [rd]
  | .pvCmpneScB rd _ _ => [rd]
  | .pvCmpneSciB rd _ _ => [rd]
  | .pvCmpgtH rd _ _ => [rd]
  | .pvCmpgtScH rd _ _ => [rd]
  | .pvCmpgtSciH rd _ _ => [rd]
  | .pvCmpgtB rd _ _ => [rd]
  | .pvCmpgtScB rd _ _ => [rd]
  | .pvCmpgtSciB rd _ _ => [rd]
  | .pvCmpgeH rd _ _ => [rd]
  | .pvCmpgeScH rd _ _ => [rd]
  | .pvCmpgeSciH rd _ _ => [rd]
  | .pvCmpgeB rd _ _ => [rd]
  | .pvCmpgeScB rd _ _ => [rd]
  | .pvCmpgeSciB rd _ _ => [rd]
  | .pvCmpltH rd _ _ => [rd]
  | .pvCmpltScH rd _ _ => [rd]
  | .pvCmpltSciH rd _ _ => [rd]
  | .pvCmpltB rd _ _ => [rd]
  | .pvCmpltScB rd _ _ => [rd]
  | .pvCmpltSciB rd _ _ => [rd]
  | .pvCmpleH rd _ _ => [rd]
  | .pvCmpleScH rd _ _ => [rd]
  | .pvCmpleSciH rd _ _ => [rd]
  | .pvCmpleB rd _ _ => [rd]
  | .pvCmpleScB rd _ _ => [rd]
  | .pvCmpleSciB rd _ _ => [rd]
  | .pvCmpgtuH rd _ _ => [rd]
  | .pvCmpgtuScH rd _ _ => [rd]
  | .pvCmpgtuSciH rd _ _ => [rd]
  | .pvCmpgtuB rd _ _ => [rd]
  | .pvCmpgtuScB rd _ _ => [rd]
  | .pvCmpgtuSciB rd _ _ => [rd]
  | .pvCmpgeuH rd _ _ => [rd]
  | .pvCmpgeuScH rd _ _ => [rd]
  | .pvCmpgeuSciH rd _ _ => [rd]
  | .pvCmpgeuB rd _ _ => [rd]
  | .pvCmpgeuScB rd _ _ => [rd]
  | .pvCmpgeuSciB rd _ _ => [rd]
  | .pvCmpltuH rd _ _ => [rd]
  | .pvCmpltuScH rd _ _ => [rd]
  | .pvCmpltuSciH rd _ _ => [rd]
  | .pvCmpltuB rd _ _ => [rd]
  | .pvCmpltuScB rd _ _ => [rd]
  | .pvCmpltuSciB rd _ _ => [rd]
  | .pvCmpleuH rd _ _ => [rd]
  | .pvCmpleuScH rd _ _ => [rd]
  | .pvCmpleuSciH rd _ _ => [rd]
  | .pvCmpleuB rd _ _ => [rd]
  | .pvCmpleuScB rd _ _ => [rd]
  | .pvCmpleuSciB rd _ _ => [rd]

end Sys2Proof.Machine
end

