-- ==== Sys2Proof/Machine/Counters.lean ====
section
/-! DEFINITION. The performance counters count the events of a step (60_exceptions.md R721 to R723; 00_scope.md R11 step 6).
The events that instructions define are counted exactly; those defined by cycles, stalls or the memory system advance by
free amounts (notes/assumptions/18.md, 19.md). -/

namespace Sys2Proof.Machine

/-- A data access: load or store, at an address, of so many bytes. -/
structure DataAccess where
  kind : Access
  addr : Word
  size : Nat
deriving DecidableEq, Repr

/-- The access crosses a word boundary and is made in two parts (20_memory.md R107). -/
def DataAccess.splits (d : DataAccess) : Bool := Sys2Proof.Machine.splits d.addr d.size

/-- How often the access counts: twice when it is made in two parts (60_exceptions.md R721). -/
def DataAccess.count (d : DataAccess) : Nat := if d.splits then 2 else 1

/-- The data access of an instruction, in the state it starts in. -/
def dataAccess (s : State) : Instr → Option DataAccess
  | .lb _ r i => some { kind := .load, addr := s.addrImm r i, size := 1 }
  | .lh _ r i => some { kind := .load, addr := s.addrImm r i, size := 2 }
  | .lw _ r i => some { kind := .load, addr := s.addrImm r i, size := 4 }
  | .lbu _ r i => some { kind := .load, addr := s.addrImm r i, size := 1 }
  | .lhu _ r i => some { kind := .load, addr := s.addrImm r i, size := 2 }
  | .flw _ r i => some { kind := .load, addr := s.addrImm r i, size := 4 }
  | .sb _ r i => some { kind := .store, addr := s.addrImm r i, size := 1 }
  | .sh _ r i => some { kind := .store, addr := s.addrImm r i, size := 2 }
  | .sw _ r i => some { kind := .store, addr := s.addrImm r i, size := 4 }
  | .fsw _ r i => some { kind := .store, addr := s.addrImm r i, size := 4 }
  | .cLw _ r i => some { kind := .load, addr := s.addrC r i, size := 4 }
  | .cFlw _ r i => some { kind := .load, addr := s.addrC r i, size := 4 }
  | .cSw _ r i => some { kind := .store, addr := s.addrC r i, size := 4 }
  | .cFsw _ r i => some { kind := .store, addr := s.addrC r i, size := 4 }
  | .cLwsp _ i => some { kind := .load, addr := s.addrSp i, size := 4 }
  | .cFlwsp _ i => some { kind := .load, addr := s.addrSp i, size := 4 }
  | .cSwsp _ i => some { kind := .store, addr := s.addrSp i, size := 4 }
  | .cFswsp _ i => some { kind := .store, addr := s.addrSp i, size := 4 }
  | .pLbPostImm _ r _ => some { kind := .load, addr := s.readX r, size := 1 }
  | .pLbuPostImm _ r _ => some { kind := .load, addr := s.readX r, size := 1 }
  | .pLhPostImm _ r _ => some { kind := .load, addr := s.readX r, size := 2 }
  | .pLhuPostImm _ r _ => some { kind := .load, addr := s.readX r, size := 2 }
  | .pLwPostImm _ r _ => some { kind := .load, addr := s.readX r, size := 4 }
  | .pLbPostReg _ r _ => some { kind := .load, addr := s.readX r, size := 1 }
  | .pLbuPostReg _ r _ => some { kind := .load, addr := s.readX r, size := 1 }
  | .pLhPostReg _ r _ => some { kind := .load, addr := s.readX r, size := 2 }
  | .pLhuPostReg _ r _ => some { kind := .load, addr := s.readX r, size := 2 }
  | .pLwPostReg _ r _ => some { kind := .load, addr := s.readX r, size := 4 }
  | .pLbOff _ r o => some { kind := .load, addr := s.addrReg r o, size := 1 }
  | .pLbuOff _ r o => some { kind := .load, addr := s.addrReg r o, size := 1 }
  | .pLhOff _ r o => some { kind := .load, addr := s.addrReg r o, size := 2 }
  | .pLhuOff _ r o => some { kind := .load, addr := s.addrReg r o, size := 2 }
  | .pLwOff _ r o => some { kind := .load, addr := s.addrReg r o, size := 4 }
  | .pSbPostImm _ r _ => some { kind := .store, addr := s.readX r, size := 1 }
  | .pShPostImm _ r _ => some { kind := .store, addr := s.readX r, size := 2 }
  | .pSwPostImm _ r _ => some { kind := .store, addr := s.readX r, size := 4 }
  | .pSbPostReg _ _ r => some { kind := .store, addr := s.readX r, size := 1 }
  | .pShPostReg _ _ r => some { kind := .store, addr := s.readX r, size := 2 }
  | .pSwPostReg _ _ r => some { kind := .store, addr := s.readX r, size := 4 }
  | .pSbOff _ o r => some { kind := .store, addr := s.addrReg r o, size := 1 }
  | .pShOff _ o r => some { kind := .store, addr := s.addrReg r o, size := 2 }
  | .pSwOff _ o r => some { kind := .store, addr := s.addrReg r o, size := 4 }
  | _ => none

/-- Whether a conditional branch is taken, in the state it starts in; nothing for other instructions (40_rv32i_base.md
R242, 47_pulp_alu.md R518, 42_rv32c.md R300). -/
def branchTaken (s : State) : Instr → Option Bool
  | .beq a b _ => some (Cond.eq.holds (s.readX a) (s.readX b))
  | .bne a b _ => some (Cond.ne.holds (s.readX a) (s.readX b))
  | .blt a b _ => some (Cond.lt.holds (s.readX a) (s.readX b))
  | .bge a b _ => some (Cond.ge.holds (s.readX a) (s.readX b))
  | .bltu a b _ => some (Cond.ltu.holds (s.readX a) (s.readX b))
  | .bgeu a b _ => some (Cond.geu.holds (s.readX a) (s.readX b))
  | .pBeqimm a i _ => some (Cond.eq.holds (s.readX a) (simm5 i))
  | .pBneimm a i _ => some (Cond.ne.holds (s.readX a) (simm5 i))
  | .cBeqz a _ => some (Cond.eq.holds (s.readX (creg a)) 0)
  | .cBnez a _ => some (Cond.ne.holds (s.readX (creg a)) 0)
  | _ => none

/-- The unconditional jumps `j`, `jal`, `jr`, `jalr` (60_exceptions.md R721, PCCR7). -/
def isJump : Instr → Bool
  | .jal _ _ => true
  | .jalr _ _ _ => true
  | .cJ _ => true
  | .cJal _ => true
  | .cJr _ => true
  | .cJalr _ => true
  | _ => false

/-- The base register of the jumps through a register: `jalr` and the compressed forms that expand to it
(40_rv32i_base.md R204). -/
def jumpBase : Instr → Option Reg
  | .jalr _ rs1 _ => some rs1
  | .cJr rs1 => some rs1
  | .cJalr rs1 => some rs1
  | _ => none

/-- How often each event happens in a step; nothing where the spec does not say. -/
abbrev Events := Nat → Option Nat

/-- A free amount, at most `k`. -/
def State.freeUpTo (s : State) (k n : Nat) : Nat := min k (Config.freeCount s.draws n)

/-- How many accesses of a kind an instruction makes. -/
def accesses (s : State) (i : Instr) (k : Access) : Nat :=
  match dataAccess s i with
  | some d => if d.kind = k then d.count else 0
  | none => 0

/-- The jump-register hazards of an instruction: one, for a jump whose base register, other than x0, the immediately
preceding instruction wrote; not known where a trap or debug mode lies between (60_exceptions.md R721,
40_rv32i_base.md R204). -/
def jumpHazards (s : State) (i : Instr) : Option Nat :=
  match jumpBase i with
  | none => some 0
  | some r => if r = 0 then some 0 else s.prevWrites.map fun w => if r ∈ w then 1 else 0

/-- The events of an instruction of length `ilen` that ran without an exception (60_exceptions.md R721): INSTR, JR_STALL,
LD, ST, JUMP, BRANCH, BTAKEN, RVC are known; each access may be one to EXT, and an instruction without an access uses no
cycle for one. -/
def instrEvents (s : State) (i : Instr) (ilen : Word) : Events := fun n =>
  match n with
  | 1 => some 1
  | 3 => jumpHazards s i
  | 5 => some (accesses s i .load)
  | 6 => some (accesses s i .store)
  | 7 => some (if isJump i then 1 else 0)
  | 8 => some (if (branchTaken s i).isSome then 1 else 0)
  | 9 => some (if branchTaken s i = some true then 1 else 0)
  | 10 => some (if ilen = ilen2 then 1 else 0)
  | 11 => some (s.freeUpTo (accesses s i .load) 11)
  | 12 => some (s.freeUpTo (accesses s i .store) 12)
  | 13 => if accesses s i .load = 0 then some 0 else none
  | 14 => if accesses s i .store = 0 then some 0 else none
  | _ => none

/-- The events of an instruction that raised an exception: it made no access and no jump; whether it counts as executed
the spec does not say. -/
def exceptionEvents : Events := fun n =>
  match n with
  | 3 => some 0
  | 5 => some 0
  | 6 => some 0
  | 7 => some 0
  | 8 => some 0
  | 9 => some 0
  | 11 => some 0
  | 12 => some 0
  | 13 => some 0
  | 14 => some 0
  | _ => none

/-- The events of a step that executes no instruction: an interrupt, debug mode. -/
def idleEvents : Events := fun n =>
  match n with
  | 1 => some 0
  | 10 => some 0
  | _ => exceptionEvents n

/-- A counter after `k` more events (60_exceptions.md R723). -/
def advance (saturate : Bool) (v : Word) (k : Nat) : Word :=
  if saturate then BitVec.ofNat 32 (min (v.toNat + k) (2 ^ 32 - 1)) else v + BitVec.ofNat 32 k

/-- By how much event counter `n` advances. A known event counts when the counter is live after the instruction, whose
writes of PCER and PCMR take effect for events after them (60_exceptions.md R722, R724; 00_scope.md R11 steps 4 and 6). One
that is not known advances it by a free amount when the counter was live before or after. -/
def increment (ev : Events) (before after : State) (n : Nat) : Nat :=
  match ev n with
  | some k => if after.live n then k else 0
  | none => if before.live n || after.live n then Config.freeCount after.draws n else 0

/-- The events of PCER's enabled bits together: their number if each is known. -/
def enabledTotal (ev : Events) (pcer : Word) : Option Nat :=
  (List.range 21).foldl
    (fun t n => if pcer.getLsbD n then t.bind fun k => (ev n).map fun m => k + m else t) (some 0)

/-- The enabled events under the setting before the step are not all known, and the step changed that setting: some may
have counted before the write took effect. -/
def freeBeforeWrite (ev : Events) (before after : State) : Bool :=
  before.liveShared && (before.pcer != after.pcer || !after.liveShared) && (enabledTotal ev before.pcer).isNone

/-- By how much the shared counter advances: one per cycle in which an enabled event happens. With one event that is 1;
with `k` it is from 1 to `k`, as some may share a cycle; a free amount where they are not all known
(60_exceptions.md R722, R724). -/
def incrementShared (ev : Events) (before after : State) : Nat :=
  if freeBeforeWrite ev before after then Config.freeCount after.draws 0
  else if after.liveShared then
    match enabledTotal ev after.pcer with
    | some 0 => 0
    | some (k + 1) => 1 + after.freeUpTo k 0
    | none => Config.freeCount after.draws 0
  else 0

/-- The counters after the events of a step that led from `before` to `after`. -/
def countEvents (ev : Events) (before after : State) : State :=
  match after.params.perfCounters with
  | .single =>
    after.setCounter 0 (advance after.countersSaturate (after.counter 0) (incrementShared ev before after))
  | .individual =>
    { after with
      pccr := after.pccr.mapIdx fun n v => advance after.countersSaturate v (increment ev before after n) }

end Sys2Proof.Machine
end

