-- ==== Sys2Proof/Machine/Fetch.lean ====
section
/-! DEFINITION. The fetch of the instruction at pc (00_scope.md R11 step 2), and whether that instruction would enter a trap
(60_exceptions.md R701). -/

namespace Sys2Proof.Machine

/-- What stops the fetch of the parcel at `a`: nothing executable answers, or a byte of it may be stale (20_memory.md R110,
R118). -/
def State.stopFetch (s : State) (a : Word) : Option Stop :=
  (s.stopAccess .fetch a 2).or
    (if s.isDirty a || s.isDirty (a + 1) then some (.refuse (.staleFetch a)) else none)

/-- The instruction at pc, one parcel or two (00_scope.md R11 step 2). -/
def State.fetch (s : State) : Except Stop Code :=
  match s.stopFetch s.pc with
  | some e => .error e
  | none =>
    if isLong (s.code16 s.pc) then
      match s.stopFetch (s.pc + 2) with
      | some e => .error e
      | none => .ok (.word (s.code16 (s.pc + 2) ++ s.code16 s.pc))
    else .ok (.half (s.code16 s.pc))

/-- The length of an instruction. -/
def codeLength : Code → Word
  | .half _ => ilen2
  | .word _ => ilen4

/-- The instructions of RV32F and RV32FC, illegal with FPU = 0 (44_rv32f.md R350). -/
def isFloat : Instr → Bool
  | .flw _ _ _ => true
  | .fsw _ _ _ => true
  | .fmaddS _ _ _ _ _ => true
  | .fmsubS _ _ _ _ _ => true
  | .fnmsubS _ _ _ _ _ => true
  | .fnmaddS _ _ _ _ _ => true
  | .faddS _ _ _ _ => true
  | .fsubS _ _ _ _ => true
  | .fmulS _ _ _ _ => true
  | .fdivS _ _ _ _ => true
  | .fsqrtS _ _ _ => true
  | .fsgnjS _ _ _ => true
  | .fsgnjnS _ _ _ => true
  | .fsgnjxS _ _ _ => true
  | .fminS _ _ _ => true
  | .fmaxS _ _ _ => true
  | .fcvtWS _ _ _ => true
  | .fcvtWuS _ _ _ => true
  | .fmvXW _ _ => true
  | .feqS _ _ _ => true
  | .fltS _ _ _ => true
  | .fleS _ _ _ => true
  | .fclassS _ _ => true
  | .fcvtSW _ _ _ => true
  | .fcvtSWu _ _ _ => true
  | .fmvWX _ _ => true
  | .cFlw _ _ _ => true
  | .cFsw _ _ _ => true
  | .cFlwsp _ _ => true
  | .cFswsp _ _ => true
  | _ => false

/-- The instruction raises an exception: `ecall`, or a floating-point one with FPU = 0 (60_exceptions.md R701). -/
def raisesException (s : State) (i : Instr) : Bool := i == .ecall || (isFloat i && !s.params.fpu)

/-- The instructions that enter a trap or debug mode: `ecall`, `ebreak`, `c.ebreak`, and those of RV32F with FPU = 0
(60_exceptions.md R701, 41_rv32i_system.md R251). -/
def entersTrap (s : State) (i : Instr) : Bool :=
  raisesException s i || i == .ebreak || i == .cEbreak

/-- The hart is awake and the instruction at pc raises an exception or is a breakpoint: what a halt request is not ordered
against (60_exceptions.md R709). -/
noncomputable def State.trapPending (s : State) : Bool :=
  !(s.sleeping && s.irq.isNone) &&
    match s.fetch with
    | .error _ => false
    | .ok c =>
      match decodeCode c with
      | .ok i => entersTrap s i
      | .error .illegal => true
      | .error (.reserved _) => false
      | .error .truncated => true

end Sys2Proof.Machine
end

