-- ==== Sys2Proof/Machine/Debug.lean ====
section
/-! DEFINITION. The debug unit as the debug host sees it: its address map, reads and writes, the halt and resume requests
(60_exceptions.md section 6, 10_state.md R46, R47); and what the world does to the core between two steps. -/

namespace Sys2Proof.Machine

/-- The registers of the debug address space (10_state.md R46). -/
inductive DebugReg where
  | ctrl
  | hit
  | ie
  | cause
  | bpCtrl (k : BitVec 3)
  | bpData (k : BitVec 3)
  | gpr (r : Reg)
  | npc
  | ppc
  | csr (n : CsrNum)
deriving DecidableEq, Repr

/-- The register at a debug address; an address that is not word-aligned or not listed has none (10_state.md R46). DESIGN
CHOICE: no register either, so an access is refused, in the range 0x0500 to 0x05FF, which R46 and R749 list as reserved for
the f registers and not used, and at the addresses of the listed ranges that name no register (notes/assumptions/23.md). -/
def DebugReg.ofAddr (a : BitVec 15) : Option DebugReg :=
  if a.extractLsb' 0 2 != 0 then none
  else if a.extractLsb' 14 1 = 1 then some (.csr (a.extractLsb' 2 12))
  else if a.extractLsb' 7 8 = 0x08 then some (.gpr (a.extractLsb' 2 5))
  else if a.extractLsb' 6 9 = 0x001 then
    if a.getLsbD 2 then some (.bpData (a.extractLsb' 3 3)) else some (.bpCtrl (a.extractLsb' 3 3))
  else
    match a with
    | 0x0000#15 => some .ctrl
    | 0x0004#15 => some .hit
    | 0x0008#15 => some .ie
    | 0x000C#15 => some .cause
    | 0x2000#15 => some .npc
    | 0x2004#15 => some .ppc
    | _ => none

/-- The registers that are accessible only while the core is halted (10_state.md R46). -/
def DebugReg.haltedOnly : DebugReg → Bool
  | .gpr _ => true
  | .npc => true
  | .ppc => true
  | .csr _ => true
  | _ => false

/-- The register at a debug address, if it may be accessed now. -/
def State.debugReg (s : State) (a : BitVec 15) : Except Refusal DebugReg :=
  match DebugReg.ofAddr a with
  | none => .error (.debugAccess a)
  | some r => if r.haltedOnly && !s.halted then .error (.debugAccess a) else .ok r

/-- A word with bit 16 and bit 0. -/
def bits16And0 (b16 b0 : Bool) : Word := (if b16 then 0x00010000 else 0) ||| (if b0 then 1 else 0)

/-- The bits of DBG_IE that a write keeps (60_exceptions.md R744). -/
def dbgIeMask : Word := 0x000008FF

/-- What a debug read gives (60_exceptions.md R742 to R749). -/
def State.readDebug (s : State) : DebugReg → Except Refusal Word
  | .ctrl => .ok (bits16And0 s.halted s.sste)
  | .hit => .ok (bits16And0 s.sleeping s.ssth)
  | .ie => .ok s.dbgIe
  | .cause => .ok (s.dbgCause.setWidth 32)
  | .bpCtrl _ => .ok 0
  | .bpData _ => .ok (Config.freeBpData s.draws)
  | .gpr r => .ok (s.readX r)
  | .npc => .ok s.pc
  | .ppc => .ok s.ppc
  | .csr n =>
    match s.csrLookup n with
    | .error e => .error e
    | .ok c => .ok (s.readCsr c)

/-- A request is present and MSTATUS.MIE = 1 (60_exceptions.md R706). -/
def State.interruptPending (s : State) : Bool := s.mie && s.irq.isSome

/-- The interrupt that is taken now: a request is present and MSTATUS.MIE = 1; one that was pending across a halt may be
held, as the spec does not promise when it is taken (60_exceptions.md R706, R741;
notes/assumptions/51.md). -/
def State.takeable (s : State) : Option (BitVec 5) :=
  if s.mie && !(s.heldIrq && Config.freeHolds s.draws) then s.irq else none

/-- A halt request: a running core enters debug mode with a cause that is not defined; whether a sleeping core wakes is not
stated; against a pending interrupt or exception it is not ordered (60_exceptions.md R741, R745, R709, R756;
notes/assumptions/24.md, 41.md). -/
noncomputable def haltRequest (s : State) : Result :=
  if s.halted then .next s
  else if s.interruptPending || s.trapPending then .refused .haltRace
  else .next { s.halt (Config.freeCause s.draws) with
    sleeping := s.sleeping && Config.freeStaysAsleep s.draws }

/-- A resume request: the core leaves debug mode and continues at DBG_NPC (60_exceptions.md R741). -/
def State.resume (s : State) : State :=
  if s.halted then { s with halted := false, heldIrq := s.irq.isSome, prevWrites := none } else s

/-- The request line takes this value; a request, the one before or the new one, makes a sleeping hart active, whatever
MSTATUS.MIE (60_exceptions.md R756). -/
def State.requestIrq (s : State) (line : Option (BitVec 5)) : State :=
  { s with
    irq := line
    sleeping := s.sleeping && s.irq.isNone && line.isNone
    heldIrq := s.heldIrq && line.isSome }

/-- `t`, if MEM allows another bus master to store at the address (20_memory.md R119, D35). -/
def busAllowed (a : Word) (s t : State) : Result :=
  if s.sharedAt a then .next t else .refused (.busWriteOutside a)

/-- Another bus master stores a byte in the storage that a port of the core reaches (20_memory.md R118, R119). -/
def State.busStore (s : State) (p : Port) (a : Word) (b : Byte) : State :=
  match p with
  | .data => s.put8 a b
  | .instr => s.putCode8 a b

/-- What a debug write does to a register (60_exceptions.md R742 to R749). DBG_CAUSE and DBG_PPC are read-only: refused.
DEDUCED: a value with bit 0 set written to DBG_NPC is refused (R747, U12), so what R23 of 10_state.md says, that the write
clears bit 0 of the pc, shows only where it is clear (notes/assumptions/55.md). -/
noncomputable def writeDebug (a : BitVec 15) (r : DebugReg) (v : Word) (s : State) : Result :=
  match r with
  | .ctrl =>
    let t := { s with sste := v.getLsbD 0 }
    if v.getLsbD 16 then haltRequest t else .next t.resume
  | .hit => .next { s with ssth := v.getLsbD 0 }
  | .ie => .next { s with dbgIe := v &&& dbgIeMask }
  | .cause => .refused (.debugAccess a)
  | .bpCtrl _ => .next s
  | .bpData _ => .next s
  | .gpr g => .next (s.writeX g v)
  | .npc => if v.getLsbD 0 then .refused (.debugAccess a) else .next { s with pc := evenTarget v }
  | .ppc => .refused (.debugAccess a)
  | .csr n =>
    match s.csrLookup n with
    | .error e => .refused e
    | .ok c => if c.readOnly then .refused (.csrReadOnly n) else .next (s.writeCsr c v)

/-- What one action of the world does to the machine; it uses up one free value. -/
noncomputable def environment (i : Input) (s : State) : Result :=
  mapNext (fun t => { t with draws := t.draws + 1 }) <|
    match i with
    | .tick => .next s
    | .irq line => .next (s.requestIrq line)
    | .bootAddr a => .next { s with bootAddr := a }
    | .debugRead a =>
      match s.debugReg a with
      | .error e => .refused e
      | .ok r =>
        match s.readDebug r with
        | .error e => .refused e
        | .ok v => .next { s with dbgRdata := v }
    | .debugWrite a v =>
      match s.debugReg a with
      | .error e => .refused e
      | .ok r => writeDebug a r v s
    | .haltPulse => haltRequest s
    | .resumePulse => .next s.resume
    | .busWrite p a b => busAllowed a s (s.busStore p a b)
    | .busWriteBetween a b => busAllowed a s { s with between := s.between ++ [(a, b)] }

end Sys2Proof.Machine
end

