-- ==== Sys2Proof/Machine/Base.lean ====
section
/-! DEFINITION. RV32I: upper immediates, jumps, branches, loads, stores, arithmetic, fences (40_rv32i_base.md). -/

namespace Sys2Proof.Machine

/-- `lui`, R201. -/
def execLui (rd : Reg) (imm : BitVec 20) (s : State) : Result := writeBack ilen4 rd (uimm20 imm) s

/-- `auipc`, R202. -/
def execAuipc (rd : Reg) (imm : BitVec 20) (s : State) : Result := writeBack ilen4 rd (s.pc + uimm20 imm) s

/-- `jal`, R203. -/
def execJal (rd : Reg) (off : BitVec 20) (s : State) : Result :=
  jumpTo (s.pc + offsetJ off) (s.writeX rd (s.pc + ilen4))

/-- `jalr`, R204. -/
def execJalr (rd rs1 : Reg) (imm : BitVec 12) (s : State) : Result :=
  jumpTo (evenTarget (s.addrImm rs1 imm)) (s.writeX rd (s.pc + ilen4))

/-- `beq`, R205. -/
def execBeq (rs1 rs2 : Reg) (off : BitVec 12) (s : State) : Result :=
  branchTo (Cond.eq.holds (s.readX rs1) (s.readX rs2)) (s.pc + offsetB off) ilen4 s

/-- `bne`, R206. -/
def execBne (rs1 rs2 : Reg) (off : BitVec 12) (s : State) : Result :=
  branchTo (Cond.ne.holds (s.readX rs1) (s.readX rs2)) (s.pc + offsetB off) ilen4 s

/-- `blt`, R207. -/
def execBlt (rs1 rs2 : Reg) (off : BitVec 12) (s : State) : Result :=
  branchTo (Cond.lt.holds (s.readX rs1) (s.readX rs2)) (s.pc + offsetB off) ilen4 s

/-- `bge`, R208. -/
def execBge (rs1 rs2 : Reg) (off : BitVec 12) (s : State) : Result :=
  branchTo (Cond.ge.holds (s.readX rs1) (s.readX rs2)) (s.pc + offsetB off) ilen4 s

/-- `bltu`, R209. -/
def execBltu (rs1 rs2 : Reg) (off : BitVec 12) (s : State) : Result :=
  branchTo (Cond.ltu.holds (s.readX rs1) (s.readX rs2)) (s.pc + offsetB off) ilen4 s

/-- `bgeu`, R210. -/
def execBgeu (rs1 rs2 : Reg) (off : BitVec 12) (s : State) : Result :=
  branchTo (Cond.geu.holds (s.readX rs1) (s.readX rs2)) (s.pc + offsetB off) ilen4 s

/-- `lb`, R211. -/
def execLb (rd rs1 : Reg) (imm : BitVec 12) (s : State) : Result := loadX ilen4 .lb rd (s.addrImm rs1 imm) s

/-- `lh`, R212. -/
def execLh (rd rs1 : Reg) (imm : BitVec 12) (s : State) : Result := loadX ilen4 .lh rd (s.addrImm rs1 imm) s

/-- `lw`, R213. -/
def execLw (rd rs1 : Reg) (imm : BitVec 12) (s : State) : Result := loadX ilen4 .lw rd (s.addrImm rs1 imm) s

/-- `lbu`, R214. -/
def execLbu (rd rs1 : Reg) (imm : BitVec 12) (s : State) : Result := loadX ilen4 .lbu rd (s.addrImm rs1 imm) s

/-- `lhu`, R215. -/
def execLhu (rd rs1 : Reg) (imm : BitVec 12) (s : State) : Result := loadX ilen4 .lhu rd (s.addrImm rs1 imm) s

/-- `sb`, R216. -/
def execSb (rs2 rs1 : Reg) (imm : BitVec 12) (s : State) : Result :=
  storeTo ilen4 .sb (s.addrImm rs1 imm) (s.readX rs2) s

/-- `sh`, R217. -/
def execSh (rs2 rs1 : Reg) (imm : BitVec 12) (s : State) : Result :=
  storeTo ilen4 .sh (s.addrImm rs1 imm) (s.readX rs2) s

/-- `sw`, R218. -/
def execSw (rs2 rs1 : Reg) (imm : BitVec 12) (s : State) : Result :=
  storeTo ilen4 .sw (s.addrImm rs1 imm) (s.readX rs2) s

/-- `addi`, R219. -/
def execAddi (rd rs1 : Reg) (imm : BitVec 12) (s : State) : Result := writeBack ilen4 rd (s.readX rs1 + simm12 imm) s

/-- `slti`, R220. -/
def execSlti (rd rs1 : Reg) (imm : BitVec 12) (s : State) : Result :=
  writeBack ilen4 rd (ofBool ((s.readX rs1).slt (simm12 imm))) s

/-- `sltiu`, R221. -/
def execSltiu (rd rs1 : Reg) (imm : BitVec 12) (s : State) : Result :=
  writeBack ilen4 rd (ofBool ((s.readX rs1).ult (simm12 imm))) s

/-- `xori`, R222. -/
def execXori (rd rs1 : Reg) (imm : BitVec 12) (s : State) : Result :=
  writeBack ilen4 rd (s.readX rs1 ^^^ simm12 imm) s

/-- `ori`, R223. -/
def execOri (rd rs1 : Reg) (imm : BitVec 12) (s : State) : Result := writeBack ilen4 rd (s.readX rs1 ||| simm12 imm) s

/-- `andi`, R224. -/
def execAndi (rd rs1 : Reg) (imm : BitVec 12) (s : State) : Result :=
  writeBack ilen4 rd (s.readX rs1 &&& simm12 imm) s

/-- `slli`, R225. -/
def execSlli (rd rs1 : Reg) (shamt : BitVec 5) (s : State) : Result :=
  writeBack ilen4 rd (s.readX rs1 <<< shamt.toNat) s

/-- `srli`, R226. -/
def execSrli (rd rs1 : Reg) (shamt : BitVec 5) (s : State) : Result :=
  writeBack ilen4 rd (s.readX rs1 >>> shamt.toNat) s

/-- `srai`, R227. -/
def execSrai (rd rs1 : Reg) (shamt : BitVec 5) (s : State) : Result :=
  writeBack ilen4 rd ((s.readX rs1).sshiftRight shamt.toNat) s

/-- `add`, R228. -/
def execAdd (rd rs1 rs2 : Reg) (s : State) : Result := writeBack ilen4 rd (s.readX rs1 + s.readX rs2) s

/-- `sub`, R229. -/
def execSub (rd rs1 rs2 : Reg) (s : State) : Result := writeBack ilen4 rd (s.readX rs1 - s.readX rs2) s

/-- `sll`, R230. -/
def execSll (rd rs1 rs2 : Reg) (s : State) : Result := writeBack ilen4 rd (s.readX rs1 <<< amount (s.readX rs2)) s

/-- `slt`, R231. -/
def execSlt (rd rs1 rs2 : Reg) (s : State) : Result := writeBack ilen4 rd (ofBool ((s.readX rs1).slt (s.readX rs2))) s

/-- `sltu`, R232. -/
def execSltu (rd rs1 rs2 : Reg) (s : State) : Result :=
  writeBack ilen4 rd (ofBool ((s.readX rs1).ult (s.readX rs2))) s

/-- `xor`, R233. -/
def execXor (rd rs1 rs2 : Reg) (s : State) : Result := writeBack ilen4 rd (s.readX rs1 ^^^ s.readX rs2) s

/-- `srl`, R234. -/
def execSrl (rd rs1 rs2 : Reg) (s : State) : Result := writeBack ilen4 rd (s.readX rs1 >>> amount (s.readX rs2)) s

/-- `sra`, R235. -/
def execSra (rd rs1 rs2 : Reg) (s : State) : Result :=
  writeBack ilen4 rd ((s.readX rs1).sshiftRight (amount (s.readX rs2))) s

/-- `or`, R236. -/
def execOr (rd rs1 rs2 : Reg) (s : State) : Result := writeBack ilen4 rd (s.readX rs1 ||| s.readX rs2) s

/-- `and`, R237. -/
def execAnd (rd rs1 rs2 : Reg) (s : State) : Result := writeBack ilen4 rd (s.readX rs1 &&& s.readX rs2) s

/-- `fence`, R240. All earlier accesses are already done (20_memory.md R115, R116). -/
def execFence (_pred _succ : BitVec 4) (s : State) : Result := retire ilen4 s

/-- `fence.i`, R241. Later fetches see every earlier store (20_memory.md R117). -/
def execFenceI (s : State) : Result := retire ilen4 { s with dirty := [] }

end Sys2Proof.Machine
end

