-- ==== Sys2Proof/Machine/Float.lean ====
section
/-! DEFINITION. Binary32 arithmetic (44_rv32f.md R351 to R353, R380; IEEE 754-2008, PRESUMED, notes/assumptions/33.md):
operands are unpacked to exact numbers, the operation is done exactly, and the result is rounded once. -/

namespace Sys2Proof.Machine

namespace Ieee

/-- What a binary32 word denotes. A finite value is (-1)^sign * m * 2^e, exactly; `m = 0` is a zero. -/
inductive Val where
  | nan (signalling : Bool)
  | inf (sign : Bool)
  | fin (sign : Bool) (m : Nat) (e : Int)
deriving DecidableEq, Repr

/-- Bit 31. -/
def signOf (w : Word) : Bool := w.getLsbD 31
/-- Bits 30:23. -/
def expOf (w : Word) : Nat := (w.extractLsb' 23 8).toNat
/-- Bits 22:0. -/
def fracOf (w : Word) : Nat := (w.extractLsb' 0 23).toNat

/-- The value of a word (44_rv32f.md R351, R352). -/
def unpack (w : Word) : Val :=
  if expOf w = 255 then
    if fracOf w = 0 then .inf (signOf w) else .nan (!w.getLsbD 22)
  else if expOf w = 0 then .fin (signOf w) (fracOf w) (-149)
  else .fin (signOf w) (2 ^ 23 + fracOf w) ((expOf w : Int) - 150)

/-- The canonical NaN (44_rv32f.md R352). -/
def canonicalNaN : Word := 0x7FC00000
/-- A signed infinity. -/
def infWord (sign : Bool) : Word := if sign then 0xFF800000 else 0x7F800000
/-- A signed zero. -/
def zeroWord (sign : Bool) : Word := if sign then 0x80000000 else 0
/-- The largest finite magnitude, signed. -/
def maxWord (sign : Bool) : Word := if sign then 0xFF7FFFFF else 0x7F7FFFFF

/-- The number of significant bits. -/
def bitLen (m : Nat) : Nat := if m = 0 then 0 else m.log2 + 1

/-- Whether the magnitude `q` units and `r` out of `2^s` of a unit more is rounded up (10_state.md R39). -/
def roundsUp (rm : Rounding) (sign : Bool) (q r s : Nat) : Bool :=
  match rm with
  | .rne => decide (2 * r > 2 ^ s) || (decide (2 * r = 2 ^ s) && q % 2 == 1)
  | .rtz => false
  | .rdn => sign && r != 0
  | .rup => !sign && r != 0
  | .rmm => decide (2 * r ≥ 2 ^ s)

/-- `m * 2^e` as an integer number of units `2^te`, rounded; and whether it was not exact. -/
def roundTo (rm : Rounding) (sign : Bool) (m : Nat) (e te : Int) : Nat × Bool :=
  if te ≤ e then (m <<< (e - te).toNat, false)
  else
    let s := (te - e).toNat
    let q := m >>> s
    let r := m % 2 ^ s
    (if roundsUp rm sign q r s then q + 1 else q, r != 0)

/-- Overflow: infinity or the largest finite number, by the mode and the sign. -/
def overflowWord (rm : Rounding) (sign : Bool) : Word :=
  match rm with
  | .rne => infWord sign
  | .rtz => maxWord sign
  | .rdn => if sign then infWord sign else maxWord sign
  | .rup => if sign then maxWord sign else infWord sign
  | .rmm => infWord sign

/-- The number rounded to binary32 with its flags: OF and NX when the rounded result exceeds the largest finite number, UF
when it is tiny after rounding and inexact, NX when it is inexact (44_rv32f.md R353). -/
def roundPack (rm : Rounding) (sign : Bool) (m : Nat) (e : Int) : Word × BitVec 5 :=
  if m = 0 then (zeroWord sign, Flag.none)
  else
    -- the exponent of the last of 24 significant bits, and the one the format allows
    let te := e + (bitLen m : Int) - 24
    let tf := max te (-149)
    let (q, inexact) := roundTo rm sign m e tf
    if 104 < tf ∨ (tf = 104 ∧ 2 ^ 24 ≤ q) then
      (overflowWord rm sign, Flag.of ||| Flag.nx)
    else
      let tiny := decide (te < -149) && !(te == -150 && (roundTo rm sign m e te).1 == 2 ^ 24)
      (BitVec.ofNat 32 ((tf + 149).toNat * 2 ^ 23 + q) ||| zeroWord sign,
        Flag.when (inexact && tiny) Flag.uf ||| Flag.when inexact Flag.nx)

/-- The word is a NaN. -/
def isNaN (w : Word) : Bool :=
  match unpack w with
  | .nan _ => true
  | _ => false

/-- The word is a signalling NaN (44_rv32f.md R352). -/
def isSignalling (w : Word) : Bool :=
  match unpack w with
  | .nan s => s
  | _ => false

/-- A NaN result: the canonical NaN, NV if an operand is signalling. -/
def nanResult (signalling : Bool) : Word × BitVec 5 := (canonicalNaN, Flag.when signalling Flag.nv)

/-- An invalid operation. -/
def invalid : Word × BitVec 5 := (canonicalNaN, Flag.nv)

/-- A signed integer multiple of a power of two. -/
def signed (sign : Bool) (m : Nat) : Int := if sign then -(m : Int) else m

/-- The sum of two finite numbers, rounded once. An exact zero has the common sign of the operands, else the sign that the
mode gives: minus when rounding down. -/
def addFinite (rm : Rounding) (s1 : Bool) (m1 : Nat) (e1 : Int) (s2 : Bool) (m2 : Nat) (e2 : Int) : Word × BitVec 5 :=
  let e := min e1 e2
  let t := signed s1 (m1 <<< (e1 - e).toNat) + signed s2 (m2 <<< (e2 - e).toNat)
  if t = 0 then (zeroWord (if s1 == s2 then s1 else rm == .rdn), Flag.none)
  else roundPack rm (decide (t < 0)) t.natAbs e

/-- The sum of two values (44_rv32f.md R360). -/
def addVal (rm : Rounding) : Val → Val → Word × BitVec 5
  | .nan a, .nan b => nanResult (a || b)
  | .nan a, _ => nanResult a
  | _, .nan b => nanResult b
  | .inf s1, .inf s2 => if s1 == s2 then (infWord s1, Flag.none) else invalid
  | .inf s1, _ => (infWord s1, Flag.none)
  | _, .inf s2 => (infWord s2, Flag.none)
  | .fin s1 m1 e1, .fin s2 m2 e2 => addFinite rm s1 m1 e1 s2 m2 e2

/-- The value with its sign changed; a NaN stays. -/
def negVal : Val → Val
  | .nan a => .nan a
  | .inf s => .inf (!s)
  | .fin s m e => .fin (!s) m e

/-- `round(a + b)` (44_rv32f.md R360). -/
def add (rm : Rounding) (a b : Word) : Word × BitVec 5 := addVal rm (unpack a) (unpack b)

/-- `round(a - b)` (44_rv32f.md R361). -/
def sub (rm : Rounding) (a b : Word) : Word × BitVec 5 := addVal rm (unpack a) (negVal (unpack b))

/-- `round(a * b)` (44_rv32f.md R362). -/
def mul (rm : Rounding) (a b : Word) : Word × BitVec 5 :=
  match unpack a, unpack b with
  | .nan x, .nan y => nanResult (x || y)
  | .nan x, _ => nanResult x
  | _, .nan y => nanResult y
  | .inf s1, .inf s2 => (infWord (s1 != s2), Flag.none)
  | .inf s1, .fin s2 m _ => if m = 0 then invalid else (infWord (s1 != s2), Flag.none)
  | .fin s1 m _, .inf s2 => if m = 0 then invalid else (infWord (s1 != s2), Flag.none)
  | .fin s1 m1 e1, .fin s2 m2 e2 => roundPack rm (s1 != s2) (m1 * m2) (e1 + e2)

/-- `round(a * b + c)`, the product not rounded; NV for 0 * inf also when `c` is a quiet NaN (44_rv32f.md section 3). -/
def fmaVal (rm : Rounding) (a b c : Val) : Word × BitVec 5 :=
  let signalling : Val → Bool := fun v => match v with
    | .nan s => s
    | _ => false
  match a, b, c with
  | .nan x, b, c => nanResult (x || signalling b || signalling c)
  | _, .nan y, c => nanResult (y || signalling c)
  | .inf s1, .inf s2, c => addVal rm (.inf (s1 != s2)) c
  | .inf s1, .fin s2 m _, c => if m = 0 then invalid else addVal rm (.inf (s1 != s2)) c
  | .fin s1 m _, .inf s2, c => if m = 0 then invalid else addVal rm (.inf (s1 != s2)) c
  | .fin s1 m1 e1, .fin s2 m2 e2, c => addVal rm (.fin (s1 != s2) (m1 * m2) (e1 + e2)) c

/-- `round(a / b)` (44_rv32f.md R363). The quotient is cut below its 26th significant bit, and its last bit says whether
something was cut, so that it rounds as the exact quotient does. -/
def div (rm : Rounding) (a b : Word) : Word × BitVec 5 :=
  match unpack a, unpack b with
  | .nan x, .nan y => nanResult (x || y)
  | .nan x, _ => nanResult x
  | _, .nan y => nanResult y
  | .inf _, .inf _ => invalid
  | .inf s1, .fin s2 _ _ => (infWord (s1 != s2), Flag.none)
  | .fin s1 _ _, .inf s2 => (zeroWord (s1 != s2), Flag.none)
  | .fin s1 m1 e1, .fin s2 m2 e2 =>
    if m2 = 0 then
      if m1 = 0 then invalid else (infWord (s1 != s2), Flag.dz)
    else
      let n := m1 * 2 ^ 50
      let q := 2 * (n / m2) + (if n % m2 = 0 then 0 else 1)
      roundPack rm (s1 != s2) q (e1 - e2 - 51)

/-- The largest `r` whose square is at most `m`, among those that agree with `r` above bit `k`. -/
def isqrt : Nat → Nat → Nat → Nat
  | 0, _, r => r
  | k + 1, m, r => if (r + 2 ^ k) * (r + 2 ^ k) ≤ m then isqrt k m (r + 2 ^ k) else isqrt k m r

/-- `round(sqrt(a))` (44_rv32f.md R364), with a last bit as in `div`. -/
def sqrt (rm : Rounding) (a : Word) : Word × BitVec 5 :=
  match unpack a with
  | .nan x => nanResult x
  | .inf s => if s then invalid else (infWord false, Flag.none)
  | .fin s m e =>
    if m = 0 then (zeroWord s, Flag.none)
    else if s then invalid
    else
      -- an even exponent, and enough bits below the 26th of the root
      let odd := e % 2 != 0
      let n := m * 2 ^ (if odd then 61 else 60)
      let e' := (if odd then e - 61 else e - 60) / 2
      let r := isqrt 44 n 0
      roundPack rm false (2 * r + (if r * r = n then 0 else 1)) (e' - 1)

/-- The order of the numbers: -0 and +0 are equal. Only for words that are no NaN. -/
def key (w : Word) : Int := signed (signOf w) (w.extractLsb' 0 31).toNat

/-- `fmin.s` (44_rv32f.md R368). -/
def minimum (a b : Word) : Word × BitVec 5 :=
  (if isNaN a && isNaN b then canonicalNaN
   else if isNaN a then b
   else if isNaN b then a
   else if key a < key b then a
   else if key b < key a then b
   else if signOf a then a else b,
   Flag.when (isSignalling a || isSignalling b) Flag.nv)

/-- `fmax.s` (44_rv32f.md R369). -/
def maximum (a b : Word) : Word × BitVec 5 :=
  (if isNaN a && isNaN b then canonicalNaN
   else if isNaN a then b
   else if isNaN b then a
   else if key b < key a then a
   else if key a < key b then b
   else if signOf a then b else a,
   Flag.when (isSignalling a || isSignalling b) Flag.nv)

/-- `feq.s` (44_rv32f.md R373). -/
def eq (a b : Word) : Bool × BitVec 5 :=
  (!isNaN a && !isNaN b && key a == key b, Flag.when (isSignalling a || isSignalling b) Flag.nv)

/-- `flt.s` (44_rv32f.md R374). -/
def lt (a b : Word) : Bool × BitVec 5 :=
  (!isNaN a && !isNaN b && decide (key a < key b), Flag.when (isNaN a || isNaN b) Flag.nv)

/-- `fle.s` (44_rv32f.md R375). -/
def le (a b : Word) : Bool × BitVec 5 :=
  (!isNaN a && !isNaN b && decide (key a ≤ key b), Flag.when (isNaN a || isNaN b) Flag.nv)

/-- `fclass.s`: exactly one bit (44_rv32f.md R376). -/
def classify (a : Word) : Word :=
  match unpack a with
  | .nan s => if s then BitVec.twoPow 32 8 else BitVec.twoPow 32 9
  | .inf s => if s then BitVec.twoPow 32 0 else BitVec.twoPow 32 7
  | .fin s m _ =>
    if m = 0 then (if s then BitVec.twoPow 32 3 else BitVec.twoPow 32 4)
    else if m < 2 ^ 23 then (if s then BitVec.twoPow 32 2 else BitVec.twoPow 32 5)
    else if s then BitVec.twoPow 32 1 else BitVec.twoPow 32 6

/-- A value rounded to an integer in `lo` to `hi`: out of range, NV and the nearer bound, a NaN the upper one; in range and
not exact, NX (44_rv32f.md R370, R371). -/
def toInteger (rm : Rounding) (lo hi : Int) (a : Word) : Word × BitVec 5 :=
  match unpack a with
  | .nan _ => (BitVec.ofInt 32 hi, Flag.nv)
  | .inf s => (BitVec.ofInt 32 (if s then lo else hi), Flag.nv)
  | .fin s m e =>
    let (q, inexact) := roundTo rm s m e 0
    let v := signed s q
    if v < lo then (BitVec.ofInt 32 lo, Flag.nv)
    else if hi < v then (BitVec.ofInt 32 hi, Flag.nv)
    else (BitVec.ofInt 32 v, Flag.when inexact Flag.nx)

/-- `fcvt.w.s` (44_rv32f.md R370). -/
def toSigned (rm : Rounding) (a : Word) : Word × BitVec 5 := toInteger rm (-(2 ^ 31)) (2 ^ 31 - 1) a

/-- `fcvt.wu.s` (44_rv32f.md R371). -/
def toUnsigned (rm : Rounding) (a : Word) : Word × BitVec 5 := toInteger rm 0 (2 ^ 32 - 1) a

/-- `fcvt.s.w` (44_rv32f.md R377). -/
def ofSigned (rm : Rounding) (v : Word) : Word × BitVec 5 := roundPack rm v.msb v.toInt.natAbs 0

/-- `fcvt.s.wu` (44_rv32f.md R378). -/
def ofUnsigned (rm : Rounding) (v : Word) : Word × BitVec 5 := roundPack rm false v.toNat 0

end Ieee

end Sys2Proof.Machine
end

