-- ==== Sys2Proof/Machine/FpuOps.lean ====
section
/-! DEFINITION. What the floating-point instructions share: the presence of the FPU (44_rv32f.md R350), the rounding mode
(R380, R381), the precision of division and square root (R383). -/

namespace Sys2Proof.Machine

/-- With FPU = 0 the word is an illegal instruction (44_rv32f.md R350). -/
def needsFpu (s : State) (r : Result) : Result := if s.params.fpu then r else .next s.illegalInstruction

/-- With the rounding mode that the rm field selects; a reserved one is refused (44_rv32f.md R380, R381). -/
def withRounding (rm : BitVec 3) (s : State) (k : Rounding → Result) : Result :=
  match s.rounding rm with
  | none => .refused .reservedRounding
  | some m => k m

/-- An instruction that rounds and writes an f register. -/
def fpRounded (rd : Reg) (rm : BitVec 3) (g : Rounding → Word × BitVec 5) (s : State) : Result :=
  needsFpu s (withRounding rm s fun m => writeBackF ilen4 rd (g m).1 (g m).2 s)

/-- An instruction that writes an f register without rounding. -/
def fpResult (rd : Reg) (v : Word × BitVec 5) (s : State) : Result :=
  needsFpu s (writeBackF ilen4 rd v.1 v.2 s)

/-- An instruction that writes an integer register and raises flags. -/
def fpToX (rd : Reg) (v : Word × BitVec 5) (s : State) : Result :=
  needsFpu s (retire ilen4 ((s.writeX rd v.1).raise v.2))

/-- A conversion to an integer register. -/
def fpToXRounded (rd : Reg) (rm : BitVec 3) (g : Rounding → Word × BitVec 5) (s : State) : Result :=
  needsFpu s (withRounding rm s fun m => retire ilen4 ((s.writeX rd (g m).1).raise (g m).2))

/-- A comparison: 1 or 0. -/
def fpCompare (rd : Reg) (v : Bool × BitVec 5) (s : State) : Result := fpToX rd (ofBool v.1, v.2) s

/-- `fdiv.s` and `fsqrt.s`: with fprec = 0 the rounded result; else a result and flags that the spec does not define, and
the instruction ends as before (44_rv32f.md R383; notes/assumptions/16.md). -/
def fpIterative (rd : Reg) (rm : BitVec 3) (g : Rounding → Word × BitVec 5) (s : State) : Result :=
  if s.fprec = 0 then fpRounded rd rm g s
  else fpRounded rd rm (fun _ => (Config.freeFpResult s.draws, Config.freeFpFlags s.draws)) s

end Sys2Proof.Machine
end

