-- ==== Sys2Proof/Machine/Compressed.lean ====
section
/-! DEFINITION. RV32C: each instruction does what its expansion does, two bytes long (42_rv32c.md R280). -/

namespace Sys2Proof.Machine

/-- `c.addi4spn`, R281. -/
def execCAddi4spn (rd : CReg) (nzuimm : BitVec 8) (s : State) : Result :=
  writeBack ilen2 (creg rd) (s.readX sp + uimm4spn nzuimm) s

/-- `c.lw`, R282. -/
def execCLw (rd rs1 : CReg) (uimm : BitVec 5) (s : State) : Result := loadX ilen2 .lw (creg rd) (s.addrC rs1 uimm) s

/-- `c.sw`, R283. -/
def execCSw (rs2 rs1 : CReg) (uimm : BitVec 5) (s : State) : Result :=
  storeTo ilen2 .sw (s.addrC rs1 uimm) (s.readX (creg rs2)) s

/-- `c.flw`, R284. -/
def execCFlw (rd rs1 : CReg) (uimm : BitVec 5) (s : State) : Result :=
  needsFpu s (loadF ilen2 (creg rd) (s.addrC rs1 uimm) s)

/-- `c.fsw`, R285. -/
def execCFsw (rs2 rs1 : CReg) (uimm : BitVec 5) (s : State) : Result :=
  needsFpu s (storeTo ilen2 .sw (s.addrC rs1 uimm) (s.readF (creg rs2)) s)

/-- `c.nop`, R286. -/
def execCNop (_imm : BitVec 6) (s : State) : Result := retire ilen2 s

/-- `c.addi`, R287. -/
def execCAddi (rd : Reg) (imm : BitVec 6) (s : State) : Result := writeBack ilen2 rd (s.readX rd + simm6 imm) s

/-- `c.jal`, R288. -/
def execCJal (off : BitVec 11) (s : State) : Result := jumpTo (s.pc + offsetCJ off) (s.writeX ra (s.pc + ilen2))

/-- `c.li`, R289. -/
def execCLi (rd : Reg) (imm : BitVec 6) (s : State) : Result := writeBack ilen2 rd (simm6 imm) s

/-- `c.addi16sp`, R290. -/
def execCAddi16sp (nzimm : BitVec 6) (s : State) : Result := writeBack ilen2 sp (s.readX sp + simm16sp nzimm) s

/-- `c.lui`, R291. -/
def execCLui (rd : Reg) (nzimm : BitVec 6) (s : State) : Result := writeBack ilen2 rd (luiC nzimm) s

/-- `c.srli`, R292. -/
def execCSrli (rd : CReg) (shamt : BitVec 5) (s : State) : Result :=
  writeBack ilen2 (creg rd) (s.readX (creg rd) >>> shamt.toNat) s

/-- `c.srai`, R293. -/
def execCSrai (rd : CReg) (shamt : BitVec 5) (s : State) : Result :=
  writeBack ilen2 (creg rd) ((s.readX (creg rd)).sshiftRight shamt.toNat) s

/-- `c.andi`, R294. -/
def execCAndi (rd : CReg) (imm : BitVec 6) (s : State) : Result :=
  writeBack ilen2 (creg rd) (s.readX (creg rd) &&& simm6 imm) s

/-- `c.sub`, R295. -/
def execCSub (rd rs2 : CReg) (s : State) : Result :=
  writeBack ilen2 (creg rd) (s.readX (creg rd) - s.readX (creg rs2)) s

/-- `c.xor`, R296. -/
def execCXor (rd rs2 : CReg) (s : State) : Result :=
  writeBack ilen2 (creg rd) (s.readX (creg rd) ^^^ s.readX (creg rs2)) s

/-- `c.or`, R297. -/
def execCOr (rd rs2 : CReg) (s : State) : Result :=
  writeBack ilen2 (creg rd) (s.readX (creg rd) ||| s.readX (creg rs2)) s

/-- `c.and`, R298. -/
def execCAnd (rd rs2 : CReg) (s : State) : Result :=
  writeBack ilen2 (creg rd) (s.readX (creg rd) &&& s.readX (creg rs2)) s

/-- `c.j`, R299. -/
def execCJ (off : BitVec 11) (s : State) : Result := jumpTo (s.pc + offsetCJ off) s

/-- `c.beqz`, R300. -/
def execCBeqz (rs1 : CReg) (off : BitVec 8) (s : State) : Result :=
  branchTo (Cond.eq.holds (s.readX (creg rs1)) 0) (s.pc + offsetCB off) ilen2 s

/-- `c.bnez`, R301. -/
def execCBnez (rs1 : CReg) (off : BitVec 8) (s : State) : Result :=
  branchTo (Cond.ne.holds (s.readX (creg rs1)) 0) (s.pc + offsetCB off) ilen2 s

/-- `c.slli`, R302. -/
def execCSlli (rd : Reg) (shamt : BitVec 5) (s : State) : Result := writeBack ilen2 rd (s.readX rd <<< shamt.toNat) s

/-- `c.lwsp`, R303. -/
def execCLwsp (rd : Reg) (uimm : BitVec 6) (s : State) : Result := loadX ilen2 .lw rd (s.addrSp uimm) s

/-- `c.flwsp`, R304. -/
def execCFlwsp (rd : Reg) (uimm : BitVec 6) (s : State) : Result := needsFpu s (loadF ilen2 rd (s.addrSp uimm) s)

/-- `c.jr`, R305. -/
def execCJr (rs1 : Reg) (s : State) : Result := jumpTo (evenTarget (s.readX rs1)) s

/-- `c.mv`, R306. -/
def execCMv (rd rs2 : Reg) (s : State) : Result := writeBack ilen2 rd (s.readX rs2) s

/-- `c.ebreak`, R307. -/
def execCEbreak (s : State) : Result := breakpoint ilen2 s

/-- `c.jalr`, R308. -/
def execCJalr (rs1 : Reg) (s : State) : Result := jumpTo (evenTarget (s.readX rs1)) (s.writeX ra (s.pc + ilen2))

/-- `c.add`, R309. -/
def execCAdd (rd rs2 : Reg) (s : State) : Result := writeBack ilen2 rd (s.readX rd + s.readX rs2) s

/-- `c.swsp`, R310. -/
def execCSwsp (rs2 : Reg) (uimm : BitVec 6) (s : State) : Result := storeTo ilen2 .sw (s.addrSp uimm) (s.readX rs2) s

/-- `c.fswsp`, R311. -/
def execCFswsp (rs2 : Reg) (uimm : BitVec 6) (s : State) : Result :=
  needsFpu s (storeTo ilen2 .sw (s.addrSp uimm) (s.readF rs2) s)

end Sys2Proof.Machine
end

