-- ==== Sys2Proof/Machine/Fp.lean ====
section
/-! DEFINITION. RV32F: single-precision floating point (44_rv32f.md). Each meaning is the operation that the name map R382 gives
its row in one line; NaNs, flags and rounding are those of the rule named beside it. The unit and latency columns of R382 are
timing (notes/assumptions/38.md). -/

namespace Sys2Proof.Machine

/-- `fmadd.s` and its like: each operand's sign changed or not, the product not rounded (44_rv32f.md R356 to R359). -/
def fusedMulAdd (negProduct negAddend : Bool) (a b c : Word) (m : Rounding) : Word × BitVec 5 :=
  Ieee.fmaVal m (if negProduct then Ieee.negVal (Ieee.unpack a) else Ieee.unpack a) (Ieee.unpack b)
    (if negAddend then Ieee.negVal (Ieee.unpack c) else Ieee.unpack c)

/-- `flw`, R354, R382: loads 32 bits, mapped to `lw`. -/
def execFlw (rd rs1 : Reg) (imm : BitVec 12) (s : State) : Result := needsFpu s (loadF ilen4 rd (s.addrImm rs1 imm) s)

/-- `fsw`, R355, R382: stores, mapped to `sw`. -/
def execFsw (rs2 rs1 : Reg) (imm : BitVec 12) (s : State) : Result :=
  needsFpu s (storeTo ilen4 .sw (s.addrImm rs1 imm) (s.readF rs2) s)

/-- `fmadd.s`, R356, R382: rs1 * rs2 + rs3. -/
def execFmaddS (rd rs1 rs2 rs3 : Reg) (rm : BitVec 3) (s : State) : Result :=
  fpRounded rd rm (fusedMulAdd false false (s.readF rs1) (s.readF rs2) (s.readF rs3)) s

/-- `fmsub.s`, R357, R382: rs1 * rs2 - rs3. -/
def execFmsubS (rd rs1 rs2 rs3 : Reg) (rm : BitVec 3) (s : State) : Result :=
  fpRounded rd rm (fusedMulAdd false true (s.readF rs1) (s.readF rs2) (s.readF rs3)) s

/-- `fnmsub.s`, R358, R382: -(rs1 * rs2 - rs3). -/
def execFnmsubS (rd rs1 rs2 rs3 : Reg) (rm : BitVec 3) (s : State) : Result :=
  fpRounded rd rm (fusedMulAdd true false (s.readF rs1) (s.readF rs2) (s.readF rs3)) s

/-- `fnmadd.s`, R359, R382: -(rs1 * rs2 + rs3). -/
def execFnmaddS (rd rs1 rs2 rs3 : Reg) (rm : BitVec 3) (s : State) : Result :=
  fpRounded rd rm (fusedMulAdd true true (s.readF rs1) (s.readF rs2) (s.readF rs3)) s

/-- `fadd.s`, R360, R382: rs1 + rs2. -/
def execFaddS (rd rs1 rs2 : Reg) (rm : BitVec 3) (s : State) : Result :=
  fpRounded rd rm (fun m => Ieee.add m (s.readF rs1) (s.readF rs2)) s

/-- `fsub.s`, R361, R382: rs1 - rs2. -/
def execFsubS (rd rs1 rs2 : Reg) (rm : BitVec 3) (s : State) : Result :=
  fpRounded rd rm (fun m => Ieee.sub m (s.readF rs1) (s.readF rs2)) s

/-- `fmul.s`, R362, R382: rs1 * rs2. -/
def execFmulS (rd rs1 rs2 : Reg) (rm : BitVec 3) (s : State) : Result :=
  fpRounded rd rm (fun m => Ieee.mul m (s.readF rs1) (s.readF rs2)) s

/-- `fdiv.s`, R363, R382: rs1 / rs2, by the precision in fprec. -/
def execFdivS (rd rs1 rs2 : Reg) (rm : BitVec 3) (s : State) : Result :=
  fpIterative rd rm (fun m => Ieee.div m (s.readF rs1) (s.readF rs2)) s

/-- `fsqrt.s`, R364, R382: sqrt(rs1). -/
def execFsqrtS (rd rs1 : Reg) (rm : BitVec 3) (s : State) : Result :=
  fpIterative rd rm (fun m => Ieee.sqrt m (s.readF rs1)) s

/-- A sign bit and the rest of a word. -/
def withSign (sign : Bool) (w : Word) : Word := (if sign then 0x80000000 else 0) ||| (w &&& 0x7FFFFFFF)

/-- `fsgnj.s`, R365, R382: the sign of rs2. -/
def execFsgnjS (rd rs1 rs2 : Reg) (s : State) : Result :=
  fpResult rd (withSign (Ieee.signOf (s.readF rs2)) (s.readF rs1), Flag.none) s

/-- `fsgnjn.s`, R366, R382: the negated sign of rs2. -/
def execFsgnjnS (rd rs1 rs2 : Reg) (s : State) : Result :=
  fpResult rd (withSign (!Ieee.signOf (s.readF rs2)) (s.readF rs1), Flag.none) s

/-- `fsgnjx.s`, R367, R382: the exclusive or of the two signs. -/
def execFsgnjxS (rd rs1 rs2 : Reg) (s : State) : Result :=
  fpResult rd (withSign (Ieee.signOf (s.readF rs1) != Ieee.signOf (s.readF rs2)) (s.readF rs1), Flag.none) s

/-- `fmin.s`, R368, R382: min(rs1, rs2). -/
def execFminS (rd rs1 rs2 : Reg) (s : State) : Result := fpResult rd (Ieee.minimum (s.readF rs1) (s.readF rs2)) s

/-- `fmax.s`, R369, R382: max(rs1, rs2). -/
def execFmaxS (rd rs1 rs2 : Reg) (s : State) : Result := fpResult rd (Ieee.maximum (s.readF rs1) (s.readF rs2)) s

/-- `fcvt.w.s`, R370, R382: to a signed integer. -/
def execFcvtWS (rd rs1 : Reg) (rm : BitVec 3) (s : State) : Result :=
  fpToXRounded rd rm (fun m => Ieee.toSigned m (s.readF rs1)) s

/-- `fcvt.wu.s`, R371, R382: to an unsigned integer. -/
def execFcvtWuS (rd rs1 : Reg) (rm : BitVec 3) (s : State) : Result :=
  fpToXRounded rd rm (fun m => Ieee.toUnsigned m (s.readF rs1)) s

/-- `fmv.x.w`, R372, R382: a move to the integer registers. -/
def execFmvXW (rd rs1 : Reg) (s : State) : Result := fpToX rd (s.readF rs1, Flag.none) s

/-- `feq.s`, R373, R382: rs1 == rs2. -/
def execFeqS (rd rs1 rs2 : Reg) (s : State) : Result := fpCompare rd (Ieee.eq (s.readF rs1) (s.readF rs2)) s

/-- `flt.s`, R374, R382: rs1 < rs2. -/
def execFltS (rd rs1 rs2 : Reg) (s : State) : Result := fpCompare rd (Ieee.lt (s.readF rs1) (s.readF rs2)) s

/-- `fle.s`, R375, R382: rs1 <= rs2. -/
def execFleS (rd rs1 rs2 : Reg) (s : State) : Result := fpCompare rd (Ieee.le (s.readF rs1) (s.readF rs2)) s

/-- `fclass.s`, R376, R382: the class. -/
def execFclassS (rd rs1 : Reg) (s : State) : Result := fpToX rd (Ieee.classify (s.readF rs1), Flag.none) s

/-- `fcvt.s.w`, R377, R382: from a signed integer. -/
def execFcvtSW (rd rs1 : Reg) (rm : BitVec 3) (s : State) : Result :=
  fpRounded rd rm (fun m => Ieee.ofSigned m (s.readX rs1)) s

/-- `fcvt.s.wu`, R378, R382: from an unsigned integer. -/
def execFcvtSWu (rd rs1 : Reg) (rm : BitVec 3) (s : State) : Result :=
  fpRounded rd rm (fun m => Ieee.ofUnsigned m (s.readX rs1)) s

/-- `fmv.w.x`, R379, R382: a move from the integer registers. -/
def execFmvWX (rd rs1 : Reg) (s : State) : Result := fpResult rd (s.readX rs1, Flag.none) s

end Sys2Proof.Machine
end

