-- ==== Sys2Proof/Machine/HwLoop.lean ====
section
/-! DEFINITION. PULP hardware-loop setup (46_pulp_hwloop.md R441 to R446). -/

namespace Sys2Proof.Machine

/-- `lp.starti`, R441. -/
def execLpStarti (l : BitVec 1) (uimmL : BitVec 12) (s : State) : Result :=
  writeLoop l { s.loopRegs l with start := s.pc + loopOffset uimmL } s

/-- `lp.endi`, R442. -/
def execLpEndi (l : BitVec 1) (uimmL : BitVec 12) (s : State) : Result :=
  writeLoop l { s.loopRegs l with stop := s.pc + loopOffset uimmL } s

/-- `lp.count`, R443. -/
def execLpCount (l : BitVec 1) (rs1 : Reg) (s : State) : Result :=
  writeLoop l { s.loopRegs l with count := s.readX rs1 } s

/-- `lp.counti`, R444. -/
def execLpCounti (l : BitVec 1) (uimmL : BitVec 12) (s : State) : Result :=
  writeLoop l { s.loopRegs l with count := uimmL.setWidth 32 } s

/-- `lp.setup`, R445. -/
def execLpSetup (l : BitVec 1) (rs1 : Reg) (uimmL : BitVec 12) (s : State) : Result :=
  writeLoop l { start := s.pc + 4, stop := s.pc + loopOffset uimmL, count := s.readX rs1 } s

/-- `lp.setupi`, R446. -/
def execLpSetupi (l : BitVec 1) (uimmL : BitVec 12) (uimmS : BitVec 5) (s : State) : Result :=
  writeLoop l { start := s.pc + 4, stop := s.pc + loopOffsetS uimmS, count := uimmL.setWidth 32 } s

end Sys2Proof.Machine
end

