-- ==== Sys2Proof/Machine/MulDiv.lean ====
section
/-! DEFINITION. RV32M: multiplication and division (43_rv32m.md). -/

namespace Sys2Proof.Machine

/-- Bits 63:32 of the exact product of two integers (43_rv32m.md R332 to R334). -/
def highProduct (a b : Int) : Word := BitVec.ofInt 32 (a * b / 2 ^ 32)

/-- The quotient of a signed division, toward zero; by 0 all ones, the overflow wraps (43_rv32m.md R335). -/
def quotientSigned (a b : Word) : Word :=
  if b = 0 then 0xFFFFFFFF
  else if a = 0x80000000 ∧ b = 0xFFFFFFFF then 0x80000000
  else BitVec.ofInt 32 (a.toInt.tdiv b.toInt)

/-- The remainder of that division, with the sign of the dividend; by 0 the dividend, at the overflow 0
(43_rv32m.md R337). -/
def remainderSigned (a b : Word) : Word :=
  if b = 0 then a
  else if a = 0x80000000 ∧ b = 0xFFFFFFFF then 0
  else BitVec.ofInt 32 (a.toInt - b.toInt * a.toInt.tdiv b.toInt)

/-- The quotient of an unsigned division; by 0 all ones (43_rv32m.md R336). -/
def quotientUnsigned (a b : Word) : Word :=
  if b = 0 then 0xFFFFFFFF else BitVec.ofNat 32 (a.toNat / b.toNat)

/-- The remainder of that division; by 0 the dividend (43_rv32m.md R338). -/
def remainderUnsigned (a b : Word) : Word :=
  if b = 0 then a else BitVec.ofNat 32 (a.toNat % b.toNat)

/-- `mul`, R331. -/
def execMul (rd rs1 rs2 : Reg) (s : State) : Result := writeBack ilen4 rd (s.readX rs1 * s.readX rs2) s

/-- `mulh`, R332. -/
def execMulh (rd rs1 rs2 : Reg) (s : State) : Result :=
  writeBack ilen4 rd (highProduct (s.readX rs1).toInt (s.readX rs2).toInt) s

/-- `mulhsu`, R333. -/
def execMulhsu (rd rs1 rs2 : Reg) (s : State) : Result :=
  writeBack ilen4 rd (highProduct (s.readX rs1).toInt (s.readX rs2).toNat) s

/-- `mulhu`, R334. -/
def execMulhu (rd rs1 rs2 : Reg) (s : State) : Result :=
  writeBack ilen4 rd (highProduct (s.readX rs1).toNat (s.readX rs2).toNat) s

/-- `div`, R335. -/
def execDiv (rd rs1 rs2 : Reg) (s : State) : Result :=
  writeBack ilen4 rd (quotientSigned (s.readX rs1) (s.readX rs2)) s

/-- `divu`, R336. -/
def execDivu (rd rs1 rs2 : Reg) (s : State) : Result :=
  writeBack ilen4 rd (quotientUnsigned (s.readX rs1) (s.readX rs2)) s

/-- `rem`, R337. -/
def execRem (rd rs1 rs2 : Reg) (s : State) : Result :=
  writeBack ilen4 rd (remainderSigned (s.readX rs1) (s.readX rs2)) s

/-- `remu`, R338. -/
def execRemu (rd rs1 rs2 : Reg) (s : State) : Result :=
  writeBack ilen4 rd (remainderUnsigned (s.readX rs1) (s.readX rs2)) s

end Sys2Proof.Machine
end

