-- ==== Sys2Proof/Machine/PostInc.lean ====
section
/-! DEFINITION. PULP post-incrementing and register-offset loads and stores (45_pulp_postinc_loadstore.md). -/

namespace Sys2Proof.Machine

/-- A post-increment load: the access is at `x[rs1]`, then `x[rs1] <- x[rs1] + inc` and `x[rd] <- v`. With rd = rs1 (not
x0) the two writes meet in one register and what stays there is a free value (45_pulp_postinc_loadstore.md R400, R425;
notes/assumptions/14.md). -/
def postLoad (k : LoadKind) (rd rs1 : Reg) (inc : Word) (s : State) : Result :=
  let a := s.readX rs1
  let v := if rd = rs1 then Config.freeLoadResult s.draws else s.loadValue k a
  guardAccess .load a k.size s (writeBack ilen4 rd v ((s.settle a k.size).writeX rs1 (a + inc)))

/-- A post-increment store: the access is at `x[rs1]`, then `x[rs1] <- x[rs1] + inc`; every source is read before
(45_pulp_postinc_loadstore.md R400, R425). -/
def postStore (k : StoreKind) (rs1 : Reg) (v inc : Word) (s : State) : Result :=
  let a := s.readX rs1
  guardAccess .store a k.size s (writeBack ilen4 rs1 (a + inc) (s.storeValue k a v))

/-- `p.lb rD, Imm(rs1!)`, R401. -/
def execPLbPostImm (rd rs1 : Reg) (imm : BitVec 12) (s : State) : Result := postLoad .lb rd rs1 (simm12 imm) s

/-- `p.lbu rD, Imm(rs1!)`, R402. -/
def execPLbuPostImm (rd rs1 : Reg) (imm : BitVec 12) (s : State) : Result := postLoad .lbu rd rs1 (simm12 imm) s

/-- `p.lh rD, Imm(rs1!)`, R403. -/
def execPLhPostImm (rd rs1 : Reg) (imm : BitVec 12) (s : State) : Result := postLoad .lh rd rs1 (simm12 imm) s

/-- `p.lhu rD, Imm(rs1!)`, R404. -/
def execPLhuPostImm (rd rs1 : Reg) (imm : BitVec 12) (s : State) : Result := postLoad .lhu rd rs1 (simm12 imm) s

/-- `p.lw rD, Imm(rs1!)`, R405. -/
def execPLwPostImm (rd rs1 : Reg) (imm : BitVec 12) (s : State) : Result := postLoad .lw rd rs1 (simm12 imm) s

/-- `p.lb rD, rs2(rs1!)`, R406. -/
def execPLbPostReg (rd rs1 rs2 : Reg) (s : State) : Result := postLoad .lb rd rs1 (s.readX rs2) s

/-- `p.lbu rD, rs2(rs1!)`, R407. -/
def execPLbuPostReg (rd rs1 rs2 : Reg) (s : State) : Result := postLoad .lbu rd rs1 (s.readX rs2) s

/-- `p.lh rD, rs2(rs1!)`, R408. -/
def execPLhPostReg (rd rs1 rs2 : Reg) (s : State) : Result := postLoad .lh rd rs1 (s.readX rs2) s

/-- `p.lhu rD, rs2(rs1!)`, R409. -/
def execPLhuPostReg (rd rs1 rs2 : Reg) (s : State) : Result := postLoad .lhu rd rs1 (s.readX rs2) s

/-- `p.lw rD, rs2(rs1!)`, R410. -/
def execPLwPostReg (rd rs1 rs2 : Reg) (s : State) : Result := postLoad .lw rd rs1 (s.readX rs2) s

/-- `p.lb rD, rs2(rs1)`, R411. -/
def execPLbOff (rd rs1 rs2 : Reg) (s : State) : Result := loadX ilen4 .lb rd (s.addrReg rs1 rs2) s

/-- `p.lbu rD, rs2(rs1)`, R412. -/
def execPLbuOff (rd rs1 rs2 : Reg) (s : State) : Result := loadX ilen4 .lbu rd (s.addrReg rs1 rs2) s

/-- `p.lh rD, rs2(rs1)`, R413. -/
def execPLhOff (rd rs1 rs2 : Reg) (s : State) : Result := loadX ilen4 .lh rd (s.addrReg rs1 rs2) s

/-- `p.lhu rD, rs2(rs1)`, R414. -/
def execPLhuOff (rd rs1 rs2 : Reg) (s : State) : Result := loadX ilen4 .lhu rd (s.addrReg rs1 rs2) s

/-- `p.lw rD, rs2(rs1)`, R415. -/
def execPLwOff (rd rs1 rs2 : Reg) (s : State) : Result := loadX ilen4 .lw rd (s.addrReg rs1 rs2) s

/-- `p.sb rs2, Imm(rs1!)`, R416. -/
def execPSbPostImm (rs2 rs1 : Reg) (imm : BitVec 12) (s : State) : Result :=
  postStore .sb rs1 (s.readX rs2) (simm12 imm) s

/-- `p.sh rs2, Imm(rs1!)`, R417. -/
def execPShPostImm (rs2 rs1 : Reg) (imm : BitVec 12) (s : State) : Result :=
  postStore .sh rs1 (s.readX rs2) (simm12 imm) s

/-- `p.sw rs2, Imm(rs1!)`, R418. -/
def execPSwPostImm (rs2 rs1 : Reg) (imm : BitVec 12) (s : State) : Result :=
  postStore .sw rs1 (s.readX rs2) (simm12 imm) s

/-- `p.sb rs2, rs3(rs1!)`, R419. -/
def execPSbPostReg (rs2 rs3 rs1 : Reg) (s : State) : Result := postStore .sb rs1 (s.readX rs2) (s.readX rs3) s

/-- `p.sh rs2, rs3(rs1!)`, R420. -/
def execPShPostReg (rs2 rs3 rs1 : Reg) (s : State) : Result := postStore .sh rs1 (s.readX rs2) (s.readX rs3) s

/-- `p.sw rs2, rs3(rs1!)`, R421. -/
def execPSwPostReg (rs2 rs3 rs1 : Reg) (s : State) : Result := postStore .sw rs1 (s.readX rs2) (s.readX rs3) s

/-- `p.sb rs2, rs3(rs1)`, R422. -/
def execPSbOff (rs2 rs3 rs1 : Reg) (s : State) : Result := storeTo ilen4 .sb (s.addrReg rs1 rs3) (s.readX rs2) s

/-- `p.sh rs2, rs3(rs1)`, R423. -/
def execPShOff (rs2 rs3 rs1 : Reg) (s : State) : Result := storeTo ilen4 .sh (s.addrReg rs1 rs3) (s.readX rs2) s

/-- `p.sw rs2, rs3(rs1)`, R424. -/
def execPSwOff (rs2 rs3 rs1 : Reg) (s : State) : Result := storeTo ilen4 .sw (s.addrReg rs1 rs3) (s.readX rs2) s

end Sys2Proof.Machine
end

