-- ==== Sys2Proof/Machine/PulpAlu.lean ====
section
/-! DEFINITION. PULP ALU extensions: bit manipulation, general ALU, normalising additions, immediate branches (47_pulp_alu.md). -/

namespace Sys2Proof.Machine

/-- A bit-field instruction: its result when the field lies in the word, a free value when it runs past bit 31
(47_pulp_alu.md R520; notes/assumptions/13.md). -/
def fieldResult (rd : Reg) (b : BitField) (v : Word) (s : State) : Result :=
  writeBack ilen4 rd (if b.fits then v else Config.freeField s.draws) s

/-- The field of an extract instruction of this instance (47_pulp_alu.md R520, D22). -/
def State.extractField (s : State) (b : BitField) : BitField := b.forExtract s.params.extractWidth

/-- `p.extract`, R471. -/
def execPExtract (rd rs1 : Reg) (ls3 ls2 : BitVec 5) (s : State) : Result :=
  fieldResult rd (s.extractField (fieldImm ls3 ls2)) ((s.extractField (fieldImm ls3 ls2)).extractSigned (s.readX rs1)) s

/-- `p.extractu`, R472. -/
def execPExtractu (rd rs1 : Reg) (ls3 ls2 : BitVec 5) (s : State) : Result :=
  fieldResult rd (s.extractField (fieldImm ls3 ls2)) ((s.extractField (fieldImm ls3 ls2)).extractUnsigned (s.readX rs1)) s

/-- `p.insert`, R473. -/
def execPInsert (rd rs1 : Reg) (ls3 ls2 : BitVec 5) (s : State) : Result :=
  fieldResult rd (fieldImm ls3 ls2) ((fieldImm ls3 ls2).insert (s.readX rd) (s.readX rs1)) s

/-- `p.bclr`, R474. -/
def execPBclr (rd rs1 : Reg) (ls3 ls2 : BitVec 5) (s : State) : Result :=
  fieldResult rd (fieldImm ls3 ls2) (s.readX rs1 &&& ~~~(fieldImm ls3 ls2).mask) s

/-- `p.bset`, R475. -/
def execPBset (rd rs1 : Reg) (ls3 ls2 : BitVec 5) (s : State) : Result :=
  fieldResult rd (fieldImm ls3 ls2) (s.readX rs1 ||| (fieldImm ls3 ls2).mask) s

/-- `p.extractr`, R476. -/
def execPExtractr (rd rs1 rs2 : Reg) (s : State) : Result :=
  fieldResult rd (s.extractField (fieldReg (s.readX rs2))) ((s.extractField (fieldReg (s.readX rs2))).extractSigned (s.readX rs1)) s

/-- `p.extractur`, R477. -/
def execPExtractur (rd rs1 rs2 : Reg) (s : State) : Result :=
  fieldResult rd (s.extractField (fieldReg (s.readX rs2))) ((s.extractField (fieldReg (s.readX rs2))).extractUnsigned (s.readX rs1)) s

/-- `p.insertr`, R478. -/
def execPInsertr (rd rs1 rs2 : Reg) (s : State) : Result :=
  fieldResult rd (fieldReg (s.readX rs2)) ((fieldReg (s.readX rs2)).insert (s.readX rd) (s.readX rs1)) s

/-- `p.bclrr`, R479. -/
def execPBclrr (rd rs1 rs2 : Reg) (s : State) : Result :=
  fieldResult rd (fieldReg (s.readX rs2)) (s.readX rs1 &&& ~~~(fieldReg (s.readX rs2)).mask) s

/-- `p.bsetr`, R480. -/
def execPBsetr (rd rs1 rs2 : Reg) (s : State) : Result :=
  fieldResult rd (fieldReg (s.readX rs2)) (s.readX rs1 ||| (fieldReg (s.readX rs2)).mask) s

/-- The position of the lowest bit set, 32 if there is none (47_pulp_alu.md R482). -/
def findFirst (v : Word) : Word :=
  BitVec.ofNat 32 (((List.range 32).find? fun i => v.getLsbD i).getD 32)

/-- The position of the highest bit set, 32 if there is none (47_pulp_alu.md R483). -/
def findLast (v : Word) : Word :=
  BitVec.ofNat 32 (((List.range 32).reverse.find? fun i => v.getLsbD i).getD 32)

/-- How many leading bits equal the sign bit (47_pulp_alu.md R484). -/
def leadingBits (v : Word) : Nat := ((List.range 32).reverse.takeWhile fun i => v.getLsbD i == v.msb).length

/-- The result of p.clb: 0 for 0, else the count, or the count less one by CLB_MINUS_ONE (47_pulp_alu.md R484, D41). -/
def countLeading (minusOne : Bool) (v : Word) : Word :=
  if v = 0 then 0 else BitVec.ofNat 32 (leadingBits v - (if minusOne then 1 else 0))

/-- How many bits are set (47_pulp_alu.md R485). -/
def popCount (v : Word) : Word := BitVec.ofNat 32 ((List.range 32).filter fun i => v.getLsbD i).length

/-- The smaller and the larger of two words in the order `lt`, with the words of the spec (47_pulp_alu.md R489 to R492). -/
def lesser (lt : Word → Word → Bool) (a b : Word) : Word := if lt a b then a else b
/-- See `lesser`. -/
def greater (lt : Word → Word → Bool) (a b : Word) : Word := if lt a b then b else a

/-- Clipping to `lo` and `hi`, signed, the lower bound tested first (47_pulp_alu.md R497 to R500). -/
def clip (lo hi v : Word) : Word := if v.sle lo then lo else if hi.sle v then hi else v

/-- The upper bound of an `ls2`-bit signed number, 0 for ls2 = 0 (47_pulp_alu.md R497). -/
def clipHigh (ls2 : BitVec 5) : Word := if ls2 = 0 then 0 else BitVec.twoPow 32 (ls2.toNat - 1) - 1

/-- The lower bound of an `ls2`-bit signed number, -1 for ls2 = 0 (47_pulp_alu.md R497). -/
def clipLow (ls2 : BitVec 5) : Word := ~~~clipHigh ls2

/-- `p.ror`, R481. -/
def execPRor (rd rs1 rs2 : Reg) (s : State) : Result :=
  writeBack ilen4 rd ((s.readX rs1).rotateRight (amount (s.readX rs2))) s

/-- `p.ff1`, R482. -/
def execPFf1 (rd rs1 : Reg) (s : State) : Result := writeBack ilen4 rd (findFirst (s.readX rs1)) s

/-- `p.fl1`, R483. -/
def execPFl1 (rd rs1 : Reg) (s : State) : Result := writeBack ilen4 rd (findLast (s.readX rs1)) s

/-- `p.clb`, R484. -/
def execPClb (rd rs1 : Reg) (s : State) : Result :=
  writeBack ilen4 rd (countLeading s.params.clbMinusOne (s.readX rs1)) s

/-- `p.cnt`, R485. -/
def execPCnt (rd rs1 : Reg) (s : State) : Result := writeBack ilen4 rd (popCount (s.readX rs1)) s

/-- `p.abs`, R486. -/
def execPAbs (rd rs1 : Reg) (s : State) : Result :=
  writeBack ilen4 rd (if (s.readX rs1).slt 0 then -s.readX rs1 else s.readX rs1) s

/-- `p.slet`, R487. -/
def execPSlet (rd rs1 rs2 : Reg) (s : State) : Result :=
  writeBack ilen4 rd (ofBool ((s.readX rs1).sle (s.readX rs2))) s

/-- `p.sletu`, R488. -/
def execPSletu (rd rs1 rs2 : Reg) (s : State) : Result :=
  writeBack ilen4 rd (ofBool ((s.readX rs1).ule (s.readX rs2))) s

/-- `p.min`, R489. -/
def execPMin (rd rs1 rs2 : Reg) (s : State) : Result :=
  writeBack ilen4 rd (lesser BitVec.slt (s.readX rs1) (s.readX rs2)) s

/-- `p.minu`, R490. -/
def execPMinu (rd rs1 rs2 : Reg) (s : State) : Result :=
  writeBack ilen4 rd (lesser BitVec.ult (s.readX rs1) (s.readX rs2)) s

/-- `p.max`, R491. -/
def execPMax (rd rs1 rs2 : Reg) (s : State) : Result :=
  writeBack ilen4 rd (greater BitVec.slt (s.readX rs1) (s.readX rs2)) s

/-- `p.maxu`, R492. -/
def execPMaxu (rd rs1 rs2 : Reg) (s : State) : Result :=
  writeBack ilen4 rd (greater BitVec.ult (s.readX rs1) (s.readX rs2)) s

/-- `p.exths`, R493. -/
def execPExths (rd rs1 : Reg) (s : State) : Result := writeBack ilen4 rd ((lo16 (s.readX rs1)).signExtend 32) s

/-- `p.exthz`, R494. -/
def execPExthz (rd rs1 : Reg) (s : State) : Result := writeBack ilen4 rd ((lo16 (s.readX rs1)).setWidth 32) s

/-- `p.extbs`, R495. -/
def execPExtbs (rd rs1 : Reg) (s : State) : Result := writeBack ilen4 rd ((byteAt (s.readX rs1) 0).signExtend 32) s

/-- `p.extbz`, R496. -/
def execPExtbz (rd rs1 : Reg) (s : State) : Result := writeBack ilen4 rd ((byteAt (s.readX rs1) 0).setWidth 32) s

/-- `p.clip`, R497. -/
def execPClip (rd rs1 : Reg) (ls2 : BitVec 5) (s : State) : Result :=
  writeBack ilen4 rd (clip (clipLow ls2) (clipHigh ls2) (s.readX rs1)) s

/-- `p.clipu`, R498. -/
def execPClipu (rd rs1 : Reg) (ls2 : BitVec 5) (s : State) : Result :=
  writeBack ilen4 rd (clip 0 (clipHigh ls2) (s.readX rs1)) s

/-- `p.clipr`, R499. A negative bound has no treatment of its own (U23; notes/assumptions/36.md). -/
def execPClipr (rd rs1 rs2 : Reg) (s : State) : Result :=
  writeBack ilen4 rd (clip (~~~s.readX rs2) (s.readX rs2) (s.readX rs1)) s

/-- `p.clipur`, R500. A negative bound as in `p.clipr`. -/
def execPClipur (rd rs1 rs2 : Reg) (s : State) : Result := writeBack ilen4 rd (clip 0 (s.readX rs2) (s.readX rs1)) s

/-- The arithmetic shift of the forms without "u". -/
def shiftS (v : Word) (k : Nat) : Word := v.sshiftRight k
/-- The logical shift of the forms with "u". -/
def shiftU (v : Word) (k : Nat) : Word := v >>> k

/-- `p.addN`, R501. -/
def execPAddN (rd rs1 rs2 : Reg) (ls3 : BitVec 5) (s : State) : Result :=
  writeBack ilen4 rd (shiftS (s.readX rs1 + s.readX rs2) ls3.toNat) s

/-- `p.addRN`, R503. -/
def execPAddRN (rd rs1 rs2 : Reg) (ls3 : BitVec 5) (s : State) : Result :=
  writeBack ilen4 rd (shiftS (s.readX rs1 + s.readX rs2 + rnd ls3.toNat) ls3.toNat) s

/-- `p.adduN`, R502. -/
def execPAdduN (rd rs1 rs2 : Reg) (ls3 : BitVec 5) (s : State) : Result :=
  writeBack ilen4 rd (shiftU (s.readX rs1 + s.readX rs2) ls3.toNat) s

/-- `p.adduRN`, R504. -/
def execPAdduRN (rd rs1 rs2 : Reg) (ls3 : BitVec 5) (s : State) : Result :=
  writeBack ilen4 rd (shiftU (s.readX rs1 + s.readX rs2 + rnd ls3.toNat) ls3.toNat) s

/-- `p.addNr`, R505. -/
def execPAddNr (rd rs1 rs2 : Reg) (s : State) : Result :=
  writeBack ilen4 rd (shiftS (s.readX rd + s.readX rs1) (amount (s.readX rs2))) s

/-- `p.addRNr`, R507. -/
def execPAddRNr (rd rs1 rs2 : Reg) (s : State) : Result :=
  writeBack ilen4 rd (shiftS (s.readX rd + s.readX rs1 + rnd (amount (s.readX rs2))) (amount (s.readX rs2))) s

/-- `p.adduNr`, R506. -/
def execPAdduNr (rd rs1 rs2 : Reg) (s : State) : Result :=
  writeBack ilen4 rd (shiftU (s.readX rd + s.readX rs1) (amount (s.readX rs2))) s

/-- `p.adduRNr`, R508. -/
def execPAdduRNr (rd rs1 rs2 : Reg) (s : State) : Result :=
  writeBack ilen4 rd (shiftU (s.readX rd + s.readX rs1 + rnd (amount (s.readX rs2))) (amount (s.readX rs2))) s

/-- `p.subN`, R509. -/
def execPSubN (rd rs1 rs2 : Reg) (ls3 : BitVec 5) (s : State) : Result :=
  writeBack ilen4 rd (shiftS (s.readX rs1 - s.readX rs2) ls3.toNat) s

/-- `p.subRN`, R511. -/
def execPSubRN (rd rs1 rs2 : Reg) (ls3 : BitVec 5) (s : State) : Result :=
  writeBack ilen4 rd (shiftS (s.readX rs1 - s.readX rs2 + rnd ls3.toNat) ls3.toNat) s

/-- `p.subuN`, R510. -/
def execPSubuN (rd rs1 rs2 : Reg) (ls3 : BitVec 5) (s : State) : Result :=
  writeBack ilen4 rd (shiftU (s.readX rs1 - s.readX rs2) ls3.toNat) s

/-- `p.subuRN`, R512. -/
def execPSubuRN (rd rs1 rs2 : Reg) (ls3 : BitVec 5) (s : State) : Result :=
  writeBack ilen4 rd (shiftU (s.readX rs1 - s.readX rs2 + rnd ls3.toNat) ls3.toNat) s

/-- `p.subNr`, R513. -/
def execPSubNr (rd rs1 rs2 : Reg) (s : State) : Result :=
  writeBack ilen4 rd (shiftS (s.readX rd - s.readX rs1) (amount (s.readX rs2))) s

/-- `p.subRNr`, R515. -/
def execPSubRNr (rd rs1 rs2 : Reg) (s : State) : Result :=
  writeBack ilen4 rd (shiftS (s.readX rd - s.readX rs1 + rnd (amount (s.readX rs2))) (amount (s.readX rs2))) s

/-- `p.subuNr`, R514. -/
def execPSubuNr (rd rs1 rs2 : Reg) (s : State) : Result :=
  writeBack ilen4 rd (shiftU (s.readX rd - s.readX rs1) (amount (s.readX rs2))) s

/-- `p.subuRNr`, R516. -/
def execPSubuRNr (rd rs1 rs2 : Reg) (s : State) : Result :=
  writeBack ilen4 rd (shiftU (s.readX rd - s.readX rs1 + rnd (amount (s.readX rs2))) (amount (s.readX rs2))) s

/-- `p.beqimm`, R518. -/
def execPBeqimm (rs1 : Reg) (imm5 : BitVec 5) (off : BitVec 12) (s : State) : Result :=
  branchTo (Cond.eq.holds (s.readX rs1) (simm5 imm5)) (s.pc + offsetB off) ilen4 s

/-- `p.bneimm`, R519. -/
def execPBneimm (rs1 : Reg) (imm5 : BitVec 5) (off : BitVec 12) (s : State) : Result :=
  branchTo (Cond.ne.holds (s.readX rs1) (simm5 imm5)) (s.pc + offsetB off) ilen4 s

end Sys2Proof.Machine
end

