-- ==== Sys2Proof/Machine/PulpMac.lean ====
section
/-! DEFINITION. PULP multiply-accumulate and half-word multiplications (48_pulp_mac.md). -/

namespace Sys2Proof.Machine

/-- The exact signed product of two half-words (48_pulp_mac.md R540). -/
def mulS16 (a b : Half) : Word := a.signExtend 32 * b.signExtend 32
/-- The exact unsigned product of two half-words (48_pulp_mac.md R540). -/
def mulU16 (a b : Half) : Word := a.setWidth 32 * b.setWidth 32

/-- `p.mac`, R541. -/
def execPMac (rd rs1 rs2 : Reg) (s : State) : Result := writeBack ilen4 rd (s.readX rd + s.readX rs1 * s.readX rs2) s

/-- `p.msu`, R542. -/
def execPMsu (rd rs1 rs2 : Reg) (s : State) : Result := writeBack ilen4 rd (s.readX rd - s.readX rs1 * s.readX rs2) s

/-- `p.muls`, R543. -/
def execPMuls (rd rs1 rs2 : Reg) (s : State) : Result :=
  writeBack ilen4 rd (mulS16 (lo16 (s.readX rs1)) (lo16 (s.readX rs2))) s

/-- `p.mulsN`, R545. -/
def execPMulsN (rd rs1 rs2 : Reg) (ls3 : BitVec 5) (s : State) : Result :=
  writeBack ilen4 rd (shiftS (mulS16 (lo16 (s.readX rs1)) (lo16 (s.readX rs2))) ls3.toNat) s

/-- `p.mulsRN`, R547. -/
def execPMulsRN (rd rs1 rs2 : Reg) (ls3 : BitVec 5) (s : State) : Result :=
  writeBack ilen4 rd (shiftS (mulS16 (lo16 (s.readX rs1)) (lo16 (s.readX rs2)) + rnd ls3.toNat) ls3.toNat) s

/-- `p.macsN`, R555. -/
def execPMacsN (rd rs1 rs2 : Reg) (ls3 : BitVec 5) (s : State) : Result :=
  writeBack ilen4 rd (shiftS (mulS16 (lo16 (s.readX rs1)) (lo16 (s.readX rs2)) + s.readX rd) ls3.toNat) s

/-- `p.macsRN`, R557. -/
def execPMacsRN (rd rs1 rs2 : Reg) (ls3 : BitVec 5) (s : State) : Result :=
  writeBack ilen4 rd (shiftS (mulS16 (lo16 (s.readX rs1)) (lo16 (s.readX rs2)) + s.readX rd + rnd ls3.toNat) ls3.toNat) s

/-- `p.mulu`, R549. -/
def execPMulu (rd rs1 rs2 : Reg) (s : State) : Result :=
  writeBack ilen4 rd (mulU16 (lo16 (s.readX rs1)) (lo16 (s.readX rs2))) s

/-- `p.muluN`, R551. -/
def execPMuluN (rd rs1 rs2 : Reg) (ls3 : BitVec 5) (s : State) : Result :=
  writeBack ilen4 rd (shiftU (mulU16 (lo16 (s.readX rs1)) (lo16 (s.readX rs2))) ls3.toNat) s

/-- `p.muluRN`, R553. -/
def execPMuluRN (rd rs1 rs2 : Reg) (ls3 : BitVec 5) (s : State) : Result :=
  writeBack ilen4 rd (shiftU (mulU16 (lo16 (s.readX rs1)) (lo16 (s.readX rs2)) + rnd ls3.toNat) ls3.toNat) s

/-- `p.macuN`, R559. -/
def execPMacuN (rd rs1 rs2 : Reg) (ls3 : BitVec 5) (s : State) : Result :=
  writeBack ilen4 rd (shiftU (mulU16 (lo16 (s.readX rs1)) (lo16 (s.readX rs2)) + s.readX rd) ls3.toNat) s

/-- `p.macuRN`, R561. -/
def execPMacuRN (rd rs1 rs2 : Reg) (ls3 : BitVec 5) (s : State) : Result :=
  writeBack ilen4 rd (shiftU (mulU16 (lo16 (s.readX rs1)) (lo16 (s.readX rs2)) + s.readX rd + rnd ls3.toNat) ls3.toNat) s

/-- `p.mulhhs`, R544. -/
def execPMulhhs (rd rs1 rs2 : Reg) (s : State) : Result :=
  writeBack ilen4 rd (mulS16 (hi16 (s.readX rs1)) (hi16 (s.readX rs2))) s

/-- `p.mulhhsN`, R546. -/
def execPMulhhsN (rd rs1 rs2 : Reg) (ls3 : BitVec 5) (s : State) : Result :=
  writeBack ilen4 rd (shiftS (mulS16 (hi16 (s.readX rs1)) (hi16 (s.readX rs2))) ls3.toNat) s

/-- `p.mulhhsRN`, R548. -/
def execPMulhhsRN (rd rs1 rs2 : Reg) (ls3 : BitVec 5) (s : State) : Result :=
  writeBack ilen4 rd (shiftS (mulS16 (hi16 (s.readX rs1)) (hi16 (s.readX rs2)) + rnd ls3.toNat) ls3.toNat) s

/-- `p.machhsN`, R556. -/
def execPMachhsN (rd rs1 rs2 : Reg) (ls3 : BitVec 5) (s : State) : Result :=
  writeBack ilen4 rd (shiftS (mulS16 (hi16 (s.readX rs1)) (hi16 (s.readX rs2)) + s.readX rd) ls3.toNat) s

/-- `p.machhsRN`, R558. -/
def execPMachhsRN (rd rs1 rs2 : Reg) (ls3 : BitVec 5) (s : State) : Result :=
  writeBack ilen4 rd (shiftS (mulS16 (hi16 (s.readX rs1)) (hi16 (s.readX rs2)) + s.readX rd + rnd ls3.toNat) ls3.toNat) s

/-- `p.mulhhu`, R550. -/
def execPMulhhu (rd rs1 rs2 : Reg) (s : State) : Result :=
  writeBack ilen4 rd (mulU16 (hi16 (s.readX rs1)) (hi16 (s.readX rs2))) s

/-- `p.mulhhuN`, R552. -/
def execPMulhhuN (rd rs1 rs2 : Reg) (ls3 : BitVec 5) (s : State) : Result :=
  writeBack ilen4 rd (shiftU (mulU16 (hi16 (s.readX rs1)) (hi16 (s.readX rs2))) ls3.toNat) s

/-- `p.mulhhuRN`, R554. -/
def execPMulhhuRN (rd rs1 rs2 : Reg) (ls3 : BitVec 5) (s : State) : Result :=
  writeBack ilen4 rd (shiftU (mulU16 (hi16 (s.readX rs1)) (hi16 (s.readX rs2)) + rnd ls3.toNat) ls3.toNat) s

/-- `p.machhuN`, R560. -/
def execPMachhuN (rd rs1 rs2 : Reg) (ls3 : BitVec 5) (s : State) : Result :=
  writeBack ilen4 rd (shiftU (mulU16 (hi16 (s.readX rs1)) (hi16 (s.readX rs2)) + s.readX rd) ls3.toNat) s

/-- `p.machhuRN`, R562. -/
def execPMachhuRN (rd rs1 rs2 : Reg) (ls3 : BitVec 5) (s : State) : Result :=
  writeBack ilen4 rd (shiftU (mulU16 (hi16 (s.readX rs1)) (hi16 (s.readX rs2)) + s.readX rd + rnd ls3.toNat) ls3.toNat) s

end Sys2Proof.Machine
end

