-- ==== Sys2Proof/Machine/System.lean ====
section
/-! DEFINITION. System instructions: calls, returns, waiting, CSR access (41_rv32i_system.md). -/

namespace Sys2Proof.Machine

/-- `ecall`, R250. -/
def execEcall (s : State) : Result := .next s.envCall

/-- `ebreak`, R251. -/
def execEbreak (s : State) : Result := breakpoint ilen4 s

/-- `mret`, R252. -/
def execMret (s : State) : Result := returnFromTrap s

/-- `wfi`, R253. The hart sleeps until a request is present; with one present already it does not (60_exceptions.md R755,
R756; 92_eei_decisions.md D15). -/
def execWfi (s : State) : Result := retire ilen4 { s with sleeping := s.irq.isNone }

/-- `csrrw`, R257. -/
def execCsrrw (rd rs1 : Reg) (csr : CsrNum) (s : State) : Result := csrReadWrite rd csr (fun _ => s.readX rs1) s

/-- `csrrs`, R258. -/
def execCsrrs (rd rs1 : Reg) (csr : CsrNum) (s : State) : Result :=
  if rs1 = 0 then csrReadOnlyForm rd csr s else csrReadWrite rd csr (fun t => t ||| s.readX rs1) s

/-- `csrrc`, R259. -/
def execCsrrc (rd rs1 : Reg) (csr : CsrNum) (s : State) : Result :=
  if rs1 = 0 then csrReadOnlyForm rd csr s else csrReadWrite rd csr (fun t => t &&& ~~~s.readX rs1) s

/-- `csrrwi`, R260. -/
def execCsrrwi (rd : Reg) (uimm : BitVec 5) (csr : CsrNum) (s : State) : Result :=
  csrReadWrite rd csr (fun _ => uimm.setWidth 32) s

/-- `csrrsi`, R261. -/
def execCsrrsi (rd : Reg) (uimm : BitVec 5) (csr : CsrNum) (s : State) : Result :=
  if uimm = 0 then csrReadOnlyForm rd csr s else csrReadWrite rd csr (fun t => t ||| uimm.setWidth 32) s

/-- `csrrci`, R262. -/
def execCsrrci (rd : Reg) (uimm : BitVec 5) (csr : CsrNum) (s : State) : Result :=
  if uimm = 0 then csrReadOnlyForm rd csr s else csrReadWrite rd csr (fun t => t &&& ~~~uimm.setWidth 32) s

end Sys2Proof.Machine
end

