-- ==== Sys2Proof/Machine/VecAlu.lean ====
section
/-! DEFINITION. PULP vectorial ALU, element by element (49_pulp_vector.md R584 to R598). -/

namespace Sys2Proof.Machine

/-- pv.add on the elements of two words (49_pulp_vector.md R584). -/
def addH (a b : Word) : Word := zipH (fun a b => a + b) a b
/-- See `addH`. -/
def addB (a b : Word) : Word := zipB (fun a b => a + b) a b

/-- `pv.add.h`, R584. -/
def execPvAddH (rd rs1 rs2 : Reg) (s : State) : Result := writeBack ilen4 rd (addH (s.readX rs1) (s.readX rs2)) s

/-- `pv.add.sc.h`, R584. -/
def execPvAddScH (rd rs1 rs2 : Reg) (s : State) : Result :=
  writeBack ilen4 rd (addH (s.readX rs1) (scH (s.readX rs2))) s

/-- `pv.add.sci.h`, R584. -/
def execPvAddSciH (rd rs1 : Reg) (imm6 : BitVec 6) (s : State) : Result :=
  writeBack ilen4 rd (addH (s.readX rs1) (sciH imm6)) s

/-- `pv.add.b`, R584. -/
def execPvAddB (rd rs1 rs2 : Reg) (s : State) : Result := writeBack ilen4 rd (addB (s.readX rs1) (s.readX rs2)) s

/-- `pv.add.sc.b`, R584. -/
def execPvAddScB (rd rs1 rs2 : Reg) (s : State) : Result :=
  writeBack ilen4 rd (addB (s.readX rs1) (scB (s.readX rs2))) s

/-- `pv.add.sci.b`, R584. -/
def execPvAddSciB (rd rs1 : Reg) (imm6 : BitVec 6) (s : State) : Result :=
  writeBack ilen4 rd (addB (s.readX rs1) (sciB imm6)) s

/-- pv.sub on the elements of two words (49_pulp_vector.md R585). -/
def subH (a b : Word) : Word := zipH (fun a b => a - b) a b
/-- See `subH`. -/
def subB (a b : Word) : Word := zipB (fun a b => a - b) a b

/-- `pv.sub.h`, R585. -/
def execPvSubH (rd rs1 rs2 : Reg) (s : State) : Result := writeBack ilen4 rd (subH (s.readX rs1) (s.readX rs2)) s

/-- `pv.sub.sc.h`, R585. -/
def execPvSubScH (rd rs1 rs2 : Reg) (s : State) : Result :=
  writeBack ilen4 rd (subH (s.readX rs1) (scH (s.readX rs2))) s

/-- `pv.sub.sci.h`, R585. -/
def execPvSubSciH (rd rs1 : Reg) (imm6 : BitVec 6) (s : State) : Result :=
  writeBack ilen4 rd (subH (s.readX rs1) (sciH imm6)) s

/-- `pv.sub.b`, R585. -/
def execPvSubB (rd rs1 rs2 : Reg) (s : State) : Result := writeBack ilen4 rd (subB (s.readX rs1) (s.readX rs2)) s

/-- `pv.sub.sc.b`, R585. -/
def execPvSubScB (rd rs1 rs2 : Reg) (s : State) : Result :=
  writeBack ilen4 rd (subB (s.readX rs1) (scB (s.readX rs2))) s

/-- `pv.sub.sci.b`, R585. -/
def execPvSubSciB (rd rs1 : Reg) (imm6 : BitVec 6) (s : State) : Result :=
  writeBack ilen4 rd (subB (s.readX rs1) (sciB imm6)) s

/-- pv.avg on the elements of two words (49_pulp_vector.md R586). -/
def avgH (a b : Word) : Word := zipH (fun a b => (a + b).sshiftRight 1) a b
/-- See `avgH`. -/
def avgB (a b : Word) : Word := zipB (fun a b => (a + b).sshiftRight 1) a b

/-- `pv.avg.h`, R586. -/
def execPvAvgH (rd rs1 rs2 : Reg) (s : State) : Result := writeBack ilen4 rd (avgH (s.readX rs1) (s.readX rs2)) s

/-- `pv.avg.sc.h`, R586. -/
def execPvAvgScH (rd rs1 rs2 : Reg) (s : State) : Result :=
  writeBack ilen4 rd (avgH (s.readX rs1) (scH (s.readX rs2))) s

/-- `pv.avg.sci.h`, R586. -/
def execPvAvgSciH (rd rs1 : Reg) (imm6 : BitVec 6) (s : State) : Result :=
  writeBack ilen4 rd (avgH (s.readX rs1) (sciH imm6)) s

/-- `pv.avg.b`, R586. -/
def execPvAvgB (rd rs1 rs2 : Reg) (s : State) : Result := writeBack ilen4 rd (avgB (s.readX rs1) (s.readX rs2)) s

/-- `pv.avg.sc.b`, R586. -/
def execPvAvgScB (rd rs1 rs2 : Reg) (s : State) : Result :=
  writeBack ilen4 rd (avgB (s.readX rs1) (scB (s.readX rs2))) s

/-- `pv.avg.sci.b`, R586. -/
def execPvAvgSciB (rd rs1 : Reg) (imm6 : BitVec 6) (s : State) : Result :=
  writeBack ilen4 rd (avgB (s.readX rs1) (sciB imm6)) s

/-- pv.avgu on the elements of two words (49_pulp_vector.md R587). -/
def avguH (a b : Word) : Word := zipH (fun a b => (a + b) >>> 1) a b
/-- See `avguH`. -/
def avguB (a b : Word) : Word := zipB (fun a b => (a + b) >>> 1) a b

/-- `pv.avgu.h`, R587. -/
def execPvAvguH (rd rs1 rs2 : Reg) (s : State) : Result := writeBack ilen4 rd (avguH (s.readX rs1) (s.readX rs2)) s

/-- `pv.avgu.sc.h`, R587. -/
def execPvAvguScH (rd rs1 rs2 : Reg) (s : State) : Result :=
  writeBack ilen4 rd (avguH (s.readX rs1) (scH (s.readX rs2))) s

/-- `pv.avgu.sci.h`, R587. -/
def execPvAvguSciH (rd rs1 : Reg) (imm6 : BitVec 6) (s : State) : Result :=
  writeBack ilen4 rd (avguH (s.readX rs1) (sciH imm6)) s

/-- `pv.avgu.b`, R587. -/
def execPvAvguB (rd rs1 rs2 : Reg) (s : State) : Result := writeBack ilen4 rd (avguB (s.readX rs1) (s.readX rs2)) s

/-- `pv.avgu.sc.b`, R587. -/
def execPvAvguScB (rd rs1 rs2 : Reg) (s : State) : Result :=
  writeBack ilen4 rd (avguB (s.readX rs1) (scB (s.readX rs2))) s

/-- `pv.avgu.sci.b`, R587. -/
def execPvAvguSciB (rd rs1 : Reg) (imm6 : BitVec 6) (s : State) : Result :=
  writeBack ilen4 rd (avguB (s.readX rs1) (sciB imm6)) s

/-- pv.min on the elements of two words (49_pulp_vector.md R588). -/
def minH (a b : Word) : Word := zipH (fun a b => if a.slt b then a else b) a b
/-- See `minH`. -/
def minB (a b : Word) : Word := zipB (fun a b => if a.slt b then a else b) a b

/-- `pv.min.h`, R588. -/
def execPvMinH (rd rs1 rs2 : Reg) (s : State) : Result := writeBack ilen4 rd (minH (s.readX rs1) (s.readX rs2)) s

/-- `pv.min.sc.h`, R588. -/
def execPvMinScH (rd rs1 rs2 : Reg) (s : State) : Result :=
  writeBack ilen4 rd (minH (s.readX rs1) (scH (s.readX rs2))) s

/-- `pv.min.sci.h`, R588. -/
def execPvMinSciH (rd rs1 : Reg) (imm6 : BitVec 6) (s : State) : Result :=
  writeBack ilen4 rd (minH (s.readX rs1) (sciH imm6)) s

/-- `pv.min.b`, R588. -/
def execPvMinB (rd rs1 rs2 : Reg) (s : State) : Result := writeBack ilen4 rd (minB (s.readX rs1) (s.readX rs2)) s

/-- `pv.min.sc.b`, R588. -/
def execPvMinScB (rd rs1 rs2 : Reg) (s : State) : Result :=
  writeBack ilen4 rd (minB (s.readX rs1) (scB (s.readX rs2))) s

/-- `pv.min.sci.b`, R588. -/
def execPvMinSciB (rd rs1 : Reg) (imm6 : BitVec 6) (s : State) : Result :=
  writeBack ilen4 rd (minB (s.readX rs1) (sciB imm6)) s

/-- pv.minu on the elements of two words (49_pulp_vector.md R589). -/
def minuH (a b : Word) : Word := zipH (fun a b => if a.ult b then a else b) a b
/-- See `minuH`. -/
def minuB (a b : Word) : Word := zipB (fun a b => if a.ult b then a else b) a b

/-- `pv.minu.h`, R589. -/
def execPvMinuH (rd rs1 rs2 : Reg) (s : State) : Result := writeBack ilen4 rd (minuH (s.readX rs1) (s.readX rs2)) s

/-- `pv.minu.sc.h`, R589. -/
def execPvMinuScH (rd rs1 rs2 : Reg) (s : State) : Result :=
  writeBack ilen4 rd (minuH (s.readX rs1) (scH (s.readX rs2))) s

/-- `pv.minu.sci.h`, R589. -/
def execPvMinuSciH (rd rs1 : Reg) (imm6 : BitVec 6) (s : State) : Result :=
  writeBack ilen4 rd (minuH (s.readX rs1) (sciuH imm6)) s

/-- `pv.minu.b`, R589. -/
def execPvMinuB (rd rs1 rs2 : Reg) (s : State) : Result := writeBack ilen4 rd (minuB (s.readX rs1) (s.readX rs2)) s

/-- `pv.minu.sc.b`, R589. -/
def execPvMinuScB (rd rs1 rs2 : Reg) (s : State) : Result :=
  writeBack ilen4 rd (minuB (s.readX rs1) (scB (s.readX rs2))) s

/-- `pv.minu.sci.b`, R589. -/
def execPvMinuSciB (rd rs1 : Reg) (imm6 : BitVec 6) (s : State) : Result :=
  writeBack ilen4 rd (minuB (s.readX rs1) (sciuB imm6)) s

/-- pv.max on the elements of two words (49_pulp_vector.md R590). -/
def maxH (a b : Word) : Word := zipH (fun a b => if b.slt a then a else b) a b
/-- See `maxH`. -/
def maxB (a b : Word) : Word := zipB (fun a b => if b.slt a then a else b) a b

/-- `pv.max.h`, R590. -/
def execPvMaxH (rd rs1 rs2 : Reg) (s : State) : Result := writeBack ilen4 rd (maxH (s.readX rs1) (s.readX rs2)) s

/-- `pv.max.sc.h`, R590. -/
def execPvMaxScH (rd rs1 rs2 : Reg) (s : State) : Result :=
  writeBack ilen4 rd (maxH (s.readX rs1) (scH (s.readX rs2))) s

/-- `pv.max.sci.h`, R590. -/
def execPvMaxSciH (rd rs1 : Reg) (imm6 : BitVec 6) (s : State) : Result :=
  writeBack ilen4 rd (maxH (s.readX rs1) (sciH imm6)) s

/-- `pv.max.b`, R590. -/
def execPvMaxB (rd rs1 rs2 : Reg) (s : State) : Result := writeBack ilen4 rd (maxB (s.readX rs1) (s.readX rs2)) s

/-- `pv.max.sc.b`, R590. -/
def execPvMaxScB (rd rs1 rs2 : Reg) (s : State) : Result :=
  writeBack ilen4 rd (maxB (s.readX rs1) (scB (s.readX rs2))) s

/-- `pv.max.sci.b`, R590. -/
def execPvMaxSciB (rd rs1 : Reg) (imm6 : BitVec 6) (s : State) : Result :=
  writeBack ilen4 rd (maxB (s.readX rs1) (sciB imm6)) s

/-- pv.maxu on the elements of two words (49_pulp_vector.md R591). -/
def maxuH (a b : Word) : Word := zipH (fun a b => if b.ult a then a else b) a b
/-- See `maxuH`. -/
def maxuB (a b : Word) : Word := zipB (fun a b => if b.ult a then a else b) a b

/-- `pv.maxu.h`, R591. -/
def execPvMaxuH (rd rs1 rs2 : Reg) (s : State) : Result := writeBack ilen4 rd (maxuH (s.readX rs1) (s.readX rs2)) s

/-- `pv.maxu.sc.h`, R591. -/
def execPvMaxuScH (rd rs1 rs2 : Reg) (s : State) : Result :=
  writeBack ilen4 rd (maxuH (s.readX rs1) (scH (s.readX rs2))) s

/-- `pv.maxu.sci.h`, R591. -/
def execPvMaxuSciH (rd rs1 : Reg) (imm6 : BitVec 6) (s : State) : Result :=
  writeBack ilen4 rd (maxuH (s.readX rs1) (sciuH imm6)) s

/-- `pv.maxu.b`, R591. -/
def execPvMaxuB (rd rs1 rs2 : Reg) (s : State) : Result := writeBack ilen4 rd (maxuB (s.readX rs1) (s.readX rs2)) s

/-- `pv.maxu.sc.b`, R591. -/
def execPvMaxuScB (rd rs1 rs2 : Reg) (s : State) : Result :=
  writeBack ilen4 rd (maxuB (s.readX rs1) (scB (s.readX rs2))) s

/-- `pv.maxu.sci.b`, R591. -/
def execPvMaxuSciB (rd rs1 : Reg) (imm6 : BitVec 6) (s : State) : Result :=
  writeBack ilen4 rd (maxuB (s.readX rs1) (sciuB imm6)) s

/-- pv.srl on the elements of two words (49_pulp_vector.md R592). -/
def srlH (a b : Word) : Word := zipH (fun a b => a >>> (b.toNat % 16)) a b
/-- See `srlH`. -/
def srlB (a b : Word) : Word := zipB (fun a b => a >>> (b.toNat % 8)) a b

/-- `pv.srl.h`, R592. -/
def execPvSrlH (rd rs1 rs2 : Reg) (s : State) : Result := writeBack ilen4 rd (srlH (s.readX rs1) (s.readX rs2)) s

/-- `pv.srl.sc.h`, R592. -/
def execPvSrlScH (rd rs1 rs2 : Reg) (s : State) : Result :=
  writeBack ilen4 rd (srlH (s.readX rs1) (scH (s.readX rs2))) s

/-- `pv.srl.sci.h`, R592. -/
def execPvSrlSciH (rd rs1 : Reg) (imm6 : BitVec 6) (s : State) : Result :=
  writeBack ilen4 rd (srlH (s.readX rs1) (sciuH imm6)) s

/-- `pv.srl.b`, R592. -/
def execPvSrlB (rd rs1 rs2 : Reg) (s : State) : Result := writeBack ilen4 rd (srlB (s.readX rs1) (s.readX rs2)) s

/-- `pv.srl.sc.b`, R592. -/
def execPvSrlScB (rd rs1 rs2 : Reg) (s : State) : Result :=
  writeBack ilen4 rd (srlB (s.readX rs1) (scB (s.readX rs2))) s

/-- `pv.srl.sci.b`, R592. -/
def execPvSrlSciB (rd rs1 : Reg) (imm6 : BitVec 6) (s : State) : Result :=
  writeBack ilen4 rd (srlB (s.readX rs1) (sciuB imm6)) s

/-- pv.sra on the elements of two words (49_pulp_vector.md R593). -/
def sraH (a b : Word) : Word := zipH (fun a b => a.sshiftRight (b.toNat % 16)) a b
/-- See `sraH`. -/
def sraB (a b : Word) : Word := zipB (fun a b => a.sshiftRight (b.toNat % 8)) a b

/-- `pv.sra.h`, R593. -/
def execPvSraH (rd rs1 rs2 : Reg) (s : State) : Result := writeBack ilen4 rd (sraH (s.readX rs1) (s.readX rs2)) s

/-- `pv.sra.sc.h`, R593. -/
def execPvSraScH (rd rs1 rs2 : Reg) (s : State) : Result :=
  writeBack ilen4 rd (sraH (s.readX rs1) (scH (s.readX rs2))) s

/-- `pv.sra.sci.h`, R593. -/
def execPvSraSciH (rd rs1 : Reg) (imm6 : BitVec 6) (s : State) : Result :=
  writeBack ilen4 rd (sraH (s.readX rs1) (sciuH imm6)) s

/-- `pv.sra.b`, R593. -/
def execPvSraB (rd rs1 rs2 : Reg) (s : State) : Result := writeBack ilen4 rd (sraB (s.readX rs1) (s.readX rs2)) s

/-- `pv.sra.sc.b`, R593. -/
def execPvSraScB (rd rs1 rs2 : Reg) (s : State) : Result :=
  writeBack ilen4 rd (sraB (s.readX rs1) (scB (s.readX rs2))) s

/-- `pv.sra.sci.b`, R593. -/
def execPvSraSciB (rd rs1 : Reg) (imm6 : BitVec 6) (s : State) : Result :=
  writeBack ilen4 rd (sraB (s.readX rs1) (sciuB imm6)) s

/-- pv.sll on the elements of two words (49_pulp_vector.md R594). -/
def sllH (a b : Word) : Word := zipH (fun a b => a <<< (b.toNat % 16)) a b
/-- See `sllH`. -/
def sllB (a b : Word) : Word := zipB (fun a b => a <<< (b.toNat % 8)) a b

/-- `pv.sll.h`, R594. -/
def execPvSllH (rd rs1 rs2 : Reg) (s : State) : Result := writeBack ilen4 rd (sllH (s.readX rs1) (s.readX rs2)) s

/-- `pv.sll.sc.h`, R594. -/
def execPvSllScH (rd rs1 rs2 : Reg) (s : State) : Result :=
  writeBack ilen4 rd (sllH (s.readX rs1) (scH (s.readX rs2))) s

/-- `pv.sll.sci.h`, R594. -/
def execPvSllSciH (rd rs1 : Reg) (imm6 : BitVec 6) (s : State) : Result :=
  writeBack ilen4 rd (sllH (s.readX rs1) (sciuH imm6)) s

/-- `pv.sll.b`, R594. -/
def execPvSllB (rd rs1 rs2 : Reg) (s : State) : Result := writeBack ilen4 rd (sllB (s.readX rs1) (s.readX rs2)) s

/-- `pv.sll.sc.b`, R594. -/
def execPvSllScB (rd rs1 rs2 : Reg) (s : State) : Result :=
  writeBack ilen4 rd (sllB (s.readX rs1) (scB (s.readX rs2))) s

/-- `pv.sll.sci.b`, R594. -/
def execPvSllSciB (rd rs1 : Reg) (imm6 : BitVec 6) (s : State) : Result :=
  writeBack ilen4 rd (sllB (s.readX rs1) (sciuB imm6)) s

/-- pv.or on the elements of two words (49_pulp_vector.md R595). -/
def orH (a b : Word) : Word := zipH (fun a b => a ||| b) a b
/-- See `orH`. -/
def orB (a b : Word) : Word := zipB (fun a b => a ||| b) a b

/-- `pv.or.h`, R595. -/
def execPvOrH (rd rs1 rs2 : Reg) (s : State) : Result := writeBack ilen4 rd (orH (s.readX rs1) (s.readX rs2)) s

/-- `pv.or.sc.h`, R595. -/
def execPvOrScH (rd rs1 rs2 : Reg) (s : State) : Result :=
  writeBack ilen4 rd (orH (s.readX rs1) (scH (s.readX rs2))) s

/-- `pv.or.sci.h`, R595. -/
def execPvOrSciH (rd rs1 : Reg) (imm6 : BitVec 6) (s : State) : Result :=
  writeBack ilen4 rd (orH (s.readX rs1) (sciH imm6)) s

/-- `pv.or.b`, R595. -/
def execPvOrB (rd rs1 rs2 : Reg) (s : State) : Result := writeBack ilen4 rd (orB (s.readX rs1) (s.readX rs2)) s

/-- `pv.or.sc.b`, R595. -/
def execPvOrScB (rd rs1 rs2 : Reg) (s : State) : Result :=
  writeBack ilen4 rd (orB (s.readX rs1) (scB (s.readX rs2))) s

/-- `pv.or.sci.b`, R595. -/
def execPvOrSciB (rd rs1 : Reg) (imm6 : BitVec 6) (s : State) : Result :=
  writeBack ilen4 rd (orB (s.readX rs1) (sciB imm6)) s

/-- pv.xor on the elements of two words (49_pulp_vector.md R596). -/
def xorH (a b : Word) : Word := zipH (fun a b => a ^^^ b) a b
/-- See `xorH`. -/
def xorB (a b : Word) : Word := zipB (fun a b => a ^^^ b) a b

/-- `pv.xor.h`, R596. -/
def execPvXorH (rd rs1 rs2 : Reg) (s : State) : Result := writeBack ilen4 rd (xorH (s.readX rs1) (s.readX rs2)) s

/-- `pv.xor.sc.h`, R596. -/
def execPvXorScH (rd rs1 rs2 : Reg) (s : State) : Result :=
  writeBack ilen4 rd (xorH (s.readX rs1) (scH (s.readX rs2))) s

/-- `pv.xor.sci.h`, R596. -/
def execPvXorSciH (rd rs1 : Reg) (imm6 : BitVec 6) (s : State) : Result :=
  writeBack ilen4 rd (xorH (s.readX rs1) (sciH imm6)) s

/-- `pv.xor.b`, R596. -/
def execPvXorB (rd rs1 rs2 : Reg) (s : State) : Result := writeBack ilen4 rd (xorB (s.readX rs1) (s.readX rs2)) s

/-- `pv.xor.sc.b`, R596. -/
def execPvXorScB (rd rs1 rs2 : Reg) (s : State) : Result :=
  writeBack ilen4 rd (xorB (s.readX rs1) (scB (s.readX rs2))) s

/-- `pv.xor.sci.b`, R596. -/
def execPvXorSciB (rd rs1 : Reg) (imm6 : BitVec 6) (s : State) : Result :=
  writeBack ilen4 rd (xorB (s.readX rs1) (sciB imm6)) s

/-- pv.and on the elements of two words (49_pulp_vector.md R597). -/
def andH (a b : Word) : Word := zipH (fun a b => a &&& b) a b
/-- See `andH`. -/
def andB (a b : Word) : Word := zipB (fun a b => a &&& b) a b

/-- `pv.and.h`, R597. -/
def execPvAndH (rd rs1 rs2 : Reg) (s : State) : Result := writeBack ilen4 rd (andH (s.readX rs1) (s.readX rs2)) s

/-- `pv.and.sc.h`, R597. -/
def execPvAndScH (rd rs1 rs2 : Reg) (s : State) : Result :=
  writeBack ilen4 rd (andH (s.readX rs1) (scH (s.readX rs2))) s

/-- `pv.and.sci.h`, R597. -/
def execPvAndSciH (rd rs1 : Reg) (imm6 : BitVec 6) (s : State) : Result :=
  writeBack ilen4 rd (andH (s.readX rs1) (sciH imm6)) s

/-- `pv.and.b`, R597. -/
def execPvAndB (rd rs1 rs2 : Reg) (s : State) : Result := writeBack ilen4 rd (andB (s.readX rs1) (s.readX rs2)) s

/-- `pv.and.sc.b`, R597. -/
def execPvAndScB (rd rs1 rs2 : Reg) (s : State) : Result :=
  writeBack ilen4 rd (andB (s.readX rs1) (scB (s.readX rs2))) s

/-- `pv.and.sci.b`, R597. -/
def execPvAndSciB (rd rs1 : Reg) (imm6 : BitVec 6) (s : State) : Result :=
  writeBack ilen4 rd (andB (s.readX rs1) (sciB imm6)) s

/-- The absolute value of an element; the most negative one is its own (49_pulp_vector.md R598). -/
def absElem {n : Nat} (a : BitVec n) : BitVec n := if a.slt 0 then -a else a

/-- `pv.abs.h`, R598. -/
def execPvAbsH (rd rs1 : Reg) (s : State) : Result :=
  writeBack ilen4 rd (zipH (fun a _ => absElem a) (s.readX rs1) 0) s

/-- `pv.abs.b`, R598. -/
def execPvAbsB (rd rs1 : Reg) (s : State) : Result :=
  writeBack ilen4 rd (zipB (fun a _ => absElem a) (s.readX rs1) 0) s

end Sys2Proof.Machine
end

