-- ==== Sys2Proof/Machine/VecCmp.lean ====
section
/-! DEFINITION. PULP vectorial comparisons (49_pulp_vector.md R618 to R628). -/

namespace Sys2Proof.Machine

/-- Every half-word is all ones where the condition holds, else 0 (49_pulp_vector.md R618). -/
def cmpH (c : Half → Half → Bool) (a b : Word) : Word := zipH (fun x y => if c x y then BitVec.allOnes 16 else 0) a b
/-- Every byte is all ones where the condition holds, else 0 (49_pulp_vector.md R618). -/
def cmpB (c : Byte → Byte → Bool) (a b : Word) : Word := zipB (fun x y => if c x y then BitVec.allOnes 8 else 0) a b

/-- `pv.cmpeq.h`, R619. -/
def execPvCmpeqH (rd rs1 rs2 : Reg) (s : State) : Result :=
  writeBack ilen4 rd (cmpH (fun x y => x == y) (s.readX rs1) (s.readX rs2)) s

/-- `pv.cmpeq.sc.h`, R619. -/
def execPvCmpeqScH (rd rs1 rs2 : Reg) (s : State) : Result :=
  writeBack ilen4 rd (cmpH (fun x y => x == y) (s.readX rs1) (scH (s.readX rs2))) s

/-- `pv.cmpeq.sci.h`, R619. -/
def execPvCmpeqSciH (rd rs1 : Reg) (imm6 : BitVec 6) (s : State) : Result :=
  writeBack ilen4 rd (cmpH (fun x y => x == y) (s.readX rs1) (sciH imm6)) s

/-- `pv.cmpeq.b`, R619. -/
def execPvCmpeqB (rd rs1 rs2 : Reg) (s : State) : Result :=
  writeBack ilen4 rd (cmpB (fun x y => x == y) (s.readX rs1) (s.readX rs2)) s

/-- `pv.cmpeq.sc.b`, R619. -/
def execPvCmpeqScB (rd rs1 rs2 : Reg) (s : State) : Result :=
  writeBack ilen4 rd (cmpB (fun x y => x == y) (s.readX rs1) (scB (s.readX rs2))) s

/-- `pv.cmpeq.sci.b`, R619. -/
def execPvCmpeqSciB (rd rs1 : Reg) (imm6 : BitVec 6) (s : State) : Result :=
  writeBack ilen4 rd (cmpB (fun x y => x == y) (s.readX rs1) (sciB imm6)) s

/-- `pv.cmpne.h`, R620. -/
def execPvCmpneH (rd rs1 rs2 : Reg) (s : State) : Result :=
  writeBack ilen4 rd (cmpH (fun x y => x != y) (s.readX rs1) (s.readX rs2)) s

/-- `pv.cmpne.sc.h`, R620. -/
def execPvCmpneScH (rd rs1 rs2 : Reg) (s : State) : Result :=
  writeBack ilen4 rd (cmpH (fun x y => x != y) (s.readX rs1) (scH (s.readX rs2))) s

/-- `pv.cmpne.sci.h`, R620. -/
def execPvCmpneSciH (rd rs1 : Reg) (imm6 : BitVec 6) (s : State) : Result :=
  writeBack ilen4 rd (cmpH (fun x y => x != y) (s.readX rs1) (sciH imm6)) s

/-- `pv.cmpne.b`, R620. -/
def execPvCmpneB (rd rs1 rs2 : Reg) (s : State) : Result :=
  writeBack ilen4 rd (cmpB (fun x y => x != y) (s.readX rs1) (s.readX rs2)) s

/-- `pv.cmpne.sc.b`, R620. -/
def execPvCmpneScB (rd rs1 rs2 : Reg) (s : State) : Result :=
  writeBack ilen4 rd (cmpB (fun x y => x != y) (s.readX rs1) (scB (s.readX rs2))) s

/-- `pv.cmpne.sci.b`, R620. -/
def execPvCmpneSciB (rd rs1 : Reg) (imm6 : BitVec 6) (s : State) : Result :=
  writeBack ilen4 rd (cmpB (fun x y => x != y) (s.readX rs1) (sciB imm6)) s

/-- `pv.cmpgt.h`, R621. -/
def execPvCmpgtH (rd rs1 rs2 : Reg) (s : State) : Result :=
  writeBack ilen4 rd (cmpH (fun x y => y.slt x) (s.readX rs1) (s.readX rs2)) s

/-- `pv.cmpgt.sc.h`, R621. -/
def execPvCmpgtScH (rd rs1 rs2 : Reg) (s : State) : Result :=
  writeBack ilen4 rd (cmpH (fun x y => y.slt x) (s.readX rs1) (scH (s.readX rs2))) s

/-- `pv.cmpgt.sci.h`, R621. -/
def execPvCmpgtSciH (rd rs1 : Reg) (imm6 : BitVec 6) (s : State) : Result :=
  writeBack ilen4 rd (cmpH (fun x y => y.slt x) (s.readX rs1) (sciH imm6)) s

/-- `pv.cmpgt.b`, R621. -/
def execPvCmpgtB (rd rs1 rs2 : Reg) (s : State) : Result :=
  writeBack ilen4 rd (cmpB (fun x y => y.slt x) (s.readX rs1) (s.readX rs2)) s

/-- `pv.cmpgt.sc.b`, R621. -/
def execPvCmpgtScB (rd rs1 rs2 : Reg) (s : State) : Result :=
  writeBack ilen4 rd (cmpB (fun x y => y.slt x) (s.readX rs1) (scB (s.readX rs2))) s

/-- `pv.cmpgt.sci.b`, R621. -/
def execPvCmpgtSciB (rd rs1 : Reg) (imm6 : BitVec 6) (s : State) : Result :=
  writeBack ilen4 rd (cmpB (fun x y => y.slt x) (s.readX rs1) (sciB imm6)) s

/-- `pv.cmpge.h`, R622. -/
def execPvCmpgeH (rd rs1 rs2 : Reg) (s : State) : Result :=
  writeBack ilen4 rd (cmpH (fun x y => y.sle x) (s.readX rs1) (s.readX rs2)) s

/-- `pv.cmpge.sc.h`, R622. -/
def execPvCmpgeScH (rd rs1 rs2 : Reg) (s : State) : Result :=
  writeBack ilen4 rd (cmpH (fun x y => y.sle x) (s.readX rs1) (scH (s.readX rs2))) s

/-- `pv.cmpge.sci.h`, R622. -/
def execPvCmpgeSciH (rd rs1 : Reg) (imm6 : BitVec 6) (s : State) : Result :=
  writeBack ilen4 rd (cmpH (fun x y => y.sle x) (s.readX rs1) (sciH imm6)) s

/-- `pv.cmpge.b`, R622. -/
def execPvCmpgeB (rd rs1 rs2 : Reg) (s : State) : Result :=
  writeBack ilen4 rd (cmpB (fun x y => y.sle x) (s.readX rs1) (s.readX rs2)) s

/-- `pv.cmpge.sc.b`, R622. -/
def execPvCmpgeScB (rd rs1 rs2 : Reg) (s : State) : Result :=
  writeBack ilen4 rd (cmpB (fun x y => y.sle x) (s.readX rs1) (scB (s.readX rs2))) s

/-- `pv.cmpge.sci.b`, R622. -/
def execPvCmpgeSciB (rd rs1 : Reg) (imm6 : BitVec 6) (s : State) : Result :=
  writeBack ilen4 rd (cmpB (fun x y => y.sle x) (s.readX rs1) (sciB imm6)) s

/-- `pv.cmplt.h`, R623. -/
def execPvCmpltH (rd rs1 rs2 : Reg) (s : State) : Result :=
  writeBack ilen4 rd (cmpH (fun x y => x.slt y) (s.readX rs1) (s.readX rs2)) s

/-- `pv.cmplt.sc.h`, R623. -/
def execPvCmpltScH (rd rs1 rs2 : Reg) (s : State) : Result :=
  writeBack ilen4 rd (cmpH (fun x y => x.slt y) (s.readX rs1) (scH (s.readX rs2))) s

/-- `pv.cmplt.sci.h`, R623. -/
def execPvCmpltSciH (rd rs1 : Reg) (imm6 : BitVec 6) (s : State) : Result :=
  writeBack ilen4 rd (cmpH (fun x y => x.slt y) (s.readX rs1) (sciH imm6)) s

/-- `pv.cmplt.b`, R623. -/
def execPvCmpltB (rd rs1 rs2 : Reg) (s : State) : Result :=
  writeBack ilen4 rd (cmpB (fun x y => x.slt y) (s.readX rs1) (s.readX rs2)) s

/-- `pv.cmplt.sc.b`, R623. -/
def execPvCmpltScB (rd rs1 rs2 : Reg) (s : State) : Result :=
  writeBack ilen4 rd (cmpB (fun x y => x.slt y) (s.readX rs1) (scB (s.readX rs2))) s

/-- `pv.cmplt.sci.b`, R623. -/
def execPvCmpltSciB (rd rs1 : Reg) (imm6 : BitVec 6) (s : State) : Result :=
  writeBack ilen4 rd (cmpB (fun x y => x.slt y) (s.readX rs1) (sciB imm6)) s

/-- `pv.cmple.h`, R624. -/
def execPvCmpleH (rd rs1 rs2 : Reg) (s : State) : Result :=
  writeBack ilen4 rd (cmpH (fun x y => x.sle y) (s.readX rs1) (s.readX rs2)) s

/-- `pv.cmple.sc.h`, R624. -/
def execPvCmpleScH (rd rs1 rs2 : Reg) (s : State) : Result :=
  writeBack ilen4 rd (cmpH (fun x y => x.sle y) (s.readX rs1) (scH (s.readX rs2))) s

/-- `pv.cmple.sci.h`, R624. -/
def execPvCmpleSciH (rd rs1 : Reg) (imm6 : BitVec 6) (s : State) : Result :=
  writeBack ilen4 rd (cmpH (fun x y => x.sle y) (s.readX rs1) (sciH imm6)) s

/-- `pv.cmple.b`, R624. -/
def execPvCmpleB (rd rs1 rs2 : Reg) (s : State) : Result :=
  writeBack ilen4 rd (cmpB (fun x y => x.sle y) (s.readX rs1) (s.readX rs2)) s

/-- `pv.cmple.sc.b`, R624. -/
def execPvCmpleScB (rd rs1 rs2 : Reg) (s : State) : Result :=
  writeBack ilen4 rd (cmpB (fun x y => x.sle y) (s.readX rs1) (scB (s.readX rs2))) s

/-- `pv.cmple.sci.b`, R624. -/
def execPvCmpleSciB (rd rs1 : Reg) (imm6 : BitVec 6) (s : State) : Result :=
  writeBack ilen4 rd (cmpB (fun x y => x.sle y) (s.readX rs1) (sciB imm6)) s

/-- `pv.cmpgtu.h`, R625. -/
def execPvCmpgtuH (rd rs1 rs2 : Reg) (s : State) : Result :=
  writeBack ilen4 rd (cmpH (fun x y => y.ult x) (s.readX rs1) (s.readX rs2)) s

/-- `pv.cmpgtu.sc.h`, R625. -/
def execPvCmpgtuScH (rd rs1 rs2 : Reg) (s : State) : Result :=
  writeBack ilen4 rd (cmpH (fun x y => y.ult x) (s.readX rs1) (scH (s.readX rs2))) s

/-- `pv.cmpgtu.sci.h`, R625. -/
def execPvCmpgtuSciH (rd rs1 : Reg) (imm6 : BitVec 6) (s : State) : Result :=
  writeBack ilen4 rd (cmpH (fun x y => y.ult x) (s.readX rs1) (sciH imm6)) s

/-- `pv.cmpgtu.b`, R625. -/
def execPvCmpgtuB (rd rs1 rs2 : Reg) (s : State) : Result :=
  writeBack ilen4 rd (cmpB (fun x y => y.ult x) (s.readX rs1) (s.readX rs2)) s

/-- `pv.cmpgtu.sc.b`, R625. -/
def execPvCmpgtuScB (rd rs1 rs2 : Reg) (s : State) : Result :=
  writeBack ilen4 rd (cmpB (fun x y => y.ult x) (s.readX rs1) (scB (s.readX rs2))) s

/-- `pv.cmpgtu.sci.b`, R625. -/
def execPvCmpgtuSciB (rd rs1 : Reg) (imm6 : BitVec 6) (s : State) : Result :=
  writeBack ilen4 rd (cmpB (fun x y => y.ult x) (s.readX rs1) (sciB imm6)) s

/-- `pv.cmpgeu.h`, R626. -/
def execPvCmpgeuH (rd rs1 rs2 : Reg) (s : State) : Result :=
  writeBack ilen4 rd (cmpH (fun x y => y.ule x) (s.readX rs1) (s.readX rs2)) s

/-- `pv.cmpgeu.sc.h`, R626. -/
def execPvCmpgeuScH (rd rs1 rs2 : Reg) (s : State) : Result :=
  writeBack ilen4 rd (cmpH (fun x y => y.ule x) (s.readX rs1) (scH (s.readX rs2))) s

/-- `pv.cmpgeu.sci.h`, R626. -/
def execPvCmpgeuSciH (rd rs1 : Reg) (imm6 : BitVec 6) (s : State) : Result :=
  writeBack ilen4 rd (cmpH (fun x y => y.ule x) (s.readX rs1) (sciH imm6)) s

/-- `pv.cmpgeu.b`, R626. -/
def execPvCmpgeuB (rd rs1 rs2 : Reg) (s : State) : Result :=
  writeBack ilen4 rd (cmpB (fun x y => y.ule x) (s.readX rs1) (s.readX rs2)) s

/-- `pv.cmpgeu.sc.b`, R626. -/
def execPvCmpgeuScB (rd rs1 rs2 : Reg) (s : State) : Result :=
  writeBack ilen4 rd (cmpB (fun x y => y.ule x) (s.readX rs1) (scB (s.readX rs2))) s

/-- `pv.cmpgeu.sci.b`, R626. -/
def execPvCmpgeuSciB (rd rs1 : Reg) (imm6 : BitVec 6) (s : State) : Result :=
  writeBack ilen4 rd (cmpB (fun x y => y.ule x) (s.readX rs1) (sciB imm6)) s

/-- `pv.cmpltu.h`, R627. -/
def execPvCmpltuH (rd rs1 rs2 : Reg) (s : State) : Result :=
  writeBack ilen4 rd (cmpH (fun x y => x.ult y) (s.readX rs1) (s.readX rs2)) s

/-- `pv.cmpltu.sc.h`, R627. -/
def execPvCmpltuScH (rd rs1 rs2 : Reg) (s : State) : Result :=
  writeBack ilen4 rd (cmpH (fun x y => x.ult y) (s.readX rs1) (scH (s.readX rs2))) s

/-- `pv.cmpltu.sci.h`, R627. -/
def execPvCmpltuSciH (rd rs1 : Reg) (imm6 : BitVec 6) (s : State) : Result :=
  writeBack ilen4 rd (cmpH (fun x y => x.ult y) (s.readX rs1) (sciH imm6)) s

/-- `pv.cmpltu.b`, R627. -/
def execPvCmpltuB (rd rs1 rs2 : Reg) (s : State) : Result :=
  writeBack ilen4 rd (cmpB (fun x y => x.ult y) (s.readX rs1) (s.readX rs2)) s

/-- `pv.cmpltu.sc.b`, R627. -/
def execPvCmpltuScB (rd rs1 rs2 : Reg) (s : State) : Result :=
  writeBack ilen4 rd (cmpB (fun x y => x.ult y) (s.readX rs1) (scB (s.readX rs2))) s

/-- `pv.cmpltu.sci.b`, R627. -/
def execPvCmpltuSciB (rd rs1 : Reg) (imm6 : BitVec 6) (s : State) : Result :=
  writeBack ilen4 rd (cmpB (fun x y => x.ult y) (s.readX rs1) (sciB imm6)) s

/-- `pv.cmpleu.h`, R628. -/
def execPvCmpleuH (rd rs1 rs2 : Reg) (s : State) : Result :=
  writeBack ilen4 rd (cmpH (fun x y => x.ule y) (s.readX rs1) (s.readX rs2)) s

/-- `pv.cmpleu.sc.h`, R628. -/
def execPvCmpleuScH (rd rs1 rs2 : Reg) (s : State) : Result :=
  writeBack ilen4 rd (cmpH (fun x y => x.ule y) (s.readX rs1) (scH (s.readX rs2))) s

/-- `pv.cmpleu.sci.h`, R628. -/
def execPvCmpleuSciH (rd rs1 : Reg) (imm6 : BitVec 6) (s : State) : Result :=
  writeBack ilen4 rd (cmpH (fun x y => x.ule y) (s.readX rs1) (sciH imm6)) s

/-- `pv.cmpleu.b`, R628. -/
def execPvCmpleuB (rd rs1 rs2 : Reg) (s : State) : Result :=
  writeBack ilen4 rd (cmpB (fun x y => x.ule y) (s.readX rs1) (s.readX rs2)) s

/-- `pv.cmpleu.sc.b`, R628. -/
def execPvCmpleuScB (rd rs1 rs2 : Reg) (s : State) : Result :=
  writeBack ilen4 rd (cmpB (fun x y => x.ule y) (s.readX rs1) (scB (s.readX rs2))) s

/-- `pv.cmpleu.sci.b`, R628. -/
def execPvCmpleuSciB (rd rs1 : Reg) (imm6 : BitVec 6) (s : State) : Result :=
  writeBack ilen4 rd (cmpB (fun x y => x.ule y) (s.readX rs1) (sciB imm6)) s

end Sys2Proof.Machine
end

