-- ==== Sys2Proof/Machine/VecDot.lean ====
section
/-! DEFINITION. PULP vectorial dot products (49_pulp_vector.md R602 to R607). -/

namespace Sys2Proof.Machine

/-- The sum of the products of half-word elements, each extended as the instruction says (49_pulp_vector.md section 4). -/
def dotH (ea eb : Half → Word) (a b : Word) : Word :=
  ea (halfAt a 0) * eb (halfAt b 0) + ea (halfAt a 1) * eb (halfAt b 1)

/-- The sum of the products of byte elements, each extended as the instruction says (49_pulp_vector.md section 4). -/
def dotB (ea eb : Byte → Word) (a b : Word) : Word :=
  ea (byteAt a 0) * eb (byteAt b 0) + ea (byteAt a 1) * eb (byteAt b 1) + ea (byteAt a 2) * eb (byteAt b 2)
    + ea (byteAt a 3) * eb (byteAt b 3)

/-- `ue(e)` as a word. -/
def ue {n : Nat} (e : BitVec n) : Word := e.setWidth 32
/-- `se(e)` as a word. -/
def se {n : Nat} (e : BitVec n) : Word := e.signExtend 32

/-- `pv.dotup.h`, R602. -/
def execPvDotupH (rd rs1 rs2 : Reg) (s : State) : Result :=
  writeBack ilen4 rd (dotH ue ue (s.readX rs1) (s.readX rs2)) s

/-- `pv.dotup.sc.h`, R602. -/
def execPvDotupScH (rd rs1 rs2 : Reg) (s : State) : Result :=
  writeBack ilen4 rd (dotH ue ue (s.readX rs1) (scH (s.readX rs2))) s

/-- `pv.dotup.sci.h`, R602. -/
def execPvDotupSciH (rd rs1 : Reg) (imm6 : BitVec 6) (s : State) : Result :=
  writeBack ilen4 rd (dotH ue ue (s.readX rs1) (sciH imm6)) s

/-- `pv.dotup.b`, R602. -/
def execPvDotupB (rd rs1 rs2 : Reg) (s : State) : Result :=
  writeBack ilen4 rd (dotB ue ue (s.readX rs1) (s.readX rs2)) s

/-- `pv.dotup.sc.b`, R602. -/
def execPvDotupScB (rd rs1 rs2 : Reg) (s : State) : Result :=
  writeBack ilen4 rd (dotB ue ue (s.readX rs1) (scB (s.readX rs2))) s

/-- `pv.dotup.sci.b`, R602. -/
def execPvDotupSciB (rd rs1 : Reg) (imm6 : BitVec 6) (s : State) : Result :=
  writeBack ilen4 rd (dotB ue ue (s.readX rs1) (sciB imm6)) s

/-- `pv.dotusp.h`, R603. -/
def execPvDotuspH (rd rs1 rs2 : Reg) (s : State) : Result :=
  writeBack ilen4 rd (dotH ue se (s.readX rs1) (s.readX rs2)) s

/-- `pv.dotusp.sc.h`, R603. -/
def execPvDotuspScH (rd rs1 rs2 : Reg) (s : State) : Result :=
  writeBack ilen4 rd (dotH ue se (s.readX rs1) (scH (s.readX rs2))) s

/-- `pv.dotusp.sci.h`, R603. -/
def execPvDotuspSciH (rd rs1 : Reg) (imm6 : BitVec 6) (s : State) : Result :=
  writeBack ilen4 rd (dotH ue se (s.readX rs1) (sciH imm6)) s

/-- `pv.dotusp.b`, R603. -/
def execPvDotuspB (rd rs1 rs2 : Reg) (s : State) : Result :=
  writeBack ilen4 rd (dotB ue se (s.readX rs1) (s.readX rs2)) s

/-- `pv.dotusp.sc.b`, R603. -/
def execPvDotuspScB (rd rs1 rs2 : Reg) (s : State) : Result :=
  writeBack ilen4 rd (dotB ue se (s.readX rs1) (scB (s.readX rs2))) s

/-- `pv.dotusp.sci.b`, R603. -/
def execPvDotuspSciB (rd rs1 : Reg) (imm6 : BitVec 6) (s : State) : Result :=
  writeBack ilen4 rd (dotB ue se (s.readX rs1) (sciB imm6)) s

/-- `pv.dotsp.h`, R604. -/
def execPvDotspH (rd rs1 rs2 : Reg) (s : State) : Result :=
  writeBack ilen4 rd (dotH se se (s.readX rs1) (s.readX rs2)) s

/-- `pv.dotsp.sc.h`, R604. -/
def execPvDotspScH (rd rs1 rs2 : Reg) (s : State) : Result :=
  writeBack ilen4 rd (dotH se se (s.readX rs1) (scH (s.readX rs2))) s

/-- `pv.dotsp.sci.h`, R604. -/
def execPvDotspSciH (rd rs1 : Reg) (imm6 : BitVec 6) (s : State) : Result :=
  writeBack ilen4 rd (dotH se se (s.readX rs1) (sciH imm6)) s

/-- `pv.dotsp.b`, R604. -/
def execPvDotspB (rd rs1 rs2 : Reg) (s : State) : Result :=
  writeBack ilen4 rd (dotB se se (s.readX rs1) (s.readX rs2)) s

/-- `pv.dotsp.sc.b`, R604. -/
def execPvDotspScB (rd rs1 rs2 : Reg) (s : State) : Result :=
  writeBack ilen4 rd (dotB se se (s.readX rs1) (scB (s.readX rs2))) s

/-- `pv.dotsp.sci.b`, R604. -/
def execPvDotspSciB (rd rs1 : Reg) (imm6 : BitVec 6) (s : State) : Result :=
  writeBack ilen4 rd (dotB se se (s.readX rs1) (sciB imm6)) s

/-- `pv.sdotup.h`, R605. -/
def execPvSdotupH (rd rs1 rs2 : Reg) (s : State) : Result :=
  writeBack ilen4 rd (s.readX rd + dotH ue ue (s.readX rs1) (s.readX rs2)) s

/-- `pv.sdotup.sc.h`, R605. -/
def execPvSdotupScH (rd rs1 rs2 : Reg) (s : State) : Result :=
  writeBack ilen4 rd (s.readX rd + dotH ue ue (s.readX rs1) (scH (s.readX rs2))) s

/-- `pv.sdotup.sci.h`, R605. -/
def execPvSdotupSciH (rd rs1 : Reg) (imm6 : BitVec 6) (s : State) : Result :=
  writeBack ilen4 rd (s.readX rd + dotH ue ue (s.readX rs1) (sciH imm6)) s

/-- `pv.sdotup.b`, R605. -/
def execPvSdotupB (rd rs1 rs2 : Reg) (s : State) : Result :=
  writeBack ilen4 rd (s.readX rd + dotB ue ue (s.readX rs1) (s.readX rs2)) s

/-- `pv.sdotup.sc.b`, R605. -/
def execPvSdotupScB (rd rs1 rs2 : Reg) (s : State) : Result :=
  writeBack ilen4 rd (s.readX rd + dotB ue ue (s.readX rs1) (scB (s.readX rs2))) s

/-- `pv.sdotup.sci.b`, R605. -/
def execPvSdotupSciB (rd rs1 : Reg) (imm6 : BitVec 6) (s : State) : Result :=
  writeBack ilen4 rd (s.readX rd + dotB ue ue (s.readX rs1) (sciB imm6)) s

/-- `pv.sdotusp.h`, R606. -/
def execPvSdotuspH (rd rs1 rs2 : Reg) (s : State) : Result :=
  writeBack ilen4 rd (s.readX rd + dotH ue se (s.readX rs1) (s.readX rs2)) s

/-- `pv.sdotusp.sc.h`, R606. -/
def execPvSdotuspScH (rd rs1 rs2 : Reg) (s : State) : Result :=
  writeBack ilen4 rd (s.readX rd + dotH ue se (s.readX rs1) (scH (s.readX rs2))) s

/-- `pv.sdotusp.sci.h`, R606. -/
def execPvSdotuspSciH (rd rs1 : Reg) (imm6 : BitVec 6) (s : State) : Result :=
  writeBack ilen4 rd (s.readX rd + dotH ue se (s.readX rs1) (sciH imm6)) s

/-- `pv.sdotusp.b`, R606. -/
def execPvSdotuspB (rd rs1 rs2 : Reg) (s : State) : Result :=
  writeBack ilen4 rd (s.readX rd + dotB ue se (s.readX rs1) (s.readX rs2)) s

/-- `pv.sdotusp.sc.b`, R606. -/
def execPvSdotuspScB (rd rs1 rs2 : Reg) (s : State) : Result :=
  writeBack ilen4 rd (s.readX rd + dotB ue se (s.readX rs1) (scB (s.readX rs2))) s

/-- `pv.sdotusp.sci.b`, R606. -/
def execPvSdotuspSciB (rd rs1 : Reg) (imm6 : BitVec 6) (s : State) : Result :=
  writeBack ilen4 rd (s.readX rd + dotB ue se (s.readX rs1) (sciB imm6)) s

/-- `pv.sdotsp.h`, R607. -/
def execPvSdotspH (rd rs1 rs2 : Reg) (s : State) : Result :=
  writeBack ilen4 rd (s.readX rd + dotH se se (s.readX rs1) (s.readX rs2)) s

/-- `pv.sdotsp.sc.h`, R607. -/
def execPvSdotspScH (rd rs1 rs2 : Reg) (s : State) : Result :=
  writeBack ilen4 rd (s.readX rd + dotH se se (s.readX rs1) (scH (s.readX rs2))) s

/-- `pv.sdotsp.sci.h`, R607. -/
def execPvSdotspSciH (rd rs1 : Reg) (imm6 : BitVec 6) (s : State) : Result :=
  writeBack ilen4 rd (s.readX rd + dotH se se (s.readX rs1) (sciH imm6)) s

/-- `pv.sdotsp.b`, R607. -/
def execPvSdotspB (rd rs1 rs2 : Reg) (s : State) : Result :=
  writeBack ilen4 rd (s.readX rd + dotB se se (s.readX rs1) (s.readX rs2)) s

/-- `pv.sdotsp.sc.b`, R607. -/
def execPvSdotspScB (rd rs1 rs2 : Reg) (s : State) : Result :=
  writeBack ilen4 rd (s.readX rd + dotB se se (s.readX rs1) (scB (s.readX rs2))) s

/-- `pv.sdotsp.sci.b`, R607. -/
def execPvSdotspSciB (rd rs1 : Reg) (imm6 : BitVec 6) (s : State) : Result :=
  writeBack ilen4 rd (s.readX rd + dotB se se (s.readX rs1) (sciB imm6)) s

end Sys2Proof.Machine
end

