-- ==== Sys2Proof/Machine/VecElem.lean ====
section
/-! DEFINITION. PULP vectorial extract, insert, shuffle and pack (49_pulp_vector.md R599 to R601, R608 to R617). -/

namespace Sys2Proof.Machine

/-- The immediate names a half-word element: no bit above its lowest is set (49_pulp_vector.md section 3, D25). -/
def indexH? (imm : BitVec 6) : Bool := imm.toNat < 2
/-- The immediate names a byte element: no bit above its two lowest is set (49_pulp_vector.md section 3, D25). -/
def indexB? (imm : BitVec 6) : Bool := imm.toNat < 4

/-- The result of an element instruction; a free value when the immediate names no element (D25;
notes/assumptions/15.md). -/
def elementResult (rd : Reg) (named : Bool) (v : Word) (s : State) : Result :=
  writeBack ilen4 rd (if named then v else Config.freeElement s.draws) s

/-- `pv.extract.h`, R599. -/
def execPvExtractH (rd rs1 : Reg) (imm6 : BitVec 6) (s : State) : Result :=
  elementResult rd (indexH? imm6) ((halfAt (s.readX rs1) imm6.toNat).signExtend 32) s

/-- `pv.extract.b`, R599. -/
def execPvExtractB (rd rs1 : Reg) (imm6 : BitVec 6) (s : State) : Result :=
  elementResult rd (indexB? imm6) ((byteAt (s.readX rs1) imm6.toNat).signExtend 32) s

/-- `pv.extractu.h`, R600. -/
def execPvExtractuH (rd rs1 : Reg) (imm6 : BitVec 6) (s : State) : Result :=
  elementResult rd (indexH? imm6) ((halfAt (s.readX rs1) imm6.toNat).setWidth 32) s

/-- `pv.extractu.b`, R600. -/
def execPvExtractuB (rd rs1 : Reg) (imm6 : BitVec 6) (s : State) : Result :=
  elementResult rd (indexB? imm6) ((byteAt (s.readX rs1) imm6.toNat).setWidth 32) s

/-- The word with half-word element `i` replaced (49_pulp_vector.md R601). -/
def setHalf (d : Word) (i : Nat) (e : Half) : Word :=
  ofHalves (if i = 1 then e else halfAt d 1) (if i = 0 then e else halfAt d 0)
/-- The word with byte element `i` replaced (49_pulp_vector.md R601). -/
def setByte (d : Word) (i : Nat) (e : Byte) : Word :=
  ofBytes (if i = 3 then e else byteAt d 3) (if i = 2 then e else byteAt d 2) (if i = 1 then e else byteAt d 1)
    (if i = 0 then e else byteAt d 0)

/-- `pv.insert.h`, R601. -/
def execPvInsertH (rd rs1 : Reg) (imm6 : BitVec 6) (s : State) : Result :=
  elementResult rd (indexH? imm6) (setHalf (s.readX rd) imm6.toNat (halfAt (s.readX rs1) 0)) s

/-- `pv.insert.b`, R601. -/
def execPvInsertB (rd rs1 : Reg) (imm6 : BitVec 6) (s : State) : Result :=
  elementResult rd (indexB? imm6) (setByte (s.readX rd) imm6.toNat (byteAt (s.readX rs1) 0)) s

/-- Each half-word of the result is the element of `a` that bit 0 of the half-word of `b` names (49_pulp_vector.md R608). -/
def shuffleH (a b : Word) : Word :=
  zipH (fun _ c => halfAt a (c.extractLsb' 0 1).toNat) a b
/-- Each byte of the result is the element of `a` that bits 1:0 of the byte of `b` name (49_pulp_vector.md R608). -/
def shuffleB (a b : Word) : Word :=
  zipB (fun _ c => byteAt a (c.extractLsb' 0 2).toNat) a b

/-- `pv.shuffle.h`, R608. -/
def execPvShuffleH (rd rs1 rs2 : Reg) (s : State) : Result :=
  writeBack ilen4 rd (shuffleH (s.readX rs1) (s.readX rs2)) s

/-- `pv.shuffle.b`, R608. -/
def execPvShuffleB (rd rs1 rs2 : Reg) (s : State) : Result :=
  writeBack ilen4 rd (shuffleB (s.readX rs1) (s.readX rs2)) s

/-- Two half-words picked by bits 1 and 0 of the immediate (49_pulp_vector.md R609). -/
def shuffleSciH (a : Word) (imm : BitVec 6) : Word :=
  ofHalves (halfAt a (imm.extractLsb' 1 1).toNat) (halfAt a (imm.extractLsb' 0 1).toNat)
/-- The top byte is element `top`, the others are picked by the immediate (49_pulp_vector.md R610 to R613). -/
def shuffleSciB (top : Nat) (a : Word) (imm : BitVec 6) : Word :=
  ofBytes (byteAt a top) (byteAt a (imm.extractLsb' 4 2).toNat) (byteAt a (imm.extractLsb' 2 2).toNat)
    (byteAt a (imm.extractLsb' 0 2).toNat)

/-- `pv.shuffle.sci.h`, R609. -/
def execPvShuffleSciH (rd rs1 : Reg) (imm6 : BitVec 6) (s : State) : Result :=
  writeBack ilen4 rd (shuffleSciH (s.readX rs1) imm6) s

/-- `pv.shuffleI0.sci.b`, R610. -/
def execPvShuffleI0SciB (rd rs1 : Reg) (imm6 : BitVec 6) (s : State) : Result :=
  writeBack ilen4 rd (shuffleSciB 0 (s.readX rs1) imm6) s

/-- `pv.shuffleI1.sci.b`, R611. -/
def execPvShuffleI1SciB (rd rs1 : Reg) (imm6 : BitVec 6) (s : State) : Result :=
  writeBack ilen4 rd (shuffleSciB 1 (s.readX rs1) imm6) s

/-- `pv.shuffleI2.sci.b`, R612. -/
def execPvShuffleI2SciB (rd rs1 : Reg) (imm6 : BitVec 6) (s : State) : Result :=
  writeBack ilen4 rd (shuffleSciB 2 (s.readX rs1) imm6) s

/-- `pv.shuffleI3.sci.b`, R613. -/
def execPvShuffleI3SciB (rd rs1 : Reg) (imm6 : BitVec 6) (s : State) : Result :=
  writeBack ilen4 rd (shuffleSciB 3 (s.readX rs1) imm6) s

/-- Each half-word is picked from `a` or `d` by bit 1 of the half-word of `b`, at the index in bit 0 (49_pulp_vector.md
R614). -/
def shuffle2H (d a b : Word) : Word :=
  zipH (fun _ c => halfAt (if c.getLsbD 1 then a else d) (c.extractLsb' 0 1).toNat) a b
/-- Each byte is picked from `a` or `d` by bit 2 of the byte of `b`, at the index in bits 1:0 (49_pulp_vector.md R614). -/
def shuffle2B (d a b : Word) : Word :=
  zipB (fun _ c => byteAt (if c.getLsbD 2 then a else d) (c.extractLsb' 0 2).toNat) a b

/-- `pv.shuffle2.h`, R614. -/
def execPvShuffle2H (rd rs1 rs2 : Reg) (s : State) : Result :=
  writeBack ilen4 rd (shuffle2H (s.readX rd) (s.readX rs1) (s.readX rs2)) s

/-- `pv.shuffle2.b`, R614. -/
def execPvShuffle2B (rd rs1 rs2 : Reg) (s : State) : Result :=
  writeBack ilen4 rd (shuffle2B (s.readX rd) (s.readX rs1) (s.readX rs2)) s

/-- `pv.pack.h`, R615. -/
def execPvPackH (rd rs1 rs2 : Reg) (s : State) : Result :=
  writeBack ilen4 rd (ofHalves (halfAt (s.readX rs1) 0) (halfAt (s.readX rs2) 0)) s

/-- `pv.packhi.b`, R616. -/
def execPvPackhiB (rd rs1 rs2 : Reg) (s : State) : Result :=
  writeBack ilen4 rd
    (ofBytes (byteAt (s.readX rs1) 0) (byteAt (s.readX rs2) 0) (byteAt (s.readX rd) 1) (byteAt (s.readX rd) 0)) s

/-- `pv.packlo.b`, R617. -/
def execPvPackloB (rd rs1 rs2 : Reg) (s : State) : Result :=
  writeBack ilen4 rd
    (ofBytes (byteAt (s.readX rd) 3) (byteAt (s.readX rd) 2) (byteAt (s.readX rs1) 0) (byteAt (s.readX rs2) 0)) s

end Sys2Proof.Machine
end

