-- ==== Sys2Proof/Machine/Dispatch.lean ====
section
/-! DEFINITION. One instruction: its meaning, by constructor. -/

namespace Sys2Proof.Machine

def exec (i : Instr) (s : State) : Host.Outcome State Fault Refusal :=
  match i with
  | .lui rd imm => Sys2Proof.Machine.execLui rd imm s
  | .auipc rd imm => Sys2Proof.Machine.execAuipc rd imm s
  | .jal rd off => Sys2Proof.Machine.execJal rd off s
  | .jalr rd rs1 imm => Sys2Proof.Machine.execJalr rd rs1 imm s
  | .beq rs1 rs2 off => Sys2Proof.Machine.execBeq rs1 rs2 off s
  | .bne rs1 rs2 off => Sys2Proof.Machine.execBne rs1 rs2 off s
  | .blt rs1 rs2 off => Sys2Proof.Machine.execBlt rs1 rs2 off s
  | .bge rs1 rs2 off => Sys2Proof.Machine.execBge rs1 rs2 off s
  | .bltu rs1 rs2 off => Sys2Proof.Machine.execBltu rs1 rs2 off s
  | .bgeu rs1 rs2 off => Sys2Proof.Machine.execBgeu rs1 rs2 off s
  | .lb rd rs1 imm => Sys2Proof.Machine.execLb rd rs1 imm s
  | .lh rd rs1 imm => Sys2Proof.Machine.execLh rd rs1 imm s
  | .lw rd rs1 imm => Sys2Proof.Machine.execLw rd rs1 imm s
  | .lbu rd rs1 imm => Sys2Proof.Machine.execLbu rd rs1 imm s
  | .lhu rd rs1 imm => Sys2Proof.Machine.execLhu rd rs1 imm s
  | .sb rs2 rs1 imm => Sys2Proof.Machine.execSb rs2 rs1 imm s
  | .sh rs2 rs1 imm => Sys2Proof.Machine.execSh rs2 rs1 imm s
  | .sw rs2 rs1 imm => Sys2Proof.Machine.execSw rs2 rs1 imm s
  | .addi rd rs1 imm => Sys2Proof.Machine.execAddi rd rs1 imm s
  | .slti rd rs1 imm => Sys2Proof.Machine.execSlti rd rs1 imm s
  | .sltiu rd rs1 imm => Sys2Proof.Machine.execSltiu rd rs1 imm s
  | .xori rd rs1 imm => Sys2Proof.Machine.execXori rd rs1 imm s
  | .ori rd rs1 imm => Sys2Proof.Machine.execOri rd rs1 imm s
  | .andi rd rs1 imm => Sys2Proof.Machine.execAndi rd rs1 imm s
  | .slli rd rs1 shamt => Sys2Proof.Machine.execSlli rd rs1 shamt s
  | .srli rd rs1 shamt => Sys2Proof.Machine.execSrli rd rs1 shamt s
  | .srai rd rs1 shamt => Sys2Proof.Machine.execSrai rd rs1 shamt s
  | .add rd rs1 rs2 => Sys2Proof.Machine.execAdd rd rs1 rs2 s
  | .sub rd rs1 rs2 => Sys2Proof.Machine.execSub rd rs1 rs2 s
  | .sll rd rs1 rs2 => Sys2Proof.Machine.execSll rd rs1 rs2 s
  | .slt rd rs1 rs2 => Sys2Proof.Machine.execSlt rd rs1 rs2 s
  | .sltu rd rs1 rs2 => Sys2Proof.Machine.execSltu rd rs1 rs2 s
  | .xor rd rs1 rs2 => Sys2Proof.Machine.execXor rd rs1 rs2 s
  | .srl rd rs1 rs2 => Sys2Proof.Machine.execSrl rd rs1 rs2 s
  | .sra rd rs1 rs2 => Sys2Proof.Machine.execSra rd rs1 rs2 s
  | .or rd rs1 rs2 => Sys2Proof.Machine.execOr rd rs1 rs2 s
  | .and rd rs1 rs2 => Sys2Proof.Machine.execAnd rd rs1 rs2 s
  | .fence pred succ => Sys2Proof.Machine.execFence pred succ s
  | .fenceI => Sys2Proof.Machine.execFenceI s
  | .ecall => Sys2Proof.Machine.execEcall s
  | .ebreak => Sys2Proof.Machine.execEbreak s
  | .mret => Sys2Proof.Machine.execMret s
  | .wfi => Sys2Proof.Machine.execWfi s
  | .csrrw rd rs1 csr => Sys2Proof.Machine.execCsrrw rd rs1 csr s
  | .csrrs rd rs1 csr => Sys2Proof.Machine.execCsrrs rd rs1 csr s
  | .csrrc rd rs1 csr => Sys2Proof.Machine.execCsrrc rd rs1 csr s
  | .csrrwi rd uimm csr => Sys2Proof.Machine.execCsrrwi rd uimm csr s
  | .csrrsi rd uimm csr => Sys2Proof.Machine.execCsrrsi rd uimm csr s
  | .csrrci rd uimm csr => Sys2Proof.Machine.execCsrrci rd uimm csr s
  | .mul rd rs1 rs2 => Sys2Proof.Machine.execMul rd rs1 rs2 s
  | .mulh rd rs1 rs2 => Sys2Proof.Machine.execMulh rd rs1 rs2 s
  | .mulhsu rd rs1 rs2 => Sys2Proof.Machine.execMulhsu rd rs1 rs2 s
  | .mulhu rd rs1 rs2 => Sys2Proof.Machine.execMulhu rd rs1 rs2 s
  | .div rd rs1 rs2 => Sys2Proof.Machine.execDiv rd rs1 rs2 s
  | .divu rd rs1 rs2 => Sys2Proof.Machine.execDivu rd rs1 rs2 s
  | .rem rd rs1 rs2 => Sys2Proof.Machine.execRem rd rs1 rs2 s
  | .remu rd rs1 rs2 => Sys2Proof.Machine.execRemu rd rs1 rs2 s
  | .flw rd rs1 imm => Sys2Proof.Machine.execFlw rd rs1 imm s
  | .fsw rs2 rs1 imm => Sys2Proof.Machine.execFsw rs2 rs1 imm s
  | .fmaddS rd rs1 rs2 rs3 rm => Sys2Proof.Machine.execFmaddS rd rs1 rs2 rs3 rm s
  | .fmsubS rd rs1 rs2 rs3 rm => Sys2Proof.Machine.execFmsubS rd rs1 rs2 rs3 rm s
  | .fnmsubS rd rs1 rs2 rs3 rm => Sys2Proof.Machine.execFnmsubS rd rs1 rs2 rs3 rm s
  | .fnmaddS rd rs1 rs2 rs3 rm => Sys2Proof.Machine.execFnmaddS rd rs1 rs2 rs3 rm s
  | .faddS rd rs1 rs2 rm => Sys2Proof.Machine.execFaddS rd rs1 rs2 rm s
  | .fsubS rd rs1 rs2 rm => Sys2Proof.Machine.execFsubS rd rs1 rs2 rm s
  | .fmulS rd rs1 rs2 rm => Sys2Proof.Machine.execFmulS rd rs1 rs2 rm s
  | .fdivS rd rs1 rs2 rm => Sys2Proof.Machine.execFdivS rd rs1 rs2 rm s
  | .fsqrtS rd rs1 rm => Sys2Proof.Machine.execFsqrtS rd rs1 rm s
  | .fsgnjS rd rs1 rs2 => Sys2Proof.Machine.execFsgnjS rd rs1 rs2 s
  | .fsgnjnS rd rs1 rs2 => Sys2Proof.Machine.execFsgnjnS rd rs1 rs2 s
  | .fsgnjxS rd rs1 rs2 => Sys2Proof.Machine.execFsgnjxS rd rs1 rs2 s
  | .fminS rd rs1 rs2 => Sys2Proof.Machine.execFminS rd rs1 rs2 s
  | .fmaxS rd rs1 rs2 => Sys2Proof.Machine.execFmaxS rd rs1 rs2 s
  | .fcvtWS rd rs1 rm => Sys2Proof.Machine.execFcvtWS rd rs1 rm s
  | .fcvtWuS rd rs1 rm => Sys2Proof.Machine.execFcvtWuS rd rs1 rm s
  | .fmvXW rd rs1 => Sys2Proof.Machine.execFmvXW rd rs1 s
  | .feqS rd rs1 rs2 => Sys2Proof.Machine.execFeqS rd rs1 rs2 s
  | .fltS rd rs1 rs2 => Sys2Proof.Machine.execFltS rd rs1 rs2 s
  | .fleS rd rs1 rs2 => Sys2Proof.Machine.execFleS rd rs1 rs2 s
  | .fclassS rd rs1 => Sys2Proof.Machine.execFclassS rd rs1 s
  | .fcvtSW rd rs1 rm => Sys2Proof.Machine.execFcvtSW rd rs1 rm s
  | .fcvtSWu rd rs1 rm => Sys2Proof.Machine.execFcvtSWu rd rs1 rm s
  | .fmvWX rd rs1 => Sys2Proof.Machine.execFmvWX rd rs1 s
  | .cAddi4spn rd nzuimm => Sys2Proof.Machine.execCAddi4spn rd nzuimm s
  | .cLw rd rs1 uimm => Sys2Proof.Machine.execCLw rd rs1 uimm s
  | .cSw rs2 rs1 uimm => Sys2Proof.Machine.execCSw rs2 rs1 uimm s
  | .cFlw rd rs1 uimm => Sys2Proof.Machine.execCFlw rd rs1 uimm s
  | .cFsw rs2 rs1 uimm => Sys2Proof.Machine.execCFsw rs2 rs1 uimm s
  | .cNop imm => Sys2Proof.Machine.execCNop imm s
  | .cAddi rd imm => Sys2Proof.Machine.execCAddi rd imm s
  | .cJal off => Sys2Proof.Machine.execCJal off s
  | .cLi rd imm => Sys2Proof.Machine.execCLi rd imm s
  | .cAddi16sp nzimm => Sys2Proof.Machine.execCAddi16sp nzimm s
  | .cLui rd nzimm => Sys2Proof.Machine.execCLui rd nzimm s
  | .cSrli rd shamt => Sys2Proof.Machine.execCSrli rd shamt s
  | .cSrai rd shamt => Sys2Proof.Machine.execCSrai rd shamt s
  | .cAndi rd imm => Sys2Proof.Machine.execCAndi rd imm s
  | .cSub rd rs2 => Sys2Proof.Machine.execCSub rd rs2 s
  | .cXor rd rs2 => Sys2Proof.Machine.execCXor rd rs2 s
  | .cOr rd rs2 => Sys2Proof.Machine.execCOr rd rs2 s
  | .cAnd rd rs2 => Sys2Proof.Machine.execCAnd rd rs2 s
  | .cJ off => Sys2Proof.Machine.execCJ off s
  | .cBeqz rs1 off => Sys2Proof.Machine.execCBeqz rs1 off s
  | .cBnez rs1 off => Sys2Proof.Machine.execCBnez rs1 off s
  | .cSlli rd shamt => Sys2Proof.Machine.execCSlli rd shamt s
  | .cLwsp rd uimm => Sys2Proof.Machine.execCLwsp rd uimm s
  | .cFlwsp rd uimm => Sys2Proof.Machine.execCFlwsp rd uimm s
  | .cJr rs1 => Sys2Proof.Machine.execCJr rs1 s
  | .cMv rd rs2 => Sys2Proof.Machine.execCMv rd rs2 s
  | .cEbreak => Sys2Proof.Machine.execCEbreak s
  | .cJalr rs1 => Sys2Proof.Machine.execCJalr rs1 s
  | .cAdd rd rs2 => Sys2Proof.Machine.execCAdd rd rs2 s
  | .cSwsp rs2 uimm => Sys2Proof.Machine.execCSwsp rs2 uimm s
  | .cFswsp rs2 uimm => Sys2Proof.Machine.execCFswsp rs2 uimm s
  | .pLbPostImm rd rs1 imm => Sys2Proof.Machine.execPLbPostImm rd rs1 imm s
  | .pLbuPostImm rd rs1 imm => Sys2Proof.Machine.execPLbuPostImm rd rs1 imm s
  | .pLhPostImm rd rs1 imm => Sys2Proof.Machine.execPLhPostImm rd rs1 imm s
  | .pLhuPostImm rd rs1 imm => Sys2Proof.Machine.execPLhuPostImm rd rs1 imm s
  | .pLwPostImm rd rs1 imm => Sys2Proof.Machine.execPLwPostImm rd rs1 imm s
  | .pLbPostReg rd rs1 rs2 => Sys2Proof.Machine.execPLbPostReg rd rs1 rs2 s
  | .pLbuPostReg rd rs1 rs2 => Sys2Proof.Machine.execPLbuPostReg rd rs1 rs2 s
  | .pLhPostReg rd rs1 rs2 => Sys2Proof.Machine.execPLhPostReg rd rs1 rs2 s
  | .pLhuPostReg rd rs1 rs2 => Sys2Proof.Machine.execPLhuPostReg rd rs1 rs2 s
  | .pLwPostReg rd rs1 rs2 => Sys2Proof.Machine.execPLwPostReg rd rs1 rs2 s
  | .pLbOff rd rs1 rs2 => Sys2Proof.Machine.execPLbOff rd rs1 rs2 s
  | .pLbuOff rd rs1 rs2 => Sys2Proof.Machine.execPLbuOff rd rs1 rs2 s
  | .pLhOff rd rs1 rs2 => Sys2Proof.Machine.execPLhOff rd rs1 rs2 s
  | .pLhuOff rd rs1 rs2 => Sys2Proof.Machine.execPLhuOff rd rs1 rs2 s
  | .pLwOff rd rs1 rs2 => Sys2Proof.Machine.execPLwOff rd rs1 rs2 s
  | .pSbPostImm rs2 rs1 imm => Sys2Proof.Machine.execPSbPostImm rs2 rs1 imm s
  | .pShPostImm rs2 rs1 imm => Sys2Proof.Machine.execPShPostImm rs2 rs1 imm s
  | .pSwPostImm rs2 rs1 imm => Sys2Proof.Machine.execPSwPostImm rs2 rs1 imm s
  | .pSbPostReg rs2 rs3 rs1 => Sys2Proof.Machine.execPSbPostReg rs2 rs3 rs1 s
  | .pShPostReg rs2 rs3 rs1 => Sys2Proof.Machine.execPShPostReg rs2 rs3 rs1 s
  | .pSwPostReg rs2 rs3 rs1 => Sys2Proof.Machine.execPSwPostReg rs2 rs3 rs1 s
  | .pSbOff rs2 rs3 rs1 => Sys2Proof.Machine.execPSbOff rs2 rs3 rs1 s
  | .pShOff rs2 rs3 rs1 => Sys2Proof.Machine.execPShOff rs2 rs3 rs1 s
  | .pSwOff rs2 rs3 rs1 => Sys2Proof.Machine.execPSwOff rs2 rs3 rs1 s
  | .lpStarti l uimmL => Sys2Proof.Machine.execLpStarti l uimmL s
  | .lpEndi l uimmL => Sys2Proof.Machine.execLpEndi l uimmL s
  | .lpCount l rs1 => Sys2Proof.Machine.execLpCount l rs1 s
  | .lpCounti l uimmL => Sys2Proof.Machine.execLpCounti l uimmL s
  | .lpSetup l rs1 uimmL => Sys2Proof.Machine.execLpSetup l rs1 uimmL s
  | .lpSetupi l uimmL uimmS => Sys2Proof.Machine.execLpSetupi l uimmL uimmS s
  | .pExtract rd rs1 ls3 ls2 => Sys2Proof.Machine.execPExtract rd rs1 ls3 ls2 s
  | .pExtractu rd rs1 ls3 ls2 => Sys2Proof.Machine.execPExtractu rd rs1 ls3 ls2 s
  | .pInsert rd rs1 ls3 ls2 => Sys2Proof.Machine.execPInsert rd rs1 ls3 ls2 s
  | .pBclr rd rs1 ls3 ls2 => Sys2Proof.Machine.execPBclr rd rs1 ls3 ls2 s
  | .pBset rd rs1 ls3 ls2 => Sys2Proof.Machine.execPBset rd rs1 ls3 ls2 s
  | .pExtractr rd rs1 rs2 => Sys2Proof.Machine.execPExtractr rd rs1 rs2 s
  | .pExtractur rd rs1 rs2 => Sys2Proof.Machine.execPExtractur rd rs1 rs2 s
  | .pInsertr rd rs1 rs2 => Sys2Proof.Machine.execPInsertr rd rs1 rs2 s
  | .pBclrr rd rs1 rs2 => Sys2Proof.Machine.execPBclrr rd rs1 rs2 s
  | .pBsetr rd rs1 rs2 => Sys2Proof.Machine.execPBsetr rd rs1 rs2 s
  | .pRor rd rs1 rs2 => Sys2Proof.Machine.execPRor rd rs1 rs2 s
  | .pFf1 rd rs1 => Sys2Proof.Machine.execPFf1 rd rs1 s
  | .pFl1 rd rs1 => Sys2Proof.Machine.execPFl1 rd rs1 s
  | .pClb rd rs1 => Sys2Proof.Machine.execPClb rd rs1 s
  | .pCnt rd rs1 => Sys2Proof.Machine.execPCnt rd rs1 s
  | .pAbs rd rs1 => Sys2Proof.Machine.execPAbs rd rs1 s
  | .pSlet rd rs1 rs2 => Sys2Proof.Machine.execPSlet rd rs1 rs2 s
  | .pSletu rd rs1 rs2 => Sys2Proof.Machine.execPSletu rd rs1 rs2 s
  | .pMin rd rs1 rs2 => Sys2Proof.Machine.execPMin rd rs1 rs2 s
  | .pMinu rd rs1 rs2 => Sys2Proof.Machine.execPMinu rd rs1 rs2 s
  | .pMax rd rs1 rs2 => Sys2Proof.Machine.execPMax rd rs1 rs2 s
  | .pMaxu rd rs1 rs2 => Sys2Proof.Machine.execPMaxu rd rs1 rs2 s
  | .pExths rd rs1 => Sys2Proof.Machine.execPExths rd rs1 s
  | .pExthz rd rs1 => Sys2Proof.Machine.execPExthz rd rs1 s
  | .pExtbs rd rs1 => Sys2Proof.Machine.execPExtbs rd rs1 s
  | .pExtbz rd rs1 => Sys2Proof.Machine.execPExtbz rd rs1 s
  | .pClip rd rs1 ls2 => Sys2Proof.Machine.execPClip rd rs1 ls2 s
  | .pClipu rd rs1 ls2 => Sys2Proof.Machine.execPClipu rd rs1 ls2 s
  | .pClipr rd rs1 rs2 => Sys2Proof.Machine.execPClipr rd rs1 rs2 s
  | .pClipur rd rs1 rs2 => Sys2Proof.Machine.execPClipur rd rs1 rs2 s
  | .pAddN rd rs1 rs2 ls3 => Sys2Proof.Machine.execPAddN rd rs1 rs2 ls3 s
  | .pAdduN rd rs1 rs2 ls3 => Sys2Proof.Machine.execPAdduN rd rs1 rs2 ls3 s
  | .pAddRN rd rs1 rs2 ls3 => Sys2Proof.Machine.execPAddRN rd rs1 rs2 ls3 s
  | .pAdduRN rd rs1 rs2 ls3 => Sys2Proof.Machine.execPAdduRN rd rs1 rs2 ls3 s
  | .pAddNr rd rs1 rs2 => Sys2Proof.Machine.execPAddNr rd rs1 rs2 s
  | .pAdduNr rd rs1 rs2 => Sys2Proof.Machine.execPAdduNr rd rs1 rs2 s
  | .pAddRNr rd rs1 rs2 => Sys2Proof.Machine.execPAddRNr rd rs1 rs2 s
  | .pAdduRNr rd rs1 rs2 => Sys2Proof.Machine.execPAdduRNr rd rs1 rs2 s
  | .pSubN rd rs1 rs2 ls3 => Sys2Proof.Machine.execPSubN rd rs1 rs2 ls3 s
  | .pSubuN rd rs1 rs2 ls3 => Sys2Proof.Machine.execPSubuN rd rs1 rs2 ls3 s
  | .pSubRN rd rs1 rs2 ls3 => Sys2Proof.Machine.execPSubRN rd rs1 rs2 ls3 s
  | .pSubuRN rd rs1 rs2 ls3 => Sys2Proof.Machine.execPSubuRN rd rs1 rs2 ls3 s
  | .pSubNr rd rs1 rs2 => Sys2Proof.Machine.execPSubNr rd rs1 rs2 s
  | .pSubuNr rd rs1 rs2 => Sys2Proof.Machine.execPSubuNr rd rs1 rs2 s
  | .pSubRNr rd rs1 rs2 => Sys2Proof.Machine.execPSubRNr rd rs1 rs2 s
  | .pSubuRNr rd rs1 rs2 => Sys2Proof.Machine.execPSubuRNr rd rs1 rs2 s
  | .pBeqimm rs1 imm5 off => Sys2Proof.Machine.execPBeqimm rs1 imm5 off s
  | .pBneimm rs1 imm5 off => Sys2Proof.Machine.execPBneimm rs1 imm5 off s
  | .pMac rd rs1 rs2 => Sys2Proof.Machine.execPMac rd rs1 rs2 s
  | .pMsu rd rs1 rs2 => Sys2Proof.Machine.execPMsu rd rs1 rs2 s
  | .pMuls rd rs1 rs2 => Sys2Proof.Machine.execPMuls rd rs1 rs2 s
  | .pMulhhs rd rs1 rs2 => Sys2Proof.Machine.execPMulhhs rd rs1 rs2 s
  | .pMulsN rd rs1 rs2 ls3 => Sys2Proof.Machine.execPMulsN rd rs1 rs2 ls3 s
  | .pMulhhsN rd rs1 rs2 ls3 => Sys2Proof.Machine.execPMulhhsN rd rs1 rs2 ls3 s
  | .pMulsRN rd rs1 rs2 ls3 => Sys2Proof.Machine.execPMulsRN rd rs1 rs2 ls3 s
  | .pMulhhsRN rd rs1 rs2 ls3 => Sys2Proof.Machine.execPMulhhsRN rd rs1 rs2 ls3 s
  | .pMulu rd rs1 rs2 => Sys2Proof.Machine.execPMulu rd rs1 rs2 s
  | .pMulhhu rd rs1 rs2 => Sys2Proof.Machine.execPMulhhu rd rs1 rs2 s
  | .pMuluN rd rs1 rs2 ls3 => Sys2Proof.Machine.execPMuluN rd rs1 rs2 ls3 s
  | .pMulhhuN rd rs1 rs2 ls3 => Sys2Proof.Machine.execPMulhhuN rd rs1 rs2 ls3 s
  | .pMuluRN rd rs1 rs2 ls3 => Sys2Proof.Machine.execPMuluRN rd rs1 rs2 ls3 s
  | .pMulhhuRN rd rs1 rs2 ls3 => Sys2Proof.Machine.execPMulhhuRN rd rs1 rs2 ls3 s
  | .pMacsN rd rs1 rs2 ls3 => Sys2Proof.Machine.execPMacsN rd rs1 rs2 ls3 s
  | .pMachhsN rd rs1 rs2 ls3 => Sys2Proof.Machine.execPMachhsN rd rs1 rs2 ls3 s
  | .pMacsRN rd rs1 rs2 ls3 => Sys2Proof.Machine.execPMacsRN rd rs1 rs2 ls3 s
  | .pMachhsRN rd rs1 rs2 ls3 => Sys2Proof.Machine.execPMachhsRN rd rs1 rs2 ls3 s
  | .pMacuN rd rs1 rs2 ls3 => Sys2Proof.Machine.execPMacuN rd rs1 rs2 ls3 s
  | .pMachhuN rd rs1 rs2 ls3 => Sys2Proof.Machine.execPMachhuN rd rs1 rs2 ls3 s
  | .pMacuRN rd rs1 rs2 ls3 => Sys2Proof.Machine.execPMacuRN rd rs1 rs2 ls3 s
  | .pMachhuRN rd rs1 rs2 ls3 => Sys2Proof.Machine.execPMachhuRN rd rs1 rs2 ls3 s
  | .pvAddH rd rs1 rs2 => Sys2Proof.Machine.execPvAddH rd rs1 rs2 s
  | .pvAddScH rd rs1 rs2 => Sys2Proof.Machine.execPvAddScH rd rs1 rs2 s
  | .pvAddSciH rd rs1 imm6 => Sys2Proof.Machine.execPvAddSciH rd rs1 imm6 s
  | .pvAddB rd rs1 rs2 => Sys2Proof.Machine.execPvAddB rd rs1 rs2 s
  | .pvAddScB rd rs1 rs2 => Sys2Proof.Machine.execPvAddScB rd rs1 rs2 s
  | .pvAddSciB rd rs1 imm6 => Sys2Proof.Machine.execPvAddSciB rd rs1 imm6 s
  | .pvSubH rd rs1 rs2 => Sys2Proof.Machine.execPvSubH rd rs1 rs2 s
  | .pvSubScH rd rs1 rs2 => Sys2Proof.Machine.execPvSubScH rd rs1 rs2 s
  | .pvSubSciH rd rs1 imm6 => Sys2Proof.Machine.execPvSubSciH rd rs1 imm6 s
  | .pvSubB rd rs1 rs2 => Sys2Proof.Machine.execPvSubB rd rs1 rs2 s
  | .pvSubScB rd rs1 rs2 => Sys2Proof.Machine.execPvSubScB rd rs1 rs2 s
  | .pvSubSciB rd rs1 imm6 => Sys2Proof.Machine.execPvSubSciB rd rs1 imm6 s
  | .pvAvgH rd rs1 rs2 => Sys2Proof.Machine.execPvAvgH rd rs1 rs2 s
  | .pvAvgScH rd rs1 rs2 => Sys2Proof.Machine.execPvAvgScH rd rs1 rs2 s
  | .pvAvgSciH rd rs1 imm6 => Sys2Proof.Machine.execPvAvgSciH rd rs1 imm6 s
  | .pvAvgB rd rs1 rs2 => Sys2Proof.Machine.execPvAvgB rd rs1 rs2 s
  | .pvAvgScB rd rs1 rs2 => Sys2Proof.Machine.execPvAvgScB rd rs1 rs2 s
  | .pvAvgSciB rd rs1 imm6 => Sys2Proof.Machine.execPvAvgSciB rd rs1 imm6 s
  | .pvAvguH rd rs1 rs2 => Sys2Proof.Machine.execPvAvguH rd rs1 rs2 s
  | .pvAvguScH rd rs1 rs2 => Sys2Proof.Machine.execPvAvguScH rd rs1 rs2 s
  | .pvAvguSciH rd rs1 imm6 => Sys2Proof.Machine.execPvAvguSciH rd rs1 imm6 s
  | .pvAvguB rd rs1 rs2 => Sys2Proof.Machine.execPvAvguB rd rs1 rs2 s
  | .pvAvguScB rd rs1 rs2 => Sys2Proof.Machine.execPvAvguScB rd rs1 rs2 s
  | .pvAvguSciB rd rs1 imm6 => Sys2Proof.Machine.execPvAvguSciB rd rs1 imm6 s
  | .pvMinH rd rs1 rs2 => Sys2Proof.Machine.execPvMinH rd rs1 rs2 s
  | .pvMinScH rd rs1 rs2 => Sys2Proof.Machine.execPvMinScH rd rs1 rs2 s
  | .pvMinSciH rd rs1 imm6 => Sys2Proof.Machine.execPvMinSciH rd rs1 imm6 s
  | .pvMinB rd rs1 rs2 => Sys2Proof.Machine.execPvMinB rd rs1 rs2 s
  | .pvMinScB rd rs1 rs2 => Sys2Proof.Machine.execPvMinScB rd rs1 rs2 s
  | .pvMinSciB rd rs1 imm6 => Sys2Proof.Machine.execPvMinSciB rd rs1 imm6 s
  | .pvMinuH rd rs1 rs2 => Sys2Proof.Machine.execPvMinuH rd rs1 rs2 s
  | .pvMinuScH rd rs1 rs2 => Sys2Proof.Machine.execPvMinuScH rd rs1 rs2 s
  | .pvMinuSciH rd rs1 imm6 => Sys2Proof.Machine.execPvMinuSciH rd rs1 imm6 s
  | .pvMinuB rd rs1 rs2 => Sys2Proof.Machine.execPvMinuB rd rs1 rs2 s
  | .pvMinuScB rd rs1 rs2 => Sys2Proof.Machine.execPvMinuScB rd rs1 rs2 s
  | .pvMinuSciB rd rs1 imm6 => Sys2Proof.Machine.execPvMinuSciB rd rs1 imm6 s
  | .pvMaxH rd rs1 rs2 => Sys2Proof.Machine.execPvMaxH rd rs1 rs2 s
  | .pvMaxScH rd rs1 rs2 => Sys2Proof.Machine.execPvMaxScH rd rs1 rs2 s
  | .pvMaxSciH rd rs1 imm6 => Sys2Proof.Machine.execPvMaxSciH rd rs1 imm6 s
  | .pvMaxB rd rs1 rs2 => Sys2Proof.Machine.execPvMaxB rd rs1 rs2 s
  | .pvMaxScB rd rs1 rs2 => Sys2Proof.Machine.execPvMaxScB rd rs1 rs2 s
  | .pvMaxSciB rd rs1 imm6 => Sys2Proof.Machine.execPvMaxSciB rd rs1 imm6 s
  | .pvMaxuH rd rs1 rs2 => Sys2Proof.Machine.execPvMaxuH rd rs1 rs2 s
  | .pvMaxuScH rd rs1 rs2 => Sys2Proof.Machine.execPvMaxuScH rd rs1 rs2 s
  | .pvMaxuSciH rd rs1 imm6 => Sys2Proof.Machine.execPvMaxuSciH rd rs1 imm6 s
  | .pvMaxuB rd rs1 rs2 => Sys2Proof.Machine.execPvMaxuB rd rs1 rs2 s
  | .pvMaxuScB rd rs1 rs2 => Sys2Proof.Machine.execPvMaxuScB rd rs1 rs2 s
  | .pvMaxuSciB rd rs1 imm6 => Sys2Proof.Machine.execPvMaxuSciB rd rs1 imm6 s
  | .pvSrlH rd rs1 rs2 => Sys2Proof.Machine.execPvSrlH rd rs1 rs2 s
  | .pvSrlScH rd rs1 rs2 => Sys2Proof.Machine.execPvSrlScH rd rs1 rs2 s
  | .pvSrlSciH rd rs1 imm6 => Sys2Proof.Machine.execPvSrlSciH rd rs1 imm6 s
  | .pvSrlB rd rs1 rs2 => Sys2Proof.Machine.execPvSrlB rd rs1 rs2 s
  | .pvSrlScB rd rs1 rs2 => Sys2Proof.Machine.execPvSrlScB rd rs1 rs2 s
  | .pvSrlSciB rd rs1 imm6 => Sys2Proof.Machine.execPvSrlSciB rd rs1 imm6 s
  | .pvSraH rd rs1 rs2 => Sys2Proof.Machine.execPvSraH rd rs1 rs2 s
  | .pvSraScH rd rs1 rs2 => Sys2Proof.Machine.execPvSraScH rd rs1 rs2 s
  | .pvSraSciH rd rs1 imm6 => Sys2Proof.Machine.execPvSraSciH rd rs1 imm6 s
  | .pvSraB rd rs1 rs2 => Sys2Proof.Machine.execPvSraB rd rs1 rs2 s
  | .pvSraScB rd rs1 rs2 => Sys2Proof.Machine.execPvSraScB rd rs1 rs2 s
  | .pvSraSciB rd rs1 imm6 => Sys2Proof.Machine.execPvSraSciB rd rs1 imm6 s
  | .pvSllH rd rs1 rs2 => Sys2Proof.Machine.execPvSllH rd rs1 rs2 s
  | .pvSllScH rd rs1 rs2 => Sys2Proof.Machine.execPvSllScH rd rs1 rs2 s
  | .pvSllSciH rd rs1 imm6 => Sys2Proof.Machine.execPvSllSciH rd rs1 imm6 s
  | .pvSllB rd rs1 rs2 => Sys2Proof.Machine.execPvSllB rd rs1 rs2 s
  | .pvSllScB rd rs1 rs2 => Sys2Proof.Machine.execPvSllScB rd rs1 rs2 s
  | .pvSllSciB rd rs1 imm6 => Sys2Proof.Machine.execPvSllSciB rd rs1 imm6 s
  | .pvOrH rd rs1 rs2 => Sys2Proof.Machine.execPvOrH rd rs1 rs2 s
  | .pvOrScH rd rs1 rs2 => Sys2Proof.Machine.execPvOrScH rd rs1 rs2 s
  | .pvOrSciH rd rs1 imm6 => Sys2Proof.Machine.execPvOrSciH rd rs1 imm6 s
  | .pvOrB rd rs1 rs2 => Sys2Proof.Machine.execPvOrB rd rs1 rs2 s
  | .pvOrScB rd rs1 rs2 => Sys2Proof.Machine.execPvOrScB rd rs1 rs2 s
  | .pvOrSciB rd rs1 imm6 => Sys2Proof.Machine.execPvOrSciB rd rs1 imm6 s
  | .pvXorH rd rs1 rs2 => Sys2Proof.Machine.execPvXorH rd rs1 rs2 s
  | .pvXorScH rd rs1 rs2 => Sys2Proof.Machine.execPvXorScH rd rs1 rs2 s
  | .pvXorSciH rd rs1 imm6 => Sys2Proof.Machine.execPvXorSciH rd rs1 imm6 s
  | .pvXorB rd rs1 rs2 => Sys2Proof.Machine.execPvXorB rd rs1 rs2 s
  | .pvXorScB rd rs1 rs2 => Sys2Proof.Machine.execPvXorScB rd rs1 rs2 s
  | .pvXorSciB rd rs1 imm6 => Sys2Proof.Machine.execPvXorSciB rd rs1 imm6 s
  | .pvAndH rd rs1 rs2 => Sys2Proof.Machine.execPvAndH rd rs1 rs2 s
  | .pvAndScH rd rs1 rs2 => Sys2Proof.Machine.execPvAndScH rd rs1 rs2 s
  | .pvAndSciH rd rs1 imm6 => Sys2Proof.Machine.execPvAndSciH rd rs1 imm6 s
  | .pvAndB rd rs1 rs2 => Sys2Proof.Machine.execPvAndB rd rs1 rs2 s
  | .pvAndScB rd rs1 rs2 => Sys2Proof.Machine.execPvAndScB rd rs1 rs2 s
  | .pvAndSciB rd rs1 imm6 => Sys2Proof.Machine.execPvAndSciB rd rs1 imm6 s
  | .pvAbsH rd rs1 => Sys2Proof.Machine.execPvAbsH rd rs1 s
  | .pvAbsB rd rs1 => Sys2Proof.Machine.execPvAbsB rd rs1 s
  | .pvExtractH rd rs1 imm6 => Sys2Proof.Machine.execPvExtractH rd rs1 imm6 s
  | .pvExtractB rd rs1 imm6 => Sys2Proof.Machine.execPvExtractB rd rs1 imm6 s
  | .pvExtractuH rd rs1 imm6 => Sys2Proof.Machine.execPvExtractuH rd rs1 imm6 s
  | .pvExtractuB rd rs1 imm6 => Sys2Proof.Machine.execPvExtractuB rd rs1 imm6 s
  | .pvInsertH rd rs1 imm6 => Sys2Proof.Machine.execPvInsertH rd rs1 imm6 s
  | .pvInsertB rd rs1 imm6 => Sys2Proof.Machine.execPvInsertB rd rs1 imm6 s
  | .pvDotupH rd rs1 rs2 => Sys2Proof.Machine.execPvDotupH rd rs1 rs2 s
  | .pvDotupScH rd rs1 rs2 => Sys2Proof.Machine.execPvDotupScH rd rs1 rs2 s
  | .pvDotupSciH rd rs1 imm6 => Sys2Proof.Machine.execPvDotupSciH rd rs1 imm6 s
  | .pvDotupB rd rs1 rs2 => Sys2Proof.Machine.execPvDotupB rd rs1 rs2 s
  | .pvDotupScB rd rs1 rs2 => Sys2Proof.Machine.execPvDotupScB rd rs1 rs2 s
  | .pvDotupSciB rd rs1 imm6 => Sys2Proof.Machine.execPvDotupSciB rd rs1 imm6 s
  | .pvDotuspH rd rs1 rs2 => Sys2Proof.Machine.execPvDotuspH rd rs1 rs2 s
  | .pvDotuspScH rd rs1 rs2 => Sys2Proof.Machine.execPvDotuspScH rd rs1 rs2 s
  | .pvDotuspSciH rd rs1 imm6 => Sys2Proof.Machine.execPvDotuspSciH rd rs1 imm6 s
  | .pvDotuspB rd rs1 rs2 => Sys2Proof.Machine.execPvDotuspB rd rs1 rs2 s
  | .pvDotuspScB rd rs1 rs2 => Sys2Proof.Machine.execPvDotuspScB rd rs1 rs2 s
  | .pvDotuspSciB rd rs1 imm6 => Sys2Proof.Machine.execPvDotuspSciB rd rs1 imm6 s
  | .pvDotspH rd rs1 rs2 => Sys2Proof.Machine.execPvDotspH rd rs1 rs2 s
  | .pvDotspScH rd rs1 rs2 => Sys2Proof.Machine.execPvDotspScH rd rs1 rs2 s
  | .pvDotspSciH rd rs1 imm6 => Sys2Proof.Machine.execPvDotspSciH rd rs1 imm6 s
  | .pvDotspB rd rs1 rs2 => Sys2Proof.Machine.execPvDotspB rd rs1 rs2 s
  | .pvDotspScB rd rs1 rs2 => Sys2Proof.Machine.execPvDotspScB rd rs1 rs2 s
  | .pvDotspSciB rd rs1 imm6 => Sys2Proof.Machine.execPvDotspSciB rd rs1 imm6 s
  | .pvSdotupH rd rs1 rs2 => Sys2Proof.Machine.execPvSdotupH rd rs1 rs2 s
  | .pvSdotupScH rd rs1 rs2 => Sys2Proof.Machine.execPvSdotupScH rd rs1 rs2 s
  | .pvSdotupSciH rd rs1 imm6 => Sys2Proof.Machine.execPvSdotupSciH rd rs1 imm6 s
  | .pvSdotupB rd rs1 rs2 => Sys2Proof.Machine.execPvSdotupB rd rs1 rs2 s
  | .pvSdotupScB rd rs1 rs2 => Sys2Proof.Machine.execPvSdotupScB rd rs1 rs2 s
  | .pvSdotupSciB rd rs1 imm6 => Sys2Proof.Machine.execPvSdotupSciB rd rs1 imm6 s
  | .pvSdotuspH rd rs1 rs2 => Sys2Proof.Machine.execPvSdotuspH rd rs1 rs2 s
  | .pvSdotuspScH rd rs1 rs2 => Sys2Proof.Machine.execPvSdotuspScH rd rs1 rs2 s
  | .pvSdotuspSciH rd rs1 imm6 => Sys2Proof.Machine.execPvSdotuspSciH rd rs1 imm6 s
  | .pvSdotuspB rd rs1 rs2 => Sys2Proof.Machine.execPvSdotuspB rd rs1 rs2 s
  | .pvSdotuspScB rd rs1 rs2 => Sys2Proof.Machine.execPvSdotuspScB rd rs1 rs2 s
  | .pvSdotuspSciB rd rs1 imm6 => Sys2Proof.Machine.execPvSdotuspSciB rd rs1 imm6 s
  | .pvSdotspH rd rs1 rs2 => Sys2Proof.Machine.execPvSdotspH rd rs1 rs2 s
  | .pvSdotspScH rd rs1 rs2 => Sys2Proof.Machine.execPvSdotspScH rd rs1 rs2 s
  | .pvSdotspSciH rd rs1 imm6 => Sys2Proof.Machine.execPvSdotspSciH rd rs1 imm6 s
  | .pvSdotspB rd rs1 rs2 => Sys2Proof.Machine.execPvSdotspB rd rs1 rs2 s
  | .pvSdotspScB rd rs1 rs2 => Sys2Proof.Machine.execPvSdotspScB rd rs1 rs2 s
  | .pvSdotspSciB rd rs1 imm6 => Sys2Proof.Machine.execPvSdotspSciB rd rs1 imm6 s
  | .pvShuffleH rd rs1 rs2 => Sys2Proof.Machine.execPvShuffleH rd rs1 rs2 s
  | .pvShuffleB rd rs1 rs2 => Sys2Proof.Machine.execPvShuffleB rd rs1 rs2 s
  | .pvShuffleSciH rd rs1 imm6 => Sys2Proof.Machine.execPvShuffleSciH rd rs1 imm6 s
  | .pvShuffleI0SciB rd rs1 imm6 => Sys2Proof.Machine.execPvShuffleI0SciB rd rs1 imm6 s
  | .pvShuffleI1SciB rd rs1 imm6 => Sys2Proof.Machine.execPvShuffleI1SciB rd rs1 imm6 s
  | .pvShuffleI2SciB rd rs1 imm6 => Sys2Proof.Machine.execPvShuffleI2SciB rd rs1 imm6 s
  | .pvShuffleI3SciB rd rs1 imm6 => Sys2Proof.Machine.execPvShuffleI3SciB rd rs1 imm6 s
  | .pvShuffle2H rd rs1 rs2 => Sys2Proof.Machine.execPvShuffle2H rd rs1 rs2 s
  | .pvShuffle2B rd rs1 rs2 => Sys2Proof.Machine.execPvShuffle2B rd rs1 rs2 s
  | .pvPackH rd rs1 rs2 => Sys2Proof.Machine.execPvPackH rd rs1 rs2 s
  | .pvPackhiB rd rs1 rs2 => Sys2Proof.Machine.execPvPackhiB rd rs1 rs2 s
  | .pvPackloB rd rs1 rs2 => Sys2Proof.Machine.execPvPackloB rd rs1 rs2 s
  | .pvCmpeqH rd rs1 rs2 => Sys2Proof.Machine.execPvCmpeqH rd rs1 rs2 s
  | .pvCmpeqScH rd rs1 rs2 => Sys2Proof.Machine.execPvCmpeqScH rd rs1 rs2 s
  | .pvCmpeqSciH rd rs1 imm6 => Sys2Proof.Machine.execPvCmpeqSciH rd rs1 imm6 s
  | .pvCmpeqB rd rs1 rs2 => Sys2Proof.Machine.execPvCmpeqB rd rs1 rs2 s
  | .pvCmpeqScB rd rs1 rs2 => Sys2Proof.Machine.execPvCmpeqScB rd rs1 rs2 s
  | .pvCmpeqSciB rd rs1 imm6 => Sys2Proof.Machine.execPvCmpeqSciB rd rs1 imm6 s
  | .pvCmpneH rd rs1 rs2 => Sys2Proof.Machine.execPvCmpneH rd rs1 rs2 s
  | .pvCmpneScH rd rs1 rs2 => Sys2Proof.Machine.execPvCmpneScH rd rs1 rs2 s
  | .pvCmpneSciH rd rs1 imm6 => Sys2Proof.Machine.execPvCmpneSciH rd rs1 imm6 s
  | .pvCmpneB rd rs1 rs2 => Sys2Proof.Machine.execPvCmpneB rd rs1 rs2 s
  | .pvCmpneScB rd rs1 rs2 => Sys2Proof.Machine.execPvCmpneScB rd rs1 rs2 s
  | .pvCmpneSciB rd rs1 imm6 => Sys2Proof.Machine.execPvCmpneSciB rd rs1 imm6 s
  | .pvCmpgtH rd rs1 rs2 => Sys2Proof.Machine.execPvCmpgtH rd rs1 rs2 s
  | .pvCmpgtScH rd rs1 rs2 => Sys2Proof.Machine.execPvCmpgtScH rd rs1 rs2 s
  | .pvCmpgtSciH rd rs1 imm6 => Sys2Proof.Machine.execPvCmpgtSciH rd rs1 imm6 s
  | .pvCmpgtB rd rs1 rs2 => Sys2Proof.Machine.execPvCmpgtB rd rs1 rs2 s
  | .pvCmpgtScB rd rs1 rs2 => Sys2Proof.Machine.execPvCmpgtScB rd rs1 rs2 s
  | .pvCmpgtSciB rd rs1 imm6 => Sys2Proof.Machine.execPvCmpgtSciB rd rs1 imm6 s
  | .pvCmpgeH rd rs1 rs2 => Sys2Proof.Machine.execPvCmpgeH rd rs1 rs2 s
  | .pvCmpgeScH rd rs1 rs2 => Sys2Proof.Machine.execPvCmpgeScH rd rs1 rs2 s
  | .pvCmpgeSciH rd rs1 imm6 => Sys2Proof.Machine.execPvCmpgeSciH rd rs1 imm6 s
  | .pvCmpgeB rd rs1 rs2 => Sys2Proof.Machine.execPvCmpgeB rd rs1 rs2 s
  | .pvCmpgeScB rd rs1 rs2 => Sys2Proof.Machine.execPvCmpgeScB rd rs1 rs2 s
  | .pvCmpgeSciB rd rs1 imm6 => Sys2Proof.Machine.execPvCmpgeSciB rd rs1 imm6 s
  | .pvCmpltH rd rs1 rs2 => Sys2Proof.Machine.execPvCmpltH rd rs1 rs2 s
  | .pvCmpltScH rd rs1 rs2 => Sys2Proof.Machine.execPvCmpltScH rd rs1 rs2 s
  | .pvCmpltSciH rd rs1 imm6 => Sys2Proof.Machine.execPvCmpltSciH rd rs1 imm6 s
  | .pvCmpltB rd rs1 rs2 => Sys2Proof.Machine.execPvCmpltB rd rs1 rs2 s
  | .pvCmpltScB rd rs1 rs2 => Sys2Proof.Machine.execPvCmpltScB rd rs1 rs2 s
  | .pvCmpltSciB rd rs1 imm6 => Sys2Proof.Machine.execPvCmpltSciB rd rs1 imm6 s
  | .pvCmpleH rd rs1 rs2 => Sys2Proof.Machine.execPvCmpleH rd rs1 rs2 s
  | .pvCmpleScH rd rs1 rs2 => Sys2Proof.Machine.execPvCmpleScH rd rs1 rs2 s
  | .pvCmpleSciH rd rs1 imm6 => Sys2Proof.Machine.execPvCmpleSciH rd rs1 imm6 s
  | .pvCmpleB rd rs1 rs2 => Sys2Proof.Machine.execPvCmpleB rd rs1 rs2 s
  | .pvCmpleScB rd rs1 rs2 => Sys2Proof.Machine.execPvCmpleScB rd rs1 rs2 s
  | .pvCmpleSciB rd rs1 imm6 => Sys2Proof.Machine.execPvCmpleSciB rd rs1 imm6 s
  | .pvCmpgtuH rd rs1 rs2 => Sys2Proof.Machine.execPvCmpgtuH rd rs1 rs2 s
  | .pvCmpgtuScH rd rs1 rs2 => Sys2Proof.Machine.execPvCmpgtuScH rd rs1 rs2 s
  | .pvCmpgtuSciH rd rs1 imm6 => Sys2Proof.Machine.execPvCmpgtuSciH rd rs1 imm6 s
  | .pvCmpgtuB rd rs1 rs2 => Sys2Proof.Machine.execPvCmpgtuB rd rs1 rs2 s
  | .pvCmpgtuScB rd rs1 rs2 => Sys2Proof.Machine.execPvCmpgtuScB rd rs1 rs2 s
  | .pvCmpgtuSciB rd rs1 imm6 => Sys2Proof.Machine.execPvCmpgtuSciB rd rs1 imm6 s
  | .pvCmpgeuH rd rs1 rs2 => Sys2Proof.Machine.execPvCmpgeuH rd rs1 rs2 s
  | .pvCmpgeuScH rd rs1 rs2 => Sys2Proof.Machine.execPvCmpgeuScH rd rs1 rs2 s
  | .pvCmpgeuSciH rd rs1 imm6 => Sys2Proof.Machine.execPvCmpgeuSciH rd rs1 imm6 s
  | .pvCmpgeuB rd rs1 rs2 => Sys2Proof.Machine.execPvCmpgeuB rd rs1 rs2 s
  | .pvCmpgeuScB rd rs1 rs2 => Sys2Proof.Machine.execPvCmpgeuScB rd rs1 rs2 s
  | .pvCmpgeuSciB rd rs1 imm6 => Sys2Proof.Machine.execPvCmpgeuSciB rd rs1 imm6 s
  | .pvCmpltuH rd rs1 rs2 => Sys2Proof.Machine.execPvCmpltuH rd rs1 rs2 s
  | .pvCmpltuScH rd rs1 rs2 => Sys2Proof.Machine.execPvCmpltuScH rd rs1 rs2 s
  | .pvCmpltuSciH rd rs1 imm6 => Sys2Proof.Machine.execPvCmpltuSciH rd rs1 imm6 s
  | .pvCmpltuB rd rs1 rs2 => Sys2Proof.Machine.execPvCmpltuB rd rs1 rs2 s
  | .pvCmpltuScB rd rs1 rs2 => Sys2Proof.Machine.execPvCmpltuScB rd rs1 rs2 s
  | .pvCmpltuSciB rd rs1 imm6 => Sys2Proof.Machine.execPvCmpltuSciB rd rs1 imm6 s
  | .pvCmpleuH rd rs1 rs2 => Sys2Proof.Machine.execPvCmpleuH rd rs1 rs2 s
  | .pvCmpleuScH rd rs1 rs2 => Sys2Proof.Machine.execPvCmpleuScH rd rs1 rs2 s
  | .pvCmpleuSciH rd rs1 imm6 => Sys2Proof.Machine.execPvCmpleuSciH rd rs1 imm6 s
  | .pvCmpleuB rd rs1 rs2 => Sys2Proof.Machine.execPvCmpleuB rd rs1 rs2 s
  | .pvCmpleuScB rd rs1 rs2 => Sys2Proof.Machine.execPvCmpleuScB rd rs1 rs2 s
  | .pvCmpleuSciB rd rs1 imm6 => Sys2Proof.Machine.execPvCmpleuSciB rd rs1 imm6 s

end Sys2Proof.Machine
end

