-- ==== Sys2Proof/Machine/Hart.lean ====
section
/-! DEFINITION. One step of the hart (00_scope.md R11): debug mode and sleep, the interrupt check, fetch, decode, execute,
the events, single step. -/

namespace Sys2Proof.Machine

/-- The hart or the debug mode begins a step: the core is awake, and its acknowledge output is low (60_exceptions.md R713, R756). -/
def State.begin (s : State) : State := { s with sleeping := false, irqAck := none }

/-- With DBG_CTRL.SSTE = 1 the core enters debug mode after the step; the cause is not defined, unless the step itself
entered debug mode (60_exceptions.md R745, R750, R752). DESIGN CHOICE: R752 speaks of the step after leaving debug mode only;
with SSTE written 1 while the core runs, the model halts it after the next step too (notes/assumptions/49.md). -/
def State.singleStep (s : State) : State :=
  if s.sste then
    { s with
      halted := true
      ssth := true
      dbgCause := if s.halted then s.dbgCause else Config.freeCause s.draws }
  else s

/-- The end of a step that led from `before` to `after`: the events are counted, DBG_PPC is the instruction executed and
`wrote` the registers it wrote, a single step halts, and the free values of this step are used up. -/
def complete (ev : Events) (ppc : Word) (wrote : Option (List Reg)) (before after : State) : State :=
  let t := { countEvents ev before after with ppc := ppc, prevWrites := wrote }.singleStep
  { t with draws := t.draws + 1 }

/-- The events of an instruction. DESIGN CHOICE: an `ebreak` or `c.ebreak` that enters debug mode, of which R751 does not say
whether it counts, counts as one executed instruction, and `c.ebreak` as one compressed one (60_exceptions.md R721, R751;
notes/assumptions/54.md). -/
def eventsOf (s : State) (i : Instr) (ilen : Word) : Events :=
  if raisesException s i then exceptionEvents else instrEvents s i ilen

/-- The registers that an instruction wrote, for the next one: nothing is known of them after a trap entry
(40_rv32i_base.md R204; notes/assumptions/48.md). -/
def writesOf (s : State) (i : Instr) : Option (List Reg) := if entersTrap s i then none else some (xWritten i)

/-- The hart executes the instruction `i` of length `ilen` at pc (00_scope.md R11 steps 4 to 6). -/
def runInstr (i : Instr) (ilen : Word) (s : State) : Result :=
  mapNext (complete (eventsOf s i ilen) s.pc (writesOf s i) s) (exec i s)

/-- The hart meets words that are no instruction: an exception, or a reserved class (30_encoding.md R170, R171). -/
def runNoInstr (e : DecodeError) (s : State) : Result :=
  match e with
  | .illegal => .next (complete exceptionEvents s.pc none s s.illegalInstruction)
  | .reserved c => .refused (.reservedEncoding c)
  -- a fetched word is never cut short
  | .truncated => .next (complete exceptionEvents s.pc none s s.illegalInstruction)

/-- The hart fetches, decodes and executes (00_scope.md R11 steps 2 to 6). -/
noncomputable def fetchAndRun (s : State) : Result :=
  match s.fetch with
  | .error e => e.result
  | .ok c =>
    match decodeCode c with
    | .ok i => runInstr i (codeLength c) s
    | .error e => runNoInstr e s

/-- The hart takes an interrupt instead of the instruction at pc (00_scope.md R11 step 1, 60_exceptions.md R706). -/
def runInterrupt (i : BitVec 5) (s : State) : Result :=
  .next (complete idleEvents s.ppc none s (s.takeInterrupt i))

/-- A step in debug mode: no instruction executes, no interrupt is taken (60_exceptions.md R741). -/
def haltedStep (s : State) : Result :=
  let t := countEvents idleEvents s s
  .next { t with draws := t.draws + 1 }

/-- One step of the hart. Asleep with no request it changes nothing, in debug mode too; a request makes it active whatever
MSTATUS.MIE; in debug mode it executes nothing (60_exceptions.md R741, R755, R756). -/
noncomputable def hartStep (s : State) : Result :=
  if s.sleeping && s.irq.isNone then .next s
  else if s.halted then haltedStep s.begin
  else
    match s.takeable with
    | some i => runInterrupt i s.begin
    | none => fetchAndRun s.begin

end Sys2Proof.Machine
end

