-- ==== Sys2Proof/Machine/Step.lean ====
section
/-! DEFINITION. One step of the machine: the next action of the world, or a step of the hart (notes/assumptions/9.md); and
the state in which the hart's next fetch reads a given instruction. -/

namespace Sys2Proof.Machine

/-- One step: the next input, or a step of the hart at a `tick` and when no input is left. -/
noncomputable def step (s : State) : Host.Outcome State Fault Refusal :=
  match s.inputs with
  | [] => hartStep s
  | .tick :: rest => hartStep { s with inputs := rest }
  | i :: rest => environment i { s with inputs := rest }

/-- Byte `k` of a table word, zero at and above bit `nbits`. -/
def fetchByte (nbits w k : Nat) : Byte := if 8 * k < nbits then BitVec.ofNat 8 (w / 256 ^ k) else 0

/-- Storage with the four bytes of a table word at an address. -/
def writeWord (m : List Host.Cell) (a : Word) (nbits w : Nat) : List Host.Cell :=
  Memory.write8 (Memory.write8 (Memory.write8 (Memory.write8 m a (fetchByte nbits w 0))
    (a + 1) (fetchByte nbits w 1)) (a + 2) (fetchByte nbits w 2)) (a + 3) (fetchByte nbits w 3)

/-- `s` with the instruction whose bits are `w` at the pc, in the storage that fetch reads, ready to be fetched: running,
awake, with no request and no input before it, and its four bytes not stale. -/
def State.withFetchWord (s : State) (nbits w : Nat) : State :=
  { s with
    mem := if s.params.unified then writeWord s.mem s.pc nbits w else s.mem
    imem := if s.params.unified then s.imem else writeWord s.imem s.pc nbits w
    dirty := AddrSet.erase s.pc.toNat (AddrSet.erase (s.pc + 1).toNat (AddrSet.erase (s.pc + 2).toNat
      (AddrSet.erase (s.pc + 3).toNat s.dirty)))
    halted := false
    sleeping := false
    irq := none
    inputs := [] }

end Sys2Proof.Machine
end

