-- ==== Sys2Proof/Safety.lean ====
section
/-! DEFINITION. The terms that the claims use: when a step completes, the invariant of the machine, what a state is after an
instruction that wrote one register, and what the spec lets each instruction change. -/

namespace Sys2Proof.Machine

/-! ## Safe steps and the invariant -/

/-- The machine takes a step: no fault and no refusal. -/
def CanStep (s : State) : Prop := ∃ t, step s = .next t

/-- What holds of every state that runs from reset, and what every step keeps: the pc is even (10_state.md R23), both
storages and the set of stale bytes have their canonical form, the bits of MSTATUS, MCAUSE, PCMR, PCER and DBG_IE that no write reaches
have their fixed values (R27, R30, R33, R34; 60_exceptions.md R744), and no hart sleeps while a request is present (R756). -/
structure Inv (s : State) : Prop where
  pc_even : s.pc.getLsbD 0 = false
  mem_wf : Memory.wf s.mem = true
  imem_wf : Memory.wf s.imem = true
  dirty_wf : AddrSet.wf s.dirty = true
  mstatus_fixed : s.mstatus &&& 0xFFFFFF77 = 0x00001800
  mcause_fixed : s.mcause &&& 0x7FFFFFE0 = 0
  pcmr_fixed : s.pcmr &&& 0xFFFFFFFC = 0
  pcer_fixed : s.pcer &&& 0xFFE00000 = 0
  dbgIe_fixed : s.dbgIe &&& 0xFFFFF700 = 0
  sleep_idle : s.sleeping = true → s.irq = none

/-! ## The state after an instruction -/

/-- `s` after an instruction of length `ilen` at pc that changed nothing itself: the hardware-loop step, and the next pc
(46_pulp_hwloop.md R448). -/
def State.after (s : State) (ilen : Word) : State := s.stepLoops (s.pc + ilen)

/-- `s` after an instruction of length `ilen` at pc that did nothing but `x[rd] <- v`. -/
def State.afterX (s : State) (ilen : Word) (rd : Reg) (v : Word) : State := (s.writeX rd v).after ilen

/-- `s` after an instruction of length `ilen` at pc that did nothing but `f[rd] <- v`. -/
def State.afterF (s : State) (ilen : Word) (rd : Reg) (v : Word) : State := (s.writeF rd v).after ilen

/-- The `n` bytes that a load at `a` reads, as a number, the byte at the lowest address the least significant (20_memory.md
R104). -/
def State.loaded (s : State) (a : Word) : Nat → Nat
  | 0 => 0
  | n + 1 => s.loaded a n + 256 ^ n * (s.accessByte a n).toNat

/-- The `n` bytes that a fetch at `a` reads, as a number, in the same order. -/
def State.fetched (s : State) (a : Word) : Nat → Nat
  | 0 => 0
  | n + 1 => s.fetched a n + 256 ^ n * (s.code8 (a + BitVec.ofNat 32 n)).toNat

/-- The executed instruction writes `v` to `x[rd]`, does nothing else, and `v` has these half-word elements. -/
def WritesHalves (s : State) (i : Instr) (rd : Reg) (e : Nat → Half) : Prop :=
  ∃ v : Word, exec i s = .next (s.afterX ilen4 rd v) ∧ ∀ k < 2, v.extractLsb' (16 * k) 16 = e k

/-- The executed instruction writes `v` to `x[rd]`, does nothing else, and `v` has these byte elements. -/
def WritesBytes (s : State) (i : Instr) (rd : Reg) (e : Nat → Byte) : Prop :=
  ∃ v : Word, exec i s = .next (s.afterX ilen4 rd v) ∧ ∀ k < 4, v.extractLsb' (8 * k) 8 = e k

/-- The executed instruction writes `v` to `x[rd]`, does nothing else, and `v` has these bits. -/
def WritesBits (s : State) (i : Instr) (rd : Reg) (b : Nat → Bool) : Prop :=
  ∃ v : Word, exec i s = .next (s.afterX ilen4 rd v) ∧ ∀ k < 32, v.getLsbD k = b k

/-- The three forms of a vectorial instruction on half-words: the second operand is `x[rs2]`, its element 0 replicated, or
the extended immediate replicated (49_pulp_vector.md R581); every element of the result is `op` of the elements. -/
def HalfForms (s : State) (op : Half → Half → Half) (ext : BitVec 6 → Half) (vv sc : Reg → Reg → Reg → Instr)
    (sci : Reg → Reg → BitVec 6 → Instr) : Prop :=
  ∀ (rd rs1 rs2 : Reg) (imm : BitVec 6),
    WritesHalves s (vv rd rs1 rs2) rd (fun k => op (halfAt (s.readX rs1) k) (halfAt (s.readX rs2) k)) ∧
    WritesHalves s (sc rd rs1 rs2) rd (fun k => op (halfAt (s.readX rs1) k) (halfAt (s.readX rs2) 0)) ∧
    WritesHalves s (sci rd rs1 imm) rd (fun k => op (halfAt (s.readX rs1) k) (ext imm))

/-- The same on bytes. -/
def ByteForms (s : State) (op : Byte → Byte → Byte) (ext : BitVec 6 → Byte) (vv sc : Reg → Reg → Reg → Instr)
    (sci : Reg → Reg → BitVec 6 → Instr) : Prop :=
  ∀ (rd rs1 rs2 : Reg) (imm : BitVec 6),
    WritesBytes s (vv rd rs1 rs2) rd (fun k => op (byteAt (s.readX rs1) k) (byteAt (s.readX rs2) k)) ∧
    WritesBytes s (sc rd rs1 rs2) rd (fun k => op (byteAt (s.readX rs1) k) (byteAt (s.readX rs2) 0)) ∧
    WritesBytes s (sci rd rs1 imm) rd (fun k => op (byteAt (s.readX rs1) k) (ext imm))

/-- The three forms of a dot product on half-words: the integer `dot` of the old `x[rd]` and the elements, modulo 2^32. -/
def DotHalfForms (s : State) (dot : Word → (Nat → Half) → (Nat → Half) → Int)
    (vv sc : Reg → Reg → Reg → Instr) (sci : Reg → Reg → BitVec 6 → Instr) : Prop :=
  ∀ (rd rs1 rs2 : Reg) (imm : BitVec 6),
    exec (vv rd rs1 rs2) s = .next (s.afterX ilen4 rd (BitVec.ofInt 32
      (dot (s.readX rd) (halfAt (s.readX rs1)) (halfAt (s.readX rs2))))) ∧
    exec (sc rd rs1 rs2) s = .next (s.afterX ilen4 rd (BitVec.ofInt 32
      (dot (s.readX rd) (halfAt (s.readX rs1)) (fun _ => halfAt (s.readX rs2) 0)))) ∧
    exec (sci rd rs1 imm) s = .next (s.afterX ilen4 rd (BitVec.ofInt 32
      (dot (s.readX rd) (halfAt (s.readX rs1)) (fun _ => imm.signExtend 16))))

/-- The same on bytes. -/
def DotByteForms (s : State) (dot : Word → (Nat → Byte) → (Nat → Byte) → Int)
    (vv sc : Reg → Reg → Reg → Instr) (sci : Reg → Reg → BitVec 6 → Instr) : Prop :=
  ∀ (rd rs1 rs2 : Reg) (imm : BitVec 6),
    exec (vv rd rs1 rs2) s = .next (s.afterX ilen4 rd (BitVec.ofInt 32
      (dot (s.readX rd) (byteAt (s.readX rs1)) (byteAt (s.readX rs2))))) ∧
    exec (sc rd rs1 rs2) s = .next (s.afterX ilen4 rd (BitVec.ofInt 32
      (dot (s.readX rd) (byteAt (s.readX rs1)) (fun _ => byteAt (s.readX rs2) 0)))) ∧
    exec (sci rd rs1 imm) s = .next (s.afterX ilen4 rd (BitVec.ofInt 32
      (dot (s.readX rd) (byteAt (s.readX rs1)) (fun _ => imm.signExtend 8))))

/-! ## What an instruction may change -/

/-- The floating-point registers that the rule of an instruction writes. -/
def fWritten : Instr → List Reg
  | .flw rd _ _ => [rd]
  | .fmaddS rd _ _ _ _ => [rd]
  | .fmsubS rd _ _ _ _ => [rd]
  | .fnmsubS rd _ _ _ _ => [rd]
  | .fnmaddS rd _ _ _ _ => [rd]
  | .faddS rd _ _ _ => [rd]
  | .fsubS rd _ _ _ => [rd]
  | .fmulS rd _ _ _ => [rd]
  | .fdivS rd _ _ _ => [rd]
  | .fsqrtS rd _ _ => [rd]
  | .fsgnjS rd _ _ => [rd]
  | .fsgnjnS rd _ _ => [rd]
  | .fsgnjxS rd _ _ => [rd]
  | .fminS rd _ _ => [rd]
  | .fmaxS rd _ _ => [rd]
  | .fcvtSW rd _ _ => [rd]
  | .fcvtSWu rd _ _ => [rd]
  | .fmvWX rd _ => [rd]
  | .cFlw rd _ _ => [creg rd]
  | .cFlwsp rd _ => [rd]
  | _ => []

/-- The instructions that may change fflags: the arithmetic, comparison and conversion of RV32F (44_rv32f.md R353). -/
def mayRaiseFlags : Instr → Bool
  | .fmaddS _ _ _ _ _ => true
  | .fmsubS _ _ _ _ _ => true
  | .fnmsubS _ _ _ _ _ => true
  | .fnmaddS _ _ _ _ _ => true
  | .faddS _ _ _ _ => true
  | .fsubS _ _ _ _ => true
  | .fmulS _ _ _ _ => true
  | .fdivS _ _ _ _ => true
  | .fsqrtS _ _ _ => true
  | .fminS _ _ _ => true
  | .fmaxS _ _ _ => true
  | .fcvtWS _ _ _ => true
  | .fcvtWuS _ _ _ => true
  | .feqS _ _ _ => true
  | .fltS _ _ _ => true
  | .fleS _ _ _ => true
  | .fcvtSW _ _ _ => true
  | .fcvtSWu _ _ _ => true
  | _ => false

/-- The six CSR instructions (41_rv32i_system.md R257 to R262). -/
def isCsrAccess : Instr → Bool
  | .csrrw _ _ _ => true
  | .csrrs _ _ _ => true
  | .csrrc _ _ _ => true
  | .csrrwi _ _ _ => true
  | .csrrsi _ _ _ => true
  | .csrrci _ _ _ => true
  | _ => false

/-- The six hardware-loop instructions (46_pulp_hwloop.md R441 to R446). -/
def isLoopSetup : Instr → Bool
  | .lpStarti _ _ => true
  | .lpEndi _ _ => true
  | .lpCount _ _ => true
  | .lpCounti _ _ => true
  | .lpSetup _ _ _ => true
  | .lpSetupi _ _ _ => true
  | _ => false

/-- The instructions that assign pc: jumps, conditional branches, `mret` (46_pulp_hwloop.md R450, second row). -/
def assignsPc : Instr → Bool
  | .jal _ _ => true
  | .jalr _ _ _ => true
  | .beq _ _ _ => true
  | .bne _ _ _ => true
  | .blt _ _ _ => true
  | .bge _ _ _ => true
  | .bltu _ _ _ => true
  | .bgeu _ _ _ => true
  | .pBeqimm _ _ _ => true
  | .pBneimm _ _ _ => true
  | .cJ _ => true
  | .cJal _ => true
  | .cJr _ => true
  | .cJalr _ => true
  | .cBeqz _ _ => true
  | .cBnez _ _ => true
  | .mret => true
  | _ => false

/-- The CSR number that an instruction writes to: csrrw and csrrwi always, the set and clear forms unless rs1 = x0 or
uimm = 0 (41_rv32i_system.md R256). -/
def csrWritten : Instr → Option CsrNum
  | .csrrw _ _ n => some n
  | .csrrwi _ _ n => some n
  | .csrrs _ r n => if r = 0 then none else some n
  | .csrrc _ r n => if r = 0 then none else some n
  | .csrrsi _ u n => if u = 0 then none else some n
  | .csrrci _ u n => if u = 0 then none else some n
  | _ => none

/-- The instruction writes a loop register: lp.*, and a CSR instruction that writes one of lpstart, lpend, lpcount
(46_pulp_hwloop.md R450). -/
def writesLoopRegister (s : State) (i : Instr) : Bool :=
  isLoopSetup i || (((csrWritten i).bind (Csr.ofNumber s.params.fpu)).bind Csr.loop?).isSome

/-- The bytes that an instruction stores to, from the state it starts in: the address is that of its access. -/
def storesTo (s : State) (i : Instr) (a : Word) : Prop :=
  ∃ d, dataAccess s i = some d ∧ d.kind = .store ∧ ∃ k < d.size, a = d.addr + BitVec.ofNat 32 k

/-- `s` after the transactions of the access of an instruction, if it makes one, apart from what it stores: what another
master stores between the two parts of a split access has taken effect (20_memory.md R108). -/
def State.settled (s : State) (i : Instr) : State :=
  if raisesException s i then s
  else
    match dataAccess s i with
    | some d => s.settle d.addr d.size
    | none => s

/-! ## Floating-point numbers -/

/-- The number that a finite binary32 value denotes. -/
def Ieee.Val.toRat : Ieee.Val → Rat
  | .nan _ => 0
  | .inf _ => 0
  | .fin sign m e => (if sign then -1 else 1) * (m : Rat) * (2 : Rat) ^ e

/-- The value is finite. -/
def Ieee.Val.isFin : Ieee.Val → Bool
  | .fin _ _ _ => true
  | _ => false

/-- The extended real number that a value denotes; 0 for a NaN. -/
noncomputable def Ieee.Val.toEReal : Ieee.Val → EReal
  | .nan _ => 0
  | .inf sign => if sign then ⊥ else ⊤
  | .fin sign m e => (((Ieee.Val.fin sign m e).toRat : ℝ) : EReal)

/-- `x`, rounded in a mode to a grid whose step just below `limit` is `gap` and whose last point there is odd, reaches
`limit` in magnitude. -/
def Ieee.Reaches (m : Rounding) (x limit gap : ℝ) : Prop :=
  match m with
  | .rne => limit - gap / 2 ≤ |x|
  | .rmm => limit - gap / 2 ≤ |x|
  | .rtz => limit ≤ |x|
  | .rdn => limit ≤ x ∨ x < -(limit - gap)
  | .rup => limit - gap < x ∨ x ≤ -limit

/-- What an overflow gives, by the mode and the sign of the exact number. -/
noncomputable def Ieee.overflowResult (m : Rounding) (x : ℝ) : Word :=
  match m with
  | .rne => if 0 < x then 0x7F800000 else 0xFF800000
  | .rmm => if 0 < x then 0x7F800000 else 0xFF800000
  | .rtz => if 0 < x then 0x7F7FFFFF else 0xFF7FFFFF
  | .rdn => if 0 < x then 0x7F7FFFFF else 0xFF800000
  | .rup => if 0 < x then 0x7F800000 else 0xFF7FFFFF

/-- `v` is the number `x` rounded in a mode, as far as the finite number `u` can tell; `even` says that `v` has an even
significand. -/
def Ieee.RoundedAgainst (m : Rounding) (x v : ℝ) (even : Prop) (u : ℝ) : Prop :=
  match m with
  | .rne => |v - x| ≤ |u - x| ∧ (|v - x| = |u - x| → u ≠ v → even)
  | .rmm => |v - x| ≤ |u - x| ∧ (|v - x| = |u - x| → |u| ≤ |v|)
  | .rdn => v ≤ x ∧ (u ≤ x → u ≤ v)
  | .rup => x ≤ v ∧ (x ≤ u → v ≤ u)
  | .rtz => 0 ≤ v * x ∧ |v| ≤ |x| ∧ (|u| ≤ |x| → |u| ≤ |v|)

/-- A result and its flags are the number `x` rounded to binary32 in a mode. NV and DZ are clear. OF says that the rounded
number would reach 2^128; then the flags are OF and NX and the result is the one of the mode. Otherwise the result is finite
and is `x` to nearest, a tie to the even or to the larger one, or the neighbour of `x` on the side that the mode says; it
has the sign of `x`; NX says that it is not `x`; and UF that it is inexact and tiny after rounding. -/
def Ieee.RoundsTo (m : Rounding) (x : ℝ) (r : Word × BitVec 5) : Prop :=
  r.2.getLsbD 4 = false ∧ r.2.getLsbD 3 = false ∧
  (r.2.getLsbD 2 = true ↔ Ieee.Reaches m x (2 ^ 128) (2 ^ 104)) ∧
  (r.2.getLsbD 2 = true → r = (Ieee.overflowResult m x, 0x05)) ∧
  (r.2.getLsbD 2 = false →
    let v : ℝ := ((Ieee.unpack r.1).toRat : ℝ)
    (Ieee.unpack r.1).isFin = true ∧ (0 < x → r.1.getLsbD 31 = false) ∧ (x < 0 → r.1.getLsbD 31 = true) ∧
    (r.2.getLsbD 0 = true ↔ v ≠ x) ∧
    (r.2.getLsbD 1 = true ↔ v ≠ x ∧ ¬ Ieee.Reaches m x (1 / 2 ^ 126) (1 / 2 ^ 150)) ∧
    ∀ w : Word, (Ieee.unpack w).isFin = true →
      Ieee.RoundedAgainst m x v (r.1.getLsbD 0 = false) ((Ieee.unpack w).toRat : ℝ))

end Sys2Proof.Machine
end

