-- ==== Sys2Proof/Certificates/Slice0/Obligations.lean ====
section
/-! DEFINITION. The statements about the machine, one definition each. What they rest on of the model's own choice is said
in their docstrings with the log entry. -/

open Sys2Proof Sys2Proof.Machine

/-- 10_state.md R21: x0 reads 0 and discards writes; the other registers hold what was written. -/
def Obligations.RegisterZeroReadsZero : Prop :=
  ∀ (s : State) (v : Word),
    s.readX 0 = 0 ∧ s.writeX 0 v = s ∧
    ∀ r : Reg, r ≠ 0 → (s.writeX r v).readX r = v ∧ ∀ q : Reg, q ≠ r → (s.writeX r v).readX q = s.readX q

/-- 40_rv32i_base.md R201, R202, R219 to R237, in integer arithmetic. -/
def Obligations.IntegerAluResults : Prop :=
  ∀ (s : State) (rd rs1 rs2 : Reg) (imm : BitVec 12) (up : BitVec 20) (sh : BitVec 5), s.hitsShortLoop = false →
    let a := s.readX rs1
    let b := s.readX rs2
    exec (.lui rd up) s = .next (s.afterX 4 rd (BitVec.ofNat 32 (up.toNat * 4096))) ∧
    exec (.auipc rd up) s = .next (s.afterX 4 rd (BitVec.ofNat 32 (s.pc.toNat + up.toNat * 4096))) ∧
    exec (.addi rd rs1 imm) s = .next (s.afterX 4 rd (BitVec.ofInt 32 (a.toInt + imm.toInt))) ∧
    exec (.slti rd rs1 imm) s = .next (s.afterX 4 rd (if a.toInt < imm.toInt then 1 else 0)) ∧
    exec (.sltiu rd rs1 imm) s =
      .next (s.afterX 4 rd (if a.toNat < (BitVec.ofInt 32 imm.toInt).toNat then 1 else 0)) ∧
    exec (.xori rd rs1 imm) s = .next (s.afterX 4 rd (a ^^^ BitVec.ofInt 32 imm.toInt)) ∧
    exec (.ori rd rs1 imm) s = .next (s.afterX 4 rd (a ||| BitVec.ofInt 32 imm.toInt)) ∧
    exec (.andi rd rs1 imm) s = .next (s.afterX 4 rd (a &&& BitVec.ofInt 32 imm.toInt)) ∧
    exec (.slli rd rs1 sh) s = .next (s.afterX 4 rd (BitVec.ofNat 32 (a.toNat * 2 ^ sh.toNat))) ∧
    exec (.srli rd rs1 sh) s = .next (s.afterX 4 rd (BitVec.ofNat 32 (a.toNat / 2 ^ sh.toNat))) ∧
    exec (.srai rd rs1 sh) s = .next (s.afterX 4 rd (BitVec.ofInt 32 (a.toInt / 2 ^ sh.toNat))) ∧
    exec (.add rd rs1 rs2) s = .next (s.afterX 4 rd (BitVec.ofInt 32 (a.toInt + b.toInt))) ∧
    exec (.sub rd rs1 rs2) s = .next (s.afterX 4 rd (BitVec.ofInt 32 (a.toInt - b.toInt))) ∧
    exec (.sll rd rs1 rs2) s = .next (s.afterX 4 rd (BitVec.ofNat 32 (a.toNat * 2 ^ (b.toNat % 32)))) ∧
    exec (.slt rd rs1 rs2) s = .next (s.afterX 4 rd (if a.toInt < b.toInt then 1 else 0)) ∧
    exec (.sltu rd rs1 rs2) s = .next (s.afterX 4 rd (if a.toNat < b.toNat then 1 else 0)) ∧
    exec (.xor rd rs1 rs2) s = .next (s.afterX 4 rd (a ^^^ b)) ∧
    exec (.srl rd rs1 rs2) s = .next (s.afterX 4 rd (BitVec.ofNat 32 (a.toNat / 2 ^ (b.toNat % 32)))) ∧
    exec (.sra rd rs1 rs2) s = .next (s.afterX 4 rd (BitVec.ofInt 32 (a.toInt / 2 ^ (b.toNat % 32)))) ∧
    exec (.or rd rs1 rs2) s = .next (s.afterX 4 rd (a ||| b)) ∧
    exec (.and rd rs1 rs2) s = .next (s.afterX 4 rd (a &&& b))

/-- The jumps of RV32I and RV32C. `off` holds the offset without its bit 0. -/
def Obligations.JumpTargets : Prop :=
  ∀ (s : State) (rd rs1 : Reg) (off : BitVec 20) (imm : BitVec 12) (offc : BitVec 11), s.hitsLoop = false →
    exec (.jal rd off) s = .next { s.writeX rd (s.pc + 4) with pc := s.pc + BitVec.ofInt 32 (2 * off.toInt) } ∧
    exec (.jalr rd rs1 imm) s = .next { s.writeX rd (s.pc + 4) with
      pc := BitVec.ofNat 32 ((BitVec.ofInt 32 ((s.readX rs1).toInt + imm.toInt)).toNat / 2 * 2) } ∧
    exec (.cJ offc) s = .next { s with pc := s.pc + BitVec.ofInt 32 (2 * offc.toInt) } ∧
    exec (.cJal offc) s = .next { s.writeX 1 (s.pc + 2) with pc := s.pc + BitVec.ofInt 32 (2 * offc.toInt) } ∧
    exec (.cJr rs1) s = .next { s with pc := BitVec.ofNat 32 ((s.readX rs1).toNat / 2 * 2) } ∧
    exec (.cJalr rs1) s = .next { s.writeX 1 (s.pc + 2) with
      pc := BitVec.ofNat 32 ((s.readX rs1).toNat / 2 * 2) }

/-- The conditional branches of RV32I, Xpulp and RV32C. The signed B-type offset of p.beqimm and p.bneimm is the spec's decision D33, a choice (notes/assumptions/36.md). -/
def Obligations.BranchOutcomes : Prop :=
  ∀ (s : State) (rs1 rs2 : Reg) (rc : CReg) (imm : BitVec 5) (off : BitVec 12) (offc : BitVec 8), s.hitsLoop = false →
    let a := s.readX rs1
    let b := s.readX rs2
    let c := s.readX (BitVec.ofNat 5 (8 + rc.toNat))
    let t := s.pc + BitVec.ofInt 32 (2 * off.toInt)
    let tc := s.pc + BitVec.ofInt 32 (2 * offc.toInt)
    exec (.beq rs1 rs2 off) s = .next { s with pc := if a = b then t else s.pc + 4 } ∧
    exec (.bne rs1 rs2 off) s = .next { s with pc := if a ≠ b then t else s.pc + 4 } ∧
    exec (.blt rs1 rs2 off) s = .next { s with pc := if a.toInt < b.toInt then t else s.pc + 4 } ∧
    exec (.bge rs1 rs2 off) s = .next { s with pc := if b.toInt ≤ a.toInt then t else s.pc + 4 } ∧
    exec (.bltu rs1 rs2 off) s = .next { s with pc := if a.toNat < b.toNat then t else s.pc + 4 } ∧
    exec (.bgeu rs1 rs2 off) s = .next { s with pc := if b.toNat ≤ a.toNat then t else s.pc + 4 } ∧
    exec (.pBeqimm rs1 imm off) s = .next { s with pc := if a.toInt = imm.toInt then t else s.pc + 4 } ∧
    exec (.pBneimm rs1 imm off) s = .next { s with pc := if a.toInt ≠ imm.toInt then t else s.pc + 4 } ∧
    exec (.cBeqz rc offc) s = .next { s with pc := if c.toNat = 0 then tc else s.pc + 2 } ∧
    exec (.cBnez rc offc) s = .next { s with pc := if c.toNat ≠ 0 then tc else s.pc + 2 }

/-- The plain loads of RV32I and Xpulp. Little-endian order is PRESUMED by the spec itself (D1, notes/assumptions/25.md). -/
def Obligations.LoadResults : Prop :=
  ∀ (s : State) (rd rs1 rs2 : Reg) (imm : BitVec 12), s.hitsShortLoop = false →
    let a := s.readX rs1 + BitVec.ofInt 32 imm.toInt
    let b := s.readX rs1 + s.readX rs2
    (s.stopAccess .load a 1 = none →
      exec (.lb rd rs1 imm) s = .next ((s.settle a 1).afterX 4 rd (BitVec.ofInt 32 (BitVec.ofNat 8 (s.loaded a 1)).toInt)) ∧
      exec (.lbu rd rs1 imm) s = .next ((s.settle a 1).afterX 4 rd (BitVec.ofNat 32 (s.loaded a 1)))) ∧
    (s.stopAccess .load a 2 = none →
      exec (.lh rd rs1 imm) s = .next ((s.settle a 2).afterX 4 rd (BitVec.ofInt 32 (BitVec.ofNat 16 (s.loaded a 2)).toInt)) ∧
      exec (.lhu rd rs1 imm) s = .next ((s.settle a 2).afterX 4 rd (BitVec.ofNat 32 (s.loaded a 2)))) ∧
    (s.stopAccess .load a 4 = none →
      exec (.lw rd rs1 imm) s = .next ((s.settle a 4).afterX 4 rd (BitVec.ofNat 32 (s.loaded a 4)))) ∧
    (s.stopAccess .load b 1 = none →
      exec (.pLbOff rd rs1 rs2) s = .next ((s.settle b 1).afterX 4 rd (BitVec.ofInt 32 (BitVec.ofNat 8 (s.loaded b 1)).toInt)) ∧
      exec (.pLbuOff rd rs1 rs2) s = .next ((s.settle b 1).afterX 4 rd (BitVec.ofNat 32 (s.loaded b 1)))) ∧
    (s.stopAccess .load b 2 = none →
      exec (.pLhOff rd rs1 rs2) s = .next ((s.settle b 2).afterX 4 rd (BitVec.ofInt 32 (BitVec.ofNat 16 (s.loaded b 2)).toInt)) ∧
      exec (.pLhuOff rd rs1 rs2) s = .next ((s.settle b 2).afterX 4 rd (BitVec.ofNat 32 (s.loaded b 2)))) ∧
    (s.stopAccess .load b 4 = none →
      exec (.pLwOff rd rs1 rs2) s = .next ((s.settle b 4).afterX 4 rd (BitVec.ofNat 32 (s.loaded b 4))))

/-- The plain stores of RV32I and Xpulp. -/
def Obligations.StoreEffects : Prop :=
  ∀ (s : State) (rs1 rs2 rs3 : Reg) (imm : BitVec 12), s.hitsShortLoop = false →
    let a := s.readX rs1 + BitVec.ofInt 32 imm.toInt
    let b := s.readX rs1 + s.readX rs3
    let v := s.readX rs2
    (s.stopAccess .store a 1 = none → exec (.sb rs2 rs1 imm) s = .next ((s.storeValue .sb a v).after 4)) ∧
    (s.stopAccess .store a 2 = none → exec (.sh rs2 rs1 imm) s = .next ((s.storeValue .sh a v).after 4)) ∧
    (s.stopAccess .store a 4 = none → exec (.sw rs2 rs1 imm) s = .next ((s.storeValue .sw a v).after 4)) ∧
    (s.stopAccess .store b 1 = none → exec (.pSbOff rs2 rs3 rs1) s = .next ((s.storeValue .sb b v).after 4)) ∧
    (s.stopAccess .store b 2 = none → exec (.pShOff rs2 rs3 rs1) s = .next ((s.storeValue .sh b v).after 4)) ∧
    (s.stopAccess .store b 4 = none → exec (.pSwOff rs2 rs3 rs1) s = .next ((s.storeValue .sw b v).after 4))

/-- Stores are little-endian (20_memory.md R104, the spec's decision D1; notes/assumptions/25.md), wrap at the top of memory (R123) and are split at a word boundary (R107, R108; 39.md); that a store to a device changes no memory is a DESIGN CHOICE (50.md). -/
def Obligations.StoredBytesReadBack : Prop :=
  ∀ (s : State) (k : StoreKind) (a v : Word), Memory.wf s.mem = true →
    let t := s.storeValue k a v
    let u := s.settle a k.size
    let at' (j : Nat) : Word := a + BitVec.ofNat 32 j
    (∀ j < k.size, s.deviceAt .store (at' j) = false →
      (splits a k.size = true → a.toNat % 4 + j < 4 → ∀ c ∈ s.between, c.1 ≠ at' j) →
      t.read8 (at' j) = v.extractLsb' (8 * j) 8) ∧
    (∀ j < k.size, s.deviceAt .store (at' j) = true → t.read8 (at' j) = u.read8 (at' j)) ∧
    (∀ b : Word, (∀ j < k.size, b ≠ at' j) → t.read8 b = u.read8 b) ∧
    Memory.wf t.mem = true

/-- A choice, no rule of the sources: the spec's decision D4 (20_memory.md R116, R117; 40_rv32i_base.md R240, R241) for `fence` and `fence.i`; the set of stale bytes is decision D5 (R118, notes/assumptions/26.md). -/
def Obligations.FenceEffects : Prop :=
  ∀ (s : State) (pred succ : BitVec 4), s.hitsShortLoop = false →
    exec (.fence pred succ) s = .next (s.after 4) ∧ exec .fenceI s = .next ({ s with dirty := [] }.after 4)

/-- The trap entry of 60_exceptions.md R707 for `ecall`; the code, the cleared MIE and the halt after the complete entry (R744, R750) are the spec's decisions (D12, D17, D42; notes/assumptions/35.md). -/
def Obligations.EcallTrapEntry : Prop :=
  ∀ s : State, ∃ m : Word,
    exec .ecall s = .next { s with
      mepc := s.pc, mcause := 11, mstatus := m, pc := BitVec.ofNat 32 (s.bootAddr.toNat / 256 * 256 + 0x88),
      halted := s.halted || s.dbgIe.getLsbD 11,
      dbgCause := if s.dbgIe.getLsbD 11 then 11 else s.dbgCause } ∧
    m.getLsbD 3 = false ∧ m.getLsbD 7 = s.mstatus.getLsbD 3 ∧
    ∀ k, k ≠ 3 → k ≠ 7 → m.getLsbD k = s.mstatus.getLsbD k

/-- 41_rv32i_system.md R251, 60_exceptions.md R750, R751; the refusal with DBG_IE.BP = 0 is the spec's decision D14 (notes/assumptions/32.md, DEDUCED). -/
def Obligations.BreakpointHaltsOrStops : Prop :=
  ∀ s : State,
    (s.dbgIe.getLsbD 3 = true →
      exec .ebreak s = .next { s with pc := s.pc + 4, halted := true, dbgCause := 3 } ∧
      exec .cEbreak s = .next { s with pc := s.pc + 2, halted := true, dbgCause := 3 }) ∧
    (s.dbgIe.getLsbD 3 = false →
      exec .ebreak s = .refused .breakpointUnhandled ∧ exec .cEbreak s = .refused .breakpointUnhandled)

/-- 60_exceptions.md R708; MPIE <- 1 is the spec's decision D16 (notes/assumptions/35.md). -/
def Obligations.TrapReturn : Prop :=
  ∀ s : State, s.hitsLoop = false → ∃ m : Word,
    exec .mret s = .next { s with pc := BitVec.ofNat 32 (s.mepc.toNat / 2 * 2), mstatus := m } ∧
    m.getLsbD 3 = s.mstatus.getLsbD 7 ∧ m.getLsbD 7 = true ∧
    ∀ k, k ≠ 3 → k ≠ 7 → m.getLsbD k = s.mstatus.getLsbD k

/-- 41_rv32i_system.md R253, 60_exceptions.md R755, R756 under the spec's decision D15 (notes/assumptions/11.md). -/
def Obligations.WaitForInterruptSleepsAndWakes : Prop :=
  ∀ s : State,
    (s.hitsShortLoop = false → exec .wfi s = .next ({ s with sleeping := s.irq.isNone }.after 4)) ∧
    (s.inputs = [] → s.sleeping = true → s.irq = none → step s = .next s) ∧
    (∀ i, s.inputs = [] → s.sleeping = true → s.irq = some i → step s = step { s with sleeping := false }) ∧
    (∀ i rest, s.inputs = .irq (some i) :: rest →
      step s = .next { s with irq := some i, sleeping := false, inputs := rest, draws := s.draws + 1 }) ∧
    (∀ rest, s.inputs = .irq none :: rest →
      step s = .next { s with
        irq := none, sleeping := s.sleeping && s.irq.isNone, heldIrq := false, inputs := rest, draws := s.draws + 1 })

/-- 41_rv32i_system.md R254 to R262. That the loop step of afterX reads loop registers just written is DEDUCED (notes/assumptions/27.md). -/
def Obligations.CsrInstructionsReadThenWrite : Prop :=
  ∀ (s : State) (rd rs1 : Reg) (u : BitVec 5) (n : CsrNum) (c : Csr), Csr.ofNumber s.params.fpu n = some c →
    let old := s.readCsr c
    let x := s.readX rs1
    let i := BitVec.ofNat 32 u.toNat
    (s.hitsShortLoop = false →
      exec (.csrrs rd 0 n) s = .next (s.afterX 4 rd old) ∧ exec (.csrrc rd 0 n) s = .next (s.afterX 4 rd old) ∧
      exec (.csrrsi rd 0 n) s = .next (s.afterX 4 rd old) ∧ exec (.csrrci rd 0 n) s = .next (s.afterX 4 rd old)) ∧
    (c.readOnly = false → s.csrInBody c = false →
      ((s.writeCsr c x).hitsShortLoop = false →
        exec (.csrrw rd rs1 n) s = .next ((s.writeCsr c x).afterX 4 rd old)) ∧
      ((s.writeCsr c i).hitsShortLoop = false →
        exec (.csrrwi rd u n) s = .next ((s.writeCsr c i).afterX 4 rd old)) ∧
      (rs1 ≠ 0 → (s.writeCsr c (old ||| x)).hitsShortLoop = false →
        exec (.csrrs rd rs1 n) s = .next ((s.writeCsr c (old ||| x)).afterX 4 rd old)) ∧
      (rs1 ≠ 0 → (s.writeCsr c (old &&& ~~~x)).hitsShortLoop = false →
        exec (.csrrc rd rs1 n) s = .next ((s.writeCsr c (old &&& ~~~x)).afterX 4 rd old)) ∧
      (u ≠ 0 → (s.writeCsr c (old ||| i)).hitsShortLoop = false →
        exec (.csrrsi rd u n) s = .next ((s.writeCsr c (old ||| i)).afterX 4 rd old)) ∧
      (u ≠ 0 → (s.writeCsr c (old &&& ~~~i)).hitsShortLoop = false →
        exec (.csrrci rd u n) s = .next ((s.writeCsr c (old &&& ~~~i)).afterX 4 rd old)))

/-- 10_state.md R27 to R41; unnamed bits by the spec's decision D10 (notes/assumptions/40.md); the width of fprec and the undescribed values it keeps are a DESIGN CHOICE (53.md). -/
def Obligations.CsrWritesReadBackThroughTheirMasks : Prop :=
  ∀ (s : State) (v : Word),
    (∀ k, ((s.writeCsr .mstatus v).readCsr .mstatus).getLsbD k =
      if k = 3 ∨ k = 7 then v.getLsbD k else (s.readCsr .mstatus).getLsbD k) ∧
    (s.writeCsr .mepc v).readCsr .mepc = v ∧
    (∀ k, ((s.writeCsr .mcause v).readCsr .mcause).getLsbD k = (decide (k = 31 ∨ k < 5) && v.getLsbD k)) ∧
    ((s.writeCsr .pcmr v).readCsr .pcmr).toNat = v.toNat % 4 ∧
    ((s.writeCsr .pcer v).readCsr .pcer).toNat = v.toNat % 2 ^ 21 ∧
    ((s.writeCsr .fflags v).readCsr .fflags).toNat = v.toNat % 32 ∧
    ((s.writeCsr .fprec v).readCsr .fprec).toNat = v.toNat % 32 ∧
    ((s.writeCsr .frm v).readCsr .frm).toNat = v.toNat % 8 ∧
    ((s.writeCsr .fcsr v).readCsr .fcsr).toNat = v.toNat % 256 ∧
    ((s.writeCsr .fcsr v).readCsr .fflags).toNat = v.toNat % 32 ∧
    ((s.writeCsr .fcsr v).readCsr .frm).toNat = v.toNat / 32 % 8 ∧
    (∀ l, (s.writeCsr (.lpstart l) v).readCsr (.lpstart l) = v ∧ (s.writeCsr (.lpend l) v).readCsr (.lpend l) = v ∧
      (s.writeCsr (.lpcount l) v).readCsr (.lpcount l) = v) ∧
    (s.readCsr .mhartid).toNat = s.params.clusterId.toNat * 32 + s.params.coreId.toNat ∧
    s.readCsr .uhartid = s.readCsr .mhartid ∧
    (s.readCsr .mtvec).toNat = s.bootAddr.toNat / 256 * 256 ∧ s.readCsr .privlv = 3 ∧
    (∀ c, c.readOnly = true → s.writeCsr c v = s)

/-- 10_state.md R42, decision D13 (notes/assumptions/31.md); 46_pulp_hwloop.md R450 fourth row, decision D27 (notes/assumptions/27.md). -/
def Obligations.CsrStops : Prop :=
  ∀ (s : State) (rd rs1 : Reg) (u : BitVec 5) (n : CsrNum),
    (Csr.ofNumber s.params.fpu n = none →
      exec (.csrrw rd rs1 n) s = .refused (.csrUnimplemented n) ∧
      exec (.csrrs rd rs1 n) s = .refused (.csrUnimplemented n) ∧
      exec (.csrrc rd rs1 n) s = .refused (.csrUnimplemented n) ∧
      exec (.csrrwi rd u n) s = .refused (.csrUnimplemented n) ∧
      exec (.csrrsi rd u n) s = .refused (.csrUnimplemented n) ∧
      exec (.csrrci rd u n) s = .refused (.csrUnimplemented n)) ∧
    (∀ c, Csr.ofNumber s.params.fpu n = some c → c.readOnly = true →
      exec (.csrrw rd rs1 n) s = .refused (.csrReadOnly n) ∧
      exec (.csrrwi rd u n) s = .refused (.csrReadOnly n) ∧
      (rs1 ≠ 0 → exec (.csrrs rd rs1 n) s = .refused (.csrReadOnly n) ∧
        exec (.csrrc rd rs1 n) s = .refused (.csrReadOnly n)) ∧
      (u ≠ 0 → exec (.csrrsi rd u n) s = .refused (.csrReadOnly n) ∧
        exec (.csrrci rd u n) s = .refused (.csrReadOnly n))) ∧
    (∀ l c, Csr.ofNumber s.params.fpu n = some c → c ∈ [Csr.lpstart l, .lpend l, .lpcount l] →
      let loop := s.loopRegs l
      loop.count.toNat ≠ 0 → loop.start.toNat ≤ s.pc.toNat → s.pc.toNat ≤ loop.stop.toNat →
      exec (.csrrw rd rs1 n) s = .refused .loopWriteInBody ∧
      exec (.csrrwi rd u n) s = .refused .loopWriteInBody ∧
      (rs1 ≠ 0 → exec (.csrrs rd rs1 n) s = .refused .loopWriteInBody ∧
        exec (.csrrc rd rs1 n) s = .refused .loopWriteInBody) ∧
      (u ≠ 0 → exec (.csrrsi rd u n) s = .refused .loopWriteInBody ∧
        exec (.csrrci rd u n) s = .refused .loopWriteInBody))

/-- 43_rv32m.md R331 to R334. -/
def Obligations.MultiplyHalvesOfTheProduct : Prop :=
  ∀ (s : State) (rd rs1 rs2 : Reg), s.hitsShortLoop = false →
    let a := s.readX rs1
    let b := s.readX rs2
    ∃ lo hs hsu hu : Word,
      exec (.mul rd rs1 rs2) s = .next (s.afterX 4 rd lo) ∧
      exec (.mulh rd rs1 rs2) s = .next (s.afterX 4 rd hs) ∧
      exec (.mulhsu rd rs1 rs2) s = .next (s.afterX 4 rd hsu) ∧
      exec (.mulhu rd rs1 rs2) s = .next (s.afterX 4 rd hu) ∧
      hs.toInt * 2 ^ 32 + lo.toNat = a.toInt * b.toInt ∧
      hsu.toInt * 2 ^ 32 + lo.toNat = a.toInt * b.toNat ∧
      hu.toNat * 2 ^ 32 + lo.toNat = a.toNat * b.toNat

/-- 43_rv32m.md R335 to R338. -/
def Obligations.DivideQuotientAndRemainder : Prop :=
  ∀ (s : State) (rd rs1 rs2 : Reg), s.hitsShortLoop = false →
    let a := s.readX rs1
    let b := s.readX rs2
    ∃ q r qu ru : Word,
      exec (.div rd rs1 rs2) s = .next (s.afterX 4 rd q) ∧
      exec (.rem rd rs1 rs2) s = .next (s.afterX 4 rd r) ∧
      exec (.divu rd rs1 rs2) s = .next (s.afterX 4 rd qu) ∧
      exec (.remu rd rs1 rs2) s = .next (s.afterX 4 rd ru) ∧
      (b.toNat = 0 → q.toInt = -1 ∧ r = a ∧ qu.toNat = 2 ^ 32 - 1 ∧ ru = a) ∧
      (a.toInt = -2 ^ 31 → b.toInt = -1 → q = a ∧ r.toNat = 0) ∧
      (b.toNat ≠ 0 → (a.toInt ≠ -2 ^ 31 ∨ b.toInt ≠ -1) →
        a.toInt = b.toInt * q.toInt + r.toInt ∧ |r.toInt| < |b.toInt| ∧
        (r.toInt = 0 ∨ (0 < r.toInt ↔ 0 < a.toInt))) ∧
      (b.toNat ≠ 0 → a.toNat = b.toNat * qu.toNat + ru.toNat ∧ ru.toNat < b.toNat)

/-- 44_rv32f.md R354, R355; 42_rv32c.md R284, R285, R304, R311; byte order notes/assumptions/25.md. -/
def Obligations.FloatLoadsAndStores : Prop :=
  ∀ (s : State) (rd rs1 rs2 : Reg) (rdc rsc : CReg) (imm : BitVec 12) (uc : BitVec 5) (us : BitVec 6),
    s.params.fpu = true → s.hitsShortLoop = false →
    let a := s.readX rs1 + BitVec.ofInt 32 imm.toInt
    let ac := s.readX (BitVec.ofNat 5 (8 + rsc.toNat)) + BitVec.ofNat 32 (4 * uc.toNat)
    let asp := s.readX 2 + BitVec.ofNat 32 (4 * us.toNat)
    let fc : Reg := BitVec.ofNat 5 (8 + rdc.toNat)
    (s.stopAccess .load a 4 = none →
      exec (.flw rd rs1 imm) s = .next ((s.settle a 4).afterF 4 rd (BitVec.ofNat 32 (s.loaded a 4)))) ∧
    (s.stopAccess .load ac 4 = none →
      exec (.cFlw rdc rsc uc) s = .next ((s.settle ac 4).afterF 2 fc (BitVec.ofNat 32 (s.loaded ac 4)))) ∧
    (s.stopAccess .load asp 4 = none →
      exec (.cFlwsp rd us) s = .next ((s.settle asp 4).afterF 2 rd (BitVec.ofNat 32 (s.loaded asp 4)))) ∧
    (s.stopAccess .store a 4 = none →
      exec (.fsw rs2 rs1 imm) s = .next ((s.storeValue .sw a (s.readF rs2)).after 4)) ∧
    (s.stopAccess .store ac 4 = none →
      exec (.cFsw rdc rsc uc) s = .next ((s.storeValue .sw ac (s.readF fc)).after 2)) ∧
    (s.stopAccess .store asp 4 = none →
      exec (.cFswsp rs2 us) s = .next ((s.storeValue .sw asp (s.readF rs2)).after 2))

/-- 44_rv32f.md R365 to R367, R372, R376, R379. -/
def Obligations.FloatMovesAndSigns : Prop :=
  ∀ (s : State) (rd rs1 rs2 : Reg), s.params.fpu = true → s.hitsShortLoop = false →
    let a := s.readF rs1
    let b := s.readF rs2
    let e := a.toNat / 2 ^ 23 % 256
    let f := a.toNat % 2 ^ 23
    let neg := a.getLsbD 31
    exec (.fmvXW rd rs1) s = .next (s.afterX 4 rd a) ∧
    exec (.fmvWX rd rs1) s = .next (s.afterF 4 rd (s.readX rs1)) ∧
    (∃ v : Word, exec (.fsgnjS rd rs1 rs2) s = .next (s.afterF 4 rd v) ∧
      v.getLsbD 31 = b.getLsbD 31 ∧ ∀ k < 31, v.getLsbD k = a.getLsbD k) ∧
    (∃ v : Word, exec (.fsgnjnS rd rs1 rs2) s = .next (s.afterF 4 rd v) ∧
      v.getLsbD 31 = !b.getLsbD 31 ∧ ∀ k < 31, v.getLsbD k = a.getLsbD k) ∧
    (∃ v : Word, exec (.fsgnjxS rd rs1 rs2) s = .next (s.afterF 4 rd v) ∧
      v.getLsbD 31 = (a.getLsbD 31 ^^ b.getLsbD 31) ∧ ∀ k < 31, v.getLsbD k = a.getLsbD k) ∧
    exec (.fclassS rd rs1) s = .next (s.afterX 4 rd (BitVec.twoPow 32 (
      if e = 255 then (if f = 0 then (if neg then 0 else 7) else if f < 2 ^ 22 then 8 else 9)
      else if e = 0 then (if f = 0 then (if neg then 3 else 4) else if neg then 2 else 5)
      else if neg then 1 else 6)))

/-- 44_rv32f.md R356 to R364, R377, R378, R380; with fprec not 0 R383 says refuse, and that fdiv.s and fsqrt.s complete with a free value is the model's choice (notes/assumptions/16.md). -/
def Obligations.FloatArithmeticCompletes : Prop :=
  ∀ (s : State) (rd rs1 rs2 rs3 : Reg) (rm : BitVec 3) (m : Rounding),
    s.params.fpu = true → s.hitsShortLoop = false → s.rounding rm = some m →
    let a := s.readF rs1
    let b := s.readF rs2
    let ends (r : Word × BitVec 5) : Result := .next (((s.writeF rd r.1).raise r.2).after 4)
    let pa := Ieee.unpack a
    let pb := Ieee.unpack b
    let pc := Ieee.unpack (s.readF rs3)
    exec (.faddS rd rs1 rs2 rm) s = ends (Ieee.add m a b) ∧
    exec (.fsubS rd rs1 rs2 rm) s = ends (Ieee.sub m a b) ∧
    exec (.fmulS rd rs1 rs2 rm) s = ends (Ieee.mul m a b) ∧
    exec (.fmaddS rd rs1 rs2 rs3 rm) s = ends (Ieee.fmaVal m pa pb pc) ∧
    exec (.fmsubS rd rs1 rs2 rs3 rm) s = ends (Ieee.fmaVal m pa pb (Ieee.negVal pc)) ∧
    exec (.fnmsubS rd rs1 rs2 rs3 rm) s = ends (Ieee.fmaVal m (Ieee.negVal pa) pb pc) ∧
    exec (.fnmaddS rd rs1 rs2 rs3 rm) s = ends (Ieee.fmaVal m (Ieee.negVal pa) pb (Ieee.negVal pc)) ∧
    exec (.fcvtSW rd rs1 rm) s = ends (Ieee.ofSigned m (s.readX rs1)) ∧
    exec (.fcvtSWu rd rs1 rm) s = ends (Ieee.ofUnsigned m (s.readX rs1)) ∧
    exec (.fdivS rd rs1 rs2 rm) s =
      ends (if s.fprec = 0 then Ieee.div m a b else (Config.freeFpResult s.draws, Config.freeFpFlags s.draws)) ∧
    exec (.fsqrtS rd rs1 rm) s =
      ends (if s.fprec = 0 then Ieee.sqrt m a else (Config.freeFpResult s.draws, Config.freeFpFlags s.draws))

/-- IEEE 754-2008 rounding as 44_rv32f.md R351 and R353 name it (PRESUMED, notes/assumptions/33.md); fcvt.s.w and fcvt.s.wu by R377 and R378. -/
def Obligations.RoundingIsCorrect : Prop :=
  (∀ (m : Rounding) (sign : Bool) (n : Nat) (e : Int),
    Ieee.RoundsTo m ((((Ieee.Val.fin sign n e).toRat : Rat)) : ℝ) (Ieee.roundPack m sign n e) ∧
    Ieee.roundPack m sign 0 e = (if sign then 0x80000000 else 0, 0)) ∧
  (∀ (m : Rounding) (v : Word),
    Ieee.RoundsTo m (v.toInt : ℝ) (Ieee.ofSigned m v) ∧ Ieee.RoundsTo m (v.toNat : ℝ) (Ieee.ofUnsigned m v) ∧
    Ieee.ofSigned m 0 = (0, 0) ∧ Ieee.ofUnsigned m 0 = (0, 0))

/-- 44_rv32f.md R352, R353, R356 to R362; IEEE 754-2008 (PRESUMED, notes/assumptions/33.md). -/
def Obligations.FloatSumsAndProductsAreRoundedOnce : Prop :=
  (∀ (m : Rounding) (a b : Word),
    let va := Ieee.unpack a
    let vb := Ieee.unpack b
    let zero (s1 s2 : Bool) : Word × BitVec 5 :=
      (if s1 = s2 then (if s1 then 0x80000000 else 0) else if m = .rdn then 0x80000000 else 0, 0)
    let nan : Word × BitVec 5 := (0x7FC00000, if Ieee.isSignalling a || Ieee.isSignalling b then 0x10 else 0)
    let invalid : Word × BitVec 5 := (0x7FC00000, 0x10)
    let inf (sign : Bool) : Word × BitVec 5 := (if sign then 0xFF800000 else 0x7F800000, 0)
    let isInf (w : Word) : Prop := w.toNat % 2 ^ 31 = 0x7F800000
    let sa := a.getLsbD 31
    let sb := b.getLsbD 31
    (Ieee.isNaN a = true ↔ 0x7F800000 < a.toNat % 2 ^ 31) ∧
    (Ieee.isSignalling a = true ↔ 0x7F800000 < a.toNat % 2 ^ 31 ∧ a.getLsbD 22 = false) ∧
    (isInf a → va = .inf sa) ∧ (Ieee.isNaN a = true → va = .nan (Ieee.isSignalling a)) ∧
    (a.toNat % 2 ^ 31 < 0x7F800000 → va.isFin = true) ∧
    (va.isFin = true → vb.isFin = true →
      (va.toRat + vb.toRat ≠ 0 → ∃ sg n e, Ieee.add m a b = Ieee.roundPack m sg n e ∧
        (Ieee.Val.fin sg n e).toRat = va.toRat + vb.toRat) ∧
      (va.toRat + vb.toRat = 0 → Ieee.add m a b = zero sa sb) ∧
      (va.toRat - vb.toRat ≠ 0 → ∃ sg n e, Ieee.sub m a b = Ieee.roundPack m sg n e ∧
        (Ieee.Val.fin sg n e).toRat = va.toRat - vb.toRat) ∧
      (va.toRat - vb.toRat = 0 → Ieee.sub m a b = zero sa (!sb)) ∧
      (∃ n e, Ieee.mul m a b = Ieee.roundPack m (sa ^^ sb) n e ∧
        (Ieee.Val.fin (sa ^^ sb) n e).toRat = va.toRat * vb.toRat)) ∧
    (Ieee.isNaN a = true ∨ Ieee.isNaN b = true →
      Ieee.add m a b = nan ∧ Ieee.sub m a b = nan ∧ Ieee.mul m a b = nan) ∧
    (isInf a → isInf b →
      Ieee.add m a b = (if sa = sb then inf sa else invalid) ∧
      Ieee.sub m a b = (if sa = sb then invalid else inf sa) ∧ Ieee.mul m a b = inf (sa ^^ sb)) ∧
    (isInf a → vb.isFin = true →
      Ieee.add m a b = inf sa ∧ Ieee.sub m a b = inf sa ∧
      Ieee.mul m a b = (if vb.toRat = 0 then invalid else inf (sa ^^ sb))) ∧
    (va.isFin = true → isInf b →
      Ieee.add m a b = inf sb ∧ Ieee.sub m a b = inf (!sb) ∧
      Ieee.mul m a b = (if va.toRat = 0 then invalid else inf (sa ^^ sb)))) ∧
  (∀ (m : Rounding) (sa sb sc : Bool) (ma mb mc : Nat) (ea eb ec : Int),
    let va := Ieee.Val.fin sa ma ea
    let vb := Ieee.Val.fin sb mb eb
    let vc := Ieee.Val.fin sc mc ec
    (va.toRat * vb.toRat + vc.toRat ≠ 0 → ∃ sg n e, Ieee.fmaVal m va vb vc = Ieee.roundPack m sg n e ∧
      (Ieee.Val.fin sg n e).toRat = va.toRat * vb.toRat + vc.toRat) ∧
    (va.toRat * vb.toRat + vc.toRat = 0 → Ieee.fmaVal m va vb vc =
      (if (sa ^^ sb) = sc then (if sc then 0x80000000 else 0) else if m = .rdn then 0x80000000 else 0, 0)) ∧
    Ieee.negVal vc = .fin (!sc) mc ec) ∧
  (∀ (m : Rounding) (p q r : Ieee.Val),
    let nan : Word × BitVec 5 :=
      (0x7FC00000, if p = .nan true ∨ q = .nan true ∨ r = .nan true then 0x10 else 0)
    let invalid : Word × BitVec 5 := (0x7FC00000, 0x10)
    let inf (sign : Bool) : Word × BitVec 5 := (if sign then 0xFF800000 else 0x7F800000, 0)
    let isNan (v : Ieee.Val) : Prop := ∃ x, v = .nan x
    let invalidProduct : Prop := ∃ s1 s2 e, (p = .inf s1 ∧ q = .fin s2 0 e) ∨ (p = .fin s2 0 e ∧ q = .inf s1)
    let infiniteProduct (sign : Bool) : Prop := ∃ s1 s2, sign = (s1 ^^ s2) ∧
      ((p = .inf s1 ∧ q = .inf s2) ∨
        ∃ n e, n ≠ 0 ∧ ((p = .inf s1 ∧ q = .fin s2 n e) ∨ (p = .fin s2 n e ∧ q = .inf s1)))
    (isNan p ∨ isNan q → Ieee.fmaVal m p q r = nan) ∧
    (invalidProduct → Ieee.fmaVal m p q r = invalid) ∧
    (¬ invalidProduct → isNan r → Ieee.fmaVal m p q r = nan) ∧
    (∀ sp, infiniteProduct sp →
      (r.isFin = true → Ieee.fmaVal m p q r = inf sp) ∧
      (∀ s3, r = .inf s3 → Ieee.fmaVal m p q r = if sp = s3 then inf sp else invalid)) ∧
    (p.isFin = true → q.isFin = true → ∀ s3, r = .inf s3 → Ieee.fmaVal m p q r = inf s3) ∧
    (∀ x, Ieee.negVal (.nan x) = .nan x ∧ Ieee.negVal (.inf x) = .inf (!x)))

/-- 44_rv32f.md R352, R353, R363, R364; IEEE 754-2008 (PRESUMED, notes/assumptions/33.md). -/
def Obligations.QuotientAndRootAreCorrectlyRounded : Prop :=
  ∀ (m : Rounding) (a b : Word),
    let va := Ieee.unpack a
    let vb := Ieee.unpack b
    let invalid : Word × BitVec 5 := (0x7FC00000, 0x10)
    let isInf (w : Word) : Prop := w.toNat % 2 ^ 31 = 0x7F800000
    let same : Prop := a.getLsbD 31 = b.getLsbD 31
    (va.isFin = true →
      (0 ≤ va.toRat → Ieee.RoundsTo m (Real.sqrt (va.toRat : ℝ)) (Ieee.sqrt m a)) ∧
      (va.toRat = 0 → Ieee.sqrt m a = (a, 0)) ∧
      (va.toRat < 0 → Ieee.sqrt m a = invalid) ∧
      (vb.isFin = true →
        (vb.toRat ≠ 0 → Ieee.RoundsTo m ((va.toRat : ℝ) / (vb.toRat : ℝ)) (Ieee.div m a b)) ∧
        (va.toRat = 0 → vb.toRat ≠ 0 → Ieee.div m a b =
          (if a.getLsbD 31 = b.getLsbD 31 then 0 else 0x80000000, 0)) ∧
        (va.toRat ≠ 0 → vb.toRat = 0 → Ieee.div m a b =
          (if a.getLsbD 31 = b.getLsbD 31 then 0x7F800000 else 0xFF800000, 0x08)) ∧
        (va.toRat = 0 → vb.toRat = 0 → Ieee.div m a b = invalid))) ∧
    (Ieee.isNaN a = true ∨ Ieee.isNaN b = true →
      Ieee.div m a b = (0x7FC00000, if Ieee.isSignalling a || Ieee.isSignalling b then 0x10 else 0)) ∧
    (Ieee.isNaN a = true → Ieee.sqrt m a = (0x7FC00000, if Ieee.isSignalling a then 0x10 else 0)) ∧
    (isInf a → isInf b → Ieee.div m a b = invalid) ∧
    (isInf a → vb.isFin = true →
      (same → Ieee.div m a b = (0x7F800000, 0)) ∧ (¬ same → Ieee.div m a b = (0xFF800000, 0))) ∧
    (va.isFin = true → isInf b →
      (same → Ieee.div m a b = (0, 0)) ∧ (¬ same → Ieee.div m a b = (0x80000000, 0))) ∧
    (a = 0x7F800000 → Ieee.sqrt m a = (a, 0)) ∧ (a = 0xFF800000 → Ieee.sqrt m a = invalid)

/-- 44_rv32f.md R352, R353, R368, R369, R373 to R375; the order, NaN results and flags are IEEE 754-2008 by the spec's decision D29 (R351; PRESUMED, notes/assumptions/33.md). -/
def Obligations.FloatComparisonsAndExtrema : Prop :=
  ∀ (s : State) (rd rs1 rs2 : Reg), s.params.fpu = true → s.hitsShortLoop = false →
    let a := s.readF rs1
    let b := s.readF rs2
    let ra := (Ieee.unpack a).toEReal
    let rb := (Ieee.unpack b).toEReal
    (Ieee.isNaN a = false → Ieee.isNaN b = false →
      ∃ eq lt le : Word, exec (.feqS rd rs1 rs2) s = .next (s.afterX 4 rd eq) ∧
        exec (.fltS rd rs1 rs2) s = .next (s.afterX 4 rd lt) ∧
        exec (.fleS rd rs1 rs2) s = .next (s.afterX 4 rd le) ∧
        (eq = 1 ∨ eq = 0) ∧ (lt = 1 ∨ lt = 0) ∧ (le = 1 ∨ le = 0) ∧
        (eq = 1 ↔ ra = rb) ∧ (lt = 1 ↔ ra < rb) ∧ (le = 1 ↔ ra ≤ rb)) ∧
    (Ieee.isNaN a = true ∨ Ieee.isNaN b = true →
      exec (.fltS rd rs1 rs2) s = .next (((s.writeX rd 0).raise 0x10).after 4) ∧
      exec (.fleS rd rs1 rs2) s = .next (((s.writeX rd 0).raise 0x10).after 4) ∧
      exec (.feqS rd rs1 rs2) s = .next (((s.writeX rd 0).raise
        (if Ieee.isSignalling a || Ieee.isSignalling b then 0x10 else 0)).after 4)) ∧
    (let nv : BitVec 5 := if Ieee.isSignalling a || Ieee.isSignalling b then 0x10 else 0
    ∃ lo hi : Word,
      exec (.fminS rd rs1 rs2) s = .next (((s.writeF rd lo).raise nv).after 4) ∧
      exec (.fmaxS rd rs1 rs2) s = .next (((s.writeF rd hi).raise nv).after 4) ∧
      (Ieee.isNaN a = false → Ieee.isNaN b = false →
        (lo = a ∨ lo = b) ∧ (hi = a ∨ hi = b) ∧
        (Ieee.unpack lo).toEReal ≤ (Ieee.unpack a).toEReal ∧ (Ieee.unpack lo).toEReal ≤ (Ieee.unpack b).toEReal ∧
        (Ieee.unpack a).toEReal ≤ (Ieee.unpack hi).toEReal ∧ (Ieee.unpack b).toEReal ≤ (Ieee.unpack hi).toEReal) ∧
      ((a = 0 ∧ b = 0x80000000) ∨ (a = 0x80000000 ∧ b = 0) → lo = 0x80000000 ∧ hi = 0) ∧
      (Ieee.isNaN a = true → Ieee.isNaN b = false → lo = b ∧ hi = b) ∧
      (Ieee.isNaN a = false → Ieee.isNaN b = true → lo = a ∧ hi = a) ∧
      (Ieee.isNaN a = true → Ieee.isNaN b = true → lo = 0x7FC00000 ∧ hi = 0x7FC00000))

/-- 44_rv32f.md R353, R370, R371; the rounding, the NaN and out-of-range results and the flags are the spec's decision D29 (R351; PRESUMED, notes/assumptions/33.md). -/
def Obligations.FloatToIntegerConversions : Prop :=
  ∀ (s : State) (rd rs1 : Reg) (rm : BitVec 3) (m : Rounding),
    s.params.fpu = true → s.hitsShortLoop = false → s.rounding rm = some m →
    let a := s.readF rs1
    let X := (Ieee.unpack a).toRat
    ∃ w wu : Word × BitVec 5,
      exec (.fcvtWS rd rs1 rm) s = .next (((s.writeX rd w.1).raise w.2).after 4) ∧
      exec (.fcvtWuS rd rs1 rm) s = .next (((s.writeX rd wu.1).raise wu.2).after 4) ∧
      (Ieee.isNaN a = true ∨ a = 0x7F800000 → w = (0x7FFFFFFF, 0x10) ∧ wu = (0xFFFFFFFF, 0x10)) ∧
      (a = 0xFF800000 → w = (0x80000000, 0x10) ∧ wu = (0, 0x10)) ∧
      ((Ieee.unpack a).isFin = true → ∃ r : Int,
        (m = .rtz → r = if 0 ≤ X then ⌊X⌋ else ⌈X⌉) ∧ (m = .rdn → r = ⌊X⌋) ∧ (m = .rup → r = ⌈X⌉) ∧
        (m = .rne ∨ m = .rmm → |(r : Rat) - X| ≤ 1 / 2) ∧
        (m = .rne → |(r : Rat) - X| = 1 / 2 → r % 2 = 0) ∧ (m = .rmm → |(r : Rat) - X| = 1 / 2 → |X| ≤ |(r : Rat)|) ∧
        (w.1.toInt = if r < -2 ^ 31 then -2 ^ 31 else if 2 ^ 31 - 1 < r then 2 ^ 31 - 1 else r) ∧
        (w.2 = if r < -2 ^ 31 ∨ 2 ^ 31 - 1 < r then 0x10 else if X = r then 0 else 1) ∧
        ((wu.1.toNat : Int) = if r < 0 then 0 else if 2 ^ 32 - 1 < r then 2 ^ 32 - 1 else r) ∧
        (wu.2 = if r < 0 ∨ 2 ^ 32 - 1 < r then 0x10 else if X = r then 0 else 1))

/-- 44_rv32f.md R381 (verdict `refuse`; notes/assumptions/30.md). -/
def Obligations.ReservedRoundingIsRefused : Prop :=
  ∀ (s : State) (rd rs1 rs2 rs3 : Reg) (rm : BitVec 3), s.params.fpu = true →
    (rm = 5 ∨ rm = 6 ∨ (rm = 7 ∧ 5 ≤ s.frm.toNat)) →
    ∀ i ∈ [Instr.faddS rd rs1 rs2 rm, .fsubS rd rs1 rs2 rm, .fmulS rd rs1 rs2 rm, .fdivS rd rs1 rs2 rm,
        .fsqrtS rd rs1 rm, .fmaddS rd rs1 rs2 rs3 rm, .fmsubS rd rs1 rs2 rs3 rm, .fnmsubS rd rs1 rs2 rs3 rm,
        .fnmaddS rd rs1 rs2 rs3 rm, .fcvtWS rd rs1 rm, .fcvtWuS rd rs1 rm, .fcvtSW rd rs1 rm, .fcvtSWu rd rs1 rm],
      exec i s = .refused .reservedRounding

/-- 44_rv32f.md R350, 60_exceptions.md R701, R707, R744, R750; code 2, the cleared MIE and the halt after the complete trap entry are the spec's decisions (D12, D17, D42; notes/assumptions/35.md). -/
def Obligations.FloatWithoutFpuTraps : Prop :=
  ∀ (s : State) (i : Instr), s.params.fpu = false → isFloat i = true → ∃ m : Word,
    exec i s = .next { s with
      mepc := s.pc, mcause := 2, mstatus := m, pc := BitVec.ofNat 32 (s.bootAddr.toNat / 256 * 256 + 0x84),
      halted := s.halted || s.dbgIe.getLsbD 2,
      dbgCause := if s.dbgIe.getLsbD 2 then 2 else s.dbgCause } ∧
    m.getLsbD 3 = false ∧ m.getLsbD 7 = s.mstatus.getLsbD 3 ∧
    ∀ k, k ≠ 3 → k ≠ 7 → m.getLsbD k = s.mstatus.getLsbD k

/-- 42_rv32c.md R281 to R283, R286, R287, R289 to R298, R302, R303, R306, R309, R310; byte order notes/assumptions/25.md. -/
def Obligations.CompressedInstructionResults : Prop :=
  ∀ (s : State) (rd rs2 : Reg) (rdc rsc : CReg) (imm : BitVec 6) (u8 : BitVec 8) (sh : BitVec 5) (uc : BitVec 5)
      (us : BitVec 6), s.hitsShortLoop = false →
    let r : Reg := BitVec.ofNat 5 (8 + rdc.toNat)
    let a := s.readX r
    let b := s.readX (BitVec.ofNat 5 (8 + rsc.toNat))
    let d := s.readX rd
    exec (.cAddi4spn rdc u8) s = .next (s.afterX 2 r (BitVec.ofNat 32 ((s.readX 2).toNat + 4 * u8.toNat))) ∧
    exec (.cNop imm) s = .next (s.after 2) ∧
    exec (.cAddi rd imm) s = .next (s.afterX 2 rd (BitVec.ofInt 32 (d.toInt + imm.toInt))) ∧
    exec (.cLi rd imm) s = .next (s.afterX 2 rd (BitVec.ofInt 32 imm.toInt)) ∧
    exec (.cAddi16sp imm) s = .next (s.afterX 2 2 (BitVec.ofInt 32 ((s.readX 2).toInt + 16 * imm.toInt))) ∧
    exec (.cLui rd imm) s = .next (s.afterX 2 rd (BitVec.ofInt 32 (4096 * imm.toInt))) ∧
    exec (.cSrli rdc sh) s = .next (s.afterX 2 r (BitVec.ofNat 32 (a.toNat / 2 ^ sh.toNat))) ∧
    exec (.cSrai rdc sh) s = .next (s.afterX 2 r (BitVec.ofInt 32 (a.toInt / 2 ^ sh.toNat))) ∧
    exec (.cAndi rdc imm) s = .next (s.afterX 2 r (a &&& BitVec.ofInt 32 imm.toInt)) ∧
    exec (.cSub rdc rsc) s = .next (s.afterX 2 r (BitVec.ofInt 32 (a.toInt - b.toInt))) ∧
    exec (.cXor rdc rsc) s = .next (s.afterX 2 r (a ^^^ b)) ∧
    exec (.cOr rdc rsc) s = .next (s.afterX 2 r (a ||| b)) ∧
    exec (.cAnd rdc rsc) s = .next (s.afterX 2 r (a &&& b)) ∧
    exec (.cSlli rd sh) s = .next (s.afterX 2 rd (BitVec.ofNat 32 (d.toNat * 2 ^ sh.toNat))) ∧
    exec (.cMv rd rs2) s = .next (s.afterX 2 rd (s.readX rs2)) ∧
    exec (.cAdd rd rs2) s = .next (s.afterX 2 rd (BitVec.ofInt 32 (d.toInt + (s.readX rs2).toInt))) ∧
    (let m := b + BitVec.ofNat 32 (4 * uc.toNat)
     let p := s.readX 2 + BitVec.ofNat 32 (4 * us.toNat)
     (s.stopAccess .load m 4 = none →
       exec (.cLw rdc rsc uc) s = .next ((s.settle m 4).afterX 2 r (BitVec.ofNat 32 (s.loaded m 4)))) ∧
     (s.stopAccess .load p 4 = none →
       exec (.cLwsp rd us) s = .next ((s.settle p 4).afterX 2 rd (BitVec.ofNat 32 (s.loaded p 4)))) ∧
     (s.stopAccess .store m 4 = none → exec (.cSw rdc rsc uc) s = .next ((s.storeValue .sw m a).after 2)) ∧
     (s.stopAccess .store p 4 = none → exec (.cSwsp rd us) s = .next ((s.storeValue .sw p d).after 2)))

/-- 45_pulp_postinc_loadstore.md R400 to R410; for rd = rs1 R425 says refuse, and the free value is the model's choice (notes/assumptions/14.md); byte order 25.md. -/
def Obligations.PostIncrementLoads : Prop :=
  ∀ (s : State) (rd rs1 rs2 : Reg) (imm : BitVec 12), s.hitsShortLoop = false →
    let a := s.readX rs1
    let i := BitVec.ofInt 32 imm.toInt
    let ends (n : Nat) (inc v : Word) : Result := .next (((s.settle a n).writeX rs1 (a + inc)).afterX 4 rd
      (if rd = rs1 then Config.freeLoadResult s.draws else v))
    let vb := BitVec.ofInt 32 (BitVec.ofNat 8 (s.loaded a 1)).toInt
    let vh := BitVec.ofInt 32 (BitVec.ofNat 16 (s.loaded a 2)).toInt
    (s.stopAccess .load a 1 = none →
      exec (.pLbPostImm rd rs1 imm) s = ends 1 i vb ∧
      exec (.pLbPostReg rd rs1 rs2) s = ends 1 (s.readX rs2) vb ∧
      exec (.pLbuPostImm rd rs1 imm) s = ends 1 i (BitVec.ofNat 32 (s.loaded a 1)) ∧
      exec (.pLbuPostReg rd rs1 rs2) s = ends 1 (s.readX rs2) (BitVec.ofNat 32 (s.loaded a 1))) ∧
    (s.stopAccess .load a 2 = none →
      exec (.pLhPostImm rd rs1 imm) s = ends 2 i vh ∧
      exec (.pLhPostReg rd rs1 rs2) s = ends 2 (s.readX rs2) vh ∧
      exec (.pLhuPostImm rd rs1 imm) s = ends 2 i (BitVec.ofNat 32 (s.loaded a 2)) ∧
      exec (.pLhuPostReg rd rs1 rs2) s = ends 2 (s.readX rs2) (BitVec.ofNat 32 (s.loaded a 2))) ∧
    (s.stopAccess .load a 4 = none →
      exec (.pLwPostImm rd rs1 imm) s = ends 4 i (BitVec.ofNat 32 (s.loaded a 4)) ∧
      exec (.pLwPostReg rd rs1 rs2) s = ends 4 (s.readX rs2) (BitVec.ofNat 32 (s.loaded a 4)))

/-- 45_pulp_postinc_loadstore.md R416 to R421. -/
def Obligations.PostIncrementStores : Prop :=
  ∀ (s : State) (rs1 rs2 rs3 : Reg) (imm : BitVec 12), s.hitsShortLoop = false →
    let a := s.readX rs1
    let v := s.readX rs2
    let i := a + BitVec.ofInt 32 imm.toInt
    let r := a + s.readX rs3
    (s.stopAccess .store a 1 = none →
      exec (.pSbPostImm rs2 rs1 imm) s = .next ((s.storeValue .sb a v).afterX 4 rs1 i) ∧
      exec (.pSbPostReg rs2 rs3 rs1) s = .next ((s.storeValue .sb a v).afterX 4 rs1 r)) ∧
    (s.stopAccess .store a 2 = none →
      exec (.pShPostImm rs2 rs1 imm) s = .next ((s.storeValue .sh a v).afterX 4 rs1 i) ∧
      exec (.pShPostReg rs2 rs3 rs1) s = .next ((s.storeValue .sh a v).afterX 4 rs1 r)) ∧
    (s.stopAccess .store a 4 = none →
      exec (.pSwPostImm rs2 rs1 imm) s = .next ((s.storeValue .sw a v).afterX 4 rs1 i) ∧
      exec (.pSwPostReg rs2 rs3 rs1) s = .next ((s.storeValue .sw a v).afterX 4 rs1 r))

/-- 46_pulp_hwloop.md R441 to R445: the word and the effect of five of the six set-up instructions. The active body is decision D27 and the loop step on the registers just written is DEDUCED (R448, R450, R452; notes/assumptions/27.md). -/
def Obligations.LoopSetupWrites : Prop :=
  ∀ (s : State) (l : BitVec 1) (rs1 : Reg) (u : BitVec 12),
    let old := s.loopRegs l
    let target := s.pc + BitVec.ofNat 32 (2 * u.toNat)
    let completes (i : Instr) (new : LoopRegs) : Prop :=
      old.insideActive s.pc = false → (s.setLoopRegs l new).hitsShortLoop = false →
        exec i s = .next ((s.setLoopRegs l new).after 4)
    completes (.lpStarti l u) { old with start := target } ∧
    completes (.lpEndi l u) { old with stop := target } ∧
    completes (.lpCount l rs1) { old with count := s.readX rs1 } ∧
    completes (.lpCounti l u) { old with count := BitVec.ofNat 32 u.toNat } ∧
    completes (.lpSetup l rs1 u) { start := s.pc + 4, stop := target, count := s.readX rs1 } ∧
    s.loopRegs 0 = s.loop0 ∧ s.loopRegs 1 = s.loop1 ∧
    (∀ new, s.setLoopRegs 0 new = { s with loop0 := new } ∧ s.setLoopRegs 1 new = { s with loop1 := new }) ∧
    encode (.lpStarti l u) = .word (u ++ 0#5 ++ 0#3 ++ 0#4 ++ l ++ 0x7B#7) ∧
    encode (.lpEndi l u) = .word (u ++ 0#5 ++ 1#3 ++ 0#4 ++ l ++ 0x7B#7) ∧
    encode (.lpCount l rs1) = .word (0#12 ++ rs1 ++ 2#3 ++ 0#4 ++ l ++ 0x7B#7) ∧
    encode (.lpCounti l u) = .word (u ++ 0#5 ++ 3#3 ++ 0#4 ++ l ++ 0x7B#7) ∧
    encode (.lpSetup l rs1 u) = .word (u ++ rs1 ++ 4#3 ++ 0#4 ++ l ++ 0x7B#7)

/-- 46_pulp_hwloop.md R446, R450 fourth row, R452 (decisions D27, D38; notes/assumptions/27.md, 36.md). -/
def Obligations.ImmediateLoopSetupAndLoopWriteStops : Prop :=
  ∀ (s : State) (l : BitVec 1) (rs1 : Reg) (u : BitVec 12) (v : BitVec 5),
    let old := s.loopRegs l
    let new : LoopRegs := { start := s.pc + 4, stop := s.pc + BitVec.ofNat 32 (2 * v.toNat), count := BitVec.ofNat 32 u.toNat }
    let inside := old.count.toNat ≠ 0 ∧ old.start.toNat ≤ s.pc.toNat ∧ s.pc.toNat ≤ old.stop.toNat
    (¬ inside → (s.setLoopRegs l new).hitsShortLoop = false →
      exec (.lpSetupi l u v) s = .next ((s.setLoopRegs l new).after 4)) ∧
    (inside → ∀ i ∈ [Instr.lpStarti l u, .lpEndi l u, .lpCount l rs1, .lpCounti l u, .lpSetup l rs1 u, .lpSetupi l u v],
      exec i s = .refused .loopWriteInBody)

/-- 46_pulp_hwloop.md R448, R449 (decision D27); bit 0 of the start cleared by inference from R23 (notes/assumptions/45.md). -/
def Obligations.HardwareLoopStep : Prop :=
  ∀ (s : State) (n : Word),
    let c0 := s.loop0.count.toNat
    let c1 := s.loop1.count.toNat
    let hit0 := s.pc = s.loop0.stop ∧ c0 ≠ 0
    let hit1 := s.pc = s.loop1.stop ∧ c1 ≠ 0
    let start0 := BitVec.ofNat 32 (s.loop0.start.toNat / 2 * 2)
    let start1 := BitVec.ofNat 32 (s.loop1.start.toNat / 2 * 2)
    (hit0 → 1 < c0 → s.after n = { s with pc := start0, loop0 := { s.loop0 with count := BitVec.ofNat 32 (c0 - 1) } }) ∧
    (hit0 → c0 = 1 → hit1 → 1 < c1 → s.after n = { s with pc := start1, loop0 := { s.loop0 with count := 0 }, loop1 := { s.loop1 with count := BitVec.ofNat 32 (c1 - 1) } }) ∧
    (hit0 → c0 = 1 → hit1 → c1 = 1 → s.after n = { s with pc := s.pc + n, loop0 := { s.loop0 with count := 0 }, loop1 := { s.loop1 with count := 0 } }) ∧
    (hit0 → c0 = 1 → ¬ hit1 → s.after n = { s with pc := s.pc + n, loop0 := { s.loop0 with count := 0 } }) ∧
    (¬ hit0 → hit1 → 1 < c1 → s.after n = { s with pc := start1, loop1 := { s.loop1 with count := BitVec.ofNat 32 (c1 - 1) } }) ∧
    (¬ hit0 → hit1 → c1 = 1 → s.after n = { s with pc := s.pc + n, loop1 := { s.loop1 with count := 0 } }) ∧
    (¬ hit0 → ¬ hit1 → s.after n = { s with pc := s.pc + n })

/-- 46_pulp_hwloop.md R450, first and second row (decision D27, notes/assumptions/27.md). -/
def Obligations.LoopEndConstraints : Prop :=
  ∀ (s : State) (i : Instr),
    (s.hitsLoop = true → assignsPc i = true → exec i s = .refused .loopEndsInJump) ∧
    (s.hitsShortLoop = true → entersTrap s i = false → writesLoopRegister s i = false → ∀ t, exec i s ≠ .next t)

/-- 47_pulp_alu.md R471 to R480, R520 (decisions D22, D23; notes/assumptions/36.md). For a field past bit 31 R520 says refuse, and the free value is the model's choice (13.md). -/
def Obligations.BitFieldResults : Prop :=
  ∀ (s : State) (rd rs1 rs2 : Reg) (ls3 ls2 : BitVec 5), s.hitsShortLoop = false →
    let x := s.readX rs1
    let d := s.readX rd
    let free := Config.freeField s.draws
    let wx (w : Nat) : Nat := if s.params.extractWidth = .plus1 then w else w - 1
    let signed (p w : Nat) (k : Nat) : Bool := if k < w then x.getLsbD (p + k) else decide (0 < w) && x.getLsbD (p + w - 1)
    let unsigned (p w : Nat) (k : Nat) : Bool := decide (k < w) && x.getLsbD (p + k)
    let insert (p w : Nat) (k : Nat) : Bool := if p ≤ k ∧ k < p + w then x.getLsbD (k - p) else d.getLsbD k
    let clear (p w : Nat) (k : Nat) : Bool := if p ≤ k ∧ k < p + w then false else x.getLsbD k
    let set (p w : Nat) (k : Nat) : Bool := if p ≤ k ∧ k < p + w then true else x.getLsbD k
    let writes (i : Instr) (p w : Nat) (b : Nat → Nat → Nat → Bool) : Prop :=
      (p + w ≤ 32 → WritesBits s i rd (b p w)) ∧ (32 < p + w → exec i s = .next (s.afterX 4 rd free))
    let p := ls2.toNat
    let w := ls3.toNat + 1
    let pr := (s.readX rs2).toNat % 32
    let wr := (s.readX rs2).toNat / 32 % 32 + 1
    writes (.pExtract rd rs1 ls3 ls2) p (wx w) signed ∧
    writes (.pExtractu rd rs1 ls3 ls2) p (wx w) unsigned ∧
    writes (.pInsert rd rs1 ls3 ls2) p w insert ∧
    writes (.pBclr rd rs1 ls3 ls2) p w clear ∧
    writes (.pBset rd rs1 ls3 ls2) p w set ∧
    writes (.pExtractr rd rs1 rs2) pr (wx wr) signed ∧
    writes (.pExtractur rd rs1 rs2) pr (wx wr) unsigned ∧
    writes (.pInsertr rd rs1 rs2) pr wr insert ∧
    writes (.pBclrr rd rs1 rs2) pr wr clear ∧
    writes (.pBsetr rd rs1 rs2) pr wr set

/-- 47_pulp_alu.md R481 to R485 (the parameter by the spec's decision D41, notes/assumptions/36.md). -/
def Obligations.BitCountingResults : Prop :=
  ∀ (s : State) (rd rs1 rs2 : Reg), s.hitsShortLoop = false →
    let x := s.readX rs1
    WritesBits s (.pRor rd rs1 rs2) rd (fun k => x.getLsbD ((k + (s.readX rs2).toNat % 32) % 32)) ∧
    (∃ n : Nat, exec (.pFf1 rd rs1) s = .next (s.afterX 4 rd (BitVec.ofNat 32 n)) ∧
      (x.toNat = 0 → n = 32) ∧ (x.toNat ≠ 0 → n < 32 ∧ x.getLsbD n = true) ∧ ∀ k < n, x.getLsbD k = false) ∧
    (∃ n : Nat, exec (.pFl1 rd rs1) s = .next (s.afterX 4 rd (BitVec.ofNat 32 n)) ∧
      (x.toNat = 0 → n = 32) ∧
      (x.toNat ≠ 0 → n < 32 ∧ x.getLsbD n = true ∧ ∀ k, n < k → x.getLsbD k = false)) ∧
    exec (.pCnt rd rs1) s = .next (s.afterX 4 rd
      (BitVec.ofNat 32 (Finset.univ.filter (fun k : Fin 32 => x.getLsbD k.val = true)).card)) ∧
    (x.toNat = 0 → exec (.pClb rd rs1) s = .next (s.afterX 4 rd 0)) ∧
    (x.toNat ≠ 0 → ∃ n : Nat, 1 ≤ n ∧ n ≤ 32 ∧
      exec (.pClb rd rs1) s = .next (s.afterX 4 rd (BitVec.ofNat 32 (if s.params.clbMinusOne then n - 1 else n))) ∧
      (∀ k, 32 - n ≤ k → k < 32 → x.getLsbD k = x.getLsbD 31) ∧ (n < 32 → x.getLsbD (31 - n) ≠ x.getLsbD 31))

/-- 47_pulp_alu.md R486 to R500; p.clipr and p.clipur with a negative bound are a DESIGN CHOICE (U23, N32; notes/assumptions/36.md). -/
def Obligations.GeneralAluResults : Prop :=
  ∀ (s : State) (rd rs1 rs2 : Reg) (n : BitVec 5), s.hitsShortLoop = false →
    let a := s.readX rs1
    let b := s.readX rs2
    let clip (lo hi : Int) : Word := BitVec.ofInt 32 (if a.toInt ≤ lo then lo else if hi ≤ a.toInt then hi else a.toInt)
    let hi : Int := if n.toNat = 0 then 0 else 2 ^ (n.toNat - 1) - 1
    exec (.pAbs rd rs1) s = .next (s.afterX 4 rd (BitVec.ofInt 32 |a.toInt|)) ∧
    exec (.pSlet rd rs1 rs2) s = .next (s.afterX 4 rd (if a.toInt ≤ b.toInt then 1 else 0)) ∧
    exec (.pSletu rd rs1 rs2) s = .next (s.afterX 4 rd (if a.toNat ≤ b.toNat then 1 else 0)) ∧
    exec (.pMin rd rs1 rs2) s = .next (s.afterX 4 rd (BitVec.ofInt 32 (min a.toInt b.toInt))) ∧
    exec (.pMinu rd rs1 rs2) s = .next (s.afterX 4 rd (BitVec.ofNat 32 (min a.toNat b.toNat))) ∧
    exec (.pMax rd rs1 rs2) s = .next (s.afterX 4 rd (BitVec.ofInt 32 (max a.toInt b.toInt))) ∧
    exec (.pMaxu rd rs1 rs2) s = .next (s.afterX 4 rd (BitVec.ofNat 32 (max a.toNat b.toNat))) ∧
    exec (.pExths rd rs1) s = .next (s.afterX 4 rd (BitVec.ofInt 32 (BitVec.ofNat 16 a.toNat).toInt)) ∧
    exec (.pExthz rd rs1) s = .next (s.afterX 4 rd (BitVec.ofNat 32 (a.toNat % 2 ^ 16))) ∧
    exec (.pExtbs rd rs1) s = .next (s.afterX 4 rd (BitVec.ofInt 32 (BitVec.ofNat 8 a.toNat).toInt)) ∧
    exec (.pExtbz rd rs1) s = .next (s.afterX 4 rd (BitVec.ofNat 32 (a.toNat % 2 ^ 8))) ∧
    exec (.pClip rd rs1 n) s = .next (s.afterX 4 rd (clip (-hi - 1) hi)) ∧
    exec (.pClipu rd rs1 n) s = .next (s.afterX 4 rd (clip 0 hi)) ∧
    exec (.pClipr rd rs1 rs2) s = .next (s.afterX 4 rd (clip (-b.toInt - 1) b.toInt)) ∧
    exec (.pClipur rd rs1 rs2) s = .next (s.afterX 4 rd (clip 0 b.toInt))

/-- 47_pulp_alu.md R501 to R517; the constant 0 for n = 0 is the spec's decision D21, the sum modulo 2^32 before the shift decision D20 (DESIGN CHOICE, notes/assumptions/36.md). -/
def Obligations.NormalisingAdditions : Prop :=
  ∀ (s : State) (rd rs1 rs2 : Reg) (ls3 : BitVec 5), s.hitsShortLoop = false →
    let a := (s.readX rs1).toInt
    let b := (s.readX rs2).toInt
    let d := (s.readX rd).toInt
    let n := ls3.toNat
    let r := (s.readX rs2).toNat % 32
    let half (k : Nat) : Int := if k = 0 then 0 else 2 ^ (k - 1)
    let sra (v : Int) (k : Nat) : Word := BitVec.ofInt 32 ((BitVec.ofInt 32 v).toInt / 2 ^ k)
    let srl (v : Int) (k : Nat) : Word := BitVec.ofNat 32 ((BitVec.ofInt 32 v).toNat / 2 ^ k)
    exec (.pAddN rd rs1 rs2 ls3) s = .next (s.afterX 4 rd (sra (a + b) n)) ∧
    exec (.pAdduN rd rs1 rs2 ls3) s = .next (s.afterX 4 rd (srl (a + b) n)) ∧
    exec (.pAddRN rd rs1 rs2 ls3) s = .next (s.afterX 4 rd (sra (a + b + half n) n)) ∧
    exec (.pAdduRN rd rs1 rs2 ls3) s = .next (s.afterX 4 rd (srl (a + b + half n) n)) ∧
    exec (.pSubN rd rs1 rs2 ls3) s = .next (s.afterX 4 rd (sra (a - b) n)) ∧
    exec (.pSubuN rd rs1 rs2 ls3) s = .next (s.afterX 4 rd (srl (a - b) n)) ∧
    exec (.pSubRN rd rs1 rs2 ls3) s = .next (s.afterX 4 rd (sra (a - b + half n) n)) ∧
    exec (.pSubuRN rd rs1 rs2 ls3) s = .next (s.afterX 4 rd (srl (a - b + half n) n)) ∧
    exec (.pAddNr rd rs1 rs2) s = .next (s.afterX 4 rd (sra (d + a) r)) ∧
    exec (.pAdduNr rd rs1 rs2) s = .next (s.afterX 4 rd (srl (d + a) r)) ∧
    exec (.pAddRNr rd rs1 rs2) s = .next (s.afterX 4 rd (sra (d + a + half r) r)) ∧
    exec (.pAdduRNr rd rs1 rs2) s = .next (s.afterX 4 rd (srl (d + a + half r) r)) ∧
    exec (.pSubNr rd rs1 rs2) s = .next (s.afterX 4 rd (sra (d - a) r)) ∧
    exec (.pSubuNr rd rs1 rs2) s = .next (s.afterX 4 rd (srl (d - a) r)) ∧
    exec (.pSubRNr rd rs1 rs2) s = .next (s.afterX 4 rd (sra (d - a + half r) r)) ∧
    exec (.pSubuRNr rd rs1 rs2) s = .next (s.afterX 4 rd (srl (d - a + half r) r))

/-- 48_pulp_mac.md R541, R542. -/
def Obligations.MultiplyAccumulate : Prop :=
  ∀ (s : State) (rd rs1 rs2 : Reg),
    let a := s.readX rs1
    let b := s.readX rs2
    let d := s.readX rd
    (s.hitsShortLoop = false →
      exec (.pMac rd rs1 rs2) s = .next (s.afterX 4 rd (BitVec.ofInt 32 (d.toInt + a.toInt * b.toInt))) ∧
      exec (.pMsu rd rs1 rs2) s = .next (s.afterX 4 rd (BitVec.ofInt 32 (d.toInt - a.toInt * b.toInt)))) ∧
    BitVec.ofInt 32 (d.toInt + a.toInt * b.toInt) = BitVec.ofNat 32 (d.toNat + a.toNat * b.toNat) ∧
    BitVec.ofInt 32 (d.toInt - a.toInt * b.toInt) = BitVec.ofInt 32 (d.toNat - a.toNat * b.toNat) ∧
    encode (.pMac rd rs1 rs2) = .word (0b0100001#7 ++ rs2 ++ rs1 ++ 0#3 ++ rd ++ 0x33#7) ∧
    encode (.pMsu rd rs1 rs2) = .word (0b0100001#7 ++ rs2 ++ rs1 ++ 1#3 ++ rd ++ 0x33#7)

/-- 48_pulp_mac.md R540, R543 to R562; the constant 0 for n = 0 is the spec's decision D21, the sum modulo 2^32 before the shift decision D20 (DESIGN CHOICE, notes/assumptions/36.md). -/
def Obligations.HalfWordMultiplications : Prop :=
  ∀ (s : State) (rd rs1 rs2 : Reg) (ls3 : BitVec 5), s.hitsShortLoop = false →
    let a := s.readX rs1
    let b := s.readX rs2
    let d := (s.readX rd).toInt
    let n := ls3.toNat
    let half : Int := if n = 0 then 0 else 2 ^ (n - 1)
    let ls : Int := (BitVec.ofNat 16 a.toNat).toInt * (BitVec.ofNat 16 b.toNat).toInt
    let hs : Int := (BitVec.ofNat 16 (a.toNat / 2 ^ 16)).toInt * (BitVec.ofNat 16 (b.toNat / 2 ^ 16)).toInt
    let lu : Int := (a.toNat % 2 ^ 16 : Nat) * (b.toNat % 2 ^ 16 : Nat)
    let hu : Int := (a.toNat / 2 ^ 16 : Nat) * (b.toNat / 2 ^ 16 : Nat)
    let sra (v : Int) : Word := BitVec.ofInt 32 ((BitVec.ofInt 32 v).toInt / 2 ^ n)
    let srl (v : Int) : Word := BitVec.ofNat 32 ((BitVec.ofInt 32 v).toNat / 2 ^ n)
    exec (.pMuls rd rs1 rs2) s = .next (s.afterX 4 rd (BitVec.ofInt 32 ls)) ∧
    exec (.pMulhhs rd rs1 rs2) s = .next (s.afterX 4 rd (BitVec.ofInt 32 hs)) ∧
    exec (.pMulu rd rs1 rs2) s = .next (s.afterX 4 rd (BitVec.ofInt 32 lu)) ∧
    exec (.pMulhhu rd rs1 rs2) s = .next (s.afterX 4 rd (BitVec.ofInt 32 hu)) ∧
    exec (.pMulsN rd rs1 rs2 ls3) s = .next (s.afterX 4 rd (sra ls)) ∧
    exec (.pMulhhsN rd rs1 rs2 ls3) s = .next (s.afterX 4 rd (sra hs)) ∧
    exec (.pMuluN rd rs1 rs2 ls3) s = .next (s.afterX 4 rd (srl lu)) ∧
    exec (.pMulhhuN rd rs1 rs2 ls3) s = .next (s.afterX 4 rd (srl hu)) ∧
    exec (.pMulsRN rd rs1 rs2 ls3) s = .next (s.afterX 4 rd (sra (ls + half))) ∧
    exec (.pMulhhsRN rd rs1 rs2 ls3) s = .next (s.afterX 4 rd (sra (hs + half))) ∧
    exec (.pMuluRN rd rs1 rs2 ls3) s = .next (s.afterX 4 rd (srl (lu + half))) ∧
    exec (.pMulhhuRN rd rs1 rs2 ls3) s = .next (s.afterX 4 rd (srl (hu + half))) ∧
    exec (.pMacsN rd rs1 rs2 ls3) s = .next (s.afterX 4 rd (sra (ls + d))) ∧
    exec (.pMachhsN rd rs1 rs2 ls3) s = .next (s.afterX 4 rd (sra (hs + d))) ∧
    exec (.pMacuN rd rs1 rs2 ls3) s = .next (s.afterX 4 rd (srl (lu + d))) ∧
    exec (.pMachhuN rd rs1 rs2 ls3) s = .next (s.afterX 4 rd (srl (hu + d))) ∧
    exec (.pMacsRN rd rs1 rs2 ls3) s = .next (s.afterX 4 rd (sra (ls + d + half))) ∧
    exec (.pMachhsRN rd rs1 rs2 ls3) s = .next (s.afterX 4 rd (sra (hs + d + half))) ∧
    exec (.pMacuRN rd rs1 rs2 ls3) s = .next (s.afterX 4 rd (srl (lu + d + half))) ∧
    exec (.pMachhuRN rd rs1 rs2 ls3) s = .next (s.afterX 4 rd (srl (hu + d + half)))

/-- 49_pulp_vector.md R580 to R598 on half-words (decisions D20, D24, D34; notes/assumptions/36.md). -/
def Obligations.VectorHalfWordAlu : Prop :=
  ∀ s : State, s.hitsShortLoop = false →
    HalfForms s (fun a b => BitVec.ofInt 16 (a.toInt + b.toInt)) (fun i => BitVec.ofInt 16 i.toInt)
      .pvAddH .pvAddScH .pvAddSciH ∧
    HalfForms s (fun a b => BitVec.ofInt 16 (a.toInt - b.toInt)) (fun i => BitVec.ofInt 16 i.toInt)
      .pvSubH .pvSubScH .pvSubSciH ∧
    HalfForms s (fun a b => BitVec.ofInt 16 ((BitVec.ofInt 16 (a.toInt + b.toInt)).toInt / 2)) (fun i => BitVec.ofInt 16 i.toInt)
      .pvAvgH .pvAvgScH .pvAvgSciH ∧
    HalfForms s (fun a b => BitVec.ofNat 16 ((BitVec.ofNat 16 (a.toNat + b.toNat)).toNat / 2)) (fun i => BitVec.ofInt 16 i.toInt)
      .pvAvguH .pvAvguScH .pvAvguSciH ∧
    HalfForms s (fun a b => BitVec.ofInt 16 (min a.toInt b.toInt)) (fun i => BitVec.ofInt 16 i.toInt)
      .pvMinH .pvMinScH .pvMinSciH ∧
    HalfForms s (fun a b => BitVec.ofNat 16 (min a.toNat b.toNat)) (fun i => BitVec.ofNat 16 i.toNat)
      .pvMinuH .pvMinuScH .pvMinuSciH ∧
    HalfForms s (fun a b => BitVec.ofInt 16 (max a.toInt b.toInt)) (fun i => BitVec.ofInt 16 i.toInt)
      .pvMaxH .pvMaxScH .pvMaxSciH ∧
    HalfForms s (fun a b => BitVec.ofNat 16 (max a.toNat b.toNat)) (fun i => BitVec.ofNat 16 i.toNat)
      .pvMaxuH .pvMaxuScH .pvMaxuSciH ∧
    HalfForms s (fun a b => BitVec.ofNat 16 (a.toNat / 2 ^ (b.toNat % 16))) (fun i => BitVec.ofNat 16 i.toNat)
      .pvSrlH .pvSrlScH .pvSrlSciH ∧
    HalfForms s (fun a b => BitVec.ofInt 16 (a.toInt / 2 ^ (b.toNat % 16))) (fun i => BitVec.ofNat 16 i.toNat)
      .pvSraH .pvSraScH .pvSraSciH ∧
    HalfForms s (fun a b => BitVec.ofNat 16 (a.toNat * 2 ^ (b.toNat % 16))) (fun i => BitVec.ofNat 16 i.toNat)
      .pvSllH .pvSllScH .pvSllSciH ∧
    HalfForms s (fun a b => a ||| b) (fun i => BitVec.ofInt 16 i.toInt)
      .pvOrH .pvOrScH .pvOrSciH ∧
    HalfForms s (fun a b => a ^^^ b) (fun i => BitVec.ofInt 16 i.toInt)
      .pvXorH .pvXorScH .pvXorSciH ∧
    HalfForms s (fun a b => a &&& b) (fun i => BitVec.ofInt 16 i.toInt)
      .pvAndH .pvAndScH .pvAndSciH ∧
    ∀ rd rs1 : Reg, WritesHalves s (.pvAbsH rd rs1) rd (fun k => BitVec.ofInt 16 |(halfAt (s.readX rs1) k).toInt|)

/-- 49_pulp_vector.md R580 to R598 on bytes (decisions D20, D24, D34; notes/assumptions/36.md). -/
def Obligations.VectorByteAlu : Prop :=
  ∀ s : State, s.hitsShortLoop = false →
    ByteForms s (fun a b => BitVec.ofInt 8 (a.toInt + b.toInt)) (fun i => BitVec.ofInt 8 i.toInt)
      .pvAddB .pvAddScB .pvAddSciB ∧
    ByteForms s (fun a b => BitVec.ofInt 8 (a.toInt - b.toInt)) (fun i => BitVec.ofInt 8 i.toInt)
      .pvSubB .pvSubScB .pvSubSciB ∧
    ByteForms s (fun a b => BitVec.ofInt 8 ((BitVec.ofInt 8 (a.toInt + b.toInt)).toInt / 2)) (fun i => BitVec.ofInt 8 i.toInt)
      .pvAvgB .pvAvgScB .pvAvgSciB ∧
    ByteForms s (fun a b => BitVec.ofNat 8 ((BitVec.ofNat 8 (a.toNat + b.toNat)).toNat / 2)) (fun i => BitVec.ofInt 8 i.toInt)
      .pvAvguB .pvAvguScB .pvAvguSciB ∧
    ByteForms s (fun a b => BitVec.ofInt 8 (min a.toInt b.toInt)) (fun i => BitVec.ofInt 8 i.toInt)
      .pvMinB .pvMinScB .pvMinSciB ∧
    ByteForms s (fun a b => BitVec.ofNat 8 (min a.toNat b.toNat)) (fun i => BitVec.ofNat 8 i.toNat)
      .pvMinuB .pvMinuScB .pvMinuSciB ∧
    ByteForms s (fun a b => BitVec.ofInt 8 (max a.toInt b.toInt)) (fun i => BitVec.ofInt 8 i.toInt)
      .pvMaxB .pvMaxScB .pvMaxSciB ∧
    ByteForms s (fun a b => BitVec.ofNat 8 (max a.toNat b.toNat)) (fun i => BitVec.ofNat 8 i.toNat)
      .pvMaxuB .pvMaxuScB .pvMaxuSciB ∧
    ByteForms s (fun a b => BitVec.ofNat 8 (a.toNat / 2 ^ (b.toNat % 8))) (fun i => BitVec.ofNat 8 i.toNat)
      .pvSrlB .pvSrlScB .pvSrlSciB ∧
    ByteForms s (fun a b => BitVec.ofInt 8 (a.toInt / 2 ^ (b.toNat % 8))) (fun i => BitVec.ofNat 8 i.toNat)
      .pvSraB .pvSraScB .pvSraSciB ∧
    ByteForms s (fun a b => BitVec.ofNat 8 (a.toNat * 2 ^ (b.toNat % 8))) (fun i => BitVec.ofNat 8 i.toNat)
      .pvSllB .pvSllScB .pvSllSciB ∧
    ByteForms s (fun a b => a ||| b) (fun i => BitVec.ofInt 8 i.toInt)
      .pvOrB .pvOrScB .pvOrSciB ∧
    ByteForms s (fun a b => a ^^^ b) (fun i => BitVec.ofInt 8 i.toInt)
      .pvXorB .pvXorScB .pvXorSciB ∧
    ByteForms s (fun a b => a &&& b) (fun i => BitVec.ofInt 8 i.toInt)
      .pvAndB .pvAndScB .pvAndSciB ∧
    ∀ rd rs1 : Reg, WritesBytes s (.pvAbsB rd rs1) rd (fun k => BitVec.ofInt 8 |(byteAt (s.readX rs1) k).toInt|)

/-- 49_pulp_vector.md R618 to R628 (decision D34, notes/assumptions/36.md). -/
def Obligations.VectorComparisons : Prop :=
  ∀ s : State, s.hitsShortLoop = false →
    HalfForms s (fun a b => if a = b then BitVec.ofNat 16 (2 ^ 16 - 1) else 0) (fun i => BitVec.ofInt 16 i.toInt)
      .pvCmpeqH .pvCmpeqScH .pvCmpeqSciH ∧
    HalfForms s (fun a b => if a ≠ b then BitVec.ofNat 16 (2 ^ 16 - 1) else 0) (fun i => BitVec.ofInt 16 i.toInt)
      .pvCmpneH .pvCmpneScH .pvCmpneSciH ∧
    HalfForms s (fun a b => if b.toInt < a.toInt then BitVec.ofNat 16 (2 ^ 16 - 1) else 0) (fun i => BitVec.ofInt 16 i.toInt)
      .pvCmpgtH .pvCmpgtScH .pvCmpgtSciH ∧
    HalfForms s (fun a b => if b.toInt ≤ a.toInt then BitVec.ofNat 16 (2 ^ 16 - 1) else 0) (fun i => BitVec.ofInt 16 i.toInt)
      .pvCmpgeH .pvCmpgeScH .pvCmpgeSciH ∧
    HalfForms s (fun a b => if a.toInt < b.toInt then BitVec.ofNat 16 (2 ^ 16 - 1) else 0) (fun i => BitVec.ofInt 16 i.toInt)
      .pvCmpltH .pvCmpltScH .pvCmpltSciH ∧
    HalfForms s (fun a b => if a.toInt ≤ b.toInt then BitVec.ofNat 16 (2 ^ 16 - 1) else 0) (fun i => BitVec.ofInt 16 i.toInt)
      .pvCmpleH .pvCmpleScH .pvCmpleSciH ∧
    HalfForms s (fun a b => if b.toNat < a.toNat then BitVec.ofNat 16 (2 ^ 16 - 1) else 0) (fun i => BitVec.ofInt 16 i.toInt)
      .pvCmpgtuH .pvCmpgtuScH .pvCmpgtuSciH ∧
    HalfForms s (fun a b => if b.toNat ≤ a.toNat then BitVec.ofNat 16 (2 ^ 16 - 1) else 0) (fun i => BitVec.ofInt 16 i.toInt)
      .pvCmpgeuH .pvCmpgeuScH .pvCmpgeuSciH ∧
    HalfForms s (fun a b => if a.toNat < b.toNat then BitVec.ofNat 16 (2 ^ 16 - 1) else 0) (fun i => BitVec.ofInt 16 i.toInt)
      .pvCmpltuH .pvCmpltuScH .pvCmpltuSciH ∧
    HalfForms s (fun a b => if a.toNat ≤ b.toNat then BitVec.ofNat 16 (2 ^ 16 - 1) else 0) (fun i => BitVec.ofInt 16 i.toInt)
      .pvCmpleuH .pvCmpleuScH .pvCmpleuSciH ∧
    ByteForms s (fun a b => if a = b then BitVec.ofNat 8 (2 ^ 8 - 1) else 0) (fun i => BitVec.ofInt 8 i.toInt)
      .pvCmpeqB .pvCmpeqScB .pvCmpeqSciB ∧
    ByteForms s (fun a b => if a ≠ b then BitVec.ofNat 8 (2 ^ 8 - 1) else 0) (fun i => BitVec.ofInt 8 i.toInt)
      .pvCmpneB .pvCmpneScB .pvCmpneSciB ∧
    ByteForms s (fun a b => if b.toInt < a.toInt then BitVec.ofNat 8 (2 ^ 8 - 1) else 0) (fun i => BitVec.ofInt 8 i.toInt)
      .pvCmpgtB .pvCmpgtScB .pvCmpgtSciB ∧
    ByteForms s (fun a b => if b.toInt ≤ a.toInt then BitVec.ofNat 8 (2 ^ 8 - 1) else 0) (fun i => BitVec.ofInt 8 i.toInt)
      .pvCmpgeB .pvCmpgeScB .pvCmpgeSciB ∧
    ByteForms s (fun a b => if a.toInt < b.toInt then BitVec.ofNat 8 (2 ^ 8 - 1) else 0) (fun i => BitVec.ofInt 8 i.toInt)
      .pvCmpltB .pvCmpltScB .pvCmpltSciB ∧
    ByteForms s (fun a b => if a.toInt ≤ b.toInt then BitVec.ofNat 8 (2 ^ 8 - 1) else 0) (fun i => BitVec.ofInt 8 i.toInt)
      .pvCmpleB .pvCmpleScB .pvCmpleSciB ∧
    ByteForms s (fun a b => if b.toNat < a.toNat then BitVec.ofNat 8 (2 ^ 8 - 1) else 0) (fun i => BitVec.ofInt 8 i.toInt)
      .pvCmpgtuB .pvCmpgtuScB .pvCmpgtuSciB ∧
    ByteForms s (fun a b => if b.toNat ≤ a.toNat then BitVec.ofNat 8 (2 ^ 8 - 1) else 0) (fun i => BitVec.ofInt 8 i.toInt)
      .pvCmpgeuB .pvCmpgeuScB .pvCmpgeuSciB ∧
    ByteForms s (fun a b => if a.toNat < b.toNat then BitVec.ofNat 8 (2 ^ 8 - 1) else 0) (fun i => BitVec.ofInt 8 i.toInt)
      .pvCmpltuB .pvCmpltuScB .pvCmpltuSciB ∧
    ByteForms s (fun a b => if a.toNat ≤ b.toNat then BitVec.ofNat 8 (2 ^ 8 - 1) else 0) (fun i => BitVec.ofInt 8 i.toInt)
      .pvCmpleuB .pvCmpleuScB .pvCmpleuSciB

/-- 49_pulp_vector.md R602 to R607 (decision D34, notes/assumptions/36.md). -/
def Obligations.DotProducts : Prop :=
  ∀ s : State, s.hitsShortLoop = false →
    DotHalfForms s (fun _ a b => ((a 0).toNat : Int) * ((b 0).toNat : Int) + ((a 1).toNat : Int) * ((b 1).toNat : Int))
      .pvDotupH .pvDotupScH .pvDotupSciH ∧
    DotHalfForms s (fun _ a b => ((a 0).toNat : Int) * (b 0).toInt + ((a 1).toNat : Int) * (b 1).toInt)
      .pvDotuspH .pvDotuspScH .pvDotuspSciH ∧
    DotHalfForms s (fun _ a b => (a 0).toInt * (b 0).toInt + (a 1).toInt * (b 1).toInt)
      .pvDotspH .pvDotspScH .pvDotspSciH ∧
    DotHalfForms s (fun d a b => d.toInt + ((a 0).toNat : Int) * ((b 0).toNat : Int) + ((a 1).toNat : Int) * ((b 1).toNat : Int))
      .pvSdotupH .pvSdotupScH .pvSdotupSciH ∧
    DotHalfForms s (fun d a b => d.toInt + ((a 0).toNat : Int) * (b 0).toInt + ((a 1).toNat : Int) * (b 1).toInt)
      .pvSdotuspH .pvSdotuspScH .pvSdotuspSciH ∧
    DotHalfForms s (fun d a b => d.toInt + (a 0).toInt * (b 0).toInt + (a 1).toInt * (b 1).toInt)
      .pvSdotspH .pvSdotspScH .pvSdotspSciH ∧
    DotByteForms s (fun _ a b => ((a 0).toNat : Int) * ((b 0).toNat : Int) + ((a 1).toNat : Int) * ((b 1).toNat : Int) + ((a 2).toNat : Int) * ((b 2).toNat : Int) + ((a 3).toNat : Int) * ((b 3).toNat : Int))
      .pvDotupB .pvDotupScB .pvDotupSciB ∧
    DotByteForms s (fun _ a b => ((a 0).toNat : Int) * (b 0).toInt + ((a 1).toNat : Int) * (b 1).toInt + ((a 2).toNat : Int) * (b 2).toInt + ((a 3).toNat : Int) * (b 3).toInt)
      .pvDotuspB .pvDotuspScB .pvDotuspSciB ∧
    DotByteForms s (fun _ a b => (a 0).toInt * (b 0).toInt + (a 1).toInt * (b 1).toInt + (a 2).toInt * (b 2).toInt + (a 3).toInt * (b 3).toInt)
      .pvDotspB .pvDotspScB .pvDotspSciB ∧
    DotByteForms s (fun d a b => d.toInt + ((a 0).toNat : Int) * ((b 0).toNat : Int) + ((a 1).toNat : Int) * ((b 1).toNat : Int) + ((a 2).toNat : Int) * ((b 2).toNat : Int) + ((a 3).toNat : Int) * ((b 3).toNat : Int))
      .pvSdotupB .pvSdotupScB .pvSdotupSciB ∧
    DotByteForms s (fun d a b => d.toInt + ((a 0).toNat : Int) * (b 0).toInt + ((a 1).toNat : Int) * (b 1).toInt + ((a 2).toNat : Int) * (b 2).toInt + ((a 3).toNat : Int) * (b 3).toInt)
      .pvSdotuspB .pvSdotuspScB .pvSdotuspSciB ∧
    DotByteForms s (fun d a b => d.toInt + (a 0).toInt * (b 0).toInt + (a 1).toInt * (b 1).toInt + (a 2).toInt * (b 2).toInt + (a 3).toInt * (b 3).toInt)
      .pvSdotspB .pvSdotspScB .pvSdotspSciB

/-- 49_pulp_vector.md R599 to R601 For an index that names no element D25 says refuse, and the free value is the model's choice (notes/assumptions/15.md). -/
def Obligations.VectorExtractAndInsert : Prop :=
  ∀ (s : State) (rd rs1 : Reg) (i : BitVec 6), s.hitsShortLoop = false →
    let a := s.readX rs1
    let d := s.readX rd
    let n := i.toNat
    (n < 2 →
      exec (.pvExtractH rd rs1 i) s = .next (s.afterX 4 rd (BitVec.ofInt 32 (BitVec.ofNat 16 (a.toNat / 2 ^ (16 * n))).toInt)) ∧
      exec (.pvExtractuH rd rs1 i) s = .next (s.afterX 4 rd (BitVec.ofNat 32 (a.toNat / 2 ^ (16 * n) % 2 ^ 16))) ∧
      WritesHalves s (.pvInsertH rd rs1 i) rd (fun k => if k = n then halfAt a 0 else halfAt d k)) ∧
    (n < 4 →
      exec (.pvExtractB rd rs1 i) s = .next (s.afterX 4 rd (BitVec.ofInt 32 (BitVec.ofNat 8 (a.toNat / 2 ^ (8 * n))).toInt)) ∧
      exec (.pvExtractuB rd rs1 i) s = .next (s.afterX 4 rd (BitVec.ofNat 32 (a.toNat / 2 ^ (8 * n) % 2 ^ 8))) ∧
      WritesBytes s (.pvInsertB rd rs1 i) rd (fun k => if k = n then byteAt a 0 else byteAt d k)) ∧
    (2 ≤ n → ∀ j ∈ [Instr.pvExtractH rd rs1 i, .pvExtractuH rd rs1 i, .pvInsertH rd rs1 i],
      exec j s = .next (s.afterX 4 rd (Config.freeElement s.draws))) ∧
    (4 ≤ n → ∀ j ∈ [Instr.pvExtractB rd rs1 i, .pvExtractuB rd rs1 i, .pvInsertB rd rs1 i],
      exec j s = .next (s.afterX 4 rd (Config.freeElement s.draws)))

/-- 49_pulp_vector.md R608 to R614. -/
def Obligations.VectorShuffles : Prop :=
  ∀ (s : State) (rd rs1 rs2 : Reg) (i : BitVec 6), s.hitsShortLoop = false →
    let a := s.readX rs1
    let b := s.readX rs2
    let d := s.readX rd
    let n := i.toNat
    let sciB (top : Nat) (k : Nat) : Byte := if k = 3 then byteAt a top else byteAt a (n / 4 ^ k % 4)
    WritesHalves s (.pvShuffleH rd rs1 rs2) rd (fun k => halfAt a ((halfAt b k).toNat % 2)) ∧
    WritesBytes s (.pvShuffleB rd rs1 rs2) rd (fun k => byteAt a ((byteAt b k).toNat % 4)) ∧
    WritesHalves s (.pvShuffleSciH rd rs1 i) rd (fun k => halfAt a (n / 2 ^ k % 2)) ∧
    WritesBytes s (.pvShuffleI0SciB rd rs1 i) rd (sciB 0) ∧
    WritesBytes s (.pvShuffleI1SciB rd rs1 i) rd (sciB 1) ∧
    WritesBytes s (.pvShuffleI2SciB rd rs1 i) rd (sciB 2) ∧
    WritesBytes s (.pvShuffleI3SciB rd rs1 i) rd (sciB 3) ∧
    WritesHalves s (.pvShuffle2H rd rs1 rs2) rd
      (fun k => halfAt (if (halfAt b k).toNat / 2 % 2 = 1 then a else d) ((halfAt b k).toNat % 2)) ∧
    WritesBytes s (.pvShuffle2B rd rs1 rs2) rd
      (fun k => byteAt (if (byteAt b k).toNat / 4 % 2 = 1 then a else d) ((byteAt b k).toNat % 4))

/-- 49_pulp_vector.md R615 to R617. -/
def Obligations.VectorPacks : Prop :=
  ∀ (s : State) (rd rs1 rs2 : Reg),
    let a := s.readX rs1
    let b := s.readX rs2
    let d := s.readX rd
    (s.hitsShortLoop = false →
      WritesHalves s (.pvPackH rd rs1 rs2) rd (fun k => if k = 1 then halfAt a 0 else halfAt b 0) ∧
      WritesBytes s (.pvPackhiB rd rs1 rs2) rd (fun k => if k = 3 then byteAt a 0 else if k = 2 then byteAt b 0 else byteAt d k) ∧
      WritesBytes s (.pvPackloB rd rs1 rs2) rd (fun k => if k = 1 then byteAt a 0 else if k = 0 then byteAt b 0 else byteAt d k)) ∧
    encode (.pvPackH rd rs1 rs2) = .word (0b11010#5 ++ 0#1 ++ 0#1 ++ rs2 ++ rs1 ++ 0#3 ++ rd ++ 0x57#7) ∧
    encode (.pvPackhiB rd rs1 rs2) = .word (0b11011#5 ++ 0#1 ++ 0#1 ++ rs2 ++ rs1 ++ 1#3 ++ rd ++ 0x57#7) ∧
    encode (.pvPackloB rd rs1 rs2) = .word (0b11100#5 ++ 0#1 ++ 0#1 ++ rs2 ++ rs1 ++ 1#3 ++ rd ++ 0x57#7)

/-- No bit of an encoding is dropped and no two words decode alike, for all 414 constructors (30_encoding.md R140, R159, R175; byte order notes/assumptions/25.md). -/
def Obligations.DecodeAndEncodeAreInverse : Prop :=
  (∀ (i : Instr) (rest : List Byte), i.wf = true → decode ((encode i).bytes ++ rest) = .ok (i, rest)) ∧
  (∀ (c : Code) (i : Instr), decodeCode c = .ok i → i.wf = true ∧ encode i = c)

/-- A sanity statement: bits are read right (30_encoding.md R142 to R162). -/
def Obligations.SampleWordsDecode : Prop :=
  decodeCode (.word (0xFFF#12 ++ 6#5 ++ 0#3 ++ 5#5 ++ 0b0010011#7)) = .ok (.addi 5 6 0xFFF) ∧
  decodeCode (.word (1#1 ++ 0b000001#6 ++ 7#5 ++ 6#5 ++ 0#3 ++ 0b0010#4 ++ 1#1 ++ 0b1100011#7)) = .ok (.beq 6 7 0b110000010010) ∧
  decodeCode (.word (0#1 ++ 0b0000000101#10 ++ 1#1 ++ 0b10000001#8 ++ 1#5 ++ 0b1101111#7)) = .ok (.jal 1 0b01000000110000000101) ∧
  decodeCode (.word (0x300#12 ++ 6#5 ++ 1#3 ++ 5#5 ++ 0b1110011#7)) = .ok (.csrrw 5 6 0x300) ∧
  decodeCode (.word (1#7 ++ 7#5 ++ 6#5 ++ 0#3 ++ 5#5 ++ 0b0110011#7)) = .ok (.mul 5 6 7) ∧
  decodeCode (.word (0#7 ++ 7#5 ++ 6#5 ++ 7#3 ++ 5#5 ++ 0b1010011#7)) = .ok (.faddS 5 6 7 7) ∧
  decodeCode (.word (4#12 ++ 6#5 ++ 2#3 ++ 5#5 ++ 0b0001011#7)) = .ok (.pLwPostImm 5 6 4) ∧
  decodeCode (.word (4#12 ++ 5#5 ++ 4#3 ++ 0#4 ++ 1#1 ++ 0b1111011#7)) = .ok (.lpSetup 1 5 4) ∧
  decodeCode (.word (0b11#2 ++ 7#5 ++ 4#5 ++ 6#5 ++ 0#3 ++ 5#5 ++ 0b0110011#7)) = .ok (.pExtract 5 6 7 4) ∧
  decodeCode (.word (0b00#2 ++ 3#5 ++ 7#5 ++ 6#5 ++ 2#3 ++ 5#5 ++ 0b1011011#7)) = .ok (.pAddN 5 6 7 3) ∧
  decodeCode (.word (0b0100001#7 ++ 7#5 ++ 6#5 ++ 0#3 ++ 5#5 ++ 0b0110011#7)) = .ok (.pMac 5 6 7) ∧
  decodeCode (.word (0#5 ++ 0#1 ++ 1#1 ++ 0b11110#5 ++ 6#5 ++ 6#3 ++ 5#5 ++ 0b1010111#7)) = .ok (.pvAddSciH 5 6 0b111101) ∧
  decodeCode (.half (0#3 ++ 1#1 ++ 10#5 ++ 0b11111#5 ++ 0b01#2)) = .ok (.cAddi 10 0b111111) ∧
  decodeCode (.half (2#3 ++ 1#1 ++ 10#5 ++ 0b01001#5 ++ 0b10#2)) = .ok (.cLwsp 10 0b011010) ∧
  decodeCode (.half (5#3 ++ 1#1 ++ 0b10110#5 ++ 0b10101#5 ++ 0b01#2)) = .ok (.cJ 0b11011011010)

/-- 00_scope.md R11. What a step adds around an instruction is spelled out in `ends`; it is the model's: DBG_PPC (notes/assumptions/44.md), the registers noted (48.md), the halt after a single step (21.md, 49.md), the counted events (18.md, 19.md), the free value used up (12.md); reserved classes are 29.md. -/
def Obligations.StepRunsTheDecodedInstruction : Prop :=
  ∀ s : State, s.inputs = [] → s.halted = false → s.sleeping = false → s.takeable = none →
    let ends (ev : Events) (wrote : Option (List Reg)) (t : State) : State := { t with
      pccr := (countEvents ev s.begin t).pccr
      ppc := s.pc
      prevWrites := wrote
      halted := t.halted || t.sste
      ssth := t.ssth || t.sste
      dbgCause := if t.sste && !t.halted then Config.freeCause t.draws else t.dbgCause
      draws := t.draws + 1 }
    (∀ f, s.begin.fetch = .error (.fault f) → step s = .fault f) ∧
    (∀ r, s.begin.fetch = .error (.refuse r) → step s = .refused r) ∧
    (∀ c, s.begin.fetch = .ok c →
      (∀ i, decodeCode c = .ok i →
        (∀ t, exec i s.begin = .next t →
          step s = .next (ends (eventsOf s.begin i (codeLength c)) (writesOf s.begin i) t)) ∧
        (∀ f, exec i s.begin = .fault f → step s = .fault f) ∧
        (∀ r, exec i s.begin = .refused r → step s = .refused r)) ∧
      (decodeCode c = .error .illegal → step s = .next (ends exceptionEvents none s.begin.illegalInstruction)) ∧
      (∀ r, decodeCode c = .error (.reserved r) → step s = .refused (.reservedEncoding r)))

/-- 00_scope.md R11 step 2, 20_memory.md R100, R118 (decision D5, notes/assumptions/26.md); 10_state.md R50 (52.md). -/
def Obligations.FetchReadsTheParcelsAtThePc : Prop :=
  ∀ s : State,
    let answers (a : Word) : Prop := s.stopAccess .fetch a 2 = none
    let fresh (a : Word) : Prop := s.isDirty a = false ∧ s.isDirty (a + 1) = false
    let p := s.fetched s.pc 2
    (answers s.pc → fresh s.pc → p % 4 ≠ 3 → s.fetch = .ok (.half (BitVec.ofNat 16 p))) ∧
    (answers s.pc → fresh s.pc → p % 4 = 3 → answers (s.pc + 2) → fresh (s.pc + 2) →
      s.fetch = .ok (.word (BitVec.ofNat 32 (s.fetched s.pc 4)))) ∧
    (answers s.pc → ¬ fresh s.pc → s.fetch = .error (.refuse (.staleFetch s.pc))) ∧
    (answers s.pc → fresh s.pc → p % 4 = 3 → answers (s.pc + 2) → ¬ fresh (s.pc + 2) →
      s.fetch = .error (.refuse (.staleFetch (s.pc + 2)))) ∧
    (∀ a, s.deviceAt .fetch a = false →
      s.code8 a = if s.params.unified then s.read8 a else Memory.read8 s.imem a) ∧
    (∀ a, s.deviceAt .fetch a = true → s.code8 a = Config.freeDeviceCode s.draws a.toNat)

/-- 60_exceptions.md R706, R707, R713 (decisions D17, D18, D30; notes/assumptions/10.md, 35.md, 51.md). -/
def Obligations.InterruptIsTaken : Prop :=
  ∀ (s : State) (i : BitVec 5), s.inputs = [] → s.halted = false → s.mstatus.getLsbD 3 = true → s.irq = some i →
    (s.heldIrq && Config.freeHolds s.draws) = false → ∃ t, step s = .next t ∧ t.mepc = s.pc ∧ t.mcause.toNat = 2 ^ 31 + i.toNat ∧
      t.mstatus.getLsbD 3 = false ∧ t.mstatus.getLsbD 7 = true ∧
      (∀ k, k ≠ 3 → k ≠ 7 → t.mstatus.getLsbD k = s.mstatus.getLsbD k) ∧
      t.pc.toNat = s.bootAddr.toNat / 256 * 256 + 4 * i.toNat ∧ t.irqAck = some i ∧ t.imem = s.imem ∧ t.sleeping = false ∧
      t.x = s.x ∧ t.f = s.f ∧ t.mem = s.mem ∧ t.loop0 = s.loop0 ∧ t.loop1 = s.loop1 ∧ t.fflags = s.fflags ∧ t.frm = s.frm

/-- 60_exceptions.md R709 (d), R741 to R749, R752, R753; 10_state.md R23, R42, R46. Model choices: an odd value for DBG_NPC (R747 and U12 beside R23; notes/assumptions/55.md, DEDUCED), the inputs and pulses (notes/assumptions/9.md), DBG_NPC as the pc (22.md), refused accesses (23.md), what is pending (24.md), unnamed bits (40.md), DBG_PPC (44.md), what resume notes (48.md, 51.md), SSTE written while running (49.md). -/
def Obligations.DebugHostAccess : Prop :=
  ∀ (s : State) (r : Reg) (n : CsrNum) (v : Word) (rest : List Input),
    let gpr : BitVec 15 := BitVec.ofNat 15 (0x400 + 4 * r.toNat)
    let csr : BitVec 15 := BitVec.ofNat 15 (0x4000 + 4 * n.toNat)
    let used : State := { s with inputs := rest, draws := s.draws + 1 }
    let resumed : State := { used with
      halted := false, heldIrq := if s.halted then s.irq.isSome else s.heldIrq
      prevWrites := if s.halted then none else s.prevWrites }
    let pending : Bool := (s.mstatus.getLsbD 3 && s.irq.isSome) || s.trapPending
    let halts : Prop := ∃ t, step s = .next t ∧ t.halted = true ∧ t.pc = s.pc ∧ t.x = s.x ∧ t.ppc = s.ppc ∧
      t.mem = s.mem ∧ t.inputs = rest
    (s.inputs = [] → s.halted = true → ∃ t, step s = .next t ∧ t.halted = true ∧ t.x = s.x ∧ t.f = s.f ∧ t.pc = s.pc ∧
      t.mem = s.mem ∧ t.mepc = s.mepc ∧ t.mcause = s.mcause ∧ t.mstatus = s.mstatus) ∧
    (s.inputs = [] → s.halted = false → s.sleeping = false → s.sste = true →
      (∀ i, s.takeable = some i → ∃ t, step s = .next t ∧ t.halted = true ∧ t.ssth = true) ∧
      (∀ c i t, s.takeable = none → s.begin.fetch = .ok c → decodeCode c = .ok i → exec i s.begin = .next t →
        ∃ u, step s = .next u ∧ u.halted = true ∧ u.ssth = true ∧ u.ppc = s.pc ∧ u.pc = t.pc ∧ u.x = t.x ∧
          u.mem = t.mem)) ∧
    (s.halted = true →
      (s.inputs = .debugWrite gpr v :: rest → step s = .next (used.writeX r v)) ∧
      (s.inputs = .debugRead gpr :: rest → step s = .next { used with dbgRdata := s.readX r }) ∧
      (s.inputs = .debugWrite 0x2000 v :: rest → 
        (v.getLsbD 0 = false → step s = .next { used with pc := v }) ∧
        (v.getLsbD 0 = true → step s = .refused (.debugAccess 0x2000))) ∧
      (s.inputs = .debugRead 0x2000 :: rest → step s = .next { used with dbgRdata := s.pc }) ∧
      (s.inputs = .debugWrite 0x2004 v :: rest → step s = .refused (.debugAccess 0x2004)) ∧
      (s.inputs = .debugRead 0x2004 :: rest → step s = .next { used with dbgRdata := s.ppc }) ∧
      (∀ c, Csr.ofNumber s.params.fpu n = some c → s.inputs = .debugRead csr :: rest →
        step s = .next { used with dbgRdata := s.readCsr c }) ∧
      (∀ c, Csr.ofNumber s.params.fpu n = some c → s.inputs = .debugWrite csr v :: rest →
        step s = if c.readOnly then .refused (.csrReadOnly n) else .next (used.writeCsr c v)) ∧
      (Csr.ofNumber s.params.fpu n = none → s.inputs = .debugRead csr :: rest ∨ s.inputs = .debugWrite csr v :: rest →
        step s = .refused (.csrUnimplemented n)) ∧
      (s.inputs = .debugWrite 0x0000 v :: rest → v.getLsbD 16 = true →
        step s = .next { used with sste := v.getLsbD 0 }) ∧
      (s.inputs = .haltPulse :: rest → step s = .next used)) ∧
    (s.halted = false → ∀ a ∈ [gpr, 0x2000, 0x2004, csr],
      (s.inputs = .debugRead a :: rest → step s = .refused (.debugAccess a)) ∧
      (s.inputs = .debugWrite a v :: rest → step s = .refused (.debugAccess a))) ∧
    (s.inputs = .debugRead 0x0000 :: rest → step s = .next { used with
      dbgRdata := BitVec.ofNat 32 ((if s.halted then 65536 else 0) + if s.sste then 1 else 0) }) ∧
    (s.inputs = .debugRead 0x0004 :: rest → step s = .next { used with
      dbgRdata := BitVec.ofNat 32 ((if s.sleeping then 65536 else 0) + if s.ssth then 1 else 0) }) ∧
    (s.inputs = .debugWrite 0x0004 v :: rest → step s = .next { used with ssth := v.getLsbD 0 }) ∧
    (s.inputs = .debugRead 0x0008 :: rest → step s = .next { used with dbgRdata := s.dbgIe }) ∧
    (s.inputs = .debugWrite 0x0008 v :: rest → ∃ w : Word, step s = .next { used with dbgIe := w } ∧
      ∀ k, w.getLsbD k = (decide (k = 11 ∨ k < 8) && v.getLsbD k)) ∧
    (s.inputs = .debugRead 0x000C :: rest → ∃ w : Word, step s = .next { used with dbgRdata := w } ∧
      w.toNat = s.dbgCause.toNat) ∧
    (s.inputs = .debugWrite 0x000C v :: rest → step s = .refused (.debugAccess 0x000C)) ∧
    (∀ k < 8,
      let ctrl : BitVec 15 := BitVec.ofNat 15 (0x40 + 8 * k)
      let data : BitVec 15 := BitVec.ofNat 15 (0x44 + 8 * k)
      (s.inputs = .debugRead ctrl :: rest → step s = .next { used with dbgRdata := 0 }) ∧
      (s.inputs = .debugRead data :: rest → step s = .next { used with dbgRdata := Config.freeBpData s.draws }) ∧
      (s.inputs = .debugWrite ctrl v :: rest ∨ s.inputs = .debugWrite data v :: rest → step s = .next used)) ∧
    (s.inputs = .debugWrite 0x0000 v :: rest → v.getLsbD 16 = false →
      step s = .next { resumed with sste := v.getLsbD 0 }) ∧
    (s.inputs = .resumePulse :: rest → step s = .next resumed) ∧
    (s.halted = false →
      (s.inputs = .debugWrite 0x0000 v :: rest → v.getLsbD 16 = true →
        (pending = false → halts) ∧ (pending = true → step s = .refused .haltRace)) ∧
      (s.inputs = .haltPulse :: rest → (pending = false → halts) ∧ (pending = true → step s = .refused .haltRace)))

/-- The frame of every instruction over the two register files. -/
def Obligations.OnlyDestinationRegistersChange : Prop :=
  ∀ (i : Instr) (s t : State), exec i s = .next t →
    (∀ r : Reg, r ∉ xWritten i → t.readX r = s.readX r) ∧ (∀ r : Reg, r ∉ fWritten i → t.readF r = s.readF r)

/-- The frame of every instruction over memory in its canonical form (`Inv.mem_wf`); `storesTo` takes the address from the function the meanings use; `settled` is the state itself unless the access is split (20_memory.md R108, notes/assumptions/39.md). -/
def Obligations.OnlyStoredBytesChange : Prop :=
  ∀ (i : Instr) (s t : State), exec i s = .next t →
    (Memory.wf s.mem = true → ∀ a : Word, ¬ storesTo s i a → t.read8 a = (s.settled i).read8 a) ∧ t.imem = s.imem ∧
    (s.between = [] → s.settled i = s)

/-- The frame of the instructions over the special registers. -/
def Obligations.OnlyNamedSystemStateChanges : Prop :=
  ∀ (i : Instr) (s t : State), exec i s = .next t → isCsrAccess i = false → entersTrap s i = false → i ≠ .mret → i ≠ .wfi →
    t.mstatus = s.mstatus ∧ t.mepc = s.mepc ∧ t.mcause = s.mcause ∧ t.pcmr = s.pcmr ∧ t.pcer = s.pcer ∧ t.pccr = s.pccr ∧
    t.frm = s.frm ∧ t.fprec = s.fprec ∧ t.sleeping = s.sleeping ∧ t.irq = s.irq ∧ t.irqAck = s.irqAck ∧
    t.bootAddr = s.bootAddr ∧ t.halted = s.halted ∧ t.sste = s.sste ∧ t.ssth = s.ssth ∧ t.dbgIe = s.dbgIe ∧
    t.dbgCause = s.dbgCause ∧ t.ppc = s.ppc ∧ t.dbgRdata = s.dbgRdata ∧ t.inputs = s.inputs ∧ t.draws = s.draws ∧
    t.params = s.params ∧ t.imem = s.imem ∧ t.prevWrites = s.prevWrites ∧ t.heldIrq = s.heldIrq ∧
    t.between = (s.settled i).between ∧
    (if mayRaiseFlags i then ∃ w, t.fflags = s.fflags ||| w else t.fflags = s.fflags) ∧
    (isLoopSetup i = false → t.loop0.start = s.loop0.start ∧ t.loop0.stop = s.loop0.stop ∧
      t.loop1.start = s.loop1.start ∧ t.loop1.stop = s.loop1.stop) ∧
    ((∀ a, ¬ storesTo s i a) → i ≠ .fenceI → t.dirty = (s.settled i).dirty)

/-- 10_state.md R23, R27, R30, R33, R34; 60_exceptions.md R744; the canonical form of memory; no sleep with a request present is R756 under decision D15 (notes/assumptions/11.md). -/
def Obligations.InvariantIsKeptByEveryStep : Prop :=
  ∀ s t : State, Inv s → step s = .next t → Inv t

/-- The values of 10_state.md R49 that the spec gives; 70_reset_and_hazards.md R801. The instance of State.reset is notes/assumptions/7.md. -/
def Obligations.ResetStateMeetsTheInvariantAndR49 : Prop :=
  (∀ (p : Params) (boot : Word),
    let s := State.resetOf p boot
    Inv s ∧ s.pc.toNat = boot.toNat / 256 * 256 + 0x80 ∧ s.params = p ∧ s.bootAddr = boot ∧
    s.mstatus = 0x00001800 ∧ s.mepc = 0 ∧ s.mcause = 0 ∧ s.readCsr .privlv = 3 ∧
    (s.readCsr .mtvec).toNat = boot.toNat / 256 * 256 ∧ s.pcmr = 3 ∧ s.pcer = 0 ∧
    (∀ k < 31, s.counter k = 0) ∧ s.fprec = 0 ∧ s.sleeping = false ∧ s.dirty = []) ∧
  (∀ p, (State.resetOf p 0x1C008000).pc = 0x1C008080 ∧ (State.resetOf p 0x000000FF).pc = 0x00000080) ∧
  State.reset = State.resetOf Params.default 0

/-- 60_exceptions.md R721 to R725, 40_rv32i_base.md R204 (notes/assumptions/18.md, 48.md). That the shared counter advances by 1 to the number of the known events is DEDUCED (19.md); that an ebreak that halts counts as an executed instruction is a DESIGN CHOICE (54.md). -/
def Obligations.CountersCountAndAreWritten : Prop :=
  (∀ (i : Instr) (n : Word) (s t : State), s.params.perfCounters = .individual → raisesException s i = false →
      t.params = s.params →
      let u := countEvents (eventsOf s i n) s t
      let limit : Nat := 2 ^ 32 - 1
      let advanced (v : Word) (c : Nat) : Word :=
        if t.pcmr.getLsbD 0 then BitVec.ofNat 32 (min (v.toNat + c) limit) else BitVec.ofNat 32 (v.toNat + c)
      let counts (k c : Nat) : Prop := t.live k = true → u.counter k = advanced (t.counter k) c
      let accesses (kind : Access) : Nat :=
        match dataAccess s i with
        | some d => if d.kind = kind then (if 4 < d.addr.toNat % 4 + d.size then 2 else 1) else 0
        | none => 0
      counts 1 1 ∧
      (∀ w, s.prevWrites = some w →
        counts 3 (match jumpBase i with | some r => if r ≠ 0 ∧ r ∈ w then 1 else 0 | none => 0)) ∧
      (jumpBase i = none → counts 3 0) ∧
      counts 5 (accesses .load) ∧ counts 6 (accesses .store) ∧ counts 7 (if isJump i then 1 else 0) ∧
      counts 8 (if branchTaken s i = none then 0 else 1) ∧ counts 9 (if branchTaken s i = some true then 1 else 0) ∧
      counts 10 (if n = 2 then 1 else 0) ∧
      (∃ c, c ≤ accesses .load ∧ counts 11 c) ∧ (∃ c, c ≤ accesses .store ∧ counts 12 c) ∧
      (∀ k < 31, s.live k = false → t.live k = false → u.counter k = t.counter k)) ∧
  (∀ (i : Instr) (n : Word) (s t : State), s.params.perfCounters = .single → raisesException s i = false →
      t.params = s.params → t.pcer = s.pcer → t.pcmr = s.pcmr →
      let u := countEvents (eventsOf s i n) s t
      let advancedBy (c : Nat) : Prop := u.counter 0 =
        if t.pcmr.getLsbD 0 then BitVec.ofNat 32 (min ((t.counter 0).toNat + c) (2 ^ 32 - 1))
        else BitVec.ofNat 32 ((t.counter 0).toNat + c)
      let accesses (kind : Access) : Nat :=
        match dataAccess s i with
        | some d => if d.kind = kind then (if 4 < d.addr.toNat % 4 + d.size then 2 else 1) else 0
        | none => 0
      let known : List (Nat × Nat) := [(1, 1), (5, accesses .load), (6, accesses .store), (7, if isJump i then 1 else 0),
        (8, if branchTaken s i = none then 0 else 1), (9, if branchTaken s i = some true then 1 else 0),
        (10, if n = 2 then 1 else 0)]
      let total : Nat := (known.map fun e => if t.pcer.getLsbD e.1 then e.2 else 0).sum
      (∀ k, k ≠ 0 → u.counter k = t.counter k) ∧
      (t.liveShared = false → u.counter 0 = t.counter 0) ∧
      (t.liveShared = true → (∀ k < 21, t.pcer.getLsbD k = true → k ∈ known.map Prod.fst) →
        (total = 0 → u.counter 0 = t.counter 0) ∧ (total = 1 → advancedBy 1) ∧
        (1 < total → ∃ c, 1 ≤ c ∧ c ≤ total ∧ advancedBy c))) ∧
  (∀ (s : State) (v : Word) (n : BitVec 5),
      (s.params.perfCounters = .individual →
        (∀ k < 31, (s.writeCsr (.pccr 31) v).counter k = v) ∧
        (n ≠ 31 → (∀ k < 31, (s.writeCsr (.pccr n) v).counter k = if k = n.toNat then v else s.counter k) ∧
          (s.live n.toNat = false → (s.writeCsr (.pccr n) v).readCsr (.pccr n) = v))) ∧
      (s.params.perfCounters = .single →
        (∀ k < 31, (s.writeCsr (.pccr n) v).counter k = if k = 0 then v else s.counter k) ∧
        (s.liveShared = false → ∀ m, (s.writeCsr (.pccr n) v).readCsr (.pccr m) = v)))

/-- 20_memory.md R107, R108, R110, R111, R118 to R120; 92_eei_decisions.md D6, D35, D39 (notes/assumptions/6.md, 9.md, 26.md, 39.md, 50.md, 52.md). -/
def Obligations.DataPortTransactions : Prop :=
  ∀ s : State,
    (∀ (b : Word) (n : Nat), b.toNat % 4 + n ≤ 4 →
      s.settle b n = s ∧ ∀ j < n, s.accessByte b j = s.load8 (b + BitVec.ofNat 32 j)) ∧
    (∀ (b : Word) (n : Nat), 4 < b.toNat % 4 + n →
      s.settle b n = s.landed ∧ ∀ j < n, s.accessByte b j =
        (if b.toNat % 4 + j < 4 then s else s.landed).load8 (b + BitVec.ofNat 32 j)) ∧
    s.landed.between = [] ∧ s.landed.x = s.x ∧ s.landed.pc = s.pc ∧
    (Memory.wf s.mem = true → ∀ b, s.landed.read8 b =
      ((s.between.reverse.find? fun c => c.1 == b).map Prod.snd).getD (s.read8 b)) ∧
    (∀ b, s.load8 b = if s.deviceAt .load b then Config.freeDeviceByte s.draws b.toNat else s.read8 b) ∧
    (∀ b v, s.store8 b v =
      if s.deviceAt .store b then { s with dirty := AddrSet.insert b.toNat s.dirty } else s.put8 b v) ∧
    (∀ (d : List Nat) (b c : Nat), c ∈ AddrSet.insert b d ↔ c = b ∨ c ∈ d) ∧
    (∀ k b n, s.stopAccess k b n = none ↔
      ∀ j < n, ∃ r, s.regionAt k (b + BitVec.ofNat 32 j) = some r ∧ r.kind ≠ .silent) ∧
    (∀ k b,
      (s.regionAt k b = none → s.stopAt k b = some (.refuse (.noMemory b))) ∧
      (∀ r, s.regionAt k b = some r → s.stopAt k b = if r.kind = .silent then some (.fault (.stuck b)) else none)) ∧
    (∀ k b n e, s.stopAccess k b n = some e ↔ ∃ j < n, s.stopAt k (b + BitVec.ofNat 32 j) = some e ∧
      ∀ l < j, s.stopAt k (b + BitVec.ofNat 32 l) = none) ∧
    (∀ i d, dataAccess s i = some d → raisesException s i = false →
      (∀ f, s.stopAccess d.kind d.addr d.size = some (.fault f) → exec i s = .fault f) ∧
      (∀ r, s.stopAccess d.kind d.addr d.size = some (.refuse r) → exec i s = .refused r)) ∧
    (∀ e, s.stopAccess .fetch s.pc 2 = some e → s.fetch = .error e) ∧
    (∀ e, s.stopAccess .fetch s.pc 2 = none → s.isDirty s.pc = false → s.isDirty (s.pc + 1) = false →
      s.fetched s.pc 2 % 4 = 3 → s.stopAccess .fetch (s.pc + 2) 2 = some e → s.fetch = .error e) ∧
    (∀ p b v rest, s.inputs = .busWrite p b v :: rest →
      (s.sharedAt b = false → step s = .refused (.busWriteOutside b)) ∧
      (s.sharedAt b = true → Memory.wf s.mem = true → Memory.wf s.imem = true → ∃ t, step s = .next t ∧
        t.x = s.x ∧ t.pc = s.pc ∧
        (p = .data ∨ s.params.unified = true → t.read8 b = v ∧ (∀ c, c ≠ b → t.read8 c = s.read8 c) ∧
          t.imem = s.imem ∧ (s.params.unified = true → t.isDirty b = true)) ∧
        (p = .instr → s.params.unified = false → Memory.read8 t.imem b = v ∧
          (∀ c, c ≠ b → Memory.read8 t.imem c = Memory.read8 s.imem c) ∧ t.mem = s.mem ∧ t.isDirty b = true))) ∧
    (∀ b v rest, s.inputs = .busWriteBetween b v :: rest →
      (s.sharedAt b = false → step s = .refused (.busWriteOutside b)) ∧
      (s.sharedAt b = true → step s = .next
        { s with between := s.between ++ [(b, v)], inputs := rest, draws := s.draws + 1 }))
end

