-- ==== Sys2Proof/Laws/Encoding.lean ====
section
/-! SUPPORT. Taking a word of the encoder apart gives the fields it was made of, so decoding an encoded word is decoding its
fields. -/

namespace Sys2Proof

/-! ### Slices of a concatenation -/

theorem extract_append_high {n m : Nat} (x : BitVec n) (y : BitVec m) (start len : Nat) :
    (x ++ y).extractLsb' (m + start) len = x.extractLsb' start len := by
  apply BitVec.eq_of_getLsbD_eq
  intro i hi
  simp [BitVec.getLsbD_extractLsb', BitVec.getLsbD_append, Nat.add_assoc]

theorem extract_append_low {n m : Nat} (x : BitVec n) (y : BitVec m) (start len : Nat) (h : start + len ≤ m) :
    (x ++ y).extractLsb' start len = y.extractLsb' start len := by
  apply BitVec.eq_of_getLsbD_eq
  intro i hi
  have : start + i < m := by omega
  simp [BitVec.getLsbD_extractLsb', BitVec.getLsbD_append, this]

theorem extract_all {n : Nat} (x : BitVec n) : x.extractLsb' 0 n = x := by simp

/-! ### The six fields of a 32-bit word -/

section Word
variable (f7 : BitVec 7) (rs2 rs1 : BitVec 5) (f3 : BitVec 3) (rd : BitVec 5) (op : BitVec 7)

@[simp] theorem fOp_encR : fOp (encR f7 rs2 rs1 f3 rd op) = op :=
  (extract_append_low (f7 ++ rs2 ++ rs1 ++ f3 ++ rd) op 0 7 (by omega)).trans (extract_all op)

@[simp] theorem fRd_encR : fRd (encR f7 rs2 rs1 f3 rd op) = rd :=
  (extract_append_high (f7 ++ rs2 ++ rs1 ++ f3 ++ rd) op 0 5).trans
    ((extract_append_low (f7 ++ rs2 ++ rs1 ++ f3) rd 0 5 (by omega)).trans (extract_all rd))

@[simp] theorem fF3_encR : fF3 (encR f7 rs2 rs1 f3 rd op) = f3 :=
  (extract_append_high (f7 ++ rs2 ++ rs1 ++ f3 ++ rd) op 5 3).trans <|
    (extract_append_high (f7 ++ rs2 ++ rs1 ++ f3) rd 0 3).trans <|
    (extract_append_low (f7 ++ rs2 ++ rs1) f3 0 3 (by omega)).trans (extract_all f3)

@[simp] theorem fRs1_encR : fRs1 (encR f7 rs2 rs1 f3 rd op) = rs1 :=
  (extract_append_high (f7 ++ rs2 ++ rs1 ++ f3 ++ rd) op 8 5).trans <|
    (extract_append_high (f7 ++ rs2 ++ rs1 ++ f3) rd 3 5).trans <|
    (extract_append_high (f7 ++ rs2 ++ rs1) f3 0 5).trans <|
    (extract_append_low (f7 ++ rs2) rs1 0 5 (by omega)).trans (extract_all rs1)

@[simp] theorem fRs2_encR : fRs2 (encR f7 rs2 rs1 f3 rd op) = rs2 :=
  (extract_append_high (f7 ++ rs2 ++ rs1 ++ f3 ++ rd) op 13 5).trans <|
    (extract_append_high (f7 ++ rs2 ++ rs1 ++ f3) rd 8 5).trans <|
    (extract_append_high (f7 ++ rs2 ++ rs1) f3 5 5).trans <|
    (extract_append_high (f7 ++ rs2) rs1 0 5).trans <|
    (extract_append_low f7 rs2 0 5 (by omega)).trans (extract_all rs2)

@[simp] theorem fF7_encR : fF7 (encR f7 rs2 rs1 f3 rd op) = f7 :=
  (extract_append_high (f7 ++ rs2 ++ rs1 ++ f3 ++ rd) op 18 7).trans <|
    (extract_append_high (f7 ++ rs2 ++ rs1 ++ f3) rd 13 7).trans <|
    (extract_append_high (f7 ++ rs2 ++ rs1) f3 10 7).trans <|
    (extract_append_high (f7 ++ rs2) rs1 5 7).trans <|
    (extract_append_high f7 rs2 0 7).trans (extract_all f7)

/-- Decoding a word that the encoder put together is decoding its fields. -/
theorem decode32_encR : decode32 (encR f7 rs2 rs1 f3 rd op) = decodeFields f7 rs2 rs1 f3 rd op := by
  simp only [decode32, fOp_encR, fRd_encR, fF3_encR, fRs1_encR, fRs2_encR, fF7_encR]

/-- The first parcel of such a word tells its length. -/
theorem isLong_encR (h : op.extractLsb' 0 2 = 3#2) :
    isLong ((encR f7 rs2 rs1 f3 rd op).extractLsb' 0 16) = true := by
  have e : cOp ((encR f7 rs2 rs1 f3 rd op).extractLsb' 0 16) = op.extractLsb' 0 2 := by
    apply BitVec.eq_of_getLsbD_eq
    intro i hi
    have h7 : i < 7 := by omega
    have h16 : i < 16 := by omega
    simp only [cOp, encR, BitVec.getLsbD_extractLsb', BitVec.getLsbD_append, hi, h7, h16, Nat.zero_add, decide_true,
      Bool.true_and, if_true]
  simp [isLong, e, h]

end Word

/-! ### The five fields of a compressed word -/

section Half
variable (f3 : BitVec 3) (b : BitVec 1) (hi lo : BitVec 5) (op : BitVec 2)

@[simp] theorem cOp_encC : cOp (encC f3 b hi lo op) = op :=
  (extract_append_low (f3 ++ b ++ hi ++ lo) op 0 2 (by omega)).trans (extract_all op)

@[simp] theorem cLo_encC : cLo (encC f3 b hi lo op) = lo :=
  (extract_append_high (f3 ++ b ++ hi ++ lo) op 0 5).trans
    ((extract_append_low (f3 ++ b ++ hi) lo 0 5 (by omega)).trans (extract_all lo))

@[simp] theorem cHi_encC : cHi (encC f3 b hi lo op) = hi :=
  (extract_append_high (f3 ++ b ++ hi ++ lo) op 5 5).trans <|
    (extract_append_high (f3 ++ b ++ hi) lo 0 5).trans <|
    (extract_append_low (f3 ++ b) hi 0 5 (by omega)).trans (extract_all hi)

@[simp] theorem cB12_encC : cB12 (encC f3 b hi lo op) = b :=
  (extract_append_high (f3 ++ b ++ hi ++ lo) op 10 1).trans <|
    (extract_append_high (f3 ++ b ++ hi) lo 5 1).trans <|
    (extract_append_high (f3 ++ b) hi 0 1).trans <|
    (extract_append_low f3 b 0 1 (by omega)).trans (extract_all b)

@[simp] theorem cF3_encC : cF3 (encC f3 b hi lo op) = f3 :=
  (extract_append_high (f3 ++ b ++ hi ++ lo) op 11 3).trans <|
    (extract_append_high (f3 ++ b ++ hi) lo 6 3).trans <|
    (extract_append_high (f3 ++ b) hi 1 3).trans <|
    (extract_append_high f3 b 0 3).trans (extract_all f3)

/-- Decoding a compressed word that the encoder put together is decoding its fields. -/
theorem decode16_encC : decode16 (encC f3 b hi lo op) = decodeCFields f3 b hi lo op := by
  simp only [decode16, cOp_encC, cLo_encC, cHi_encC, cB12_encC, cF3_encC]

/-- A compressed word tells its length. -/
theorem isLong_encC (h : op ≠ 3#2) : isLong (encC f3 b hi lo op) = false := by
  simp [isLong, h]

end Half

/-! ### Immediates put back in order -/

theorem immI_split (imm : BitVec 12) : immI (imm.extractLsb' 5 7) (imm.extractLsb' 0 5) = imm := by
  revert imm; decide +kernel

theorem immS_split (imm : BitVec 12) : immS (imm.extractLsb' 5 7) (imm.extractLsb' 0 5) = imm := by
  revert imm; decide +kernel

theorem immB_split (off : BitVec 12) :
    immB (off.extractLsb' 11 1 ++ off.extractLsb' 4 6) (off.extractLsb' 0 4 ++ off.extractLsb' 10 1) = off := by
  revert off; decide +kernel

end Sys2Proof
end

