-- ==== Sys2Proof/Laws/State.lean ====
section
/-! SUPPORT. What each update of the state leaves as it is, field by field, for every update the machine has; and what it
changes. -/

namespace Sys2Proof.Machine

/-- What one store behind the data port leaves as it is, the stores of another master in a split access leave as it is. -/
theorem foldl_put8 {α : Type} (g : State → α) (h : ∀ t a v, g (State.put8 t a v) = g t) (l : List (Word × Byte)) :
    ∀ s : State, g (l.foldl (fun t c => t.put8 c.1 c.2) s) = g s := by
  induction l with
  | nil => intro s; rfl
  | cons c l ih => intro s; exact (ih _).trans (h s c.1 c.2)

/-- What the store of one byte leaves as it is, a store leaves as it is. -/
theorem storeValue_keeps {α : Type} (g : State → α) (h : ∀ t a j v, g (State.storeByte t a j v) = g t) (s : State)
    (k : StoreKind) (a v : Word) : g (s.storeValue k a v) = g s := by
  cases k <;> simp [State.storeValue, StoreKind.size, List.range_succ, h]

/-! ### `writeX` -/

@[simp] theorem writeX_params (s : State) (r : Reg) (v : Word) : (s.writeX r v).params = s.params := by
  unfold State.writeX; split <;> rfl
@[simp] theorem writeX_f (s : State) (r : Reg) (v : Word) : (s.writeX r v).f = s.f := by
  unfold State.writeX; split <;> rfl
@[simp] theorem writeX_pc (s : State) (r : Reg) (v : Word) : (s.writeX r v).pc = s.pc := by
  unfold State.writeX; split <;> rfl
@[simp] theorem writeX_mstatus (s : State) (r : Reg) (v : Word) : (s.writeX r v).mstatus = s.mstatus := by
  unfold State.writeX; split <;> rfl
@[simp] theorem writeX_mepc (s : State) (r : Reg) (v : Word) : (s.writeX r v).mepc = s.mepc := by
  unfold State.writeX; split <;> rfl
@[simp] theorem writeX_mcause (s : State) (r : Reg) (v : Word) : (s.writeX r v).mcause = s.mcause := by
  unfold State.writeX; split <;> rfl
@[simp] theorem writeX_pcmr (s : State) (r : Reg) (v : Word) : (s.writeX r v).pcmr = s.pcmr := by
  unfold State.writeX; split <;> rfl
@[simp] theorem writeX_pcer (s : State) (r : Reg) (v : Word) : (s.writeX r v).pcer = s.pcer := by
  unfold State.writeX; split <;> rfl
@[simp] theorem writeX_pccr (s : State) (r : Reg) (v : Word) : (s.writeX r v).pccr = s.pccr := by
  unfold State.writeX; split <;> rfl
@[simp] theorem writeX_fflags (s : State) (r : Reg) (v : Word) : (s.writeX r v).fflags = s.fflags := by
  unfold State.writeX; split <;> rfl
@[simp] theorem writeX_frm (s : State) (r : Reg) (v : Word) : (s.writeX r v).frm = s.frm := by
  unfold State.writeX; split <;> rfl
@[simp] theorem writeX_fprec (s : State) (r : Reg) (v : Word) : (s.writeX r v).fprec = s.fprec := by
  unfold State.writeX; split <;> rfl
@[simp] theorem writeX_loop0 (s : State) (r : Reg) (v : Word) : (s.writeX r v).loop0 = s.loop0 := by
  unfold State.writeX; split <;> rfl
@[simp] theorem writeX_loop1 (s : State) (r : Reg) (v : Word) : (s.writeX r v).loop1 = s.loop1 := by
  unfold State.writeX; split <;> rfl
@[simp] theorem writeX_sleeping (s : State) (r : Reg) (v : Word) : (s.writeX r v).sleeping = s.sleeping := by
  unfold State.writeX; split <;> rfl
@[simp] theorem writeX_irq (s : State) (r : Reg) (v : Word) : (s.writeX r v).irq = s.irq := by
  unfold State.writeX; split <;> rfl
@[simp] theorem writeX_irqAck (s : State) (r : Reg) (v : Word) : (s.writeX r v).irqAck = s.irqAck := by
  unfold State.writeX; split <;> rfl
@[simp] theorem writeX_bootAddr (s : State) (r : Reg) (v : Word) : (s.writeX r v).bootAddr = s.bootAddr := by
  unfold State.writeX; split <;> rfl
@[simp] theorem writeX_halted (s : State) (r : Reg) (v : Word) : (s.writeX r v).halted = s.halted := by
  unfold State.writeX; split <;> rfl
@[simp] theorem writeX_sste (s : State) (r : Reg) (v : Word) : (s.writeX r v).sste = s.sste := by
  unfold State.writeX; split <;> rfl
@[simp] theorem writeX_ssth (s : State) (r : Reg) (v : Word) : (s.writeX r v).ssth = s.ssth := by
  unfold State.writeX; split <;> rfl
@[simp] theorem writeX_dbgIe (s : State) (r : Reg) (v : Word) : (s.writeX r v).dbgIe = s.dbgIe := by
  unfold State.writeX; split <;> rfl
@[simp] theorem writeX_dbgCause (s : State) (r : Reg) (v : Word) : (s.writeX r v).dbgCause = s.dbgCause := by
  unfold State.writeX; split <;> rfl
@[simp] theorem writeX_ppc (s : State) (r : Reg) (v : Word) : (s.writeX r v).ppc = s.ppc := by
  unfold State.writeX; split <;> rfl
@[simp] theorem writeX_dbgRdata (s : State) (r : Reg) (v : Word) : (s.writeX r v).dbgRdata = s.dbgRdata := by
  unfold State.writeX; split <;> rfl
@[simp] theorem writeX_mem (s : State) (r : Reg) (v : Word) : (s.writeX r v).mem = s.mem := by
  unfold State.writeX; split <;> rfl
@[simp] theorem writeX_imem (s : State) (r : Reg) (v : Word) : (s.writeX r v).imem = s.imem := by
  unfold State.writeX; split <;> rfl
@[simp] theorem writeX_dirty (s : State) (r : Reg) (v : Word) : (s.writeX r v).dirty = s.dirty := by
  unfold State.writeX; split <;> rfl
@[simp] theorem writeX_between (s : State) (r : Reg) (v : Word) : (s.writeX r v).between = s.between := by
  unfold State.writeX; split <;> rfl
@[simp] theorem writeX_prevWrites (s : State) (r : Reg) (v : Word) : (s.writeX r v).prevWrites = s.prevWrites := by
  unfold State.writeX; split <;> rfl
@[simp] theorem writeX_heldIrq (s : State) (r : Reg) (v : Word) : (s.writeX r v).heldIrq = s.heldIrq := by
  unfold State.writeX; split <;> rfl
@[simp] theorem writeX_inputs (s : State) (r : Reg) (v : Word) : (s.writeX r v).inputs = s.inputs := by
  unfold State.writeX; split <;> rfl
@[simp] theorem writeX_draws (s : State) (r : Reg) (v : Word) : (s.writeX r v).draws = s.draws := by
  unfold State.writeX; split <;> rfl

/-! ### `writeF` -/

@[simp] theorem writeF_params (s : State) (r : Reg) (v : Word) : (s.writeF r v).params = s.params := rfl
@[simp] theorem writeF_x (s : State) (r : Reg) (v : Word) : (s.writeF r v).x = s.x := rfl
@[simp] theorem writeF_pc (s : State) (r : Reg) (v : Word) : (s.writeF r v).pc = s.pc := rfl
@[simp] theorem writeF_mstatus (s : State) (r : Reg) (v : Word) : (s.writeF r v).mstatus = s.mstatus := rfl
@[simp] theorem writeF_mepc (s : State) (r : Reg) (v : Word) : (s.writeF r v).mepc = s.mepc := rfl
@[simp] theorem writeF_mcause (s : State) (r : Reg) (v : Word) : (s.writeF r v).mcause = s.mcause := rfl
@[simp] theorem writeF_pcmr (s : State) (r : Reg) (v : Word) : (s.writeF r v).pcmr = s.pcmr := rfl
@[simp] theorem writeF_pcer (s : State) (r : Reg) (v : Word) : (s.writeF r v).pcer = s.pcer := rfl
@[simp] theorem writeF_pccr (s : State) (r : Reg) (v : Word) : (s.writeF r v).pccr = s.pccr := rfl
@[simp] theorem writeF_fflags (s : State) (r : Reg) (v : Word) : (s.writeF r v).fflags = s.fflags := rfl
@[simp] theorem writeF_frm (s : State) (r : Reg) (v : Word) : (s.writeF r v).frm = s.frm := rfl
@[simp] theorem writeF_fprec (s : State) (r : Reg) (v : Word) : (s.writeF r v).fprec = s.fprec := rfl
@[simp] theorem writeF_loop0 (s : State) (r : Reg) (v : Word) : (s.writeF r v).loop0 = s.loop0 := rfl
@[simp] theorem writeF_loop1 (s : State) (r : Reg) (v : Word) : (s.writeF r v).loop1 = s.loop1 := rfl
@[simp] theorem writeF_sleeping (s : State) (r : Reg) (v : Word) : (s.writeF r v).sleeping = s.sleeping := rfl
@[simp] theorem writeF_irq (s : State) (r : Reg) (v : Word) : (s.writeF r v).irq = s.irq := rfl
@[simp] theorem writeF_irqAck (s : State) (r : Reg) (v : Word) : (s.writeF r v).irqAck = s.irqAck := rfl
@[simp] theorem writeF_bootAddr (s : State) (r : Reg) (v : Word) : (s.writeF r v).bootAddr = s.bootAddr := rfl
@[simp] theorem writeF_halted (s : State) (r : Reg) (v : Word) : (s.writeF r v).halted = s.halted := rfl
@[simp] theorem writeF_sste (s : State) (r : Reg) (v : Word) : (s.writeF r v).sste = s.sste := rfl
@[simp] theorem writeF_ssth (s : State) (r : Reg) (v : Word) : (s.writeF r v).ssth = s.ssth := rfl
@[simp] theorem writeF_dbgIe (s : State) (r : Reg) (v : Word) : (s.writeF r v).dbgIe = s.dbgIe := rfl
@[simp] theorem writeF_dbgCause (s : State) (r : Reg) (v : Word) : (s.writeF r v).dbgCause = s.dbgCause := rfl
@[simp] theorem writeF_ppc (s : State) (r : Reg) (v : Word) : (s.writeF r v).ppc = s.ppc := rfl
@[simp] theorem writeF_dbgRdata (s : State) (r : Reg) (v : Word) : (s.writeF r v).dbgRdata = s.dbgRdata := rfl
@[simp] theorem writeF_mem (s : State) (r : Reg) (v : Word) : (s.writeF r v).mem = s.mem := rfl
@[simp] theorem writeF_imem (s : State) (r : Reg) (v : Word) : (s.writeF r v).imem = s.imem := rfl
@[simp] theorem writeF_dirty (s : State) (r : Reg) (v : Word) : (s.writeF r v).dirty = s.dirty := rfl
@[simp] theorem writeF_between (s : State) (r : Reg) (v : Word) : (s.writeF r v).between = s.between := rfl
@[simp] theorem writeF_prevWrites (s : State) (r : Reg) (v : Word) : (s.writeF r v).prevWrites = s.prevWrites := rfl
@[simp] theorem writeF_heldIrq (s : State) (r : Reg) (v : Word) : (s.writeF r v).heldIrq = s.heldIrq := rfl
@[simp] theorem writeF_inputs (s : State) (r : Reg) (v : Word) : (s.writeF r v).inputs = s.inputs := rfl
@[simp] theorem writeF_draws (s : State) (r : Reg) (v : Word) : (s.writeF r v).draws = s.draws := rfl

/-! ### `raise` -/

@[simp] theorem raise_params (s : State) (w : BitVec 5) : (s.raise w).params = s.params := rfl
@[simp] theorem raise_x (s : State) (w : BitVec 5) : (s.raise w).x = s.x := rfl
@[simp] theorem raise_f (s : State) (w : BitVec 5) : (s.raise w).f = s.f := rfl
@[simp] theorem raise_pc (s : State) (w : BitVec 5) : (s.raise w).pc = s.pc := rfl
@[simp] theorem raise_mstatus (s : State) (w : BitVec 5) : (s.raise w).mstatus = s.mstatus := rfl
@[simp] theorem raise_mepc (s : State) (w : BitVec 5) : (s.raise w).mepc = s.mepc := rfl
@[simp] theorem raise_mcause (s : State) (w : BitVec 5) : (s.raise w).mcause = s.mcause := rfl
@[simp] theorem raise_pcmr (s : State) (w : BitVec 5) : (s.raise w).pcmr = s.pcmr := rfl
@[simp] theorem raise_pcer (s : State) (w : BitVec 5) : (s.raise w).pcer = s.pcer := rfl
@[simp] theorem raise_pccr (s : State) (w : BitVec 5) : (s.raise w).pccr = s.pccr := rfl
@[simp] theorem raise_frm (s : State) (w : BitVec 5) : (s.raise w).frm = s.frm := rfl
@[simp] theorem raise_fprec (s : State) (w : BitVec 5) : (s.raise w).fprec = s.fprec := rfl
@[simp] theorem raise_loop0 (s : State) (w : BitVec 5) : (s.raise w).loop0 = s.loop0 := rfl
@[simp] theorem raise_loop1 (s : State) (w : BitVec 5) : (s.raise w).loop1 = s.loop1 := rfl
@[simp] theorem raise_sleeping (s : State) (w : BitVec 5) : (s.raise w).sleeping = s.sleeping := rfl
@[simp] theorem raise_irq (s : State) (w : BitVec 5) : (s.raise w).irq = s.irq := rfl
@[simp] theorem raise_irqAck (s : State) (w : BitVec 5) : (s.raise w).irqAck = s.irqAck := rfl
@[simp] theorem raise_bootAddr (s : State) (w : BitVec 5) : (s.raise w).bootAddr = s.bootAddr := rfl
@[simp] theorem raise_halted (s : State) (w : BitVec 5) : (s.raise w).halted = s.halted := rfl
@[simp] theorem raise_sste (s : State) (w : BitVec 5) : (s.raise w).sste = s.sste := rfl
@[simp] theorem raise_ssth (s : State) (w : BitVec 5) : (s.raise w).ssth = s.ssth := rfl
@[simp] theorem raise_dbgIe (s : State) (w : BitVec 5) : (s.raise w).dbgIe = s.dbgIe := rfl
@[simp] theorem raise_dbgCause (s : State) (w : BitVec 5) : (s.raise w).dbgCause = s.dbgCause := rfl
@[simp] theorem raise_ppc (s : State) (w : BitVec 5) : (s.raise w).ppc = s.ppc := rfl
@[simp] theorem raise_dbgRdata (s : State) (w : BitVec 5) : (s.raise w).dbgRdata = s.dbgRdata := rfl
@[simp] theorem raise_mem (s : State) (w : BitVec 5) : (s.raise w).mem = s.mem := rfl
@[simp] theorem raise_imem (s : State) (w : BitVec 5) : (s.raise w).imem = s.imem := rfl
@[simp] theorem raise_dirty (s : State) (w : BitVec 5) : (s.raise w).dirty = s.dirty := rfl
@[simp] theorem raise_between (s : State) (w : BitVec 5) : (s.raise w).between = s.between := rfl
@[simp] theorem raise_prevWrites (s : State) (w : BitVec 5) : (s.raise w).prevWrites = s.prevWrites := rfl
@[simp] theorem raise_heldIrq (s : State) (w : BitVec 5) : (s.raise w).heldIrq = s.heldIrq := rfl
@[simp] theorem raise_inputs (s : State) (w : BitVec 5) : (s.raise w).inputs = s.inputs := rfl
@[simp] theorem raise_draws (s : State) (w : BitVec 5) : (s.raise w).draws = s.draws := rfl

/-! ### `put8` -/

@[simp] theorem put8_params (s : State) (a : Word) (v : Byte) : (s.put8 a v).params = s.params := rfl
@[simp] theorem put8_x (s : State) (a : Word) (v : Byte) : (s.put8 a v).x = s.x := rfl
@[simp] theorem put8_f (s : State) (a : Word) (v : Byte) : (s.put8 a v).f = s.f := rfl
@[simp] theorem put8_pc (s : State) (a : Word) (v : Byte) : (s.put8 a v).pc = s.pc := rfl
@[simp] theorem put8_mstatus (s : State) (a : Word) (v : Byte) : (s.put8 a v).mstatus = s.mstatus := rfl
@[simp] theorem put8_mepc (s : State) (a : Word) (v : Byte) : (s.put8 a v).mepc = s.mepc := rfl
@[simp] theorem put8_mcause (s : State) (a : Word) (v : Byte) : (s.put8 a v).mcause = s.mcause := rfl
@[simp] theorem put8_pcmr (s : State) (a : Word) (v : Byte) : (s.put8 a v).pcmr = s.pcmr := rfl
@[simp] theorem put8_pcer (s : State) (a : Word) (v : Byte) : (s.put8 a v).pcer = s.pcer := rfl
@[simp] theorem put8_pccr (s : State) (a : Word) (v : Byte) : (s.put8 a v).pccr = s.pccr := rfl
@[simp] theorem put8_fflags (s : State) (a : Word) (v : Byte) : (s.put8 a v).fflags = s.fflags := rfl
@[simp] theorem put8_frm (s : State) (a : Word) (v : Byte) : (s.put8 a v).frm = s.frm := rfl
@[simp] theorem put8_fprec (s : State) (a : Word) (v : Byte) : (s.put8 a v).fprec = s.fprec := rfl
@[simp] theorem put8_loop0 (s : State) (a : Word) (v : Byte) : (s.put8 a v).loop0 = s.loop0 := rfl
@[simp] theorem put8_loop1 (s : State) (a : Word) (v : Byte) : (s.put8 a v).loop1 = s.loop1 := rfl
@[simp] theorem put8_sleeping (s : State) (a : Word) (v : Byte) : (s.put8 a v).sleeping = s.sleeping := rfl
@[simp] theorem put8_irq (s : State) (a : Word) (v : Byte) : (s.put8 a v).irq = s.irq := rfl
@[simp] theorem put8_irqAck (s : State) (a : Word) (v : Byte) : (s.put8 a v).irqAck = s.irqAck := rfl
@[simp] theorem put8_bootAddr (s : State) (a : Word) (v : Byte) : (s.put8 a v).bootAddr = s.bootAddr := rfl
@[simp] theorem put8_halted (s : State) (a : Word) (v : Byte) : (s.put8 a v).halted = s.halted := rfl
@[simp] theorem put8_sste (s : State) (a : Word) (v : Byte) : (s.put8 a v).sste = s.sste := rfl
@[simp] theorem put8_ssth (s : State) (a : Word) (v : Byte) : (s.put8 a v).ssth = s.ssth := rfl
@[simp] theorem put8_dbgIe (s : State) (a : Word) (v : Byte) : (s.put8 a v).dbgIe = s.dbgIe := rfl
@[simp] theorem put8_dbgCause (s : State) (a : Word) (v : Byte) : (s.put8 a v).dbgCause = s.dbgCause := rfl
@[simp] theorem put8_ppc (s : State) (a : Word) (v : Byte) : (s.put8 a v).ppc = s.ppc := rfl
@[simp] theorem put8_dbgRdata (s : State) (a : Word) (v : Byte) : (s.put8 a v).dbgRdata = s.dbgRdata := rfl
@[simp] theorem put8_imem (s : State) (a : Word) (v : Byte) : (s.put8 a v).imem = s.imem := rfl
@[simp] theorem put8_between (s : State) (a : Word) (v : Byte) : (s.put8 a v).between = s.between := rfl
@[simp] theorem put8_prevWrites (s : State) (a : Word) (v : Byte) : (s.put8 a v).prevWrites = s.prevWrites := rfl
@[simp] theorem put8_heldIrq (s : State) (a : Word) (v : Byte) : (s.put8 a v).heldIrq = s.heldIrq := rfl
@[simp] theorem put8_inputs (s : State) (a : Word) (v : Byte) : (s.put8 a v).inputs = s.inputs := rfl
@[simp] theorem put8_draws (s : State) (a : Word) (v : Byte) : (s.put8 a v).draws = s.draws := rfl

/-! ### `putCode8` -/

@[simp] theorem putCode8_params (s : State) (a : Word) (v : Byte) : (s.putCode8 a v).params = s.params := by
  unfold State.putCode8; split <;> rfl
@[simp] theorem putCode8_x (s : State) (a : Word) (v : Byte) : (s.putCode8 a v).x = s.x := by
  unfold State.putCode8; split <;> rfl
@[simp] theorem putCode8_f (s : State) (a : Word) (v : Byte) : (s.putCode8 a v).f = s.f := by
  unfold State.putCode8; split <;> rfl
@[simp] theorem putCode8_pc (s : State) (a : Word) (v : Byte) : (s.putCode8 a v).pc = s.pc := by
  unfold State.putCode8; split <;> rfl
@[simp] theorem putCode8_mstatus (s : State) (a : Word) (v : Byte) : (s.putCode8 a v).mstatus = s.mstatus := by
  unfold State.putCode8; split <;> rfl
@[simp] theorem putCode8_mepc (s : State) (a : Word) (v : Byte) : (s.putCode8 a v).mepc = s.mepc := by
  unfold State.putCode8; split <;> rfl
@[simp] theorem putCode8_mcause (s : State) (a : Word) (v : Byte) : (s.putCode8 a v).mcause = s.mcause := by
  unfold State.putCode8; split <;> rfl
@[simp] theorem putCode8_pcmr (s : State) (a : Word) (v : Byte) : (s.putCode8 a v).pcmr = s.pcmr := by
  unfold State.putCode8; split <;> rfl
@[simp] theorem putCode8_pcer (s : State) (a : Word) (v : Byte) : (s.putCode8 a v).pcer = s.pcer := by
  unfold State.putCode8; split <;> rfl
@[simp] theorem putCode8_pccr (s : State) (a : Word) (v : Byte) : (s.putCode8 a v).pccr = s.pccr := by
  unfold State.putCode8; split <;> rfl
@[simp] theorem putCode8_fflags (s : State) (a : Word) (v : Byte) : (s.putCode8 a v).fflags = s.fflags := by
  unfold State.putCode8; split <;> rfl
@[simp] theorem putCode8_frm (s : State) (a : Word) (v : Byte) : (s.putCode8 a v).frm = s.frm := by
  unfold State.putCode8; split <;> rfl
@[simp] theorem putCode8_fprec (s : State) (a : Word) (v : Byte) : (s.putCode8 a v).fprec = s.fprec := by
  unfold State.putCode8; split <;> rfl
@[simp] theorem putCode8_loop0 (s : State) (a : Word) (v : Byte) : (s.putCode8 a v).loop0 = s.loop0 := by
  unfold State.putCode8; split <;> rfl
@[simp] theorem putCode8_loop1 (s : State) (a : Word) (v : Byte) : (s.putCode8 a v).loop1 = s.loop1 := by
  unfold State.putCode8; split <;> rfl
@[simp] theorem putCode8_sleeping (s : State) (a : Word) (v : Byte) : (s.putCode8 a v).sleeping = s.sleeping := by
  unfold State.putCode8; split <;> rfl
@[simp] theorem putCode8_irq (s : State) (a : Word) (v : Byte) : (s.putCode8 a v).irq = s.irq := by
  unfold State.putCode8; split <;> rfl
@[simp] theorem putCode8_irqAck (s : State) (a : Word) (v : Byte) : (s.putCode8 a v).irqAck = s.irqAck := by
  unfold State.putCode8; split <;> rfl
@[simp] theorem putCode8_bootAddr (s : State) (a : Word) (v : Byte) : (s.putCode8 a v).bootAddr = s.bootAddr := by
  unfold State.putCode8; split <;> rfl
@[simp] theorem putCode8_halted (s : State) (a : Word) (v : Byte) : (s.putCode8 a v).halted = s.halted := by
  unfold State.putCode8; split <;> rfl
@[simp] theorem putCode8_sste (s : State) (a : Word) (v : Byte) : (s.putCode8 a v).sste = s.sste := by
  unfold State.putCode8; split <;> rfl
@[simp] theorem putCode8_ssth (s : State) (a : Word) (v : Byte) : (s.putCode8 a v).ssth = s.ssth := by
  unfold State.putCode8; split <;> rfl
@[simp] theorem putCode8_dbgIe (s : State) (a : Word) (v : Byte) : (s.putCode8 a v).dbgIe = s.dbgIe := by
  unfold State.putCode8; split <;> rfl
@[simp] theorem putCode8_dbgCause (s : State) (a : Word) (v : Byte) : (s.putCode8 a v).dbgCause = s.dbgCause := by
  unfold State.putCode8; split <;> rfl
@[simp] theorem putCode8_ppc (s : State) (a : Word) (v : Byte) : (s.putCode8 a v).ppc = s.ppc := by
  unfold State.putCode8; split <;> rfl
@[simp] theorem putCode8_dbgRdata (s : State) (a : Word) (v : Byte) : (s.putCode8 a v).dbgRdata = s.dbgRdata := by
  unfold State.putCode8; split <;> rfl
@[simp] theorem putCode8_between (s : State) (a : Word) (v : Byte) : (s.putCode8 a v).between = s.between := by
  unfold State.putCode8; split <;> rfl
@[simp] theorem putCode8_prevWrites (s : State) (a : Word) (v : Byte) : (s.putCode8 a v).prevWrites = s.prevWrites :=
    by
  unfold State.putCode8; split <;> rfl
@[simp] theorem putCode8_heldIrq (s : State) (a : Word) (v : Byte) : (s.putCode8 a v).heldIrq = s.heldIrq := by
  unfold State.putCode8; split <;> rfl
@[simp] theorem putCode8_inputs (s : State) (a : Word) (v : Byte) : (s.putCode8 a v).inputs = s.inputs := by
  unfold State.putCode8; split <;> rfl
@[simp] theorem putCode8_draws (s : State) (a : Word) (v : Byte) : (s.putCode8 a v).draws = s.draws := by
  unfold State.putCode8; split <;> rfl

/-! ### `landed` -/

@[simp] theorem landed_params (s : State) : (s.landed).params = s.params := by
  exact foldl_put8 (fun t => t.params) (fun _ _ _ => rfl) _ _
@[simp] theorem landed_x (s : State) : (s.landed).x = s.x := by
  exact foldl_put8 (fun t => t.x) (fun _ _ _ => rfl) _ _
@[simp] theorem landed_f (s : State) : (s.landed).f = s.f := by
  exact foldl_put8 (fun t => t.f) (fun _ _ _ => rfl) _ _
@[simp] theorem landed_pc (s : State) : (s.landed).pc = s.pc := by
  exact foldl_put8 (fun t => t.pc) (fun _ _ _ => rfl) _ _
@[simp] theorem landed_mstatus (s : State) : (s.landed).mstatus = s.mstatus := by
  exact foldl_put8 (fun t => t.mstatus) (fun _ _ _ => rfl) _ _
@[simp] theorem landed_mepc (s : State) : (s.landed).mepc = s.mepc := by
  exact foldl_put8 (fun t => t.mepc) (fun _ _ _ => rfl) _ _
@[simp] theorem landed_mcause (s : State) : (s.landed).mcause = s.mcause := by
  exact foldl_put8 (fun t => t.mcause) (fun _ _ _ => rfl) _ _
@[simp] theorem landed_pcmr (s : State) : (s.landed).pcmr = s.pcmr := by
  exact foldl_put8 (fun t => t.pcmr) (fun _ _ _ => rfl) _ _
@[simp] theorem landed_pcer (s : State) : (s.landed).pcer = s.pcer := by
  exact foldl_put8 (fun t => t.pcer) (fun _ _ _ => rfl) _ _
@[simp] theorem landed_pccr (s : State) : (s.landed).pccr = s.pccr := by
  exact foldl_put8 (fun t => t.pccr) (fun _ _ _ => rfl) _ _
@[simp] theorem landed_fflags (s : State) : (s.landed).fflags = s.fflags := by
  exact foldl_put8 (fun t => t.fflags) (fun _ _ _ => rfl) _ _
@[simp] theorem landed_frm (s : State) : (s.landed).frm = s.frm := by
  exact foldl_put8 (fun t => t.frm) (fun _ _ _ => rfl) _ _
@[simp] theorem landed_fprec (s : State) : (s.landed).fprec = s.fprec := by
  exact foldl_put8 (fun t => t.fprec) (fun _ _ _ => rfl) _ _
@[simp] theorem landed_loop0 (s : State) : (s.landed).loop0 = s.loop0 := by
  exact foldl_put8 (fun t => t.loop0) (fun _ _ _ => rfl) _ _
@[simp] theorem landed_loop1 (s : State) : (s.landed).loop1 = s.loop1 := by
  exact foldl_put8 (fun t => t.loop1) (fun _ _ _ => rfl) _ _
@[simp] theorem landed_sleeping (s : State) : (s.landed).sleeping = s.sleeping := by
  exact foldl_put8 (fun t => t.sleeping) (fun _ _ _ => rfl) _ _
@[simp] theorem landed_irq (s : State) : (s.landed).irq = s.irq := by
  exact foldl_put8 (fun t => t.irq) (fun _ _ _ => rfl) _ _
@[simp] theorem landed_irqAck (s : State) : (s.landed).irqAck = s.irqAck := by
  exact foldl_put8 (fun t => t.irqAck) (fun _ _ _ => rfl) _ _
@[simp] theorem landed_bootAddr (s : State) : (s.landed).bootAddr = s.bootAddr := by
  exact foldl_put8 (fun t => t.bootAddr) (fun _ _ _ => rfl) _ _
@[simp] theorem landed_halted (s : State) : (s.landed).halted = s.halted := by
  exact foldl_put8 (fun t => t.halted) (fun _ _ _ => rfl) _ _
@[simp] theorem landed_sste (s : State) : (s.landed).sste = s.sste := by
  exact foldl_put8 (fun t => t.sste) (fun _ _ _ => rfl) _ _
@[simp] theorem landed_ssth (s : State) : (s.landed).ssth = s.ssth := by
  exact foldl_put8 (fun t => t.ssth) (fun _ _ _ => rfl) _ _
@[simp] theorem landed_dbgIe (s : State) : (s.landed).dbgIe = s.dbgIe := by
  exact foldl_put8 (fun t => t.dbgIe) (fun _ _ _ => rfl) _ _
@[simp] theorem landed_dbgCause (s : State) : (s.landed).dbgCause = s.dbgCause := by
  exact foldl_put8 (fun t => t.dbgCause) (fun _ _ _ => rfl) _ _
@[simp] theorem landed_ppc (s : State) : (s.landed).ppc = s.ppc := by
  exact foldl_put8 (fun t => t.ppc) (fun _ _ _ => rfl) _ _
@[simp] theorem landed_dbgRdata (s : State) : (s.landed).dbgRdata = s.dbgRdata := by
  exact foldl_put8 (fun t => t.dbgRdata) (fun _ _ _ => rfl) _ _
@[simp] theorem landed_imem (s : State) : (s.landed).imem = s.imem := by
  exact foldl_put8 (fun t => t.imem) (fun _ _ _ => rfl) _ _
@[simp] theorem landed_prevWrites (s : State) : (s.landed).prevWrites = s.prevWrites := by
  exact foldl_put8 (fun t => t.prevWrites) (fun _ _ _ => rfl) _ _
@[simp] theorem landed_heldIrq (s : State) : (s.landed).heldIrq = s.heldIrq := by
  exact foldl_put8 (fun t => t.heldIrq) (fun _ _ _ => rfl) _ _
@[simp] theorem landed_inputs (s : State) : (s.landed).inputs = s.inputs := by
  exact foldl_put8 (fun t => t.inputs) (fun _ _ _ => rfl) _ _
@[simp] theorem landed_draws (s : State) : (s.landed).draws = s.draws := by
  exact foldl_put8 (fun t => t.draws) (fun _ _ _ => rfl) _ _

/-! ### `settle` -/

@[simp] theorem settle_params (s : State) (a : Word) (n : Nat) : (s.settle a n).params = s.params := by
  unfold State.settle; split
  · exact landed_params s
  · rfl
@[simp] theorem settle_x (s : State) (a : Word) (n : Nat) : (s.settle a n).x = s.x := by
  unfold State.settle; split
  · exact landed_x s
  · rfl
@[simp] theorem settle_f (s : State) (a : Word) (n : Nat) : (s.settle a n).f = s.f := by
  unfold State.settle; split
  · exact landed_f s
  · rfl
@[simp] theorem settle_pc (s : State) (a : Word) (n : Nat) : (s.settle a n).pc = s.pc := by
  unfold State.settle; split
  · exact landed_pc s
  · rfl
@[simp] theorem settle_mstatus (s : State) (a : Word) (n : Nat) : (s.settle a n).mstatus = s.mstatus := by
  unfold State.settle; split
  · exact landed_mstatus s
  · rfl
@[simp] theorem settle_mepc (s : State) (a : Word) (n : Nat) : (s.settle a n).mepc = s.mepc := by
  unfold State.settle; split
  · exact landed_mepc s
  · rfl
@[simp] theorem settle_mcause (s : State) (a : Word) (n : Nat) : (s.settle a n).mcause = s.mcause := by
  unfold State.settle; split
  · exact landed_mcause s
  · rfl
@[simp] theorem settle_pcmr (s : State) (a : Word) (n : Nat) : (s.settle a n).pcmr = s.pcmr := by
  unfold State.settle; split
  · exact landed_pcmr s
  · rfl
@[simp] theorem settle_pcer (s : State) (a : Word) (n : Nat) : (s.settle a n).pcer = s.pcer := by
  unfold State.settle; split
  · exact landed_pcer s
  · rfl
@[simp] theorem settle_pccr (s : State) (a : Word) (n : Nat) : (s.settle a n).pccr = s.pccr := by
  unfold State.settle; split
  · exact landed_pccr s
  · rfl
@[simp] theorem settle_fflags (s : State) (a : Word) (n : Nat) : (s.settle a n).fflags = s.fflags := by
  unfold State.settle; split
  · exact landed_fflags s
  · rfl
@[simp] theorem settle_frm (s : State) (a : Word) (n : Nat) : (s.settle a n).frm = s.frm := by
  unfold State.settle; split
  · exact landed_frm s
  · rfl
@[simp] theorem settle_fprec (s : State) (a : Word) (n : Nat) : (s.settle a n).fprec = s.fprec := by
  unfold State.settle; split
  · exact landed_fprec s
  · rfl
@[simp] theorem settle_loop0 (s : State) (a : Word) (n : Nat) : (s.settle a n).loop0 = s.loop0 := by
  unfold State.settle; split
  · exact landed_loop0 s
  · rfl
@[simp] theorem settle_loop1 (s : State) (a : Word) (n : Nat) : (s.settle a n).loop1 = s.loop1 := by
  unfold State.settle; split
  · exact landed_loop1 s
  · rfl
@[simp] theorem settle_sleeping (s : State) (a : Word) (n : Nat) : (s.settle a n).sleeping = s.sleeping := by
  unfold State.settle; split
  · exact landed_sleeping s
  · rfl
@[simp] theorem settle_irq (s : State) (a : Word) (n : Nat) : (s.settle a n).irq = s.irq := by
  unfold State.settle; split
  · exact landed_irq s
  · rfl
@[simp] theorem settle_irqAck (s : State) (a : Word) (n : Nat) : (s.settle a n).irqAck = s.irqAck := by
  unfold State.settle; split
  · exact landed_irqAck s
  · rfl
@[simp] theorem settle_bootAddr (s : State) (a : Word) (n : Nat) : (s.settle a n).bootAddr = s.bootAddr := by
  unfold State.settle; split
  · exact landed_bootAddr s
  · rfl
@[simp] theorem settle_halted (s : State) (a : Word) (n : Nat) : (s.settle a n).halted = s.halted := by
  unfold State.settle; split
  · exact landed_halted s
  · rfl
@[simp] theorem settle_sste (s : State) (a : Word) (n : Nat) : (s.settle a n).sste = s.sste := by
  unfold State.settle; split
  · exact landed_sste s
  · rfl
@[simp] theorem settle_ssth (s : State) (a : Word) (n : Nat) : (s.settle a n).ssth = s.ssth := by
  unfold State.settle; split
  · exact landed_ssth s
  · rfl
@[simp] theorem settle_dbgIe (s : State) (a : Word) (n : Nat) : (s.settle a n).dbgIe = s.dbgIe := by
  unfold State.settle; split
  · exact landed_dbgIe s
  · rfl
@[simp] theorem settle_dbgCause (s : State) (a : Word) (n : Nat) : (s.settle a n).dbgCause = s.dbgCause := by
  unfold State.settle; split
  · exact landed_dbgCause s
  · rfl
@[simp] theorem settle_ppc (s : State) (a : Word) (n : Nat) : (s.settle a n).ppc = s.ppc := by
  unfold State.settle; split
  · exact landed_ppc s
  · rfl
@[simp] theorem settle_dbgRdata (s : State) (a : Word) (n : Nat) : (s.settle a n).dbgRdata = s.dbgRdata := by
  unfold State.settle; split
  · exact landed_dbgRdata s
  · rfl
@[simp] theorem settle_imem (s : State) (a : Word) (n : Nat) : (s.settle a n).imem = s.imem := by
  unfold State.settle; split
  · exact landed_imem s
  · rfl
@[simp] theorem settle_prevWrites (s : State) (a : Word) (n : Nat) : (s.settle a n).prevWrites = s.prevWrites := by
  unfold State.settle; split
  · exact landed_prevWrites s
  · rfl
@[simp] theorem settle_heldIrq (s : State) (a : Word) (n : Nat) : (s.settle a n).heldIrq = s.heldIrq := by
  unfold State.settle; split
  · exact landed_heldIrq s
  · rfl
@[simp] theorem settle_inputs (s : State) (a : Word) (n : Nat) : (s.settle a n).inputs = s.inputs := by
  unfold State.settle; split
  · exact landed_inputs s
  · rfl
@[simp] theorem settle_draws (s : State) (a : Word) (n : Nat) : (s.settle a n).draws = s.draws := by
  unfold State.settle; split
  · exact landed_draws s
  · rfl

/-! ### `markStale` -/

@[simp] theorem markStale_params (s : State) (a : Word) : (s.markStale a).params = s.params := rfl
@[simp] theorem markStale_x (s : State) (a : Word) : (s.markStale a).x = s.x := rfl
@[simp] theorem markStale_f (s : State) (a : Word) : (s.markStale a).f = s.f := rfl
@[simp] theorem markStale_pc (s : State) (a : Word) : (s.markStale a).pc = s.pc := rfl
@[simp] theorem markStale_mstatus (s : State) (a : Word) : (s.markStale a).mstatus = s.mstatus := rfl
@[simp] theorem markStale_mepc (s : State) (a : Word) : (s.markStale a).mepc = s.mepc := rfl
@[simp] theorem markStale_mcause (s : State) (a : Word) : (s.markStale a).mcause = s.mcause := rfl
@[simp] theorem markStale_pcmr (s : State) (a : Word) : (s.markStale a).pcmr = s.pcmr := rfl
@[simp] theorem markStale_pcer (s : State) (a : Word) : (s.markStale a).pcer = s.pcer := rfl
@[simp] theorem markStale_pccr (s : State) (a : Word) : (s.markStale a).pccr = s.pccr := rfl
@[simp] theorem markStale_fflags (s : State) (a : Word) : (s.markStale a).fflags = s.fflags := rfl
@[simp] theorem markStale_frm (s : State) (a : Word) : (s.markStale a).frm = s.frm := rfl
@[simp] theorem markStale_fprec (s : State) (a : Word) : (s.markStale a).fprec = s.fprec := rfl
@[simp] theorem markStale_loop0 (s : State) (a : Word) : (s.markStale a).loop0 = s.loop0 := rfl
@[simp] theorem markStale_loop1 (s : State) (a : Word) : (s.markStale a).loop1 = s.loop1 := rfl
@[simp] theorem markStale_sleeping (s : State) (a : Word) : (s.markStale a).sleeping = s.sleeping := rfl
@[simp] theorem markStale_irq (s : State) (a : Word) : (s.markStale a).irq = s.irq := rfl
@[simp] theorem markStale_irqAck (s : State) (a : Word) : (s.markStale a).irqAck = s.irqAck := rfl
@[simp] theorem markStale_bootAddr (s : State) (a : Word) : (s.markStale a).bootAddr = s.bootAddr := rfl
@[simp] theorem markStale_halted (s : State) (a : Word) : (s.markStale a).halted = s.halted := rfl
@[simp] theorem markStale_sste (s : State) (a : Word) : (s.markStale a).sste = s.sste := rfl
@[simp] theorem markStale_ssth (s : State) (a : Word) : (s.markStale a).ssth = s.ssth := rfl
@[simp] theorem markStale_dbgIe (s : State) (a : Word) : (s.markStale a).dbgIe = s.dbgIe := rfl
@[simp] theorem markStale_dbgCause (s : State) (a : Word) : (s.markStale a).dbgCause = s.dbgCause := rfl
@[simp] theorem markStale_ppc (s : State) (a : Word) : (s.markStale a).ppc = s.ppc := rfl
@[simp] theorem markStale_dbgRdata (s : State) (a : Word) : (s.markStale a).dbgRdata = s.dbgRdata := rfl
@[simp] theorem markStale_mem (s : State) (a : Word) : (s.markStale a).mem = s.mem := rfl
@[simp] theorem markStale_imem (s : State) (a : Word) : (s.markStale a).imem = s.imem := rfl
@[simp] theorem markStale_between (s : State) (a : Word) : (s.markStale a).between = s.between := rfl
@[simp] theorem markStale_prevWrites (s : State) (a : Word) : (s.markStale a).prevWrites = s.prevWrites := rfl
@[simp] theorem markStale_heldIrq (s : State) (a : Word) : (s.markStale a).heldIrq = s.heldIrq := rfl
@[simp] theorem markStale_inputs (s : State) (a : Word) : (s.markStale a).inputs = s.inputs := rfl
@[simp] theorem markStale_draws (s : State) (a : Word) : (s.markStale a).draws = s.draws := rfl

/-! ### `store8` -/

@[simp] theorem store8_params (s : State) (a : Word) (v : Byte) : (s.store8 a v).params = s.params := by
  unfold State.store8; split <;> rfl
@[simp] theorem store8_x (s : State) (a : Word) (v : Byte) : (s.store8 a v).x = s.x := by
  unfold State.store8; split <;> rfl
@[simp] theorem store8_f (s : State) (a : Word) (v : Byte) : (s.store8 a v).f = s.f := by
  unfold State.store8; split <;> rfl
@[simp] theorem store8_pc (s : State) (a : Word) (v : Byte) : (s.store8 a v).pc = s.pc := by
  unfold State.store8; split <;> rfl
@[simp] theorem store8_mstatus (s : State) (a : Word) (v : Byte) : (s.store8 a v).mstatus = s.mstatus := by
  unfold State.store8; split <;> rfl
@[simp] theorem store8_mepc (s : State) (a : Word) (v : Byte) : (s.store8 a v).mepc = s.mepc := by
  unfold State.store8; split <;> rfl
@[simp] theorem store8_mcause (s : State) (a : Word) (v : Byte) : (s.store8 a v).mcause = s.mcause := by
  unfold State.store8; split <;> rfl
@[simp] theorem store8_pcmr (s : State) (a : Word) (v : Byte) : (s.store8 a v).pcmr = s.pcmr := by
  unfold State.store8; split <;> rfl
@[simp] theorem store8_pcer (s : State) (a : Word) (v : Byte) : (s.store8 a v).pcer = s.pcer := by
  unfold State.store8; split <;> rfl
@[simp] theorem store8_pccr (s : State) (a : Word) (v : Byte) : (s.store8 a v).pccr = s.pccr := by
  unfold State.store8; split <;> rfl
@[simp] theorem store8_fflags (s : State) (a : Word) (v : Byte) : (s.store8 a v).fflags = s.fflags := by
  unfold State.store8; split <;> rfl
@[simp] theorem store8_frm (s : State) (a : Word) (v : Byte) : (s.store8 a v).frm = s.frm := by
  unfold State.store8; split <;> rfl
@[simp] theorem store8_fprec (s : State) (a : Word) (v : Byte) : (s.store8 a v).fprec = s.fprec := by
  unfold State.store8; split <;> rfl
@[simp] theorem store8_loop0 (s : State) (a : Word) (v : Byte) : (s.store8 a v).loop0 = s.loop0 := by
  unfold State.store8; split <;> rfl
@[simp] theorem store8_loop1 (s : State) (a : Word) (v : Byte) : (s.store8 a v).loop1 = s.loop1 := by
  unfold State.store8; split <;> rfl
@[simp] theorem store8_sleeping (s : State) (a : Word) (v : Byte) : (s.store8 a v).sleeping = s.sleeping := by
  unfold State.store8; split <;> rfl
@[simp] theorem store8_irq (s : State) (a : Word) (v : Byte) : (s.store8 a v).irq = s.irq := by
  unfold State.store8; split <;> rfl
@[simp] theorem store8_irqAck (s : State) (a : Word) (v : Byte) : (s.store8 a v).irqAck = s.irqAck := by
  unfold State.store8; split <;> rfl
@[simp] theorem store8_bootAddr (s : State) (a : Word) (v : Byte) : (s.store8 a v).bootAddr = s.bootAddr := by
  unfold State.store8; split <;> rfl
@[simp] theorem store8_halted (s : State) (a : Word) (v : Byte) : (s.store8 a v).halted = s.halted := by
  unfold State.store8; split <;> rfl
@[simp] theorem store8_sste (s : State) (a : Word) (v : Byte) : (s.store8 a v).sste = s.sste := by
  unfold State.store8; split <;> rfl
@[simp] theorem store8_ssth (s : State) (a : Word) (v : Byte) : (s.store8 a v).ssth = s.ssth := by
  unfold State.store8; split <;> rfl
@[simp] theorem store8_dbgIe (s : State) (a : Word) (v : Byte) : (s.store8 a v).dbgIe = s.dbgIe := by
  unfold State.store8; split <;> rfl
@[simp] theorem store8_dbgCause (s : State) (a : Word) (v : Byte) : (s.store8 a v).dbgCause = s.dbgCause := by
  unfold State.store8; split <;> rfl
@[simp] theorem store8_ppc (s : State) (a : Word) (v : Byte) : (s.store8 a v).ppc = s.ppc := by
  unfold State.store8; split <;> rfl
@[simp] theorem store8_dbgRdata (s : State) (a : Word) (v : Byte) : (s.store8 a v).dbgRdata = s.dbgRdata := by
  unfold State.store8; split <;> rfl
@[simp] theorem store8_imem (s : State) (a : Word) (v : Byte) : (s.store8 a v).imem = s.imem := by
  unfold State.store8; split <;> rfl
@[simp] theorem store8_between (s : State) (a : Word) (v : Byte) : (s.store8 a v).between = s.between := by
  unfold State.store8; split <;> rfl
@[simp] theorem store8_prevWrites (s : State) (a : Word) (v : Byte) : (s.store8 a v).prevWrites = s.prevWrites := by
  unfold State.store8; split <;> rfl
@[simp] theorem store8_heldIrq (s : State) (a : Word) (v : Byte) : (s.store8 a v).heldIrq = s.heldIrq := by
  unfold State.store8; split <;> rfl
@[simp] theorem store8_inputs (s : State) (a : Word) (v : Byte) : (s.store8 a v).inputs = s.inputs := by
  unfold State.store8; split <;> rfl
@[simp] theorem store8_draws (s : State) (a : Word) (v : Byte) : (s.store8 a v).draws = s.draws := by
  unfold State.store8; split <;> rfl

/-! ### `storeByte` -/

@[simp] theorem storeByte_params (s : State) (a : Word) (j : Nat) (v : Byte) : (s.storeByte a j v).params = s.params :=
    by
  unfold State.storeByte; split
  · exact (store8_params _ _ _).trans (landed_params s)
  · exact store8_params _ _ _
@[simp] theorem storeByte_x (s : State) (a : Word) (j : Nat) (v : Byte) : (s.storeByte a j v).x = s.x := by
  unfold State.storeByte; split
  · exact (store8_x _ _ _).trans (landed_x s)
  · exact store8_x _ _ _
@[simp] theorem storeByte_f (s : State) (a : Word) (j : Nat) (v : Byte) : (s.storeByte a j v).f = s.f := by
  unfold State.storeByte; split
  · exact (store8_f _ _ _).trans (landed_f s)
  · exact store8_f _ _ _
@[simp] theorem storeByte_pc (s : State) (a : Word) (j : Nat) (v : Byte) : (s.storeByte a j v).pc = s.pc := by
  unfold State.storeByte; split
  · exact (store8_pc _ _ _).trans (landed_pc s)
  · exact store8_pc _ _ _
@[simp] theorem storeByte_mstatus (s : State) (a : Word) (j : Nat) (v : Byte) : (s.storeByte a j v).mstatus = s.mstatus :=
    by
  unfold State.storeByte; split
  · exact (store8_mstatus _ _ _).trans (landed_mstatus s)
  · exact store8_mstatus _ _ _
@[simp] theorem storeByte_mepc (s : State) (a : Word) (j : Nat) (v : Byte) : (s.storeByte a j v).mepc = s.mepc := by
  unfold State.storeByte; split
  · exact (store8_mepc _ _ _).trans (landed_mepc s)
  · exact store8_mepc _ _ _
@[simp] theorem storeByte_mcause (s : State) (a : Word) (j : Nat) (v : Byte) : (s.storeByte a j v).mcause = s.mcause :=
    by
  unfold State.storeByte; split
  · exact (store8_mcause _ _ _).trans (landed_mcause s)
  · exact store8_mcause _ _ _
@[simp] theorem storeByte_pcmr (s : State) (a : Word) (j : Nat) (v : Byte) : (s.storeByte a j v).pcmr = s.pcmr := by
  unfold State.storeByte; split
  · exact (store8_pcmr _ _ _).trans (landed_pcmr s)
  · exact store8_pcmr _ _ _
@[simp] theorem storeByte_pcer (s : State) (a : Word) (j : Nat) (v : Byte) : (s.storeByte a j v).pcer = s.pcer := by
  unfold State.storeByte; split
  · exact (store8_pcer _ _ _).trans (landed_pcer s)
  · exact store8_pcer _ _ _
@[simp] theorem storeByte_pccr (s : State) (a : Word) (j : Nat) (v : Byte) : (s.storeByte a j v).pccr = s.pccr := by
  unfold State.storeByte; split
  · exact (store8_pccr _ _ _).trans (landed_pccr s)
  · exact store8_pccr _ _ _
@[simp] theorem storeByte_fflags (s : State) (a : Word) (j : Nat) (v : Byte) : (s.storeByte a j v).fflags = s.fflags :=
    by
  unfold State.storeByte; split
  · exact (store8_fflags _ _ _).trans (landed_fflags s)
  · exact store8_fflags _ _ _
@[simp] theorem storeByte_frm (s : State) (a : Word) (j : Nat) (v : Byte) : (s.storeByte a j v).frm = s.frm := by
  unfold State.storeByte; split
  · exact (store8_frm _ _ _).trans (landed_frm s)
  · exact store8_frm _ _ _
@[simp] theorem storeByte_fprec (s : State) (a : Word) (j : Nat) (v : Byte) : (s.storeByte a j v).fprec = s.fprec :=
    by
  unfold State.storeByte; split
  · exact (store8_fprec _ _ _).trans (landed_fprec s)
  · exact store8_fprec _ _ _
@[simp] theorem storeByte_loop0 (s : State) (a : Word) (j : Nat) (v : Byte) : (s.storeByte a j v).loop0 = s.loop0 :=
    by
  unfold State.storeByte; split
  · exact (store8_loop0 _ _ _).trans (landed_loop0 s)
  · exact store8_loop0 _ _ _
@[simp] theorem storeByte_loop1 (s : State) (a : Word) (j : Nat) (v : Byte) : (s.storeByte a j v).loop1 = s.loop1 :=
    by
  unfold State.storeByte; split
  · exact (store8_loop1 _ _ _).trans (landed_loop1 s)
  · exact store8_loop1 _ _ _
@[simp] theorem storeByte_sleeping (s : State) (a : Word) (j : Nat) (v : Byte) : (s.storeByte a j v).sleeping = s.sleeping :=
    by
  unfold State.storeByte; split
  · exact (store8_sleeping _ _ _).trans (landed_sleeping s)
  · exact store8_sleeping _ _ _
@[simp] theorem storeByte_irq (s : State) (a : Word) (j : Nat) (v : Byte) : (s.storeByte a j v).irq = s.irq := by
  unfold State.storeByte; split
  · exact (store8_irq _ _ _).trans (landed_irq s)
  · exact store8_irq _ _ _
@[simp] theorem storeByte_irqAck (s : State) (a : Word) (j : Nat) (v : Byte) : (s.storeByte a j v).irqAck = s.irqAck :=
    by
  unfold State.storeByte; split
  · exact (store8_irqAck _ _ _).trans (landed_irqAck s)
  · exact store8_irqAck _ _ _
@[simp] theorem storeByte_bootAddr (s : State) (a : Word) (j : Nat) (v : Byte) : (s.storeByte a j v).bootAddr = s.bootAddr :=
    by
  unfold State.storeByte; split
  · exact (store8_bootAddr _ _ _).trans (landed_bootAddr s)
  · exact store8_bootAddr _ _ _
@[simp] theorem storeByte_halted (s : State) (a : Word) (j : Nat) (v : Byte) : (s.storeByte a j v).halted = s.halted :=
    by
  unfold State.storeByte; split
  · exact (store8_halted _ _ _).trans (landed_halted s)
  · exact store8_halted _ _ _
@[simp] theorem storeByte_sste (s : State) (a : Word) (j : Nat) (v : Byte) : (s.storeByte a j v).sste = s.sste := by
  unfold State.storeByte; split
  · exact (store8_sste _ _ _).trans (landed_sste s)
  · exact store8_sste _ _ _
@[simp] theorem storeByte_ssth (s : State) (a : Word) (j : Nat) (v : Byte) : (s.storeByte a j v).ssth = s.ssth := by
  unfold State.storeByte; split
  · exact (store8_ssth _ _ _).trans (landed_ssth s)
  · exact store8_ssth _ _ _
@[simp] theorem storeByte_dbgIe (s : State) (a : Word) (j : Nat) (v : Byte) : (s.storeByte a j v).dbgIe = s.dbgIe :=
    by
  unfold State.storeByte; split
  · exact (store8_dbgIe _ _ _).trans (landed_dbgIe s)
  · exact store8_dbgIe _ _ _
@[simp] theorem storeByte_dbgCause (s : State) (a : Word) (j : Nat) (v : Byte) : (s.storeByte a j v).dbgCause = s.dbgCause :=
    by
  unfold State.storeByte; split
  · exact (store8_dbgCause _ _ _).trans (landed_dbgCause s)
  · exact store8_dbgCause _ _ _
@[simp] theorem storeByte_ppc (s : State) (a : Word) (j : Nat) (v : Byte) : (s.storeByte a j v).ppc = s.ppc := by
  unfold State.storeByte; split
  · exact (store8_ppc _ _ _).trans (landed_ppc s)
  · exact store8_ppc _ _ _
@[simp] theorem storeByte_dbgRdata (s : State) (a : Word) (j : Nat) (v : Byte) : (s.storeByte a j v).dbgRdata = s.dbgRdata :=
    by
  unfold State.storeByte; split
  · exact (store8_dbgRdata _ _ _).trans (landed_dbgRdata s)
  · exact store8_dbgRdata _ _ _
@[simp] theorem storeByte_imem (s : State) (a : Word) (j : Nat) (v : Byte) : (s.storeByte a j v).imem = s.imem := by
  unfold State.storeByte; split
  · exact (store8_imem _ _ _).trans (landed_imem s)
  · exact store8_imem _ _ _
@[simp] theorem storeByte_prevWrites (s : State) (a : Word) (j : Nat) (v : Byte) : (s.storeByte a j v).prevWrites = s.prevWrites :=
    by
  unfold State.storeByte; split
  · exact (store8_prevWrites _ _ _).trans (landed_prevWrites s)
  · exact store8_prevWrites _ _ _
@[simp] theorem storeByte_heldIrq (s : State) (a : Word) (j : Nat) (v : Byte) : (s.storeByte a j v).heldIrq = s.heldIrq :=
    by
  unfold State.storeByte; split
  · exact (store8_heldIrq _ _ _).trans (landed_heldIrq s)
  · exact store8_heldIrq _ _ _
@[simp] theorem storeByte_inputs (s : State) (a : Word) (j : Nat) (v : Byte) : (s.storeByte a j v).inputs = s.inputs :=
    by
  unfold State.storeByte; split
  · exact (store8_inputs _ _ _).trans (landed_inputs s)
  · exact store8_inputs _ _ _
@[simp] theorem storeByte_draws (s : State) (a : Word) (j : Nat) (v : Byte) : (s.storeByte a j v).draws = s.draws :=
    by
  unfold State.storeByte; split
  · exact (store8_draws _ _ _).trans (landed_draws s)
  · exact store8_draws _ _ _

/-! ### `storeValue` -/

@[simp] theorem storeValue_params (s : State) (k : StoreKind) (a v : Word) : (s.storeValue k a v).params = s.params :=
    storeValue_keeps (fun t => t.params) (fun t b j c => storeByte_params t b j c) s k a v
@[simp] theorem storeValue_x (s : State) (k : StoreKind) (a v : Word) : (s.storeValue k a v).x = s.x :=
    storeValue_keeps (fun t => t.x) (fun t b j c => storeByte_x t b j c) s k a v
@[simp] theorem storeValue_f (s : State) (k : StoreKind) (a v : Word) : (s.storeValue k a v).f = s.f :=
    storeValue_keeps (fun t => t.f) (fun t b j c => storeByte_f t b j c) s k a v
@[simp] theorem storeValue_pc (s : State) (k : StoreKind) (a v : Word) : (s.storeValue k a v).pc = s.pc :=
    storeValue_keeps (fun t => t.pc) (fun t b j c => storeByte_pc t b j c) s k a v
@[simp] theorem storeValue_mstatus (s : State) (k : StoreKind) (a v : Word) : (s.storeValue k a v).mstatus = s.mstatus :=
    storeValue_keeps (fun t => t.mstatus) (fun t b j c => storeByte_mstatus t b j c) s k a v
@[simp] theorem storeValue_mepc (s : State) (k : StoreKind) (a v : Word) : (s.storeValue k a v).mepc = s.mepc :=
    storeValue_keeps (fun t => t.mepc) (fun t b j c => storeByte_mepc t b j c) s k a v
@[simp] theorem storeValue_mcause (s : State) (k : StoreKind) (a v : Word) : (s.storeValue k a v).mcause = s.mcause :=
    storeValue_keeps (fun t => t.mcause) (fun t b j c => storeByte_mcause t b j c) s k a v
@[simp] theorem storeValue_pcmr (s : State) (k : StoreKind) (a v : Word) : (s.storeValue k a v).pcmr = s.pcmr :=
    storeValue_keeps (fun t => t.pcmr) (fun t b j c => storeByte_pcmr t b j c) s k a v
@[simp] theorem storeValue_pcer (s : State) (k : StoreKind) (a v : Word) : (s.storeValue k a v).pcer = s.pcer :=
    storeValue_keeps (fun t => t.pcer) (fun t b j c => storeByte_pcer t b j c) s k a v
@[simp] theorem storeValue_pccr (s : State) (k : StoreKind) (a v : Word) : (s.storeValue k a v).pccr = s.pccr :=
    storeValue_keeps (fun t => t.pccr) (fun t b j c => storeByte_pccr t b j c) s k a v
@[simp] theorem storeValue_fflags (s : State) (k : StoreKind) (a v : Word) : (s.storeValue k a v).fflags = s.fflags :=
    storeValue_keeps (fun t => t.fflags) (fun t b j c => storeByte_fflags t b j c) s k a v
@[simp] theorem storeValue_frm (s : State) (k : StoreKind) (a v : Word) : (s.storeValue k a v).frm = s.frm :=
    storeValue_keeps (fun t => t.frm) (fun t b j c => storeByte_frm t b j c) s k a v
@[simp] theorem storeValue_fprec (s : State) (k : StoreKind) (a v : Word) : (s.storeValue k a v).fprec = s.fprec :=
    storeValue_keeps (fun t => t.fprec) (fun t b j c => storeByte_fprec t b j c) s k a v
@[simp] theorem storeValue_loop0 (s : State) (k : StoreKind) (a v : Word) : (s.storeValue k a v).loop0 = s.loop0 :=
    storeValue_keeps (fun t => t.loop0) (fun t b j c => storeByte_loop0 t b j c) s k a v
@[simp] theorem storeValue_loop1 (s : State) (k : StoreKind) (a v : Word) : (s.storeValue k a v).loop1 = s.loop1 :=
    storeValue_keeps (fun t => t.loop1) (fun t b j c => storeByte_loop1 t b j c) s k a v
@[simp] theorem storeValue_sleeping (s : State) (k : StoreKind) (a v : Word) : (s.storeValue k a v).sleeping = s.sleeping :=
    storeValue_keeps (fun t => t.sleeping) (fun t b j c => storeByte_sleeping t b j c) s k a v
@[simp] theorem storeValue_irq (s : State) (k : StoreKind) (a v : Word) : (s.storeValue k a v).irq = s.irq :=
    storeValue_keeps (fun t => t.irq) (fun t b j c => storeByte_irq t b j c) s k a v
@[simp] theorem storeValue_irqAck (s : State) (k : StoreKind) (a v : Word) : (s.storeValue k a v).irqAck = s.irqAck :=
    storeValue_keeps (fun t => t.irqAck) (fun t b j c => storeByte_irqAck t b j c) s k a v
@[simp] theorem storeValue_bootAddr (s : State) (k : StoreKind) (a v : Word) : (s.storeValue k a v).bootAddr = s.bootAddr :=
    storeValue_keeps (fun t => t.bootAddr) (fun t b j c => storeByte_bootAddr t b j c) s k a v
@[simp] theorem storeValue_halted (s : State) (k : StoreKind) (a v : Word) : (s.storeValue k a v).halted = s.halted :=
    storeValue_keeps (fun t => t.halted) (fun t b j c => storeByte_halted t b j c) s k a v
@[simp] theorem storeValue_sste (s : State) (k : StoreKind) (a v : Word) : (s.storeValue k a v).sste = s.sste :=
    storeValue_keeps (fun t => t.sste) (fun t b j c => storeByte_sste t b j c) s k a v
@[simp] theorem storeValue_ssth (s : State) (k : StoreKind) (a v : Word) : (s.storeValue k a v).ssth = s.ssth :=
    storeValue_keeps (fun t => t.ssth) (fun t b j c => storeByte_ssth t b j c) s k a v
@[simp] theorem storeValue_dbgIe (s : State) (k : StoreKind) (a v : Word) : (s.storeValue k a v).dbgIe = s.dbgIe :=
    storeValue_keeps (fun t => t.dbgIe) (fun t b j c => storeByte_dbgIe t b j c) s k a v
@[simp] theorem storeValue_dbgCause (s : State) (k : StoreKind) (a v : Word) : (s.storeValue k a v).dbgCause = s.dbgCause :=
    storeValue_keeps (fun t => t.dbgCause) (fun t b j c => storeByte_dbgCause t b j c) s k a v
@[simp] theorem storeValue_ppc (s : State) (k : StoreKind) (a v : Word) : (s.storeValue k a v).ppc = s.ppc :=
    storeValue_keeps (fun t => t.ppc) (fun t b j c => storeByte_ppc t b j c) s k a v
@[simp] theorem storeValue_dbgRdata (s : State) (k : StoreKind) (a v : Word) : (s.storeValue k a v).dbgRdata = s.dbgRdata :=
    storeValue_keeps (fun t => t.dbgRdata) (fun t b j c => storeByte_dbgRdata t b j c) s k a v
@[simp] theorem storeValue_imem (s : State) (k : StoreKind) (a v : Word) : (s.storeValue k a v).imem = s.imem :=
    storeValue_keeps (fun t => t.imem) (fun t b j c => storeByte_imem t b j c) s k a v
@[simp] theorem storeValue_prevWrites (s : State) (k : StoreKind) (a v : Word) : (s.storeValue k a v).prevWrites = s.prevWrites :=
    storeValue_keeps (fun t => t.prevWrites) (fun t b j c => storeByte_prevWrites t b j c) s k a v
@[simp] theorem storeValue_heldIrq (s : State) (k : StoreKind) (a v : Word) : (s.storeValue k a v).heldIrq = s.heldIrq :=
    storeValue_keeps (fun t => t.heldIrq) (fun t b j c => storeByte_heldIrq t b j c) s k a v
@[simp] theorem storeValue_inputs (s : State) (k : StoreKind) (a v : Word) : (s.storeValue k a v).inputs = s.inputs :=
    storeValue_keeps (fun t => t.inputs) (fun t b j c => storeByte_inputs t b j c) s k a v
@[simp] theorem storeValue_draws (s : State) (k : StoreKind) (a v : Word) : (s.storeValue k a v).draws = s.draws :=
    storeValue_keeps (fun t => t.draws) (fun t b j c => storeByte_draws t b j c) s k a v

/-! ### `setLoopRegs` -/

@[simp] theorem setLoopRegs_params (s : State) (l : BitVec 1) (v : LoopRegs) : (s.setLoopRegs l v).params = s.params :=
    by
  unfold State.setLoopRegs; split <;> rfl
@[simp] theorem setLoopRegs_x (s : State) (l : BitVec 1) (v : LoopRegs) : (s.setLoopRegs l v).x = s.x := by
  unfold State.setLoopRegs; split <;> rfl
@[simp] theorem setLoopRegs_f (s : State) (l : BitVec 1) (v : LoopRegs) : (s.setLoopRegs l v).f = s.f := by
  unfold State.setLoopRegs; split <;> rfl
@[simp] theorem setLoopRegs_pc (s : State) (l : BitVec 1) (v : LoopRegs) : (s.setLoopRegs l v).pc = s.pc := by
  unfold State.setLoopRegs; split <;> rfl
@[simp] theorem setLoopRegs_mstatus (s : State) (l : BitVec 1) (v : LoopRegs) : (s.setLoopRegs l v).mstatus = s.mstatus :=
    by
  unfold State.setLoopRegs; split <;> rfl
@[simp] theorem setLoopRegs_mepc (s : State) (l : BitVec 1) (v : LoopRegs) : (s.setLoopRegs l v).mepc = s.mepc := by
  unfold State.setLoopRegs; split <;> rfl
@[simp] theorem setLoopRegs_mcause (s : State) (l : BitVec 1) (v : LoopRegs) : (s.setLoopRegs l v).mcause = s.mcause :=
    by
  unfold State.setLoopRegs; split <;> rfl
@[simp] theorem setLoopRegs_pcmr (s : State) (l : BitVec 1) (v : LoopRegs) : (s.setLoopRegs l v).pcmr = s.pcmr := by
  unfold State.setLoopRegs; split <;> rfl
@[simp] theorem setLoopRegs_pcer (s : State) (l : BitVec 1) (v : LoopRegs) : (s.setLoopRegs l v).pcer = s.pcer := by
  unfold State.setLoopRegs; split <;> rfl
@[simp] theorem setLoopRegs_pccr (s : State) (l : BitVec 1) (v : LoopRegs) : (s.setLoopRegs l v).pccr = s.pccr := by
  unfold State.setLoopRegs; split <;> rfl
@[simp] theorem setLoopRegs_fflags (s : State) (l : BitVec 1) (v : LoopRegs) : (s.setLoopRegs l v).fflags = s.fflags :=
    by
  unfold State.setLoopRegs; split <;> rfl
@[simp] theorem setLoopRegs_frm (s : State) (l : BitVec 1) (v : LoopRegs) : (s.setLoopRegs l v).frm = s.frm := by
  unfold State.setLoopRegs; split <;> rfl
@[simp] theorem setLoopRegs_fprec (s : State) (l : BitVec 1) (v : LoopRegs) : (s.setLoopRegs l v).fprec = s.fprec :=
    by
  unfold State.setLoopRegs; split <;> rfl
@[simp] theorem setLoopRegs_sleeping (s : State) (l : BitVec 1) (v : LoopRegs) : (s.setLoopRegs l v).sleeping = s.sleeping :=
    by
  unfold State.setLoopRegs; split <;> rfl
@[simp] theorem setLoopRegs_irq (s : State) (l : BitVec 1) (v : LoopRegs) : (s.setLoopRegs l v).irq = s.irq := by
  unfold State.setLoopRegs; split <;> rfl
@[simp] theorem setLoopRegs_irqAck (s : State) (l : BitVec 1) (v : LoopRegs) : (s.setLoopRegs l v).irqAck = s.irqAck :=
    by
  unfold State.setLoopRegs; split <;> rfl
@[simp] theorem setLoopRegs_bootAddr (s : State) (l : BitVec 1) (v : LoopRegs) : (s.setLoopRegs l v).bootAddr = s.bootAddr :=
    by
  unfold State.setLoopRegs; split <;> rfl
@[simp] theorem setLoopRegs_halted (s : State) (l : BitVec 1) (v : LoopRegs) : (s.setLoopRegs l v).halted = s.halted :=
    by
  unfold State.setLoopRegs; split <;> rfl
@[simp] theorem setLoopRegs_sste (s : State) (l : BitVec 1) (v : LoopRegs) : (s.setLoopRegs l v).sste = s.sste := by
  unfold State.setLoopRegs; split <;> rfl
@[simp] theorem setLoopRegs_ssth (s : State) (l : BitVec 1) (v : LoopRegs) : (s.setLoopRegs l v).ssth = s.ssth := by
  unfold State.setLoopRegs; split <;> rfl
@[simp] theorem setLoopRegs_dbgIe (s : State) (l : BitVec 1) (v : LoopRegs) : (s.setLoopRegs l v).dbgIe = s.dbgIe :=
    by
  unfold State.setLoopRegs; split <;> rfl
@[simp] theorem setLoopRegs_dbgCause (s : State) (l : BitVec 1) (v : LoopRegs) : (s.setLoopRegs l v).dbgCause = s.dbgCause :=
    by
  unfold State.setLoopRegs; split <;> rfl
@[simp] theorem setLoopRegs_ppc (s : State) (l : BitVec 1) (v : LoopRegs) : (s.setLoopRegs l v).ppc = s.ppc := by
  unfold State.setLoopRegs; split <;> rfl
@[simp] theorem setLoopRegs_dbgRdata (s : State) (l : BitVec 1) (v : LoopRegs) : (s.setLoopRegs l v).dbgRdata = s.dbgRdata :=
    by
  unfold State.setLoopRegs; split <;> rfl
@[simp] theorem setLoopRegs_mem (s : State) (l : BitVec 1) (v : LoopRegs) : (s.setLoopRegs l v).mem = s.mem := by
  unfold State.setLoopRegs; split <;> rfl
@[simp] theorem setLoopRegs_imem (s : State) (l : BitVec 1) (v : LoopRegs) : (s.setLoopRegs l v).imem = s.imem := by
  unfold State.setLoopRegs; split <;> rfl
@[simp] theorem setLoopRegs_dirty (s : State) (l : BitVec 1) (v : LoopRegs) : (s.setLoopRegs l v).dirty = s.dirty :=
    by
  unfold State.setLoopRegs; split <;> rfl
@[simp] theorem setLoopRegs_between (s : State) (l : BitVec 1) (v : LoopRegs) : (s.setLoopRegs l v).between = s.between :=
    by
  unfold State.setLoopRegs; split <;> rfl
@[simp] theorem setLoopRegs_prevWrites (s : State) (l : BitVec 1) (v : LoopRegs) : (s.setLoopRegs l v).prevWrites = s.prevWrites :=
    by
  unfold State.setLoopRegs; split <;> rfl
@[simp] theorem setLoopRegs_heldIrq (s : State) (l : BitVec 1) (v : LoopRegs) : (s.setLoopRegs l v).heldIrq = s.heldIrq :=
    by
  unfold State.setLoopRegs; split <;> rfl
@[simp] theorem setLoopRegs_inputs (s : State) (l : BitVec 1) (v : LoopRegs) : (s.setLoopRegs l v).inputs = s.inputs :=
    by
  unfold State.setLoopRegs; split <;> rfl
@[simp] theorem setLoopRegs_draws (s : State) (l : BitVec 1) (v : LoopRegs) : (s.setLoopRegs l v).draws = s.draws :=
    by
  unfold State.setLoopRegs; split <;> rfl

/-! ### `stepLoop1` -/

@[simp] theorem stepLoop1_params (s : State) (n : Word) : (s.stepLoop1 n).params = s.params := by
  unfold State.stepLoop1; repeat' split
  all_goals rfl
@[simp] theorem stepLoop1_x (s : State) (n : Word) : (s.stepLoop1 n).x = s.x := by
  unfold State.stepLoop1; repeat' split
  all_goals rfl
@[simp] theorem stepLoop1_f (s : State) (n : Word) : (s.stepLoop1 n).f = s.f := by
  unfold State.stepLoop1; repeat' split
  all_goals rfl
@[simp] theorem stepLoop1_mstatus (s : State) (n : Word) : (s.stepLoop1 n).mstatus = s.mstatus := by
  unfold State.stepLoop1; repeat' split
  all_goals rfl
@[simp] theorem stepLoop1_mepc (s : State) (n : Word) : (s.stepLoop1 n).mepc = s.mepc := by
  unfold State.stepLoop1; repeat' split
  all_goals rfl
@[simp] theorem stepLoop1_mcause (s : State) (n : Word) : (s.stepLoop1 n).mcause = s.mcause := by
  unfold State.stepLoop1; repeat' split
  all_goals rfl
@[simp] theorem stepLoop1_pcmr (s : State) (n : Word) : (s.stepLoop1 n).pcmr = s.pcmr := by
  unfold State.stepLoop1; repeat' split
  all_goals rfl
@[simp] theorem stepLoop1_pcer (s : State) (n : Word) : (s.stepLoop1 n).pcer = s.pcer := by
  unfold State.stepLoop1; repeat' split
  all_goals rfl
@[simp] theorem stepLoop1_pccr (s : State) (n : Word) : (s.stepLoop1 n).pccr = s.pccr := by
  unfold State.stepLoop1; repeat' split
  all_goals rfl
@[simp] theorem stepLoop1_fflags (s : State) (n : Word) : (s.stepLoop1 n).fflags = s.fflags := by
  unfold State.stepLoop1; repeat' split
  all_goals rfl
@[simp] theorem stepLoop1_frm (s : State) (n : Word) : (s.stepLoop1 n).frm = s.frm := by
  unfold State.stepLoop1; repeat' split
  all_goals rfl
@[simp] theorem stepLoop1_fprec (s : State) (n : Word) : (s.stepLoop1 n).fprec = s.fprec := by
  unfold State.stepLoop1; repeat' split
  all_goals rfl
@[simp] theorem stepLoop1_loop0 (s : State) (n : Word) : (s.stepLoop1 n).loop0 = s.loop0 := by
  unfold State.stepLoop1; repeat' split
  all_goals rfl
@[simp] theorem stepLoop1_sleeping (s : State) (n : Word) : (s.stepLoop1 n).sleeping = s.sleeping := by
  unfold State.stepLoop1; repeat' split
  all_goals rfl
@[simp] theorem stepLoop1_irq (s : State) (n : Word) : (s.stepLoop1 n).irq = s.irq := by
  unfold State.stepLoop1; repeat' split
  all_goals rfl
@[simp] theorem stepLoop1_irqAck (s : State) (n : Word) : (s.stepLoop1 n).irqAck = s.irqAck := by
  unfold State.stepLoop1; repeat' split
  all_goals rfl
@[simp] theorem stepLoop1_bootAddr (s : State) (n : Word) : (s.stepLoop1 n).bootAddr = s.bootAddr := by
  unfold State.stepLoop1; repeat' split
  all_goals rfl
@[simp] theorem stepLoop1_halted (s : State) (n : Word) : (s.stepLoop1 n).halted = s.halted := by
  unfold State.stepLoop1; repeat' split
  all_goals rfl
@[simp] theorem stepLoop1_sste (s : State) (n : Word) : (s.stepLoop1 n).sste = s.sste := by
  unfold State.stepLoop1; repeat' split
  all_goals rfl
@[simp] theorem stepLoop1_ssth (s : State) (n : Word) : (s.stepLoop1 n).ssth = s.ssth := by
  unfold State.stepLoop1; repeat' split
  all_goals rfl
@[simp] theorem stepLoop1_dbgIe (s : State) (n : Word) : (s.stepLoop1 n).dbgIe = s.dbgIe := by
  unfold State.stepLoop1; repeat' split
  all_goals rfl
@[simp] theorem stepLoop1_dbgCause (s : State) (n : Word) : (s.stepLoop1 n).dbgCause = s.dbgCause := by
  unfold State.stepLoop1; repeat' split
  all_goals rfl
@[simp] theorem stepLoop1_ppc (s : State) (n : Word) : (s.stepLoop1 n).ppc = s.ppc := by
  unfold State.stepLoop1; repeat' split
  all_goals rfl
@[simp] theorem stepLoop1_dbgRdata (s : State) (n : Word) : (s.stepLoop1 n).dbgRdata = s.dbgRdata := by
  unfold State.stepLoop1; repeat' split
  all_goals rfl
@[simp] theorem stepLoop1_mem (s : State) (n : Word) : (s.stepLoop1 n).mem = s.mem := by
  unfold State.stepLoop1; repeat' split
  all_goals rfl
@[simp] theorem stepLoop1_imem (s : State) (n : Word) : (s.stepLoop1 n).imem = s.imem := by
  unfold State.stepLoop1; repeat' split
  all_goals rfl
@[simp] theorem stepLoop1_dirty (s : State) (n : Word) : (s.stepLoop1 n).dirty = s.dirty := by
  unfold State.stepLoop1; repeat' split
  all_goals rfl
@[simp] theorem stepLoop1_between (s : State) (n : Word) : (s.stepLoop1 n).between = s.between := by
  unfold State.stepLoop1; repeat' split
  all_goals rfl
@[simp] theorem stepLoop1_prevWrites (s : State) (n : Word) : (s.stepLoop1 n).prevWrites = s.prevWrites := by
  unfold State.stepLoop1; repeat' split
  all_goals rfl
@[simp] theorem stepLoop1_heldIrq (s : State) (n : Word) : (s.stepLoop1 n).heldIrq = s.heldIrq := by
  unfold State.stepLoop1; repeat' split
  all_goals rfl
@[simp] theorem stepLoop1_inputs (s : State) (n : Word) : (s.stepLoop1 n).inputs = s.inputs := by
  unfold State.stepLoop1; repeat' split
  all_goals rfl
@[simp] theorem stepLoop1_draws (s : State) (n : Word) : (s.stepLoop1 n).draws = s.draws := by
  unfold State.stepLoop1; repeat' split
  all_goals rfl

/-! ### `stepLoops` -/

@[simp] theorem stepLoops_params (s : State) (n : Word) : (s.stepLoops n).params = s.params := by
  unfold State.stepLoops; repeat' split
  · rfl
  · exact stepLoop1_params _ _
  · exact stepLoop1_params _ _
@[simp] theorem stepLoops_x (s : State) (n : Word) : (s.stepLoops n).x = s.x := by
  unfold State.stepLoops; repeat' split
  · rfl
  · exact stepLoop1_x _ _
  · exact stepLoop1_x _ _
@[simp] theorem stepLoops_f (s : State) (n : Word) : (s.stepLoops n).f = s.f := by
  unfold State.stepLoops; repeat' split
  · rfl
  · exact stepLoop1_f _ _
  · exact stepLoop1_f _ _
@[simp] theorem stepLoops_mstatus (s : State) (n : Word) : (s.stepLoops n).mstatus = s.mstatus := by
  unfold State.stepLoops; repeat' split
  · rfl
  · exact stepLoop1_mstatus _ _
  · exact stepLoop1_mstatus _ _
@[simp] theorem stepLoops_mepc (s : State) (n : Word) : (s.stepLoops n).mepc = s.mepc := by
  unfold State.stepLoops; repeat' split
  · rfl
  · exact stepLoop1_mepc _ _
  · exact stepLoop1_mepc _ _
@[simp] theorem stepLoops_mcause (s : State) (n : Word) : (s.stepLoops n).mcause = s.mcause := by
  unfold State.stepLoops; repeat' split
  · rfl
  · exact stepLoop1_mcause _ _
  · exact stepLoop1_mcause _ _
@[simp] theorem stepLoops_pcmr (s : State) (n : Word) : (s.stepLoops n).pcmr = s.pcmr := by
  unfold State.stepLoops; repeat' split
  · rfl
  · exact stepLoop1_pcmr _ _
  · exact stepLoop1_pcmr _ _
@[simp] theorem stepLoops_pcer (s : State) (n : Word) : (s.stepLoops n).pcer = s.pcer := by
  unfold State.stepLoops; repeat' split
  · rfl
  · exact stepLoop1_pcer _ _
  · exact stepLoop1_pcer _ _
@[simp] theorem stepLoops_pccr (s : State) (n : Word) : (s.stepLoops n).pccr = s.pccr := by
  unfold State.stepLoops; repeat' split
  · rfl
  · exact stepLoop1_pccr _ _
  · exact stepLoop1_pccr _ _
@[simp] theorem stepLoops_fflags (s : State) (n : Word) : (s.stepLoops n).fflags = s.fflags := by
  unfold State.stepLoops; repeat' split
  · rfl
  · exact stepLoop1_fflags _ _
  · exact stepLoop1_fflags _ _
@[simp] theorem stepLoops_frm (s : State) (n : Word) : (s.stepLoops n).frm = s.frm := by
  unfold State.stepLoops; repeat' split
  · rfl
  · exact stepLoop1_frm _ _
  · exact stepLoop1_frm _ _
@[simp] theorem stepLoops_fprec (s : State) (n : Word) : (s.stepLoops n).fprec = s.fprec := by
  unfold State.stepLoops; repeat' split
  · rfl
  · exact stepLoop1_fprec _ _
  · exact stepLoop1_fprec _ _
@[simp] theorem stepLoops_sleeping (s : State) (n : Word) : (s.stepLoops n).sleeping = s.sleeping := by
  unfold State.stepLoops; repeat' split
  · rfl
  · exact stepLoop1_sleeping _ _
  · exact stepLoop1_sleeping _ _
@[simp] theorem stepLoops_irq (s : State) (n : Word) : (s.stepLoops n).irq = s.irq := by
  unfold State.stepLoops; repeat' split
  · rfl
  · exact stepLoop1_irq _ _
  · exact stepLoop1_irq _ _
@[simp] theorem stepLoops_irqAck (s : State) (n : Word) : (s.stepLoops n).irqAck = s.irqAck := by
  unfold State.stepLoops; repeat' split
  · rfl
  · exact stepLoop1_irqAck _ _
  · exact stepLoop1_irqAck _ _
@[simp] theorem stepLoops_bootAddr (s : State) (n : Word) : (s.stepLoops n).bootAddr = s.bootAddr := by
  unfold State.stepLoops; repeat' split
  · rfl
  · exact stepLoop1_bootAddr _ _
  · exact stepLoop1_bootAddr _ _
@[simp] theorem stepLoops_halted (s : State) (n : Word) : (s.stepLoops n).halted = s.halted := by
  unfold State.stepLoops; repeat' split
  · rfl
  · exact stepLoop1_halted _ _
  · exact stepLoop1_halted _ _
@[simp] theorem stepLoops_sste (s : State) (n : Word) : (s.stepLoops n).sste = s.sste := by
  unfold State.stepLoops; repeat' split
  · rfl
  · exact stepLoop1_sste _ _
  · exact stepLoop1_sste _ _
@[simp] theorem stepLoops_ssth (s : State) (n : Word) : (s.stepLoops n).ssth = s.ssth := by
  unfold State.stepLoops; repeat' split
  · rfl
  · exact stepLoop1_ssth _ _
  · exact stepLoop1_ssth _ _
@[simp] theorem stepLoops_dbgIe (s : State) (n : Word) : (s.stepLoops n).dbgIe = s.dbgIe := by
  unfold State.stepLoops; repeat' split
  · rfl
  · exact stepLoop1_dbgIe _ _
  · exact stepLoop1_dbgIe _ _
@[simp] theorem stepLoops_dbgCause (s : State) (n : Word) : (s.stepLoops n).dbgCause = s.dbgCause := by
  unfold State.stepLoops; repeat' split
  · rfl
  · exact stepLoop1_dbgCause _ _
  · exact stepLoop1_dbgCause _ _
@[simp] theorem stepLoops_ppc (s : State) (n : Word) : (s.stepLoops n).ppc = s.ppc := by
  unfold State.stepLoops; repeat' split
  · rfl
  · exact stepLoop1_ppc _ _
  · exact stepLoop1_ppc _ _
@[simp] theorem stepLoops_dbgRdata (s : State) (n : Word) : (s.stepLoops n).dbgRdata = s.dbgRdata := by
  unfold State.stepLoops; repeat' split
  · rfl
  · exact stepLoop1_dbgRdata _ _
  · exact stepLoop1_dbgRdata _ _
@[simp] theorem stepLoops_mem (s : State) (n : Word) : (s.stepLoops n).mem = s.mem := by
  unfold State.stepLoops; repeat' split
  · rfl
  · exact stepLoop1_mem _ _
  · exact stepLoop1_mem _ _
@[simp] theorem stepLoops_imem (s : State) (n : Word) : (s.stepLoops n).imem = s.imem := by
  unfold State.stepLoops; repeat' split
  · rfl
  · exact stepLoop1_imem _ _
  · exact stepLoop1_imem _ _
@[simp] theorem stepLoops_dirty (s : State) (n : Word) : (s.stepLoops n).dirty = s.dirty := by
  unfold State.stepLoops; repeat' split
  · rfl
  · exact stepLoop1_dirty _ _
  · exact stepLoop1_dirty _ _
@[simp] theorem stepLoops_between (s : State) (n : Word) : (s.stepLoops n).between = s.between := by
  unfold State.stepLoops; repeat' split
  · rfl
  · exact stepLoop1_between _ _
  · exact stepLoop1_between _ _
@[simp] theorem stepLoops_prevWrites (s : State) (n : Word) : (s.stepLoops n).prevWrites = s.prevWrites := by
  unfold State.stepLoops; repeat' split
  · rfl
  · exact stepLoop1_prevWrites _ _
  · exact stepLoop1_prevWrites _ _
@[simp] theorem stepLoops_heldIrq (s : State) (n : Word) : (s.stepLoops n).heldIrq = s.heldIrq := by
  unfold State.stepLoops; repeat' split
  · rfl
  · exact stepLoop1_heldIrq _ _
  · exact stepLoop1_heldIrq _ _
@[simp] theorem stepLoops_inputs (s : State) (n : Word) : (s.stepLoops n).inputs = s.inputs := by
  unfold State.stepLoops; repeat' split
  · rfl
  · exact stepLoop1_inputs _ _
  · exact stepLoop1_inputs _ _
@[simp] theorem stepLoops_draws (s : State) (n : Word) : (s.stepLoops n).draws = s.draws := by
  unfold State.stepLoops; repeat' split
  · rfl
  · exact stepLoop1_draws _ _
  · exact stepLoop1_draws _ _

/-! ### `setCounter` -/

@[simp] theorem setCounter_params (s : State) (n : Nat) (v : Word) : (s.setCounter n v).params = s.params := rfl
@[simp] theorem setCounter_x (s : State) (n : Nat) (v : Word) : (s.setCounter n v).x = s.x := rfl
@[simp] theorem setCounter_f (s : State) (n : Nat) (v : Word) : (s.setCounter n v).f = s.f := rfl
@[simp] theorem setCounter_pc (s : State) (n : Nat) (v : Word) : (s.setCounter n v).pc = s.pc := rfl
@[simp] theorem setCounter_mstatus (s : State) (n : Nat) (v : Word) : (s.setCounter n v).mstatus = s.mstatus := rfl
@[simp] theorem setCounter_mepc (s : State) (n : Nat) (v : Word) : (s.setCounter n v).mepc = s.mepc := rfl
@[simp] theorem setCounter_mcause (s : State) (n : Nat) (v : Word) : (s.setCounter n v).mcause = s.mcause := rfl
@[simp] theorem setCounter_pcmr (s : State) (n : Nat) (v : Word) : (s.setCounter n v).pcmr = s.pcmr := rfl
@[simp] theorem setCounter_pcer (s : State) (n : Nat) (v : Word) : (s.setCounter n v).pcer = s.pcer := rfl
@[simp] theorem setCounter_fflags (s : State) (n : Nat) (v : Word) : (s.setCounter n v).fflags = s.fflags := rfl
@[simp] theorem setCounter_frm (s : State) (n : Nat) (v : Word) : (s.setCounter n v).frm = s.frm := rfl
@[simp] theorem setCounter_fprec (s : State) (n : Nat) (v : Word) : (s.setCounter n v).fprec = s.fprec := rfl
@[simp] theorem setCounter_loop0 (s : State) (n : Nat) (v : Word) : (s.setCounter n v).loop0 = s.loop0 := rfl
@[simp] theorem setCounter_loop1 (s : State) (n : Nat) (v : Word) : (s.setCounter n v).loop1 = s.loop1 := rfl
@[simp] theorem setCounter_sleeping (s : State) (n : Nat) (v : Word) : (s.setCounter n v).sleeping = s.sleeping := rfl
@[simp] theorem setCounter_irq (s : State) (n : Nat) (v : Word) : (s.setCounter n v).irq = s.irq := rfl
@[simp] theorem setCounter_irqAck (s : State) (n : Nat) (v : Word) : (s.setCounter n v).irqAck = s.irqAck := rfl
@[simp] theorem setCounter_bootAddr (s : State) (n : Nat) (v : Word) : (s.setCounter n v).bootAddr = s.bootAddr := rfl
@[simp] theorem setCounter_halted (s : State) (n : Nat) (v : Word) : (s.setCounter n v).halted = s.halted := rfl
@[simp] theorem setCounter_sste (s : State) (n : Nat) (v : Word) : (s.setCounter n v).sste = s.sste := rfl
@[simp] theorem setCounter_ssth (s : State) (n : Nat) (v : Word) : (s.setCounter n v).ssth = s.ssth := rfl
@[simp] theorem setCounter_dbgIe (s : State) (n : Nat) (v : Word) : (s.setCounter n v).dbgIe = s.dbgIe := rfl
@[simp] theorem setCounter_dbgCause (s : State) (n : Nat) (v : Word) : (s.setCounter n v).dbgCause = s.dbgCause := rfl
@[simp] theorem setCounter_ppc (s : State) (n : Nat) (v : Word) : (s.setCounter n v).ppc = s.ppc := rfl
@[simp] theorem setCounter_dbgRdata (s : State) (n : Nat) (v : Word) : (s.setCounter n v).dbgRdata = s.dbgRdata := rfl
@[simp] theorem setCounter_mem (s : State) (n : Nat) (v : Word) : (s.setCounter n v).mem = s.mem := rfl
@[simp] theorem setCounter_imem (s : State) (n : Nat) (v : Word) : (s.setCounter n v).imem = s.imem := rfl
@[simp] theorem setCounter_dirty (s : State) (n : Nat) (v : Word) : (s.setCounter n v).dirty = s.dirty := rfl
@[simp] theorem setCounter_between (s : State) (n : Nat) (v : Word) : (s.setCounter n v).between = s.between := rfl
@[simp] theorem setCounter_prevWrites (s : State) (n : Nat) (v : Word) : (s.setCounter n v).prevWrites = s.prevWrites :=
    rfl
@[simp] theorem setCounter_heldIrq (s : State) (n : Nat) (v : Word) : (s.setCounter n v).heldIrq = s.heldIrq := rfl
@[simp] theorem setCounter_inputs (s : State) (n : Nat) (v : Word) : (s.setCounter n v).inputs = s.inputs := rfl
@[simp] theorem setCounter_draws (s : State) (n : Nat) (v : Word) : (s.setCounter n v).draws = s.draws := rfl

/-! ### `writePccr` -/

@[simp] theorem writePccr_params (s : State) (n : BitVec 5) (v : Word) : (s.writePccr n v).params = s.params := by
  unfold State.writePccr; repeat' split
  all_goals rfl
@[simp] theorem writePccr_x (s : State) (n : BitVec 5) (v : Word) : (s.writePccr n v).x = s.x := by
  unfold State.writePccr; repeat' split
  all_goals rfl
@[simp] theorem writePccr_f (s : State) (n : BitVec 5) (v : Word) : (s.writePccr n v).f = s.f := by
  unfold State.writePccr; repeat' split
  all_goals rfl
@[simp] theorem writePccr_pc (s : State) (n : BitVec 5) (v : Word) : (s.writePccr n v).pc = s.pc := by
  unfold State.writePccr; repeat' split
  all_goals rfl
@[simp] theorem writePccr_mstatus (s : State) (n : BitVec 5) (v : Word) : (s.writePccr n v).mstatus = s.mstatus := by
  unfold State.writePccr; repeat' split
  all_goals rfl
@[simp] theorem writePccr_mepc (s : State) (n : BitVec 5) (v : Word) : (s.writePccr n v).mepc = s.mepc := by
  unfold State.writePccr; repeat' split
  all_goals rfl
@[simp] theorem writePccr_mcause (s : State) (n : BitVec 5) (v : Word) : (s.writePccr n v).mcause = s.mcause := by
  unfold State.writePccr; repeat' split
  all_goals rfl
@[simp] theorem writePccr_pcmr (s : State) (n : BitVec 5) (v : Word) : (s.writePccr n v).pcmr = s.pcmr := by
  unfold State.writePccr; repeat' split
  all_goals rfl
@[simp] theorem writePccr_pcer (s : State) (n : BitVec 5) (v : Word) : (s.writePccr n v).pcer = s.pcer := by
  unfold State.writePccr; repeat' split
  all_goals rfl
@[simp] theorem writePccr_fflags (s : State) (n : BitVec 5) (v : Word) : (s.writePccr n v).fflags = s.fflags := by
  unfold State.writePccr; repeat' split
  all_goals rfl
@[simp] theorem writePccr_frm (s : State) (n : BitVec 5) (v : Word) : (s.writePccr n v).frm = s.frm := by
  unfold State.writePccr; repeat' split
  all_goals rfl
@[simp] theorem writePccr_fprec (s : State) (n : BitVec 5) (v : Word) : (s.writePccr n v).fprec = s.fprec := by
  unfold State.writePccr; repeat' split
  all_goals rfl
@[simp] theorem writePccr_loop0 (s : State) (n : BitVec 5) (v : Word) : (s.writePccr n v).loop0 = s.loop0 := by
  unfold State.writePccr; repeat' split
  all_goals rfl
@[simp] theorem writePccr_loop1 (s : State) (n : BitVec 5) (v : Word) : (s.writePccr n v).loop1 = s.loop1 := by
  unfold State.writePccr; repeat' split
  all_goals rfl
@[simp] theorem writePccr_sleeping (s : State) (n : BitVec 5) (v : Word) : (s.writePccr n v).sleeping = s.sleeping :=
    by
  unfold State.writePccr; repeat' split
  all_goals rfl
@[simp] theorem writePccr_irq (s : State) (n : BitVec 5) (v : Word) : (s.writePccr n v).irq = s.irq := by
  unfold State.writePccr; repeat' split
  all_goals rfl
@[simp] theorem writePccr_irqAck (s : State) (n : BitVec 5) (v : Word) : (s.writePccr n v).irqAck = s.irqAck := by
  unfold State.writePccr; repeat' split
  all_goals rfl
@[simp] theorem writePccr_bootAddr (s : State) (n : BitVec 5) (v : Word) : (s.writePccr n v).bootAddr = s.bootAddr :=
    by
  unfold State.writePccr; repeat' split
  all_goals rfl
@[simp] theorem writePccr_halted (s : State) (n : BitVec 5) (v : Word) : (s.writePccr n v).halted = s.halted := by
  unfold State.writePccr; repeat' split
  all_goals rfl
@[simp] theorem writePccr_sste (s : State) (n : BitVec 5) (v : Word) : (s.writePccr n v).sste = s.sste := by
  unfold State.writePccr; repeat' split
  all_goals rfl
@[simp] theorem writePccr_ssth (s : State) (n : BitVec 5) (v : Word) : (s.writePccr n v).ssth = s.ssth := by
  unfold State.writePccr; repeat' split
  all_goals rfl
@[simp] theorem writePccr_dbgIe (s : State) (n : BitVec 5) (v : Word) : (s.writePccr n v).dbgIe = s.dbgIe := by
  unfold State.writePccr; repeat' split
  all_goals rfl
@[simp] theorem writePccr_dbgCause (s : State) (n : BitVec 5) (v : Word) : (s.writePccr n v).dbgCause = s.dbgCause :=
    by
  unfold State.writePccr; repeat' split
  all_goals rfl
@[simp] theorem writePccr_ppc (s : State) (n : BitVec 5) (v : Word) : (s.writePccr n v).ppc = s.ppc := by
  unfold State.writePccr; repeat' split
  all_goals rfl
@[simp] theorem writePccr_dbgRdata (s : State) (n : BitVec 5) (v : Word) : (s.writePccr n v).dbgRdata = s.dbgRdata :=
    by
  unfold State.writePccr; repeat' split
  all_goals rfl
@[simp] theorem writePccr_mem (s : State) (n : BitVec 5) (v : Word) : (s.writePccr n v).mem = s.mem := by
  unfold State.writePccr; repeat' split
  all_goals rfl
@[simp] theorem writePccr_imem (s : State) (n : BitVec 5) (v : Word) : (s.writePccr n v).imem = s.imem := by
  unfold State.writePccr; repeat' split
  all_goals rfl
@[simp] theorem writePccr_dirty (s : State) (n : BitVec 5) (v : Word) : (s.writePccr n v).dirty = s.dirty := by
  unfold State.writePccr; repeat' split
  all_goals rfl
@[simp] theorem writePccr_between (s : State) (n : BitVec 5) (v : Word) : (s.writePccr n v).between = s.between := by
  unfold State.writePccr; repeat' split
  all_goals rfl
@[simp] theorem writePccr_prevWrites (s : State) (n : BitVec 5) (v : Word) : (s.writePccr n v).prevWrites = s.prevWrites :=
    by
  unfold State.writePccr; repeat' split
  all_goals rfl
@[simp] theorem writePccr_heldIrq (s : State) (n : BitVec 5) (v : Word) : (s.writePccr n v).heldIrq = s.heldIrq := by
  unfold State.writePccr; repeat' split
  all_goals rfl
@[simp] theorem writePccr_inputs (s : State) (n : BitVec 5) (v : Word) : (s.writePccr n v).inputs = s.inputs := by
  unfold State.writePccr; repeat' split
  all_goals rfl
@[simp] theorem writePccr_draws (s : State) (n : BitVec 5) (v : Word) : (s.writePccr n v).draws = s.draws := by
  unfold State.writePccr; repeat' split
  all_goals rfl

/-! ### `halt` -/

@[simp] theorem halt_params (s : State) (c : BitVec 5) : (s.halt c).params = s.params := rfl
@[simp] theorem halt_x (s : State) (c : BitVec 5) : (s.halt c).x = s.x := rfl
@[simp] theorem halt_f (s : State) (c : BitVec 5) : (s.halt c).f = s.f := rfl
@[simp] theorem halt_pc (s : State) (c : BitVec 5) : (s.halt c).pc = s.pc := rfl
@[simp] theorem halt_mstatus (s : State) (c : BitVec 5) : (s.halt c).mstatus = s.mstatus := rfl
@[simp] theorem halt_mepc (s : State) (c : BitVec 5) : (s.halt c).mepc = s.mepc := rfl
@[simp] theorem halt_mcause (s : State) (c : BitVec 5) : (s.halt c).mcause = s.mcause := rfl
@[simp] theorem halt_pcmr (s : State) (c : BitVec 5) : (s.halt c).pcmr = s.pcmr := rfl
@[simp] theorem halt_pcer (s : State) (c : BitVec 5) : (s.halt c).pcer = s.pcer := rfl
@[simp] theorem halt_pccr (s : State) (c : BitVec 5) : (s.halt c).pccr = s.pccr := rfl
@[simp] theorem halt_fflags (s : State) (c : BitVec 5) : (s.halt c).fflags = s.fflags := rfl
@[simp] theorem halt_frm (s : State) (c : BitVec 5) : (s.halt c).frm = s.frm := rfl
@[simp] theorem halt_fprec (s : State) (c : BitVec 5) : (s.halt c).fprec = s.fprec := rfl
@[simp] theorem halt_loop0 (s : State) (c : BitVec 5) : (s.halt c).loop0 = s.loop0 := rfl
@[simp] theorem halt_loop1 (s : State) (c : BitVec 5) : (s.halt c).loop1 = s.loop1 := rfl
@[simp] theorem halt_sleeping (s : State) (c : BitVec 5) : (s.halt c).sleeping = s.sleeping := rfl
@[simp] theorem halt_irq (s : State) (c : BitVec 5) : (s.halt c).irq = s.irq := rfl
@[simp] theorem halt_irqAck (s : State) (c : BitVec 5) : (s.halt c).irqAck = s.irqAck := rfl
@[simp] theorem halt_bootAddr (s : State) (c : BitVec 5) : (s.halt c).bootAddr = s.bootAddr := rfl
@[simp] theorem halt_sste (s : State) (c : BitVec 5) : (s.halt c).sste = s.sste := rfl
@[simp] theorem halt_ssth (s : State) (c : BitVec 5) : (s.halt c).ssth = s.ssth := rfl
@[simp] theorem halt_dbgIe (s : State) (c : BitVec 5) : (s.halt c).dbgIe = s.dbgIe := rfl
@[simp] theorem halt_ppc (s : State) (c : BitVec 5) : (s.halt c).ppc = s.ppc := rfl
@[simp] theorem halt_dbgRdata (s : State) (c : BitVec 5) : (s.halt c).dbgRdata = s.dbgRdata := rfl
@[simp] theorem halt_mem (s : State) (c : BitVec 5) : (s.halt c).mem = s.mem := rfl
@[simp] theorem halt_imem (s : State) (c : BitVec 5) : (s.halt c).imem = s.imem := rfl
@[simp] theorem halt_dirty (s : State) (c : BitVec 5) : (s.halt c).dirty = s.dirty := rfl
@[simp] theorem halt_between (s : State) (c : BitVec 5) : (s.halt c).between = s.between := rfl
@[simp] theorem halt_prevWrites (s : State) (c : BitVec 5) : (s.halt c).prevWrites = s.prevWrites := rfl
@[simp] theorem halt_heldIrq (s : State) (c : BitVec 5) : (s.halt c).heldIrq = s.heldIrq := rfl
@[simp] theorem halt_inputs (s : State) (c : BitVec 5) : (s.halt c).inputs = s.inputs := rfl
@[simp] theorem halt_draws (s : State) (c : BitVec 5) : (s.halt c).draws = s.draws := rfl

/-! ### `enterTrap` -/

@[simp] theorem enterTrap_params (s : State) (e c : Word) (o : BitVec 8) : (s.enterTrap e c o).params = s.params :=
    rfl
@[simp] theorem enterTrap_x (s : State) (e c : Word) (o : BitVec 8) : (s.enterTrap e c o).x = s.x := rfl
@[simp] theorem enterTrap_f (s : State) (e c : Word) (o : BitVec 8) : (s.enterTrap e c o).f = s.f := rfl
@[simp] theorem enterTrap_pcmr (s : State) (e c : Word) (o : BitVec 8) : (s.enterTrap e c o).pcmr = s.pcmr := rfl
@[simp] theorem enterTrap_pcer (s : State) (e c : Word) (o : BitVec 8) : (s.enterTrap e c o).pcer = s.pcer := rfl
@[simp] theorem enterTrap_pccr (s : State) (e c : Word) (o : BitVec 8) : (s.enterTrap e c o).pccr = s.pccr := rfl
@[simp] theorem enterTrap_fflags (s : State) (e c : Word) (o : BitVec 8) : (s.enterTrap e c o).fflags = s.fflags :=
    rfl
@[simp] theorem enterTrap_frm (s : State) (e c : Word) (o : BitVec 8) : (s.enterTrap e c o).frm = s.frm := rfl
@[simp] theorem enterTrap_fprec (s : State) (e c : Word) (o : BitVec 8) : (s.enterTrap e c o).fprec = s.fprec := rfl
@[simp] theorem enterTrap_loop0 (s : State) (e c : Word) (o : BitVec 8) : (s.enterTrap e c o).loop0 = s.loop0 := rfl
@[simp] theorem enterTrap_loop1 (s : State) (e c : Word) (o : BitVec 8) : (s.enterTrap e c o).loop1 = s.loop1 := rfl
@[simp] theorem enterTrap_sleeping (s : State) (e c : Word) (o : BitVec 8) : (s.enterTrap e c o).sleeping = s.sleeping :=
    rfl
@[simp] theorem enterTrap_irq (s : State) (e c : Word) (o : BitVec 8) : (s.enterTrap e c o).irq = s.irq := rfl
@[simp] theorem enterTrap_irqAck (s : State) (e c : Word) (o : BitVec 8) : (s.enterTrap e c o).irqAck = s.irqAck :=
    rfl
@[simp] theorem enterTrap_bootAddr (s : State) (e c : Word) (o : BitVec 8) : (s.enterTrap e c o).bootAddr = s.bootAddr :=
    rfl
@[simp] theorem enterTrap_halted (s : State) (e c : Word) (o : BitVec 8) : (s.enterTrap e c o).halted = s.halted :=
    rfl
@[simp] theorem enterTrap_sste (s : State) (e c : Word) (o : BitVec 8) : (s.enterTrap e c o).sste = s.sste := rfl
@[simp] theorem enterTrap_ssth (s : State) (e c : Word) (o : BitVec 8) : (s.enterTrap e c o).ssth = s.ssth := rfl
@[simp] theorem enterTrap_dbgIe (s : State) (e c : Word) (o : BitVec 8) : (s.enterTrap e c o).dbgIe = s.dbgIe := rfl
@[simp] theorem enterTrap_dbgCause (s : State) (e c : Word) (o : BitVec 8) : (s.enterTrap e c o).dbgCause = s.dbgCause :=
    rfl
@[simp] theorem enterTrap_ppc (s : State) (e c : Word) (o : BitVec 8) : (s.enterTrap e c o).ppc = s.ppc := rfl
@[simp] theorem enterTrap_dbgRdata (s : State) (e c : Word) (o : BitVec 8) : (s.enterTrap e c o).dbgRdata = s.dbgRdata :=
    rfl
@[simp] theorem enterTrap_mem (s : State) (e c : Word) (o : BitVec 8) : (s.enterTrap e c o).mem = s.mem := rfl
@[simp] theorem enterTrap_imem (s : State) (e c : Word) (o : BitVec 8) : (s.enterTrap e c o).imem = s.imem := rfl
@[simp] theorem enterTrap_dirty (s : State) (e c : Word) (o : BitVec 8) : (s.enterTrap e c o).dirty = s.dirty := rfl
@[simp] theorem enterTrap_between (s : State) (e c : Word) (o : BitVec 8) : (s.enterTrap e c o).between = s.between :=
    rfl
@[simp] theorem enterTrap_prevWrites (s : State) (e c : Word) (o : BitVec 8) : (s.enterTrap e c o).prevWrites = s.prevWrites :=
    rfl
@[simp] theorem enterTrap_heldIrq (s : State) (e c : Word) (o : BitVec 8) : (s.enterTrap e c o).heldIrq = s.heldIrq :=
    rfl
@[simp] theorem enterTrap_inputs (s : State) (e c : Word) (o : BitVec 8) : (s.enterTrap e c o).inputs = s.inputs :=
    rfl
@[simp] theorem enterTrap_draws (s : State) (e c : Word) (o : BitVec 8) : (s.enterTrap e c o).draws = s.draws := rfl

/-! ### `takeException` -/

@[simp] theorem takeException_params (s : State) (c : BitVec 5) (o : BitVec 8) : (s.takeException c o).params = s.params :=
    by
  simp only [State.takeException]; split <;> rfl
@[simp] theorem takeException_x (s : State) (c : BitVec 5) (o : BitVec 8) : (s.takeException c o).x = s.x := by
  simp only [State.takeException]; split <;> rfl
@[simp] theorem takeException_f (s : State) (c : BitVec 5) (o : BitVec 8) : (s.takeException c o).f = s.f := by
  simp only [State.takeException]; split <;> rfl
@[simp] theorem takeException_pcmr (s : State) (c : BitVec 5) (o : BitVec 8) : (s.takeException c o).pcmr = s.pcmr :=
    by
  simp only [State.takeException]; split <;> rfl
@[simp] theorem takeException_pcer (s : State) (c : BitVec 5) (o : BitVec 8) : (s.takeException c o).pcer = s.pcer :=
    by
  simp only [State.takeException]; split <;> rfl
@[simp] theorem takeException_pccr (s : State) (c : BitVec 5) (o : BitVec 8) : (s.takeException c o).pccr = s.pccr :=
    by
  simp only [State.takeException]; split <;> rfl
@[simp] theorem takeException_fflags (s : State) (c : BitVec 5) (o : BitVec 8) : (s.takeException c o).fflags = s.fflags :=
    by
  simp only [State.takeException]; split <;> rfl
@[simp] theorem takeException_frm (s : State) (c : BitVec 5) (o : BitVec 8) : (s.takeException c o).frm = s.frm := by
  simp only [State.takeException]; split <;> rfl
@[simp] theorem takeException_fprec (s : State) (c : BitVec 5) (o : BitVec 8) : (s.takeException c o).fprec = s.fprec :=
    by
  simp only [State.takeException]; split <;> rfl
@[simp] theorem takeException_loop0 (s : State) (c : BitVec 5) (o : BitVec 8) : (s.takeException c o).loop0 = s.loop0 :=
    by
  simp only [State.takeException]; split <;> rfl
@[simp] theorem takeException_loop1 (s : State) (c : BitVec 5) (o : BitVec 8) : (s.takeException c o).loop1 = s.loop1 :=
    by
  simp only [State.takeException]; split <;> rfl
@[simp] theorem takeException_sleeping (s : State) (c : BitVec 5) (o : BitVec 8) : (s.takeException c o).sleeping = s.sleeping :=
    by
  simp only [State.takeException]; split <;> rfl
@[simp] theorem takeException_irq (s : State) (c : BitVec 5) (o : BitVec 8) : (s.takeException c o).irq = s.irq := by
  simp only [State.takeException]; split <;> rfl
@[simp] theorem takeException_irqAck (s : State) (c : BitVec 5) (o : BitVec 8) : (s.takeException c o).irqAck = s.irqAck :=
    by
  simp only [State.takeException]; split <;> rfl
@[simp] theorem takeException_bootAddr (s : State) (c : BitVec 5) (o : BitVec 8) : (s.takeException c o).bootAddr = s.bootAddr :=
    by
  simp only [State.takeException]; split <;> rfl
@[simp] theorem takeException_sste (s : State) (c : BitVec 5) (o : BitVec 8) : (s.takeException c o).sste = s.sste :=
    by
  simp only [State.takeException]; split <;> rfl
@[simp] theorem takeException_ssth (s : State) (c : BitVec 5) (o : BitVec 8) : (s.takeException c o).ssth = s.ssth :=
    by
  simp only [State.takeException]; split <;> rfl
@[simp] theorem takeException_dbgIe (s : State) (c : BitVec 5) (o : BitVec 8) : (s.takeException c o).dbgIe = s.dbgIe :=
    by
  simp only [State.takeException]; split <;> rfl
@[simp] theorem takeException_ppc (s : State) (c : BitVec 5) (o : BitVec 8) : (s.takeException c o).ppc = s.ppc := by
  simp only [State.takeException]; split <;> rfl
@[simp] theorem takeException_dbgRdata (s : State) (c : BitVec 5) (o : BitVec 8) : (s.takeException c o).dbgRdata = s.dbgRdata :=
    by
  simp only [State.takeException]; split <;> rfl
@[simp] theorem takeException_mem (s : State) (c : BitVec 5) (o : BitVec 8) : (s.takeException c o).mem = s.mem := by
  simp only [State.takeException]; split <;> rfl
@[simp] theorem takeException_imem (s : State) (c : BitVec 5) (o : BitVec 8) : (s.takeException c o).imem = s.imem :=
    by
  simp only [State.takeException]; split <;> rfl
@[simp] theorem takeException_dirty (s : State) (c : BitVec 5) (o : BitVec 8) : (s.takeException c o).dirty = s.dirty :=
    by
  simp only [State.takeException]; split <;> rfl
@[simp] theorem takeException_between (s : State) (c : BitVec 5) (o : BitVec 8) : (s.takeException c o).between = s.between :=
    by
  simp only [State.takeException]; split <;> rfl
@[simp] theorem takeException_prevWrites (s : State) (c : BitVec 5) (o : BitVec 8) : (s.takeException c o).prevWrites = s.prevWrites :=
    by
  simp only [State.takeException]; split <;> rfl
@[simp] theorem takeException_heldIrq (s : State) (c : BitVec 5) (o : BitVec 8) : (s.takeException c o).heldIrq = s.heldIrq :=
    by
  simp only [State.takeException]; split <;> rfl
@[simp] theorem takeException_inputs (s : State) (c : BitVec 5) (o : BitVec 8) : (s.takeException c o).inputs = s.inputs :=
    by
  simp only [State.takeException]; split <;> rfl
@[simp] theorem takeException_draws (s : State) (c : BitVec 5) (o : BitVec 8) : (s.takeException c o).draws = s.draws :=
    by
  simp only [State.takeException]; split <;> rfl

/-! ### `takeInterrupt` -/

@[simp] theorem takeInterrupt_params (s : State) (i : BitVec 5) : (s.takeInterrupt i).params = s.params := rfl
@[simp] theorem takeInterrupt_x (s : State) (i : BitVec 5) : (s.takeInterrupt i).x = s.x := rfl
@[simp] theorem takeInterrupt_f (s : State) (i : BitVec 5) : (s.takeInterrupt i).f = s.f := rfl
@[simp] theorem takeInterrupt_pcmr (s : State) (i : BitVec 5) : (s.takeInterrupt i).pcmr = s.pcmr := rfl
@[simp] theorem takeInterrupt_pcer (s : State) (i : BitVec 5) : (s.takeInterrupt i).pcer = s.pcer := rfl
@[simp] theorem takeInterrupt_pccr (s : State) (i : BitVec 5) : (s.takeInterrupt i).pccr = s.pccr := rfl
@[simp] theorem takeInterrupt_fflags (s : State) (i : BitVec 5) : (s.takeInterrupt i).fflags = s.fflags := rfl
@[simp] theorem takeInterrupt_frm (s : State) (i : BitVec 5) : (s.takeInterrupt i).frm = s.frm := rfl
@[simp] theorem takeInterrupt_fprec (s : State) (i : BitVec 5) : (s.takeInterrupt i).fprec = s.fprec := rfl
@[simp] theorem takeInterrupt_loop0 (s : State) (i : BitVec 5) : (s.takeInterrupt i).loop0 = s.loop0 := rfl
@[simp] theorem takeInterrupt_loop1 (s : State) (i : BitVec 5) : (s.takeInterrupt i).loop1 = s.loop1 := rfl
@[simp] theorem takeInterrupt_sleeping (s : State) (i : BitVec 5) : (s.takeInterrupt i).sleeping = s.sleeping := rfl
@[simp] theorem takeInterrupt_irq (s : State) (i : BitVec 5) : (s.takeInterrupt i).irq = s.irq := rfl
@[simp] theorem takeInterrupt_bootAddr (s : State) (i : BitVec 5) : (s.takeInterrupt i).bootAddr = s.bootAddr := rfl
@[simp] theorem takeInterrupt_halted (s : State) (i : BitVec 5) : (s.takeInterrupt i).halted = s.halted := rfl
@[simp] theorem takeInterrupt_sste (s : State) (i : BitVec 5) : (s.takeInterrupt i).sste = s.sste := rfl
@[simp] theorem takeInterrupt_ssth (s : State) (i : BitVec 5) : (s.takeInterrupt i).ssth = s.ssth := rfl
@[simp] theorem takeInterrupt_dbgIe (s : State) (i : BitVec 5) : (s.takeInterrupt i).dbgIe = s.dbgIe := rfl
@[simp] theorem takeInterrupt_dbgCause (s : State) (i : BitVec 5) : (s.takeInterrupt i).dbgCause = s.dbgCause := rfl
@[simp] theorem takeInterrupt_ppc (s : State) (i : BitVec 5) : (s.takeInterrupt i).ppc = s.ppc := rfl
@[simp] theorem takeInterrupt_dbgRdata (s : State) (i : BitVec 5) : (s.takeInterrupt i).dbgRdata = s.dbgRdata := rfl
@[simp] theorem takeInterrupt_mem (s : State) (i : BitVec 5) : (s.takeInterrupt i).mem = s.mem := rfl
@[simp] theorem takeInterrupt_imem (s : State) (i : BitVec 5) : (s.takeInterrupt i).imem = s.imem := rfl
@[simp] theorem takeInterrupt_dirty (s : State) (i : BitVec 5) : (s.takeInterrupt i).dirty = s.dirty := rfl
@[simp] theorem takeInterrupt_between (s : State) (i : BitVec 5) : (s.takeInterrupt i).between = s.between := rfl
@[simp] theorem takeInterrupt_prevWrites (s : State) (i : BitVec 5) : (s.takeInterrupt i).prevWrites = s.prevWrites :=
    rfl
@[simp] theorem takeInterrupt_inputs (s : State) (i : BitVec 5) : (s.takeInterrupt i).inputs = s.inputs := rfl
@[simp] theorem takeInterrupt_draws (s : State) (i : BitVec 5) : (s.takeInterrupt i).draws = s.draws := rfl

/-! ### `begin` -/

@[simp] theorem begin_params (s : State) : (s.begin).params = s.params := rfl
@[simp] theorem begin_x (s : State) : (s.begin).x = s.x := rfl
@[simp] theorem begin_f (s : State) : (s.begin).f = s.f := rfl
@[simp] theorem begin_pc (s : State) : (s.begin).pc = s.pc := rfl
@[simp] theorem begin_mstatus (s : State) : (s.begin).mstatus = s.mstatus := rfl
@[simp] theorem begin_mepc (s : State) : (s.begin).mepc = s.mepc := rfl
@[simp] theorem begin_mcause (s : State) : (s.begin).mcause = s.mcause := rfl
@[simp] theorem begin_pcmr (s : State) : (s.begin).pcmr = s.pcmr := rfl
@[simp] theorem begin_pcer (s : State) : (s.begin).pcer = s.pcer := rfl
@[simp] theorem begin_pccr (s : State) : (s.begin).pccr = s.pccr := rfl
@[simp] theorem begin_fflags (s : State) : (s.begin).fflags = s.fflags := rfl
@[simp] theorem begin_frm (s : State) : (s.begin).frm = s.frm := rfl
@[simp] theorem begin_fprec (s : State) : (s.begin).fprec = s.fprec := rfl
@[simp] theorem begin_loop0 (s : State) : (s.begin).loop0 = s.loop0 := rfl
@[simp] theorem begin_loop1 (s : State) : (s.begin).loop1 = s.loop1 := rfl
@[simp] theorem begin_irq (s : State) : (s.begin).irq = s.irq := rfl
@[simp] theorem begin_bootAddr (s : State) : (s.begin).bootAddr = s.bootAddr := rfl
@[simp] theorem begin_halted (s : State) : (s.begin).halted = s.halted := rfl
@[simp] theorem begin_sste (s : State) : (s.begin).sste = s.sste := rfl
@[simp] theorem begin_ssth (s : State) : (s.begin).ssth = s.ssth := rfl
@[simp] theorem begin_dbgIe (s : State) : (s.begin).dbgIe = s.dbgIe := rfl
@[simp] theorem begin_dbgCause (s : State) : (s.begin).dbgCause = s.dbgCause := rfl
@[simp] theorem begin_ppc (s : State) : (s.begin).ppc = s.ppc := rfl
@[simp] theorem begin_dbgRdata (s : State) : (s.begin).dbgRdata = s.dbgRdata := rfl
@[simp] theorem begin_mem (s : State) : (s.begin).mem = s.mem := rfl
@[simp] theorem begin_imem (s : State) : (s.begin).imem = s.imem := rfl
@[simp] theorem begin_dirty (s : State) : (s.begin).dirty = s.dirty := rfl
@[simp] theorem begin_between (s : State) : (s.begin).between = s.between := rfl
@[simp] theorem begin_prevWrites (s : State) : (s.begin).prevWrites = s.prevWrites := rfl
@[simp] theorem begin_heldIrq (s : State) : (s.begin).heldIrq = s.heldIrq := rfl
@[simp] theorem begin_inputs (s : State) : (s.begin).inputs = s.inputs := rfl
@[simp] theorem begin_draws (s : State) : (s.begin).draws = s.draws := rfl

/-! ### `resume` -/

@[simp] theorem resume_params (s : State) : (s.resume).params = s.params := by
  unfold State.resume; split <;> rfl
@[simp] theorem resume_x (s : State) : (s.resume).x = s.x := by
  unfold State.resume; split <;> rfl
@[simp] theorem resume_f (s : State) : (s.resume).f = s.f := by
  unfold State.resume; split <;> rfl
@[simp] theorem resume_pc (s : State) : (s.resume).pc = s.pc := by
  unfold State.resume; split <;> rfl
@[simp] theorem resume_mstatus (s : State) : (s.resume).mstatus = s.mstatus := by
  unfold State.resume; split <;> rfl
@[simp] theorem resume_mepc (s : State) : (s.resume).mepc = s.mepc := by
  unfold State.resume; split <;> rfl
@[simp] theorem resume_mcause (s : State) : (s.resume).mcause = s.mcause := by
  unfold State.resume; split <;> rfl
@[simp] theorem resume_pcmr (s : State) : (s.resume).pcmr = s.pcmr := by
  unfold State.resume; split <;> rfl
@[simp] theorem resume_pcer (s : State) : (s.resume).pcer = s.pcer := by
  unfold State.resume; split <;> rfl
@[simp] theorem resume_pccr (s : State) : (s.resume).pccr = s.pccr := by
  unfold State.resume; split <;> rfl
@[simp] theorem resume_fflags (s : State) : (s.resume).fflags = s.fflags := by
  unfold State.resume; split <;> rfl
@[simp] theorem resume_frm (s : State) : (s.resume).frm = s.frm := by
  unfold State.resume; split <;> rfl
@[simp] theorem resume_fprec (s : State) : (s.resume).fprec = s.fprec := by
  unfold State.resume; split <;> rfl
@[simp] theorem resume_loop0 (s : State) : (s.resume).loop0 = s.loop0 := by
  unfold State.resume; split <;> rfl
@[simp] theorem resume_loop1 (s : State) : (s.resume).loop1 = s.loop1 := by
  unfold State.resume; split <;> rfl
@[simp] theorem resume_sleeping (s : State) : (s.resume).sleeping = s.sleeping := by
  unfold State.resume; split <;> rfl
@[simp] theorem resume_irq (s : State) : (s.resume).irq = s.irq := by
  unfold State.resume; split <;> rfl
@[simp] theorem resume_irqAck (s : State) : (s.resume).irqAck = s.irqAck := by
  unfold State.resume; split <;> rfl
@[simp] theorem resume_bootAddr (s : State) : (s.resume).bootAddr = s.bootAddr := by
  unfold State.resume; split <;> rfl
@[simp] theorem resume_sste (s : State) : (s.resume).sste = s.sste := by
  unfold State.resume; split <;> rfl
@[simp] theorem resume_ssth (s : State) : (s.resume).ssth = s.ssth := by
  unfold State.resume; split <;> rfl
@[simp] theorem resume_dbgIe (s : State) : (s.resume).dbgIe = s.dbgIe := by
  unfold State.resume; split <;> rfl
@[simp] theorem resume_dbgCause (s : State) : (s.resume).dbgCause = s.dbgCause := by
  unfold State.resume; split <;> rfl
@[simp] theorem resume_ppc (s : State) : (s.resume).ppc = s.ppc := by
  unfold State.resume; split <;> rfl
@[simp] theorem resume_dbgRdata (s : State) : (s.resume).dbgRdata = s.dbgRdata := by
  unfold State.resume; split <;> rfl
@[simp] theorem resume_mem (s : State) : (s.resume).mem = s.mem := by
  unfold State.resume; split <;> rfl
@[simp] theorem resume_imem (s : State) : (s.resume).imem = s.imem := by
  unfold State.resume; split <;> rfl
@[simp] theorem resume_dirty (s : State) : (s.resume).dirty = s.dirty := by
  unfold State.resume; split <;> rfl
@[simp] theorem resume_between (s : State) : (s.resume).between = s.between := by
  unfold State.resume; split <;> rfl
@[simp] theorem resume_inputs (s : State) : (s.resume).inputs = s.inputs := by
  unfold State.resume; split <;> rfl
@[simp] theorem resume_draws (s : State) : (s.resume).draws = s.draws := by
  unfold State.resume; split <;> rfl

/-! ### `requestIrq` -/

@[simp] theorem requestIrq_params (s : State) (l : Option (BitVec 5)) : (s.requestIrq l).params = s.params := rfl
@[simp] theorem requestIrq_x (s : State) (l : Option (BitVec 5)) : (s.requestIrq l).x = s.x := rfl
@[simp] theorem requestIrq_f (s : State) (l : Option (BitVec 5)) : (s.requestIrq l).f = s.f := rfl
@[simp] theorem requestIrq_pc (s : State) (l : Option (BitVec 5)) : (s.requestIrq l).pc = s.pc := rfl
@[simp] theorem requestIrq_mstatus (s : State) (l : Option (BitVec 5)) : (s.requestIrq l).mstatus = s.mstatus := rfl
@[simp] theorem requestIrq_mepc (s : State) (l : Option (BitVec 5)) : (s.requestIrq l).mepc = s.mepc := rfl
@[simp] theorem requestIrq_mcause (s : State) (l : Option (BitVec 5)) : (s.requestIrq l).mcause = s.mcause := rfl
@[simp] theorem requestIrq_pcmr (s : State) (l : Option (BitVec 5)) : (s.requestIrq l).pcmr = s.pcmr := rfl
@[simp] theorem requestIrq_pcer (s : State) (l : Option (BitVec 5)) : (s.requestIrq l).pcer = s.pcer := rfl
@[simp] theorem requestIrq_pccr (s : State) (l : Option (BitVec 5)) : (s.requestIrq l).pccr = s.pccr := rfl
@[simp] theorem requestIrq_fflags (s : State) (l : Option (BitVec 5)) : (s.requestIrq l).fflags = s.fflags := rfl
@[simp] theorem requestIrq_frm (s : State) (l : Option (BitVec 5)) : (s.requestIrq l).frm = s.frm := rfl
@[simp] theorem requestIrq_fprec (s : State) (l : Option (BitVec 5)) : (s.requestIrq l).fprec = s.fprec := rfl
@[simp] theorem requestIrq_loop0 (s : State) (l : Option (BitVec 5)) : (s.requestIrq l).loop0 = s.loop0 := rfl
@[simp] theorem requestIrq_loop1 (s : State) (l : Option (BitVec 5)) : (s.requestIrq l).loop1 = s.loop1 := rfl
@[simp] theorem requestIrq_irqAck (s : State) (l : Option (BitVec 5)) : (s.requestIrq l).irqAck = s.irqAck := rfl
@[simp] theorem requestIrq_bootAddr (s : State) (l : Option (BitVec 5)) : (s.requestIrq l).bootAddr = s.bootAddr :=
    rfl
@[simp] theorem requestIrq_halted (s : State) (l : Option (BitVec 5)) : (s.requestIrq l).halted = s.halted := rfl
@[simp] theorem requestIrq_sste (s : State) (l : Option (BitVec 5)) : (s.requestIrq l).sste = s.sste := rfl
@[simp] theorem requestIrq_ssth (s : State) (l : Option (BitVec 5)) : (s.requestIrq l).ssth = s.ssth := rfl
@[simp] theorem requestIrq_dbgIe (s : State) (l : Option (BitVec 5)) : (s.requestIrq l).dbgIe = s.dbgIe := rfl
@[simp] theorem requestIrq_dbgCause (s : State) (l : Option (BitVec 5)) : (s.requestIrq l).dbgCause = s.dbgCause :=
    rfl
@[simp] theorem requestIrq_ppc (s : State) (l : Option (BitVec 5)) : (s.requestIrq l).ppc = s.ppc := rfl
@[simp] theorem requestIrq_dbgRdata (s : State) (l : Option (BitVec 5)) : (s.requestIrq l).dbgRdata = s.dbgRdata :=
    rfl
@[simp] theorem requestIrq_mem (s : State) (l : Option (BitVec 5)) : (s.requestIrq l).mem = s.mem := rfl
@[simp] theorem requestIrq_imem (s : State) (l : Option (BitVec 5)) : (s.requestIrq l).imem = s.imem := rfl
@[simp] theorem requestIrq_dirty (s : State) (l : Option (BitVec 5)) : (s.requestIrq l).dirty = s.dirty := rfl
@[simp] theorem requestIrq_between (s : State) (l : Option (BitVec 5)) : (s.requestIrq l).between = s.between := rfl
@[simp] theorem requestIrq_prevWrites (s : State) (l : Option (BitVec 5)) : (s.requestIrq l).prevWrites = s.prevWrites :=
    rfl
@[simp] theorem requestIrq_inputs (s : State) (l : Option (BitVec 5)) : (s.requestIrq l).inputs = s.inputs := rfl
@[simp] theorem requestIrq_draws (s : State) (l : Option (BitVec 5)) : (s.requestIrq l).draws = s.draws := rfl

/-! ### `busStore` -/

@[simp] theorem busStore_params (s : State) (p : Port) (a : Word) (v : Byte) : (s.busStore p a v).params = s.params :=
    by
  cases p
  · exact put8_params _ _ _
  · exact putCode8_params _ _ _
@[simp] theorem busStore_x (s : State) (p : Port) (a : Word) (v : Byte) : (s.busStore p a v).x = s.x := by
  cases p
  · exact put8_x _ _ _
  · exact putCode8_x _ _ _
@[simp] theorem busStore_f (s : State) (p : Port) (a : Word) (v : Byte) : (s.busStore p a v).f = s.f := by
  cases p
  · exact put8_f _ _ _
  · exact putCode8_f _ _ _
@[simp] theorem busStore_pc (s : State) (p : Port) (a : Word) (v : Byte) : (s.busStore p a v).pc = s.pc := by
  cases p
  · exact put8_pc _ _ _
  · exact putCode8_pc _ _ _
@[simp] theorem busStore_mstatus (s : State) (p : Port) (a : Word) (v : Byte) : (s.busStore p a v).mstatus = s.mstatus :=
    by
  cases p
  · exact put8_mstatus _ _ _
  · exact putCode8_mstatus _ _ _
@[simp] theorem busStore_mepc (s : State) (p : Port) (a : Word) (v : Byte) : (s.busStore p a v).mepc = s.mepc := by
  cases p
  · exact put8_mepc _ _ _
  · exact putCode8_mepc _ _ _
@[simp] theorem busStore_mcause (s : State) (p : Port) (a : Word) (v : Byte) : (s.busStore p a v).mcause = s.mcause :=
    by
  cases p
  · exact put8_mcause _ _ _
  · exact putCode8_mcause _ _ _
@[simp] theorem busStore_pcmr (s : State) (p : Port) (a : Word) (v : Byte) : (s.busStore p a v).pcmr = s.pcmr := by
  cases p
  · exact put8_pcmr _ _ _
  · exact putCode8_pcmr _ _ _
@[simp] theorem busStore_pcer (s : State) (p : Port) (a : Word) (v : Byte) : (s.busStore p a v).pcer = s.pcer := by
  cases p
  · exact put8_pcer _ _ _
  · exact putCode8_pcer _ _ _
@[simp] theorem busStore_pccr (s : State) (p : Port) (a : Word) (v : Byte) : (s.busStore p a v).pccr = s.pccr := by
  cases p
  · exact put8_pccr _ _ _
  · exact putCode8_pccr _ _ _
@[simp] theorem busStore_fflags (s : State) (p : Port) (a : Word) (v : Byte) : (s.busStore p a v).fflags = s.fflags :=
    by
  cases p
  · exact put8_fflags _ _ _
  · exact putCode8_fflags _ _ _
@[simp] theorem busStore_frm (s : State) (p : Port) (a : Word) (v : Byte) : (s.busStore p a v).frm = s.frm := by
  cases p
  · exact put8_frm _ _ _
  · exact putCode8_frm _ _ _
@[simp] theorem busStore_fprec (s : State) (p : Port) (a : Word) (v : Byte) : (s.busStore p a v).fprec = s.fprec := by
  cases p
  · exact put8_fprec _ _ _
  · exact putCode8_fprec _ _ _
@[simp] theorem busStore_loop0 (s : State) (p : Port) (a : Word) (v : Byte) : (s.busStore p a v).loop0 = s.loop0 := by
  cases p
  · exact put8_loop0 _ _ _
  · exact putCode8_loop0 _ _ _
@[simp] theorem busStore_loop1 (s : State) (p : Port) (a : Word) (v : Byte) : (s.busStore p a v).loop1 = s.loop1 := by
  cases p
  · exact put8_loop1 _ _ _
  · exact putCode8_loop1 _ _ _
@[simp] theorem busStore_sleeping (s : State) (p : Port) (a : Word) (v : Byte) : (s.busStore p a v).sleeping = s.sleeping :=
    by
  cases p
  · exact put8_sleeping _ _ _
  · exact putCode8_sleeping _ _ _
@[simp] theorem busStore_irq (s : State) (p : Port) (a : Word) (v : Byte) : (s.busStore p a v).irq = s.irq := by
  cases p
  · exact put8_irq _ _ _
  · exact putCode8_irq _ _ _
@[simp] theorem busStore_irqAck (s : State) (p : Port) (a : Word) (v : Byte) : (s.busStore p a v).irqAck = s.irqAck :=
    by
  cases p
  · exact put8_irqAck _ _ _
  · exact putCode8_irqAck _ _ _
@[simp] theorem busStore_bootAddr (s : State) (p : Port) (a : Word) (v : Byte) : (s.busStore p a v).bootAddr = s.bootAddr :=
    by
  cases p
  · exact put8_bootAddr _ _ _
  · exact putCode8_bootAddr _ _ _
@[simp] theorem busStore_halted (s : State) (p : Port) (a : Word) (v : Byte) : (s.busStore p a v).halted = s.halted :=
    by
  cases p
  · exact put8_halted _ _ _
  · exact putCode8_halted _ _ _
@[simp] theorem busStore_sste (s : State) (p : Port) (a : Word) (v : Byte) : (s.busStore p a v).sste = s.sste := by
  cases p
  · exact put8_sste _ _ _
  · exact putCode8_sste _ _ _
@[simp] theorem busStore_ssth (s : State) (p : Port) (a : Word) (v : Byte) : (s.busStore p a v).ssth = s.ssth := by
  cases p
  · exact put8_ssth _ _ _
  · exact putCode8_ssth _ _ _
@[simp] theorem busStore_dbgIe (s : State) (p : Port) (a : Word) (v : Byte) : (s.busStore p a v).dbgIe = s.dbgIe := by
  cases p
  · exact put8_dbgIe _ _ _
  · exact putCode8_dbgIe _ _ _
@[simp] theorem busStore_dbgCause (s : State) (p : Port) (a : Word) (v : Byte) : (s.busStore p a v).dbgCause = s.dbgCause :=
    by
  cases p
  · exact put8_dbgCause _ _ _
  · exact putCode8_dbgCause _ _ _
@[simp] theorem busStore_ppc (s : State) (p : Port) (a : Word) (v : Byte) : (s.busStore p a v).ppc = s.ppc := by
  cases p
  · exact put8_ppc _ _ _
  · exact putCode8_ppc _ _ _
@[simp] theorem busStore_dbgRdata (s : State) (p : Port) (a : Word) (v : Byte) : (s.busStore p a v).dbgRdata = s.dbgRdata :=
    by
  cases p
  · exact put8_dbgRdata _ _ _
  · exact putCode8_dbgRdata _ _ _
@[simp] theorem busStore_between (s : State) (p : Port) (a : Word) (v : Byte) : (s.busStore p a v).between = s.between :=
    by
  cases p
  · exact put8_between _ _ _
  · exact putCode8_between _ _ _
@[simp] theorem busStore_prevWrites (s : State) (p : Port) (a : Word) (v : Byte) : (s.busStore p a v).prevWrites = s.prevWrites :=
    by
  cases p
  · exact put8_prevWrites _ _ _
  · exact putCode8_prevWrites _ _ _
@[simp] theorem busStore_heldIrq (s : State) (p : Port) (a : Word) (v : Byte) : (s.busStore p a v).heldIrq = s.heldIrq :=
    by
  cases p
  · exact put8_heldIrq _ _ _
  · exact putCode8_heldIrq _ _ _
@[simp] theorem busStore_inputs (s : State) (p : Port) (a : Word) (v : Byte) : (s.busStore p a v).inputs = s.inputs :=
    by
  cases p
  · exact put8_inputs _ _ _
  · exact putCode8_inputs _ _ _
@[simp] theorem busStore_draws (s : State) (p : Port) (a : Word) (v : Byte) : (s.busStore p a v).draws = s.draws := by
  cases p
  · exact put8_draws _ _ _
  · exact putCode8_draws _ _ _

/-! ### `singleStep` -/

@[simp] theorem singleStep_params (s : State) : (s.singleStep).params = s.params := by
  unfold State.singleStep; split <;> rfl
@[simp] theorem singleStep_x (s : State) : (s.singleStep).x = s.x := by
  unfold State.singleStep; split <;> rfl
@[simp] theorem singleStep_f (s : State) : (s.singleStep).f = s.f := by
  unfold State.singleStep; split <;> rfl
@[simp] theorem singleStep_pc (s : State) : (s.singleStep).pc = s.pc := by
  unfold State.singleStep; split <;> rfl
@[simp] theorem singleStep_mstatus (s : State) : (s.singleStep).mstatus = s.mstatus := by
  unfold State.singleStep; split <;> rfl
@[simp] theorem singleStep_mepc (s : State) : (s.singleStep).mepc = s.mepc := by
  unfold State.singleStep; split <;> rfl
@[simp] theorem singleStep_mcause (s : State) : (s.singleStep).mcause = s.mcause := by
  unfold State.singleStep; split <;> rfl
@[simp] theorem singleStep_pcmr (s : State) : (s.singleStep).pcmr = s.pcmr := by
  unfold State.singleStep; split <;> rfl
@[simp] theorem singleStep_pcer (s : State) : (s.singleStep).pcer = s.pcer := by
  unfold State.singleStep; split <;> rfl
@[simp] theorem singleStep_pccr (s : State) : (s.singleStep).pccr = s.pccr := by
  unfold State.singleStep; split <;> rfl
@[simp] theorem singleStep_fflags (s : State) : (s.singleStep).fflags = s.fflags := by
  unfold State.singleStep; split <;> rfl
@[simp] theorem singleStep_frm (s : State) : (s.singleStep).frm = s.frm := by
  unfold State.singleStep; split <;> rfl
@[simp] theorem singleStep_fprec (s : State) : (s.singleStep).fprec = s.fprec := by
  unfold State.singleStep; split <;> rfl
@[simp] theorem singleStep_loop0 (s : State) : (s.singleStep).loop0 = s.loop0 := by
  unfold State.singleStep; split <;> rfl
@[simp] theorem singleStep_loop1 (s : State) : (s.singleStep).loop1 = s.loop1 := by
  unfold State.singleStep; split <;> rfl
@[simp] theorem singleStep_sleeping (s : State) : (s.singleStep).sleeping = s.sleeping := by
  unfold State.singleStep; split <;> rfl
@[simp] theorem singleStep_irq (s : State) : (s.singleStep).irq = s.irq := by
  unfold State.singleStep; split <;> rfl
@[simp] theorem singleStep_irqAck (s : State) : (s.singleStep).irqAck = s.irqAck := by
  unfold State.singleStep; split <;> rfl
@[simp] theorem singleStep_bootAddr (s : State) : (s.singleStep).bootAddr = s.bootAddr := by
  unfold State.singleStep; split <;> rfl
@[simp] theorem singleStep_sste (s : State) : (s.singleStep).sste = s.sste := by
  unfold State.singleStep; split <;> rfl
@[simp] theorem singleStep_dbgIe (s : State) : (s.singleStep).dbgIe = s.dbgIe := by
  unfold State.singleStep; split <;> rfl
@[simp] theorem singleStep_ppc (s : State) : (s.singleStep).ppc = s.ppc := by
  unfold State.singleStep; split <;> rfl
@[simp] theorem singleStep_dbgRdata (s : State) : (s.singleStep).dbgRdata = s.dbgRdata := by
  unfold State.singleStep; split <;> rfl
@[simp] theorem singleStep_mem (s : State) : (s.singleStep).mem = s.mem := by
  unfold State.singleStep; split <;> rfl
@[simp] theorem singleStep_imem (s : State) : (s.singleStep).imem = s.imem := by
  unfold State.singleStep; split <;> rfl
@[simp] theorem singleStep_dirty (s : State) : (s.singleStep).dirty = s.dirty := by
  unfold State.singleStep; split <;> rfl
@[simp] theorem singleStep_between (s : State) : (s.singleStep).between = s.between := by
  unfold State.singleStep; split <;> rfl
@[simp] theorem singleStep_prevWrites (s : State) : (s.singleStep).prevWrites = s.prevWrites := by
  unfold State.singleStep; split <;> rfl
@[simp] theorem singleStep_heldIrq (s : State) : (s.singleStep).heldIrq = s.heldIrq := by
  unfold State.singleStep; split <;> rfl
@[simp] theorem singleStep_inputs (s : State) : (s.singleStep).inputs = s.inputs := by
  unfold State.singleStep; split <;> rfl
@[simp] theorem singleStep_draws (s : State) : (s.singleStep).draws = s.draws := by
  unfold State.singleStep; split <;> rfl

/-! ### What the updates change -/

@[simp] theorem raise_fflags (s : State) (w : BitVec 5) : (s.raise w).fflags = s.fflags ||| w := rfl
@[simp] theorem put8_mem (s : State) (a : Word) (v : Byte) : (s.put8 a v).mem = Memory.write8 s.mem a v := rfl
@[simp] theorem put8_dirty (s : State) (a : Word) (v : Byte) :
    (s.put8 a v).dirty = if s.params.unified then AddrSet.insert a.toNat s.dirty else s.dirty := rfl
@[simp] theorem markStale_dirty (s : State) (a : Word) : (s.markStale a).dirty = AddrSet.insert a.toNat s.dirty := rfl
@[simp] theorem halt_halted (s : State) (c : BitVec 5) : (s.halt c).halted = true := rfl
@[simp] theorem halt_dbgCause (s : State) (c : BitVec 5) : (s.halt c).dbgCause = c := rfl
@[simp] theorem enterTrap_mepc (s : State) (e c : Word) (o : BitVec 8) : (s.enterTrap e c o).mepc = e := rfl
@[simp] theorem enterTrap_mcause (s : State) (e c : Word) (o : BitVec 8) : (s.enterTrap e c o).mcause = c := rfl
@[simp] theorem enterTrap_pc (s : State) (e c : Word) (o : BitVec 8) : (s.enterTrap e c o).pc = s.vector o := rfl
@[simp] theorem enterTrap_mstatus (s : State) (e c : Word) (o : BitVec 8) :
    (s.enterTrap e c o).mstatus = withMie s.mstatus s.mie false := rfl
@[simp] theorem takeException_mepc (s : State) (c : BitVec 5) (o : BitVec 8) : (s.takeException c o).mepc = s.pc := by
  simp only [State.takeException]; split <;> rfl
@[simp] theorem takeException_mcause (s : State) (c : BitVec 5) (o : BitVec 8) :
    (s.takeException c o).mcause = c.setWidth 32 := by
  simp only [State.takeException]; split <;> rfl
@[simp] theorem takeException_pc (s : State) (c : BitVec 5) (o : BitVec 8) :
    (s.takeException c o).pc = s.vector o := by
  simp only [State.takeException]; split <;> rfl
@[simp] theorem takeException_mstatus (s : State) (c : BitVec 5) (o : BitVec 8) :
    (s.takeException c o).mstatus = withMie s.mstatus s.mie false := by
  simp only [State.takeException]; split <;> rfl
@[simp] theorem begin_sleeping (s : State) : s.begin.sleeping = false := rfl
@[simp] theorem begin_irqAck (s : State) : s.begin.irqAck = none := rfl
@[simp] theorem resume_halted (s : State) : s.resume.halted = false := by
  unfold State.resume; split
  · rfl
  · rename_i h; simpa using h
@[simp] theorem landed_between (s : State) : s.landed.between = [] :=
  foldl_put8 (fun t => t.between) (fun _ _ _ => rfl) _ _
@[simp] theorem requestIrq_irq (s : State) (l : Option (BitVec 5)) : (s.requestIrq l).irq = l := rfl
@[simp] theorem requestIrq_sleeping (s : State) (l : Option (BitVec 5)) :
    (s.requestIrq l).sleeping = (s.sleeping && s.irq.isNone && l.isNone) := rfl

/-! ### Registers -/

theorem writeX_zero (s : State) (v : Word) : s.writeX 0 v = s := rfl

@[simp] theorem readX_zero (s : State) : s.readX 0 = 0 := rfl

theorem reg_index_lt (r : Reg) (h : r ≠ 0) : r.toNat - 1 < 31 := by
  have := r.isLt
  have : r.toNat ≠ 0 := fun e => h (BitVec.eq_of_toNat_eq (by simpa using e))
  omega

/-- Reading the register just written (10_state.md R20, R21). -/
theorem readX_writeX_same (s : State) (r : Reg) (v : Word) (h : r ≠ 0) : (s.writeX r v).readX r = v := by
  have := reg_index_lt r h
  unfold State.readX State.writeX
  rw [if_neg h, if_neg h]
  simp [Vector.getD, this]

/-- Reading another register than the one written. -/
theorem readX_writeX_other (s : State) (r q : Reg) (v : Word) (h : q ≠ r) : (s.writeX r v).readX q = s.readX q := by
  unfold State.readX State.writeX
  by_cases hq : q = 0
  · rw [if_pos hq, if_pos hq]
  · by_cases hr : r = 0
    · rw [if_pos hr]
    · have hne : r.toNat - 1 ≠ q.toNat - 1 := fun e => h (BitVec.eq_of_toNat_eq (by
        have h1 : r.toNat ≠ 0 := fun e => hr (BitVec.eq_of_toNat_eq (by simpa using e))
        have h2 : q.toNat ≠ 0 := fun e => hq (BitVec.eq_of_toNat_eq (by simpa using e))
        omega))
      rw [if_neg hq, if_neg hq, if_neg hr]
      simp [Vector.getD, hne]

/-- Reading the floating-point register just written (10_state.md R25). -/
theorem readF_writeF_same (s : State) (r : Reg) (v : Word) : (s.writeF r v).readF r = v := by
  have := r.isLt
  simp [State.readF, State.writeF, Vector.getD, this]

/-- Reading another floating-point register than the one written. -/
theorem readF_writeF_other (s : State) (r q : Reg) (v : Word) (h : q ≠ r) : (s.writeF r v).readF q = s.readF q := by
  have hne : r.toNat ≠ q.toNat := fun e => h (BitVec.eq_of_toNat_eq e.symm)
  simp [State.readF, State.writeF, Vector.getD, hne]

theorem readX_of_x_eq (s t : State) (r : Reg) (h : t.x = s.x) : t.readX r = s.readX r := by
  simp [State.readX, h]

end Sys2Proof.Machine
end

