-- ==== Sys2Proof/Laws/Memory.lean ====
section
/-! SUPPORT. Memory keeps its canonical form; a read after a write gives what was written; a write leaves every other
address alone. The same for the set of bytes stored since the last `fence.i`. -/

namespace Sys2Proof.Machine

namespace Memory

theorem wfFrom_cons (lo k : Nat) (v : Byte) (m : List Host.Cell) :
    wfFrom lo ((k, v) :: m) = true ↔ lo ≤ k ∧ k < 2 ^ 32 ∧ v ≠ unlisted ∧ wfFrom (k + 1) m = true := by
  simp [wfFrom, and_assoc]

theorem wfFrom_mono (lo lo' : Nat) (m : List Host.Cell) (h : lo' ≤ lo) (hw : wfFrom lo m = true) :
    wfFrom lo' m = true := by
  cases m with
  | nil => rfl
  | cons c m =>
    obtain ⟨k, v⟩ := c
    rw [wfFrom_cons] at hw ⊢
    exact ⟨by omega, hw.2⟩

/-- A write keeps the canonical form above every bound that its address respects. -/
theorem update_wfFrom (a : Nat) (v : Byte) (ha : a < 2 ^ 32) (m : List Host.Cell) :
    ∀ lo, lo ≤ a → wfFrom lo m = true → wfFrom lo (update a v m) = true := by
  induction m with
  | nil =>
    intro lo hlo _
    unfold update
    split
    · rfl
    · rw [wfFrom_cons]; exact ⟨hlo, ha, by assumption, rfl⟩
  | cons c m ih =>
    obtain ⟨k, w⟩ := c
    intro lo hlo hw
    have hw' := (wfFrom_cons ..).mp hw
    unfold update
    split
    · rw [wfFrom_cons]
      exact ⟨hw'.1, hw'.2.1, hw'.2.2.1, ih (k + 1) (by omega) hw'.2.2.2⟩
    · split
      · split
        · exact wfFrom_mono (k + 1) lo m (by omega) hw'.2.2.2
        · subst k
          rw [wfFrom_cons]
          exact ⟨hlo, ha, by assumption, hw'.2.2.2⟩
      · split
        · exact hw
        · rw [wfFrom_cons, wfFrom_cons]
          exact ⟨hlo, ha, by assumption, by omega, hw'.2.1, hw'.2.2.1, hw'.2.2.2⟩

/-- A byte write keeps the canonical form. -/
theorem write8_wf (m : List Host.Cell) (a : Word) (v : Byte) (h : wf m = true) : wf (write8 m a v) = true :=
  update_wfFrom a.toNat v a.isLt m 0 (Nat.zero_le _) h

/-- Below the first listed address everything reads as unlisted. -/
theorem lookup_of_lt (m : List Host.Cell) : ∀ lo a, wfFrom lo m = true → a < lo → lookup m a = unlisted := by
  induction m with
  | nil => intro _ _ _ _; rfl
  | cons c m ih =>
    obtain ⟨k, w⟩ := c
    intro lo a hw ha
    rw [wfFrom_cons] at hw
    have hne : ¬ k = a := by omega
    rw [lookup, if_neg hne]
    exact ih (k + 1) a hw.2.2.2 (by omega)

/-- The address written reads as what was written. -/
theorem lookup_update_same (a : Nat) (v : Byte) (m : List Host.Cell) :
    ∀ lo, wfFrom lo m = true → lookup (update a v m) a = v := by
  induction m with
  | nil =>
    intro _ _
    unfold update
    split
    · rename_i h; rw [h]; rfl
    · simp [lookup]
  | cons c m ih =>
    obtain ⟨k, w⟩ := c
    intro lo hw
    rw [wfFrom_cons] at hw
    unfold update
    split
    · have hne : ¬ k = a := by omega
      rw [lookup, if_neg hne]
      exact ih (k + 1) hw.2.2.2
    · split
      · split
        · rename_i h hv
          rw [hv]
          exact lookup_of_lt m (k + 1) a hw.2.2.2 (by omega)
        · simp [lookup]
      · split
        · rename_i h1 h2 hv
          rw [lookup, if_neg h2, hv]
          exact lookup_of_lt m (k + 1) a hw.2.2.2 (by omega)
        · simp [lookup]

/-- Every other address reads as before. -/
theorem lookup_update_other (a b : Nat) (v : Byte) (hb : b ≠ a) (m : List Host.Cell) :
    lookup (update a v m) b = lookup m b := by
  induction m with
  | nil =>
    unfold update
    split
    · rfl
    · simp [lookup, Ne.symm hb]
  | cons c m ih =>
    obtain ⟨k, w⟩ := c
    unfold update
    split
    · unfold lookup; rw [ih]
    · split
      · rename_i h
        subst h
        split
        · conv_rhs => rw [lookup, if_neg (Ne.symm hb)]
        · rw [lookup, lookup, if_neg (Ne.symm hb), if_neg (Ne.symm hb)]
      · split
        · rfl
        · rw [lookup, if_neg (Ne.symm hb)]

theorem read8_write8_same (m : List Host.Cell) (a : Word) (v : Byte) (h : wf m = true) :
    read8 (write8 m a v) a = v := lookup_update_same a.toNat v m 0 h

theorem read8_write8_other (m : List Host.Cell) (a b : Word) (v : Byte) (h : b ≠ a) :
    read8 (write8 m a v) b = read8 m b :=
  lookup_update_other a.toNat b.toNat v (fun e => h (BitVec.eq_of_toNat_eq e)) m

end Memory

namespace AddrSet

theorem wfFrom_cons (lo k : Nat) (d : List Nat) :
    wfFrom lo (k :: d) = true ↔ lo ≤ k ∧ k < 2 ^ 32 ∧ wfFrom (k + 1) d = true := by
  simp [wfFrom, and_assoc]

theorem wfFrom_mono (lo lo' : Nat) (d : List Nat) (h : lo' ≤ lo) (hw : wfFrom lo d = true) :
    wfFrom lo' d = true := by
  cases d with
  | nil => rfl
  | cons k d =>
    rw [wfFrom_cons] at hw ⊢
    exact ⟨by omega, hw.2⟩

theorem insert_wfFrom (a : Nat) (ha : a < 2 ^ 32) (d : List Nat) :
    ∀ lo, lo ≤ a → wfFrom lo d = true → wfFrom lo (insert a d) = true := by
  induction d with
  | nil => intro lo hlo _; rw [insert, wfFrom_cons]; exact ⟨hlo, ha, rfl⟩
  | cons k d ih =>
    intro lo hlo hw
    have hw' := (wfFrom_cons ..).mp hw
    unfold insert
    split
    · rw [wfFrom_cons]; exact ⟨hw'.1, hw'.2.1, ih (k + 1) (by omega) hw'.2.2⟩
    · split
      · exact hw
      · rw [wfFrom_cons, wfFrom_cons]; exact ⟨hlo, ha, by omega, hw'.2.1, hw'.2.2⟩

theorem insert_wf (a : Word) (d : List Nat) (h : wf d = true) : wf (insert a.toNat d) = true :=
  insert_wfFrom a.toNat a.isLt d 0 (Nat.zero_le _) h

theorem erase_wfFrom (a : Nat) (d : List Nat) : ∀ lo, wfFrom lo d = true → wfFrom lo (erase a d) = true := by
  induction d with
  | nil => intro _ _; rfl
  | cons k d ih =>
    intro lo hw
    rw [wfFrom_cons] at hw
    unfold erase
    split
    · exact wfFrom_mono (k + 1) lo d (by omega) hw.2.2
    · rw [wfFrom_cons]; exact ⟨hw.1, hw.2.1, ih (k + 1) hw.2.2⟩

/-- An address is in the set after it was added, and no other is. -/
theorem mem_insert (a b : Nat) (d : List Nat) : b ∈ insert a d ↔ b = a ∨ b ∈ d := by
  induction d with
  | nil => simp [insert]
  | cons k d ih =>
    unfold insert
    split
    · simp only [List.mem_cons, ih]; tauto
    · split
      · rename_i h; subst h; simp
      · simp

end AddrSet

/-! ## The state -/

theorem reset_mem_wf : Memory.wf State.reset.mem = true := rfl

/-- What `landed` makes of a byte is what `put8` makes of it, one store after the other. -/
theorem foldl_put8_induct (P : State → Prop) (h : ∀ t a v, P t → P (State.put8 t a v)) (l : List (Word × Byte)) :
    ∀ s : State, P s → P (l.foldl (fun t c => t.put8 c.1 c.2) s) := by
  induction l with
  | nil => intro s hs; exact hs
  | cons c l ih => intro s hs; exact ih _ (h s c.1 c.2 hs)

/-- A property of memory and the stale set that one store behind the data port keeps, and one to a device, every store
keeps. -/
theorem storeValue_induct (P : State → Prop) (h : ∀ t a v, P t → P (State.put8 t a v))
    (hm : ∀ t a, P t → P (State.markStale t a)) (hb : ∀ t : State, P t → P { t with between := [] }) (s : State) (k : StoreKind) (a v : Word) (hs : P s) :
    P (s.storeValue k a v) := by
  have h1 : ∀ t b j c, P t → P (State.storeByte t b j c) := by
    intro t b j c ht
    have h2 : ∀ u : State, P u → P (u.store8 (b + BitVec.ofNat 32 j) c) := by
      intro u hu
      unfold State.store8
      split
      · exact hm _ _ hu
      · exact h _ _ _ hu
    unfold State.storeByte
    split
    · exact h2 _ (foldl_put8_induct P h t.between _ (hb t ht))
    · exact h2 _ ht
  cases k <;> simp only [State.storeValue, StoreKind.size, List.range_succ, List.range_zero, List.nil_append,
    List.foldl_append, List.foldl_cons, List.foldl_nil] <;> repeat first | exact hs | apply h1

theorem put8_mem_wf (s : State) (a : Word) (v : Byte) (h : Memory.wf s.mem = true) :
    Memory.wf (s.put8 a v).mem = true := Memory.write8_wf s.mem a v h

theorem putCode8_wf (s : State) (a : Word) (v : Byte) (h : Memory.wf s.mem = true) (hi : Memory.wf s.imem = true) :
    Memory.wf (s.putCode8 a v).mem = true ∧ Memory.wf (s.putCode8 a v).imem = true := by
  unfold State.putCode8
  split
  · exact ⟨put8_mem_wf s a v h, hi⟩
  · exact ⟨h, Memory.write8_wf s.imem a v hi⟩

theorem landed_mem_wf (s : State) (h : Memory.wf s.mem = true) : Memory.wf s.landed.mem = true :=
  foldl_put8_induct (fun t => Memory.wf t.mem = true) put8_mem_wf s.between _ h

theorem settle_mem_wf (s : State) (a : Word) (n : Nat) (h : Memory.wf s.mem = true) :
    Memory.wf (s.settle a n).mem = true := by
  unfold State.settle
  split
  · exact landed_mem_wf s h
  · exact h

theorem storeValue_mem_wf (s : State) (k : StoreKind) (a v : Word) (h : Memory.wf s.mem = true) :
    Memory.wf (s.storeValue k a v).mem = true :=
  storeValue_induct (fun t => Memory.wf t.mem = true) put8_mem_wf (fun _ _ ht => ht) (fun _ ht => ht) s k a v h

theorem put8_dirty_wf (s : State) (a : Word) (v : Byte) (h : AddrSet.wf s.dirty = true) :
    AddrSet.wf (s.put8 a v).dirty = true := by
  rw [put8_dirty]
  split
  · exact AddrSet.insert_wf a s.dirty h
  · exact h

theorem putCode8_dirty_wf (s : State) (a : Word) (v : Byte) (h : AddrSet.wf s.dirty = true) :
    AddrSet.wf (s.putCode8 a v).dirty = true := by
  unfold State.putCode8
  split
  · exact put8_dirty_wf s a v h
  · exact AddrSet.insert_wf a s.dirty h

theorem settle_dirty_wf (s : State) (a : Word) (n : Nat) (h : AddrSet.wf s.dirty = true) :
    AddrSet.wf (s.settle a n).dirty = true := by
  unfold State.settle
  split
  · exact foldl_put8_induct (fun t => AddrSet.wf t.dirty = true) put8_dirty_wf s.between _ h
  · exact h

theorem storeValue_dirty_wf (s : State) (k : StoreKind) (a v : Word) (h : AddrSet.wf s.dirty = true) :
    AddrSet.wf (s.storeValue k a v).dirty = true :=
  storeValue_induct (fun t => AddrSet.wf t.dirty = true) put8_dirty_wf
    (fun t b ht => AddrSet.insert_wf b t.dirty ht) (fun _ ht => ht) s k a v h

theorem read8_put8_same (s : State) (a : Word) (v : Byte) (h : Memory.wf s.mem = true) :
    (s.put8 a v).read8 a = v := Memory.read8_write8_same s.mem a v h

theorem read8_put8_other (s : State) (a b : Word) (v : Byte) (h : b ≠ a) :
    (s.put8 a v).read8 b = s.read8 b := Memory.read8_write8_other s.mem a b v h

/-- An access in one transaction leaves the state as it is. -/
theorem settle_of_whole (s : State) {a : Word} {n : Nat} (h : a.toNat % 4 + n ≤ 4) : s.settle a n = s := by
  simp [State.settle, splits, Nat.not_lt.mpr h]

/-- With no store of another master waiting, the two parts of an access see one memory. -/
theorem landed_of_none {s : State} (h : s.between = []) : s.landed = s := by
  unfold State.landed
  rw [h]
  cases s
  cases h
  rfl

end Sys2Proof.Machine
end

