-- ==== Sys2Proof/Laws/Ops.lean ====
section
/-! SUPPORT. One lemma per shared operation: what holds if it answers a next state; and when the plain ones do answer one.
The proofs about instructions cite these instead of unfolding the operations. -/

namespace Sys2Proof.Machine

/-! ## The end of an instruction -/

theorem mapNext_next {g : State → State} {r : Result} {t : State} (h : mapNext g r = .next t) :
    ∃ u, r = .next u ∧ t = g u := by
  cases r with
  | next u => exact ⟨u, rfl, by simpa [mapNext] using h.symm⟩
  | fault f => cases h
  | refused f => cases h

theorem retire_next {n : Word} {s t : State} (h : retire n s = .next t) :
    s.hitsShortLoop = false ∧ t = s.stepLoops (s.pc + n) := by
  unfold retire at h
  split at h
  · cases h
  · rename_i hs
    exact ⟨by simpa using hs, by simpa using h.symm⟩

theorem retire_of_not_short {s : State} (n : Word) (h : s.hitsShortLoop = false) :
    retire n s = .next (s.stepLoops (s.pc + n)) := by
  simp [retire, h]

theorem jumpTo_next {a : Word} {s t : State} (h : jumpTo a s = .next t) :
    s.hitsLoop = false ∧ t = { s with pc := a } := by
  unfold jumpTo at h
  split at h
  · cases h
  · rename_i hs
    exact ⟨by simpa using hs, by simpa using h.symm⟩

theorem jumpTo_of_no_hit {s : State} (a : Word) (h : s.hitsLoop = false) :
    jumpTo a s = .next { s with pc := a } := by
  simp [jumpTo, h]

theorem branchTo_next {b : Bool} {a n : Word} {s t : State} (h : branchTo b a n s = .next t) :
    s.hitsLoop = false ∧ t = { s with pc := if b then a else s.pc + n } := by
  unfold branchTo at h
  cases b
  · exact jumpTo_next h
  · exact jumpTo_next h

theorem branchTo_of_no_hit {s : State} (b : Bool) (a n : Word) (h : s.hitsLoop = false) :
    branchTo b a n s = .next { s with pc := if b then a else s.pc + n } := by
  cases b
  · exact jumpTo_of_no_hit _ h
  · exact jumpTo_of_no_hit _ h

/-- Whether a loop is hit, and how it is set up, depends on the loop registers and the pc alone. -/
theorem hitsShortLoop_congr {s t : State} (h0 : t.loop0 = s.loop0) (h1 : t.loop1 = s.loop1) (hp : t.pc = s.pc) :
    t.hitsShortLoop = s.hitsShortLoop := by
  simp [State.hitsShortLoop, h0, h1, hp]

theorem hitsLoop_congr {s t : State} (h0 : t.loop0 = s.loop0) (h1 : t.loop1 = s.loop1) (hp : t.pc = s.pc) :
    t.hitsLoop = s.hitsLoop := by
  simp [State.hitsLoop, h0, h1, hp]

@[simp] theorem writeX_hitsShortLoop (s : State) (r : Reg) (v : Word) :
    (s.writeX r v).hitsShortLoop = s.hitsShortLoop := hitsShortLoop_congr (by simp) (by simp) (by simp)
@[simp] theorem writeF_hitsShortLoop (s : State) (r : Reg) (v : Word) :
    (s.writeF r v).hitsShortLoop = s.hitsShortLoop := hitsShortLoop_congr (by simp) (by simp) (by simp)
@[simp] theorem raise_hitsShortLoop (s : State) (w : BitVec 5) :
    (s.raise w).hitsShortLoop = s.hitsShortLoop := hitsShortLoop_congr (by simp) (by simp) (by simp)
@[simp] theorem storeValue_hitsShortLoop (s : State) (k : StoreKind) (a v : Word) :
    (s.storeValue k a v).hitsShortLoop = s.hitsShortLoop := hitsShortLoop_congr (by simp) (by simp) (by simp)
@[simp] theorem settle_hitsShortLoop (s : State) (a : Word) (n : Nat) :
    (s.settle a n).hitsShortLoop = s.hitsShortLoop := hitsShortLoop_congr (by simp) (by simp) (by simp)
@[simp] theorem writeX_hitsLoop (s : State) (r : Reg) (v : Word) :
    (s.writeX r v).hitsLoop = s.hitsLoop := hitsLoop_congr (by simp) (by simp) (by simp)

theorem writeBack_next {n : Word} {rd : Reg} {v : Word} {s t : State} (h : writeBack n rd v s = .next t) :
    s.hitsShortLoop = false ∧ t = (s.writeX rd v).stepLoops (s.pc + n) := by
  obtain ⟨h1, h2⟩ := retire_next h
  exact ⟨by simpa using h1, by simpa using h2⟩

theorem writeBack_of_not_short {s : State} (n : Word) (rd : Reg) (v : Word) (h : s.hitsShortLoop = false) :
    writeBack n rd v s = .next ((s.writeX rd v).stepLoops (s.pc + n)) := by
  rw [writeBack, retire_of_not_short n (by simpa using h)]
  simp

theorem writeBackF_next {n : Word} {rd : Reg} {v : Word} {w : BitVec 5} {s t : State}
    (h : writeBackF n rd v w s = .next t) :
    s.hitsShortLoop = false ∧ t = ((s.writeF rd v).raise w).stepLoops (s.pc + n) := by
  obtain ⟨h1, h2⟩ := retire_next h
  exact ⟨by simpa using h1, by simpa using h2⟩

theorem writeBackF_of_not_short {s : State} (n : Word) (rd : Reg) (v : Word) (w : BitVec 5)
    (h : s.hitsShortLoop = false) :
    writeBackF n rd v w s = .next (((s.writeF rd v).raise w).stepLoops (s.pc + n)) := by
  rw [writeBackF, retire_of_not_short n (by simpa using h)]
  simp

/-- Raising no flag changes nothing. -/
@[simp] theorem raise_none (s : State) : s.raise Flag.none = s := by
  simp [State.raise, Flag.none]

/-! ## The hardware-loop step -/

/-- What the loop step does: the two loop registers and the pc, nothing else. -/
theorem stepLoops_eq (s : State) (n : Word) :
    s.stepLoops n = { s with
      pc := (s.stepLoops n).pc, loop0 := (s.stepLoops n).loop0, loop1 := (s.stepLoops n).loop1 } := by
  unfold State.stepLoops
  split
  · split
    · rfl
    · unfold State.stepLoop1
      repeat' split
      all_goals rfl
  · unfold State.stepLoop1
    repeat' split
    all_goals rfl

/-- At no hit the pc moves on and nothing else happens. -/
theorem stepLoops_no_hit {s : State} (n : Word) (h : s.hitsLoop = false) : s.stepLoops n = { s with pc := n } := by
  simp only [State.hitsLoop, Bool.or_eq_false_iff] at h
  simp [State.stepLoops, State.stepLoop1, h.1, h.2]

/-- The next pc is the given one, or the start of a loop. -/
theorem stepLoops_pc (s : State) (n : Word) :
    (s.stepLoops n).pc = n ∨ (s.stepLoops n).pc = s.loop0.entry ∨ (s.stepLoops n).pc = s.loop1.entry := by
  unfold State.stepLoops
  split
  · split
    · exact .inr (.inl rfl)
    · unfold State.stepLoop1
      split
      · split
        · exact .inr (.inr rfl)
        · exact .inl rfl
      · exact .inl rfl
  · unfold State.stepLoop1
    split
    · split
      · exact .inr (.inr rfl)
      · exact .inl rfl
    · exact .inl rfl

@[simp] theorem stepLoops_readX (s : State) (n : Word) (r : Reg) : (s.stepLoops n).readX r = s.readX r :=
  readX_of_x_eq _ _ _ (by simp)

/-! ## Memory -/

theorem guardAccess_next {k : Access} {a : Word} {n : Nat} {s t : State} {r : Result}
    (h : guardAccess k a n s r = .next t) : s.stopAccess k a n = none ∧ r = .next t := by
  unfold guardAccess at h
  split at h
  · rename_i hs; exact ⟨hs, h⟩
  · rename_i e _; cases e <;> cases h

theorem guardAccess_of_none {k : Access} {a : Word} {n : Nat} {s : State} (r : Result)
    (h : s.stopAccess k a n = none) : guardAccess k a n s r = r := by
  simp [guardAccess, h]

theorem loadX_next {n : Word} {k : LoadKind} {rd : Reg} {a : Word} {s t : State} (h : loadX n k rd a s = .next t) :
    s.stopAccess .load a k.size = none ∧ s.hitsShortLoop = false ∧
      t = ((s.settle a k.size).writeX rd (s.loadValue k a)).stepLoops (s.pc + n) := by
  obtain ⟨h1, h2⟩ := guardAccess_next h
  obtain ⟨h3, h4⟩ := writeBack_next h2
  exact ⟨h1, by simpa using h3, by simpa using h4⟩

theorem loadF_next {n : Word} {rd : Reg} {a : Word} {s t : State} (h : loadF n rd a s = .next t) :
    s.stopAccess .load a 4 = none ∧ s.hitsShortLoop = false ∧
      t = ((s.settle a 4).writeF rd (s.accessWord a)).stepLoops (s.pc + n) := by
  obtain ⟨h1, h2⟩ := guardAccess_next h
  obtain ⟨h3, h4⟩ := retire_next h2
  exact ⟨h1, by simpa using h3, by simpa using h4⟩

theorem storeTo_next {n : Word} {k : StoreKind} {a v : Word} {s t : State} (h : storeTo n k a v s = .next t) :
    s.stopAccess .store a k.size = none ∧ s.hitsShortLoop = false ∧
      t = (s.storeValue k a v).stepLoops (s.pc + n) := by
  obtain ⟨h1, h2⟩ := guardAccess_next h
  obtain ⟨h3, h4⟩ := retire_next h2
  exact ⟨h1, by simpa using h3, by simpa using h4⟩

/-- A post-increment load: the base is written, then the destination. -/
theorem postLoad_next {k : LoadKind} {rd rs1 : Reg} {inc : Word} {s t : State} (h : postLoad k rd rs1 inc s = .next t) :
    s.stopAccess .load (s.readX rs1) k.size = none ∧ s.hitsShortLoop = false ∧
      t = (((s.settle (s.readX rs1) k.size).writeX rs1 (s.readX rs1 + inc)).writeX rd
        (if rd = rs1 then Config.freeLoadResult s.draws else s.loadValue k (s.readX rs1))).stepLoops (s.pc + 4) := by
  obtain ⟨h1, h2⟩ := guardAccess_next h
  obtain ⟨h3, h4⟩ := writeBack_next h2
  exact ⟨h1, by simpa using h3, by simpa using h4⟩

/-- A post-increment store: memory is written, then the base. -/
theorem postStore_next {k : StoreKind} {rs1 : Reg} {v inc : Word} {s t : State}
    (h : postStore k rs1 v inc s = .next t) :
    s.stopAccess .store (s.readX rs1) k.size = none ∧ s.hitsShortLoop = false ∧
      t = ((s.storeValue k (s.readX rs1) v).writeX rs1 (s.readX rs1 + inc)).stepLoops (s.pc + 4) := by
  obtain ⟨h1, h2⟩ := guardAccess_next h
  obtain ⟨h3, h4⟩ := writeBack_next h2
  exact ⟨h1, by simpa using h3, by simpa using h4⟩

/-! ## Control -/

theorem returnFromTrap_next {s t : State} (h : returnFromTrap s = .next t) :
    s.hitsLoop = false ∧ t = { s with mstatus := withMie s.mstatus true s.mpie, pc := evenTarget s.mepc } := by
  obtain ⟨h1, h2⟩ := jumpTo_next h
  exact ⟨h1, h2⟩

theorem breakpoint_next {n : Word} {s t : State} (h : breakpoint n s = .next t) :
    s.dbgIe.getLsbD 3 = true ∧ t = { s with pc := s.pc + n, halted := true, dbgCause := 3 } := by
  unfold breakpoint at h
  split at h
  · rename_i hb; exact ⟨hb, by simpa [State.halt] using h.symm⟩
  · cases h

theorem writeLoop_next {l : BitVec 1} {v : LoopRegs} {s t : State} (h : writeLoop l v s = .next t) :
    (s.loopRegs l).insideActive s.pc = false ∧ (s.setLoopRegs l v).hitsShortLoop = false ∧
      t = (s.setLoopRegs l v).stepLoops (s.pc + 4) := by
  unfold writeLoop at h
  split at h
  · cases h
  · rename_i hb
    obtain ⟨h1, h2⟩ := retire_next h
    exact ⟨by simpa using hb, h1, by simpa using h2⟩

/-! ## CSR access -/

theorem csrLookup_ok {s : State} {n : CsrNum} {c : Csr} (h : s.csrLookup n = .ok c) :
    Csr.ofNumber s.params.fpu n = some c := by
  unfold State.csrLookup at h
  split at h
  · cases h
  · rename_i h'; cases h; exact h'

theorem csrReadOnlyForm_next {rd : Reg} {n : CsrNum} {s t : State} (h : csrReadOnlyForm rd n s = .next t) :
    ∃ c, Csr.ofNumber s.params.fpu n = some c ∧ s.hitsShortLoop = false ∧
      t = (s.writeX rd (s.readCsr c)).stepLoops (s.pc + 4) := by
  unfold csrReadOnlyForm at h
  split at h
  · cases h
  · rename_i c hc
    exact ⟨c, csrLookup_ok hc, writeBack_next h⟩

theorem csrWriteStop_none {s : State} {n : CsrNum} {c : Csr} (h : s.csrWriteStop n c = none) :
    c.readOnly = false ∧ s.csrInBody c = false := by
  unfold State.csrWriteStop at h
  split at h
  · cases h
  · split at h
    · cases h
    · rename_i h1 h2
      exact ⟨by simpa using h1, by simpa using h2⟩

/-- A CSR write changes no integer register, no memory and not the pc. -/
theorem writeCsr_keeps (s : State) (c : Csr) (v : Word) :
    (s.writeCsr c v).x = s.x ∧ (s.writeCsr c v).f = s.f ∧ (s.writeCsr c v).pc = s.pc ∧
      (s.writeCsr c v).mem = s.mem ∧ (s.writeCsr c v).dirty = s.dirty ∧ (s.writeCsr c v).draws = s.draws ∧
      (s.writeCsr c v).params = s.params := by
  cases c <;> simp [State.writeCsr]

theorem csrReadWrite_next {rd : Reg} {n : CsrNum} {g : Word → Word} {s t : State}
    (h : csrReadWrite rd n g s = .next t) :
    ∃ c, Csr.ofNumber s.params.fpu n = some c ∧ c.readOnly = false ∧ s.csrInBody c = false ∧
      (s.writeCsr c (g (s.readCsr c))).hitsShortLoop = false ∧
      t = ((s.writeCsr c (g (s.readCsr c))).writeX rd (s.readCsr c)).stepLoops (s.pc + 4) := by
  unfold csrReadWrite at h
  split at h
  · cases h
  · rename_i c hc
    split at h
    · cases h
    · rename_i hw
      obtain ⟨h1, h2⟩ := csrWriteStop_none hw
      obtain ⟨h3, h4⟩ := writeBack_next h
      have hp := (writeCsr_keeps s c (g (s.readCsr c))).2.2.1
      exact ⟨c, csrLookup_ok hc, h1, h2, h3, by rw [h4, hp]⟩

/-! ## Results with free values -/

theorem fieldResult_next {rd : Reg} {b : BitField} {v : Word} {s t : State} (h : fieldResult rd b v s = .next t) :
    s.hitsShortLoop = false ∧
      t = (s.writeX rd (if b.fits then v else Config.freeField s.draws)).stepLoops (s.pc + 4) := writeBack_next h

theorem elementResult_next {rd : Reg} {b : Bool} {v : Word} {s t : State} (h : elementResult rd b v s = .next t) :
    s.hitsShortLoop = false ∧
      t = (s.writeX rd (if b then v else Config.freeElement s.draws)).stepLoops (s.pc + 4) := writeBack_next h

/-! ## Floating point -/

theorem needsFpu_next {s t : State} {r : Result} (h : needsFpu s r = .next t) :
    (s.params.fpu = true ∧ r = .next t) ∨ (s.params.fpu = false ∧ t = s.illegalInstruction) := by
  unfold needsFpu at h
  split at h
  · rename_i hf; exact .inl ⟨hf, h⟩
  · rename_i hf; exact .inr ⟨by simpa using hf, by simpa using h.symm⟩

theorem withRounding_next {rm : BitVec 3} {s t : State} {k : Rounding → Result} (h : withRounding rm s k = .next t) :
    ∃ m, s.rounding rm = some m ∧ k m = .next t := by
  unfold withRounding at h
  split at h
  · cases h
  · rename_i m hm; exact ⟨m, hm, h⟩

theorem fpRounded_next {rd : Reg} {rm : BitVec 3} {g : Rounding → Word × BitVec 5} {s t : State}
    (h : fpRounded rd rm g s = .next t) :
    (s.params.fpu = true ∧ s.hitsShortLoop = false ∧ ∃ m, s.rounding rm = some m ∧
      t = ((s.writeF rd (g m).1).raise (g m).2).stepLoops (s.pc + 4)) ∨
    (s.params.fpu = false ∧ t = s.illegalInstruction) := by
  rcases needsFpu_next h with ⟨h1, h2⟩ | h1
  · obtain ⟨m, h3, h4⟩ := withRounding_next h2
    obtain ⟨h5, h6⟩ := writeBackF_next h4
    exact .inl ⟨h1, h5, m, h3, h6⟩
  · exact .inr h1

theorem fpResult_next {rd : Reg} {v : Word × BitVec 5} {s t : State} (h : fpResult rd v s = .next t) :
    (s.params.fpu = true ∧ s.hitsShortLoop = false ∧ t = ((s.writeF rd v.1).raise v.2).stepLoops (s.pc + 4)) ∨
    (s.params.fpu = false ∧ t = s.illegalInstruction) := by
  rcases needsFpu_next h with ⟨h1, h2⟩ | h1
  · exact .inl ⟨h1, writeBackF_next h2⟩
  · exact .inr h1

theorem fpToX_next {rd : Reg} {v : Word × BitVec 5} {s t : State} (h : fpToX rd v s = .next t) :
    (s.params.fpu = true ∧ s.hitsShortLoop = false ∧ t = ((s.writeX rd v.1).raise v.2).stepLoops (s.pc + 4)) ∨
    (s.params.fpu = false ∧ t = s.illegalInstruction) := by
  rcases needsFpu_next h with ⟨h1, h2⟩ | h1
  · obtain ⟨h3, h4⟩ := retire_next h2
    exact .inl ⟨h1, by simpa using h3, by simpa using h4⟩
  · exact .inr h1

theorem fpCompare_next {rd : Reg} {v : Bool × BitVec 5} {s t : State} (h : fpCompare rd v s = .next t) :
    (s.params.fpu = true ∧ s.hitsShortLoop = false ∧
      t = ((s.writeX rd (ofBool v.1)).raise v.2).stepLoops (s.pc + 4)) ∨
    (s.params.fpu = false ∧ t = s.illegalInstruction) := fpToX_next h

theorem fpToXRounded_next {rd : Reg} {rm : BitVec 3} {g : Rounding → Word × BitVec 5} {s t : State}
    (h : fpToXRounded rd rm g s = .next t) :
    (s.params.fpu = true ∧ s.hitsShortLoop = false ∧ ∃ m, s.rounding rm = some m ∧
      t = ((s.writeX rd (g m).1).raise (g m).2).stepLoops (s.pc + 4)) ∨
    (s.params.fpu = false ∧ t = s.illegalInstruction) := by
  rcases needsFpu_next h with ⟨h1, h2⟩ | h1
  · obtain ⟨m, h3, h4⟩ := withRounding_next h2
    obtain ⟨h5, h6⟩ := retire_next h4
    exact .inl ⟨h1, by simpa using h5, m, h3, by simpa using h6⟩
  · exact .inr h1

/-- `fdiv.s` and `fsqrt.s`: the rounded result, or with fprec not 0 a free result and free flags. -/
theorem fpIterative_next {rd : Reg} {rm : BitVec 3} {g : Rounding → Word × BitVec 5} {s t : State}
    (h : fpIterative rd rm g s = .next t) :
    (s.params.fpu = true ∧ s.hitsShortLoop = false ∧ ∃ m, s.rounding rm = some m ∧
      ((s.fprec = 0 ∧ t = ((s.writeF rd (g m).1).raise (g m).2).stepLoops (s.pc + 4)) ∨
       (s.fprec ≠ 0 ∧ t = ((s.writeF rd (Config.freeFpResult s.draws)).raise
          (Config.freeFpFlags s.draws)).stepLoops (s.pc + 4)))) ∨
    (s.params.fpu = false ∧ t = s.illegalInstruction) := by
  unfold fpIterative at h
  split at h
  · rename_i hp
    rcases fpRounded_next h with ⟨h1, h2, m, h3, h4⟩ | h1
    · exact .inl ⟨h1, h2, m, h3, .inl ⟨hp, h4⟩⟩
    · exact .inr h1
  · rename_i hp
    rcases fpRounded_next h with ⟨h1, h2, m, h3, h4⟩ | h1
    · exact .inl ⟨h1, h2, m, h3, .inr ⟨hp, h4⟩⟩
    · exact .inr h1

end Sys2Proof.Machine
end

