-- ==== Sys2Proof/Laws/Hart.lean ====
section
/-! SUPPORT. What the parts of a step do, one lemma each: counting events, the end of a step, an instruction, the fetch, a step
of the hart, an action of the world, a step of the machine. -/

namespace Sys2Proof.Machine

/-! ### `countEvents` and `complete`: what they leave as it is -/

@[simp] theorem countEvents_params (ev : Events) (b s : State) : (countEvents ev b s).params = s.params := by
  unfold countEvents; split <;> rfl
@[simp] theorem countEvents_x (ev : Events) (b s : State) : (countEvents ev b s).x = s.x := by
  unfold countEvents; split <;> rfl
@[simp] theorem countEvents_f (ev : Events) (b s : State) : (countEvents ev b s).f = s.f := by
  unfold countEvents; split <;> rfl
@[simp] theorem countEvents_pc (ev : Events) (b s : State) : (countEvents ev b s).pc = s.pc := by
  unfold countEvents; split <;> rfl
@[simp] theorem countEvents_mstatus (ev : Events) (b s : State) : (countEvents ev b s).mstatus = s.mstatus := by
  unfold countEvents; split <;> rfl
@[simp] theorem countEvents_mepc (ev : Events) (b s : State) : (countEvents ev b s).mepc = s.mepc := by
  unfold countEvents; split <;> rfl
@[simp] theorem countEvents_mcause (ev : Events) (b s : State) : (countEvents ev b s).mcause = s.mcause := by
  unfold countEvents; split <;> rfl
@[simp] theorem countEvents_pcmr (ev : Events) (b s : State) : (countEvents ev b s).pcmr = s.pcmr := by
  unfold countEvents; split <;> rfl
@[simp] theorem countEvents_pcer (ev : Events) (b s : State) : (countEvents ev b s).pcer = s.pcer := by
  unfold countEvents; split <;> rfl
@[simp] theorem countEvents_fflags (ev : Events) (b s : State) : (countEvents ev b s).fflags = s.fflags := by
  unfold countEvents; split <;> rfl
@[simp] theorem countEvents_frm (ev : Events) (b s : State) : (countEvents ev b s).frm = s.frm := by
  unfold countEvents; split <;> rfl
@[simp] theorem countEvents_fprec (ev : Events) (b s : State) : (countEvents ev b s).fprec = s.fprec := by
  unfold countEvents; split <;> rfl
@[simp] theorem countEvents_loop0 (ev : Events) (b s : State) : (countEvents ev b s).loop0 = s.loop0 := by
  unfold countEvents; split <;> rfl
@[simp] theorem countEvents_loop1 (ev : Events) (b s : State) : (countEvents ev b s).loop1 = s.loop1 := by
  unfold countEvents; split <;> rfl
@[simp] theorem countEvents_sleeping (ev : Events) (b s : State) : (countEvents ev b s).sleeping = s.sleeping := by
  unfold countEvents; split <;> rfl
@[simp] theorem countEvents_irq (ev : Events) (b s : State) : (countEvents ev b s).irq = s.irq := by
  unfold countEvents; split <;> rfl
@[simp] theorem countEvents_irqAck (ev : Events) (b s : State) : (countEvents ev b s).irqAck = s.irqAck := by
  unfold countEvents; split <;> rfl
@[simp] theorem countEvents_bootAddr (ev : Events) (b s : State) : (countEvents ev b s).bootAddr = s.bootAddr := by
  unfold countEvents; split <;> rfl
@[simp] theorem countEvents_halted (ev : Events) (b s : State) : (countEvents ev b s).halted = s.halted := by
  unfold countEvents; split <;> rfl
@[simp] theorem countEvents_sste (ev : Events) (b s : State) : (countEvents ev b s).sste = s.sste := by
  unfold countEvents; split <;> rfl
@[simp] theorem countEvents_ssth (ev : Events) (b s : State) : (countEvents ev b s).ssth = s.ssth := by
  unfold countEvents; split <;> rfl
@[simp] theorem countEvents_dbgIe (ev : Events) (b s : State) : (countEvents ev b s).dbgIe = s.dbgIe := by
  unfold countEvents; split <;> rfl
@[simp] theorem countEvents_dbgCause (ev : Events) (b s : State) : (countEvents ev b s).dbgCause = s.dbgCause := by
  unfold countEvents; split <;> rfl
@[simp] theorem countEvents_ppc (ev : Events) (b s : State) : (countEvents ev b s).ppc = s.ppc := by
  unfold countEvents; split <;> rfl
@[simp] theorem countEvents_dbgRdata (ev : Events) (b s : State) : (countEvents ev b s).dbgRdata = s.dbgRdata := by
  unfold countEvents; split <;> rfl
@[simp] theorem countEvents_mem (ev : Events) (b s : State) : (countEvents ev b s).mem = s.mem := by
  unfold countEvents; split <;> rfl
@[simp] theorem countEvents_imem (ev : Events) (b s : State) : (countEvents ev b s).imem = s.imem := by
  unfold countEvents; split <;> rfl
@[simp] theorem countEvents_dirty (ev : Events) (b s : State) : (countEvents ev b s).dirty = s.dirty := by
  unfold countEvents; split <;> rfl
@[simp] theorem countEvents_between (ev : Events) (b s : State) : (countEvents ev b s).between = s.between := by
  unfold countEvents; split <;> rfl
@[simp] theorem countEvents_prevWrites (ev : Events) (b s : State) :
    (countEvents ev b s).prevWrites = s.prevWrites := by
  unfold countEvents; split <;> rfl
@[simp] theorem countEvents_heldIrq (ev : Events) (b s : State) : (countEvents ev b s).heldIrq = s.heldIrq := by
  unfold countEvents; split <;> rfl
@[simp] theorem countEvents_inputs (ev : Events) (b s : State) : (countEvents ev b s).inputs = s.inputs := by
  unfold countEvents; split <;> rfl
@[simp] theorem countEvents_draws (ev : Events) (b s : State) : (countEvents ev b s).draws = s.draws := by
  unfold countEvents; split <;> rfl

@[simp] theorem complete_params (ev : Events) (p : Word) (w : Option (List Reg)) (b s : State) :
    (complete ev p w b s).params = s.params :=
  (singleStep_params _).trans (countEvents_params ev b s)
@[simp] theorem complete_x (ev : Events) (p : Word) (w : Option (List Reg)) (b s : State) :
    (complete ev p w b s).x = s.x :=
  (singleStep_x _).trans (countEvents_x ev b s)
@[simp] theorem complete_f (ev : Events) (p : Word) (w : Option (List Reg)) (b s : State) :
    (complete ev p w b s).f = s.f :=
  (singleStep_f _).trans (countEvents_f ev b s)
@[simp] theorem complete_pc (ev : Events) (p : Word) (w : Option (List Reg)) (b s : State) :
    (complete ev p w b s).pc = s.pc :=
  (singleStep_pc _).trans (countEvents_pc ev b s)
@[simp] theorem complete_mstatus (ev : Events) (p : Word) (w : Option (List Reg)) (b s : State) :
    (complete ev p w b s).mstatus = s.mstatus :=
  (singleStep_mstatus _).trans (countEvents_mstatus ev b s)
@[simp] theorem complete_mepc (ev : Events) (p : Word) (w : Option (List Reg)) (b s : State) :
    (complete ev p w b s).mepc = s.mepc :=
  (singleStep_mepc _).trans (countEvents_mepc ev b s)
@[simp] theorem complete_mcause (ev : Events) (p : Word) (w : Option (List Reg)) (b s : State) :
    (complete ev p w b s).mcause = s.mcause :=
  (singleStep_mcause _).trans (countEvents_mcause ev b s)
@[simp] theorem complete_pcmr (ev : Events) (p : Word) (w : Option (List Reg)) (b s : State) :
    (complete ev p w b s).pcmr = s.pcmr :=
  (singleStep_pcmr _).trans (countEvents_pcmr ev b s)
@[simp] theorem complete_pcer (ev : Events) (p : Word) (w : Option (List Reg)) (b s : State) :
    (complete ev p w b s).pcer = s.pcer :=
  (singleStep_pcer _).trans (countEvents_pcer ev b s)
@[simp] theorem complete_fflags (ev : Events) (p : Word) (w : Option (List Reg)) (b s : State) :
    (complete ev p w b s).fflags = s.fflags :=
  (singleStep_fflags _).trans (countEvents_fflags ev b s)
@[simp] theorem complete_frm (ev : Events) (p : Word) (w : Option (List Reg)) (b s : State) :
    (complete ev p w b s).frm = s.frm :=
  (singleStep_frm _).trans (countEvents_frm ev b s)
@[simp] theorem complete_fprec (ev : Events) (p : Word) (w : Option (List Reg)) (b s : State) :
    (complete ev p w b s).fprec = s.fprec :=
  (singleStep_fprec _).trans (countEvents_fprec ev b s)
@[simp] theorem complete_loop0 (ev : Events) (p : Word) (w : Option (List Reg)) (b s : State) :
    (complete ev p w b s).loop0 = s.loop0 :=
  (singleStep_loop0 _).trans (countEvents_loop0 ev b s)
@[simp] theorem complete_loop1 (ev : Events) (p : Word) (w : Option (List Reg)) (b s : State) :
    (complete ev p w b s).loop1 = s.loop1 :=
  (singleStep_loop1 _).trans (countEvents_loop1 ev b s)
@[simp] theorem complete_sleeping (ev : Events) (p : Word) (w : Option (List Reg)) (b s : State) :
    (complete ev p w b s).sleeping = s.sleeping :=
  (singleStep_sleeping _).trans (countEvents_sleeping ev b s)
@[simp] theorem complete_irq (ev : Events) (p : Word) (w : Option (List Reg)) (b s : State) :
    (complete ev p w b s).irq = s.irq :=
  (singleStep_irq _).trans (countEvents_irq ev b s)
@[simp] theorem complete_irqAck (ev : Events) (p : Word) (w : Option (List Reg)) (b s : State) :
    (complete ev p w b s).irqAck = s.irqAck :=
  (singleStep_irqAck _).trans (countEvents_irqAck ev b s)
@[simp] theorem complete_bootAddr (ev : Events) (p : Word) (w : Option (List Reg)) (b s : State) :
    (complete ev p w b s).bootAddr = s.bootAddr :=
  (singleStep_bootAddr _).trans (countEvents_bootAddr ev b s)
@[simp] theorem complete_sste (ev : Events) (p : Word) (w : Option (List Reg)) (b s : State) :
    (complete ev p w b s).sste = s.sste :=
  (singleStep_sste _).trans (countEvents_sste ev b s)
@[simp] theorem complete_dbgIe (ev : Events) (p : Word) (w : Option (List Reg)) (b s : State) :
    (complete ev p w b s).dbgIe = s.dbgIe :=
  (singleStep_dbgIe _).trans (countEvents_dbgIe ev b s)
@[simp] theorem complete_dbgRdata (ev : Events) (p : Word) (w : Option (List Reg)) (b s : State) :
    (complete ev p w b s).dbgRdata = s.dbgRdata :=
  (singleStep_dbgRdata _).trans (countEvents_dbgRdata ev b s)
@[simp] theorem complete_mem (ev : Events) (p : Word) (w : Option (List Reg)) (b s : State) :
    (complete ev p w b s).mem = s.mem :=
  (singleStep_mem _).trans (countEvents_mem ev b s)
@[simp] theorem complete_imem (ev : Events) (p : Word) (w : Option (List Reg)) (b s : State) :
    (complete ev p w b s).imem = s.imem :=
  (singleStep_imem _).trans (countEvents_imem ev b s)
@[simp] theorem complete_dirty (ev : Events) (p : Word) (w : Option (List Reg)) (b s : State) :
    (complete ev p w b s).dirty = s.dirty :=
  (singleStep_dirty _).trans (countEvents_dirty ev b s)
@[simp] theorem complete_between (ev : Events) (p : Word) (w : Option (List Reg)) (b s : State) :
    (complete ev p w b s).between = s.between :=
  (singleStep_between _).trans (countEvents_between ev b s)
@[simp] theorem complete_heldIrq (ev : Events) (p : Word) (w : Option (List Reg)) (b s : State) :
    (complete ev p w b s).heldIrq = s.heldIrq :=
  (singleStep_heldIrq _).trans (countEvents_heldIrq ev b s)
@[simp] theorem complete_inputs (ev : Events) (p : Word) (w : Option (List Reg)) (b s : State) :
    (complete ev p w b s).inputs = s.inputs :=
  (singleStep_inputs _).trans (countEvents_inputs ev b s)

@[simp] theorem complete_ppc (ev : Events) (p : Word) (w : Option (List Reg)) (b s : State) :
    (complete ev p w b s).ppc = p :=
  singleStep_ppc _

@[simp] theorem complete_prevWrites (ev : Events) (p : Word) (w : Option (List Reg)) (b s : State) :
    (complete ev p w b s).prevWrites = w := singleStep_prevWrites _

@[simp] theorem complete_draws (ev : Events) (p : Word) (w : Option (List Reg)) (b s : State) :
    (complete ev p w b s).draws = s.draws + 1 :=
  congrArg (· + 1) ((singleStep_draws _).trans (countEvents_draws ev b s))

/-- The core is halted after a step that halted it, and after a single step. -/
theorem complete_halted (ev : Events) (p : Word) (w : Option (List Reg)) (b s : State) : (complete ev p w b s).halted = (s.halted || s.sste) := by
  simp only [complete, State.singleStep]
  split
  · rename_i h
    simp at h
    simp [h]
  · rename_i h
    simp at h
    simp [h]

/-! ### Instructions -/

theorem runInstr_next {i : Instr} {n : Word} {s t : State} (h : runInstr i n s = .next t) :
    ∃ u, exec i s = .next u ∧ t = complete (eventsOf s i n) s.pc (writesOf s i) s u := mapNext_next h

theorem runNoInstr_next {e : DecodeError} {s t : State} (h : runNoInstr e s = .next t) :
    t = complete exceptionEvents s.pc none s s.illegalInstruction := by
  cases e
  · simpa [runNoInstr] using h.symm
  · cases h
  · simpa [runNoInstr] using h.symm

/-- The hart runs the instruction it fetched, or takes the illegal-instruction exception. -/
theorem fetchAndRun_next {s t : State} (h : fetchAndRun s = .next t) :
    ∃ c, s.fetch = .ok c ∧
      ((∃ i u, decodeCode c = .ok i ∧ exec i s = .next u ∧ t = complete (eventsOf s i (codeLength c)) s.pc (writesOf s i) s u) ∨
       (∃ e, decodeCode c = .error e ∧ t = complete exceptionEvents s.pc none s s.illegalInstruction)) := by
  unfold fetchAndRun at h
  split at h
  · rename_i e _; cases e <;> cases h
  · rename_i c hc
    refine ⟨c, hc, ?_⟩
    split at h
    · rename_i i hi
      obtain ⟨u, h1, h2⟩ := runInstr_next h
      exact .inl ⟨i, u, hi, h1, h2⟩
    · rename_i e he
      exact .inr ⟨e, he, runNoInstr_next h⟩

/-- The hart's step, case by case. -/
theorem hartStep_next {s t : State} (h : hartStep s = .next t) :
    (s.sleeping = true ∧ s.irq = none ∧ t = s) ∨
    (s.halted = true ∧ haltedStep s.begin = .next t) ∨
    (s.halted = false ∧ ∃ i, s.takeable = some i ∧
      t = complete idleEvents s.ppc none s.begin (s.begin.takeInterrupt i)) ∨
    (s.halted = false ∧ s.takeable = none ∧ fetchAndRun s.begin = .next t) := by
  unfold hartStep at h
  split at h
  · rename_i hs
    simp at hs
    exact .inl ⟨hs.1, hs.2, by simpa using h.symm⟩
  · split at h
    · rename_i hh; exact .inr (.inl ⟨hh, h⟩)
    · rename_i hh
      have hh : s.halted = false := by simpa using hh
      split at h
      · rename_i i hi
        exact .inr (.inr (.inl ⟨hh, i, hi, by simpa [runInterrupt] using h.symm⟩))
      · rename_i hi
        exact .inr (.inr (.inr ⟨hh, hi, h⟩))

/-! ### The world -/

theorem haltRequest_next {s t : State} (h : haltRequest s = .next t) :
    t = s ∨ (s.halted = false ∧ s.interruptPending = false ∧ s.trapPending = false ∧
      t = { s.halt (Config.freeCause s.draws) with sleeping := s.sleeping && Config.freeStaysAsleep s.draws }) := by
  unfold haltRequest at h
  split at h
  · exact .inl (by simpa using h.symm)
  · rename_i hh
    split at h
    · cases h
    · rename_i hi
      simp only [Bool.or_eq_true, not_or, Bool.not_eq_true] at hi
      exact .inr ⟨by simpa using hh, hi.1, hi.2, by simpa using h.symm⟩

theorem busAllowed_next {a : Word} {s u t : State} (h : busAllowed a s u = .next t) :
    s.sharedAt a = true ∧ t = u := by
  unfold busAllowed at h
  split at h
  · rename_i hs; exact ⟨hs, by simpa using h.symm⟩
  · cases h

/-- What a debug write can do. -/
theorem writeDebug_next {a : BitVec 15} {r : DebugReg} {v : Word} {s t : State} (h : writeDebug a r v s = .next t) :
    (∃ u, (u = { s with sste := v.getLsbD 0 }) ∧ (haltRequest u = .next t ∨ t = u.resume)) ∨
    t = { s with ssth := v.getLsbD 0 } ∨ t = { s with dbgIe := v &&& dbgIeMask } ∨ t = s ∨
    (∃ g, t = s.writeX g v) ∨ (v.getLsbD 0 = false ∧ t = { s with pc := evenTarget v }) ∨ (∃ c, t = s.writeCsr c v) := by
  unfold writeDebug at h
  split at h
  · refine .inl ⟨_, rfl, ?_⟩
    simp only at h
    split at h
    · exact .inl h
    · exact .inr (by simpa using h.symm)
  · exact .inr (.inl (by simpa using h.symm))
  · exact .inr (.inr (.inl (by simpa using h.symm)))
  · cases h
  · exact .inr (.inr (.inr (.inl (by simpa using h.symm))))
  · exact .inr (.inr (.inr (.inl (by simpa using h.symm))))
  · exact .inr (.inr (.inr (.inr (.inl ⟨_, by simpa using h.symm⟩))))
  · split at h
    · cases h
    · rename_i hv
      exact .inr (.inr (.inr (.inr (.inr (.inl ⟨by simpa using hv, by simpa using h.symm⟩)))))
  · cases h
  · split at h
    · cases h
    · split at h
      · cases h
      · exact .inr (.inr (.inr (.inr (.inr (.inr ⟨_, by simpa using h.symm⟩)))))

/-- What an action of the world can do, before it uses up its free value. -/
theorem environment_next {i : Input} {s t : State} (h : environment i s = .next t) :
    ∃ u, t = { u with draws := u.draws + 1 } ∧
      (u = s ∨ (∃ l, u = s.requestIrq l) ∨ (∃ a, u = { s with bootAddr := a }) ∨
       (∃ v, u = { s with dbgRdata := v }) ∨ (∃ a r v, writeDebug a r v s = .next u) ∨ haltRequest s = .next u ∨
       u = s.resume ∨ (∃ p a b, s.sharedAt a = true ∧ u = s.busStore p a b) ∨
       (∃ a b, s.sharedAt a = true ∧ u = { s with between := s.between ++ [(a, b)] })) := by
  obtain ⟨u, h1, h2⟩ := mapNext_next h
  refine ⟨u, h2, ?_⟩
  cases i with
  | tick => exact .inl (by simpa using h1.symm)
  | irq l => exact .inr (.inl ⟨l, by simpa using h1.symm⟩)
  | bootAddr a => exact .inr (.inr (.inl ⟨a, by simpa using h1.symm⟩))
  | debugRead a =>
    simp only at h1
    split at h1
    · cases h1
    · split at h1
      · cases h1
      · exact .inr (.inr (.inr (.inl ⟨_, by simpa using h1.symm⟩)))
  | debugWrite a v =>
    simp only at h1
    split at h1
    · cases h1
    · exact .inr (.inr (.inr (.inr (.inl ⟨_, _, _, h1⟩))))
  | haltPulse => exact .inr (.inr (.inr (.inr (.inr (.inl h1)))))
  | resumePulse => exact .inr (.inr (.inr (.inr (.inr (.inr (.inl (by simpa using h1.symm)))))))
  | busWrite p a b =>
    obtain ⟨h3, h4⟩ := busAllowed_next h1
    exact .inr (.inr (.inr (.inr (.inr (.inr (.inr (.inl ⟨p, a, b, h3, h4⟩)))))))
  | busWriteBetween a b =>
    obtain ⟨h3, h4⟩ := busAllowed_next h1
    exact .inr (.inr (.inr (.inr (.inr (.inr (.inr (.inr ⟨a, b, h3, h4⟩)))))))

/-! ### The machine -/

/-- A step is a step of the hart, or an action of the world. -/
theorem step_next {s t : State} (h : step s = .next t) :
    (s.inputs = [] ∧ hartStep s = .next t) ∨
    (∃ rest, s.inputs = .tick :: rest ∧ hartStep { s with inputs := rest } = .next t) ∨
    (∃ i rest, s.inputs = i :: rest ∧ environment i { s with inputs := rest } = .next t) := by
  unfold step at h
  split at h
  · rename_i hi; exact .inl ⟨hi, h⟩
  · rename_i rest hi; exact .inr (.inl ⟨rest, hi, h⟩)
  · rename_i i rest _ hi; exact .inr (.inr ⟨i, rest, hi, h⟩)

end Sys2Proof.Machine
end

