-- ==== Sys2Proof/Laws/PerInstr.lean ====
section
/-! SUPPORT. Families of statements made per instruction. -/

namespace Sys2Proof.Laws.EncodedLength

/-- The first parcel of the instruction's encoding tells its length: two parcels exactly when its low bits are 11
(30_encoding.md R141). -/
def Statement (i : Instr) : Prop :=
  match encode i with
  | .half w => isLong w = false
  | .word w => isLong (w.extractLsb' 0 16) = true

theorem of_word {i : Instr} {f7 : BitVec 7} {rs2 rs1 : BitVec 5} {f3 : BitVec 3} {rd : BitVec 5} {op : BitVec 7}
    (h : encode i = .word (encR f7 rs2 rs1 f3 rd op)) (ho : op.extractLsb' 0 2 = 3#2) : Statement i := by
  unfold Statement
  rw [h]
  exact isLong_encR f7 rs2 rs1 f3 rd op ho

theorem of_half {i : Instr} {f3 : BitVec 3} {b : BitVec 1} {hi lo : BitVec 5} {op : BitVec 2}
    (h : encode i = .half (encC f3 b hi lo op)) (ho : op ≠ 3#2) : Statement i := by
  unfold Statement
  rw [h]
  exact isLong_encC f3 b hi lo op ho

theorem lui (rd imm) : Statement (.lui rd imm) := of_word rfl rfl
theorem auipc (rd imm) : Statement (.auipc rd imm) := of_word rfl rfl
theorem jal (rd off) : Statement (.jal rd off) := of_word rfl rfl
theorem jalr (rd rs1 imm) : Statement (.jalr rd rs1 imm) := of_word rfl rfl
theorem beq (rs1 rs2 off) : Statement (.beq rs1 rs2 off) := of_word rfl rfl
theorem bne (rs1 rs2 off) : Statement (.bne rs1 rs2 off) := of_word rfl rfl
theorem blt (rs1 rs2 off) : Statement (.blt rs1 rs2 off) := of_word rfl rfl
theorem bge (rs1 rs2 off) : Statement (.bge rs1 rs2 off) := of_word rfl rfl
theorem bltu (rs1 rs2 off) : Statement (.bltu rs1 rs2 off) := of_word rfl rfl
theorem bgeu (rs1 rs2 off) : Statement (.bgeu rs1 rs2 off) := of_word rfl rfl
theorem lb (rd rs1 imm) : Statement (.lb rd rs1 imm) := of_word rfl rfl
theorem lh (rd rs1 imm) : Statement (.lh rd rs1 imm) := of_word rfl rfl
theorem lw (rd rs1 imm) : Statement (.lw rd rs1 imm) := of_word rfl rfl
theorem lbu (rd rs1 imm) : Statement (.lbu rd rs1 imm) := of_word rfl rfl
theorem lhu (rd rs1 imm) : Statement (.lhu rd rs1 imm) := of_word rfl rfl
theorem sb (rs2 rs1 imm) : Statement (.sb rs2 rs1 imm) := of_word rfl rfl
theorem sh (rs2 rs1 imm) : Statement (.sh rs2 rs1 imm) := of_word rfl rfl
theorem sw (rs2 rs1 imm) : Statement (.sw rs2 rs1 imm) := of_word rfl rfl
theorem addi (rd rs1 imm) : Statement (.addi rd rs1 imm) := of_word rfl rfl
theorem slti (rd rs1 imm) : Statement (.slti rd rs1 imm) := of_word rfl rfl
theorem sltiu (rd rs1 imm) : Statement (.sltiu rd rs1 imm) := of_word rfl rfl
theorem xori (rd rs1 imm) : Statement (.xori rd rs1 imm) := of_word rfl rfl
theorem ori (rd rs1 imm) : Statement (.ori rd rs1 imm) := of_word rfl rfl
theorem andi (rd rs1 imm) : Statement (.andi rd rs1 imm) := of_word rfl rfl
theorem slli (rd rs1 shamt) : Statement (.slli rd rs1 shamt) := of_word rfl rfl
theorem srli (rd rs1 shamt) : Statement (.srli rd rs1 shamt) := of_word rfl rfl
theorem srai (rd rs1 shamt) : Statement (.srai rd rs1 shamt) := of_word rfl rfl
theorem add (rd rs1 rs2) : Statement (.add rd rs1 rs2) := of_word rfl rfl
theorem sub (rd rs1 rs2) : Statement (.sub rd rs1 rs2) := of_word rfl rfl
theorem sll (rd rs1 rs2) : Statement (.sll rd rs1 rs2) := of_word rfl rfl
theorem slt (rd rs1 rs2) : Statement (.slt rd rs1 rs2) := of_word rfl rfl
theorem sltu (rd rs1 rs2) : Statement (.sltu rd rs1 rs2) := of_word rfl rfl
theorem xor (rd rs1 rs2) : Statement (.xor rd rs1 rs2) := of_word rfl rfl
theorem srl (rd rs1 rs2) : Statement (.srl rd rs1 rs2) := of_word rfl rfl
theorem sra (rd rs1 rs2) : Statement (.sra rd rs1 rs2) := of_word rfl rfl
theorem or (rd rs1 rs2) : Statement (.or rd rs1 rs2) := of_word rfl rfl
theorem and (rd rs1 rs2) : Statement (.and rd rs1 rs2) := of_word rfl rfl
theorem fence (pred succ) : Statement (.fence pred succ) := of_word rfl rfl
theorem fenceI : Statement .fenceI := of_word rfl rfl
theorem ecall : Statement .ecall := of_word rfl rfl
theorem ebreak : Statement .ebreak := of_word rfl rfl
theorem mret : Statement .mret := of_word rfl rfl
theorem wfi : Statement .wfi := of_word rfl rfl
theorem csrrw (rd rs1 csr) : Statement (.csrrw rd rs1 csr) := of_word rfl rfl
theorem csrrs (rd rs1 csr) : Statement (.csrrs rd rs1 csr) := of_word rfl rfl
theorem csrrc (rd rs1 csr) : Statement (.csrrc rd rs1 csr) := of_word rfl rfl
theorem csrrwi (rd uimm csr) : Statement (.csrrwi rd uimm csr) := of_word rfl rfl
theorem csrrsi (rd uimm csr) : Statement (.csrrsi rd uimm csr) := of_word rfl rfl
theorem csrrci (rd uimm csr) : Statement (.csrrci rd uimm csr) := of_word rfl rfl
theorem mul (rd rs1 rs2) : Statement (.mul rd rs1 rs2) := of_word rfl rfl
theorem mulh (rd rs1 rs2) : Statement (.mulh rd rs1 rs2) := of_word rfl rfl
theorem mulhsu (rd rs1 rs2) : Statement (.mulhsu rd rs1 rs2) := of_word rfl rfl
theorem mulhu (rd rs1 rs2) : Statement (.mulhu rd rs1 rs2) := of_word rfl rfl
theorem div (rd rs1 rs2) : Statement (.div rd rs1 rs2) := of_word rfl rfl
theorem divu (rd rs1 rs2) : Statement (.divu rd rs1 rs2) := of_word rfl rfl
theorem rem (rd rs1 rs2) : Statement (.rem rd rs1 rs2) := of_word rfl rfl
theorem remu (rd rs1 rs2) : Statement (.remu rd rs1 rs2) := of_word rfl rfl
theorem flw (rd rs1 imm) : Statement (.flw rd rs1 imm) := of_word rfl rfl
theorem fsw (rs2 rs1 imm) : Statement (.fsw rs2 rs1 imm) := of_word rfl rfl
theorem fmaddS (rd rs1 rs2 rs3 rm) : Statement (.fmaddS rd rs1 rs2 rs3 rm) := of_word rfl rfl
theorem fmsubS (rd rs1 rs2 rs3 rm) : Statement (.fmsubS rd rs1 rs2 rs3 rm) := of_word rfl rfl
theorem fnmsubS (rd rs1 rs2 rs3 rm) : Statement (.fnmsubS rd rs1 rs2 rs3 rm) := of_word rfl rfl
theorem fnmaddS (rd rs1 rs2 rs3 rm) : Statement (.fnmaddS rd rs1 rs2 rs3 rm) := of_word rfl rfl
theorem faddS (rd rs1 rs2 rm) : Statement (.faddS rd rs1 rs2 rm) := of_word rfl rfl
theorem fsubS (rd rs1 rs2 rm) : Statement (.fsubS rd rs1 rs2 rm) := of_word rfl rfl
theorem fmulS (rd rs1 rs2 rm) : Statement (.fmulS rd rs1 rs2 rm) := of_word rfl rfl
theorem fdivS (rd rs1 rs2 rm) : Statement (.fdivS rd rs1 rs2 rm) := of_word rfl rfl
theorem fsqrtS (rd rs1 rm) : Statement (.fsqrtS rd rs1 rm) := of_word rfl rfl
theorem fsgnjS (rd rs1 rs2) : Statement (.fsgnjS rd rs1 rs2) := of_word rfl rfl
theorem fsgnjnS (rd rs1 rs2) : Statement (.fsgnjnS rd rs1 rs2) := of_word rfl rfl
theorem fsgnjxS (rd rs1 rs2) : Statement (.fsgnjxS rd rs1 rs2) := of_word rfl rfl
theorem fminS (rd rs1 rs2) : Statement (.fminS rd rs1 rs2) := of_word rfl rfl
theorem fmaxS (rd rs1 rs2) : Statement (.fmaxS rd rs1 rs2) := of_word rfl rfl
theorem fcvtWS (rd rs1 rm) : Statement (.fcvtWS rd rs1 rm) := of_word rfl rfl
theorem fcvtWuS (rd rs1 rm) : Statement (.fcvtWuS rd rs1 rm) := of_word rfl rfl
theorem fmvXW (rd rs1) : Statement (.fmvXW rd rs1) := of_word rfl rfl
theorem feqS (rd rs1 rs2) : Statement (.feqS rd rs1 rs2) := of_word rfl rfl
theorem fltS (rd rs1 rs2) : Statement (.fltS rd rs1 rs2) := of_word rfl rfl
theorem fleS (rd rs1 rs2) : Statement (.fleS rd rs1 rs2) := of_word rfl rfl
theorem fclassS (rd rs1) : Statement (.fclassS rd rs1) := of_word rfl rfl
theorem fcvtSW (rd rs1 rm) : Statement (.fcvtSW rd rs1 rm) := of_word rfl rfl
theorem fcvtSWu (rd rs1 rm) : Statement (.fcvtSWu rd rs1 rm) := of_word rfl rfl
theorem fmvWX (rd rs1) : Statement (.fmvWX rd rs1) := of_word rfl rfl
theorem cAddi4spn (rd nzuimm) : Statement (.cAddi4spn rd nzuimm) := of_half rfl (by decide)
theorem cLw (rd rs1 uimm) : Statement (.cLw rd rs1 uimm) := of_half rfl (by decide)
theorem cSw (rs2 rs1 uimm) : Statement (.cSw rs2 rs1 uimm) := of_half rfl (by decide)
theorem cFlw (rd rs1 uimm) : Statement (.cFlw rd rs1 uimm) := of_half rfl (by decide)
theorem cFsw (rs2 rs1 uimm) : Statement (.cFsw rs2 rs1 uimm) := of_half rfl (by decide)
theorem cNop (imm) : Statement (.cNop imm) := of_half rfl (by decide)
theorem cAddi (rd imm) : Statement (.cAddi rd imm) := of_half rfl (by decide)
theorem cJal (off) : Statement (.cJal off) := of_half rfl (by decide)
theorem cLi (rd imm) : Statement (.cLi rd imm) := of_half rfl (by decide)
theorem cAddi16sp (nzimm) : Statement (.cAddi16sp nzimm) := of_half rfl (by decide)
theorem cLui (rd nzimm) : Statement (.cLui rd nzimm) := of_half rfl (by decide)
theorem cSrli (rd shamt) : Statement (.cSrli rd shamt) := of_half rfl (by decide)
theorem cSrai (rd shamt) : Statement (.cSrai rd shamt) := of_half rfl (by decide)
theorem cAndi (rd imm) : Statement (.cAndi rd imm) := of_half rfl (by decide)
theorem cSub (rd rs2) : Statement (.cSub rd rs2) := of_half rfl (by decide)
theorem cXor (rd rs2) : Statement (.cXor rd rs2) := of_half rfl (by decide)
theorem cOr (rd rs2) : Statement (.cOr rd rs2) := of_half rfl (by decide)
theorem cAnd (rd rs2) : Statement (.cAnd rd rs2) := of_half rfl (by decide)
theorem cJ (off) : Statement (.cJ off) := of_half rfl (by decide)
theorem cBeqz (rs1 off) : Statement (.cBeqz rs1 off) := of_half rfl (by decide)
theorem cBnez (rs1 off) : Statement (.cBnez rs1 off) := of_half rfl (by decide)
theorem cSlli (rd shamt) : Statement (.cSlli rd shamt) := of_half rfl (by decide)
theorem cLwsp (rd uimm) : Statement (.cLwsp rd uimm) := of_half rfl (by decide)
theorem cFlwsp (rd uimm) : Statement (.cFlwsp rd uimm) := of_half rfl (by decide)
theorem cJr (rs1) : Statement (.cJr rs1) := of_half rfl (by decide)
theorem cMv (rd rs2) : Statement (.cMv rd rs2) := of_half rfl (by decide)
theorem cEbreak : Statement .cEbreak := of_half rfl (by decide)
theorem cJalr (rs1) : Statement (.cJalr rs1) := of_half rfl (by decide)
theorem cAdd (rd rs2) : Statement (.cAdd rd rs2) := of_half rfl (by decide)
theorem cSwsp (rs2 uimm) : Statement (.cSwsp rs2 uimm) := of_half rfl (by decide)
theorem cFswsp (rs2 uimm) : Statement (.cFswsp rs2 uimm) := of_half rfl (by decide)
theorem pLbPostImm (rd rs1 imm) : Statement (.pLbPostImm rd rs1 imm) := of_word rfl rfl
theorem pLbuPostImm (rd rs1 imm) : Statement (.pLbuPostImm rd rs1 imm) := of_word rfl rfl
theorem pLhPostImm (rd rs1 imm) : Statement (.pLhPostImm rd rs1 imm) := of_word rfl rfl
theorem pLhuPostImm (rd rs1 imm) : Statement (.pLhuPostImm rd rs1 imm) := of_word rfl rfl
theorem pLwPostImm (rd rs1 imm) : Statement (.pLwPostImm rd rs1 imm) := of_word rfl rfl
theorem pLbPostReg (rd rs1 rs2) : Statement (.pLbPostReg rd rs1 rs2) := of_word rfl rfl
theorem pLbuPostReg (rd rs1 rs2) : Statement (.pLbuPostReg rd rs1 rs2) := of_word rfl rfl
theorem pLhPostReg (rd rs1 rs2) : Statement (.pLhPostReg rd rs1 rs2) := of_word rfl rfl
theorem pLhuPostReg (rd rs1 rs2) : Statement (.pLhuPostReg rd rs1 rs2) := of_word rfl rfl
theorem pLwPostReg (rd rs1 rs2) : Statement (.pLwPostReg rd rs1 rs2) := of_word rfl rfl
theorem pLbOff (rd rs1 rs2) : Statement (.pLbOff rd rs1 rs2) := of_word rfl rfl
theorem pLbuOff (rd rs1 rs2) : Statement (.pLbuOff rd rs1 rs2) := of_word rfl rfl
theorem pLhOff (rd rs1 rs2) : Statement (.pLhOff rd rs1 rs2) := of_word rfl rfl
theorem pLhuOff (rd rs1 rs2) : Statement (.pLhuOff rd rs1 rs2) := of_word rfl rfl
theorem pLwOff (rd rs1 rs2) : Statement (.pLwOff rd rs1 rs2) := of_word rfl rfl
theorem pSbPostImm (rs2 rs1 imm) : Statement (.pSbPostImm rs2 rs1 imm) := of_word rfl rfl
theorem pShPostImm (rs2 rs1 imm) : Statement (.pShPostImm rs2 rs1 imm) := of_word rfl rfl
theorem pSwPostImm (rs2 rs1 imm) : Statement (.pSwPostImm rs2 rs1 imm) := of_word rfl rfl
theorem pSbPostReg (rs2 rs3 rs1) : Statement (.pSbPostReg rs2 rs3 rs1) := of_word rfl rfl
theorem pShPostReg (rs2 rs3 rs1) : Statement (.pShPostReg rs2 rs3 rs1) := of_word rfl rfl
theorem pSwPostReg (rs2 rs3 rs1) : Statement (.pSwPostReg rs2 rs3 rs1) := of_word rfl rfl
theorem pSbOff (rs2 rs3 rs1) : Statement (.pSbOff rs2 rs3 rs1) := of_word rfl rfl
theorem pShOff (rs2 rs3 rs1) : Statement (.pShOff rs2 rs3 rs1) := of_word rfl rfl
theorem pSwOff (rs2 rs3 rs1) : Statement (.pSwOff rs2 rs3 rs1) := of_word rfl rfl
theorem lpStarti (l uimmL) : Statement (.lpStarti l uimmL) := of_word rfl rfl
theorem lpEndi (l uimmL) : Statement (.lpEndi l uimmL) := of_word rfl rfl
theorem lpCount (l rs1) : Statement (.lpCount l rs1) := of_word rfl rfl
theorem lpCounti (l uimmL) : Statement (.lpCounti l uimmL) := of_word rfl rfl
theorem lpSetup (l rs1 uimmL) : Statement (.lpSetup l rs1 uimmL) := of_word rfl rfl
theorem lpSetupi (l uimmL uimmS) : Statement (.lpSetupi l uimmL uimmS) := of_word rfl rfl
theorem pExtract (rd rs1 ls3 ls2) : Statement (.pExtract rd rs1 ls3 ls2) := of_word rfl rfl
theorem pExtractu (rd rs1 ls3 ls2) : Statement (.pExtractu rd rs1 ls3 ls2) := of_word rfl rfl
theorem pInsert (rd rs1 ls3 ls2) : Statement (.pInsert rd rs1 ls3 ls2) := of_word rfl rfl
theorem pBclr (rd rs1 ls3 ls2) : Statement (.pBclr rd rs1 ls3 ls2) := of_word rfl rfl
theorem pBset (rd rs1 ls3 ls2) : Statement (.pBset rd rs1 ls3 ls2) := of_word rfl rfl
theorem pExtractr (rd rs1 rs2) : Statement (.pExtractr rd rs1 rs2) := of_word rfl rfl
theorem pExtractur (rd rs1 rs2) : Statement (.pExtractur rd rs1 rs2) := of_word rfl rfl
theorem pInsertr (rd rs1 rs2) : Statement (.pInsertr rd rs1 rs2) := of_word rfl rfl
theorem pBclrr (rd rs1 rs2) : Statement (.pBclrr rd rs1 rs2) := of_word rfl rfl
theorem pBsetr (rd rs1 rs2) : Statement (.pBsetr rd rs1 rs2) := of_word rfl rfl
theorem pRor (rd rs1 rs2) : Statement (.pRor rd rs1 rs2) := of_word rfl rfl
theorem pFf1 (rd rs1) : Statement (.pFf1 rd rs1) := of_word rfl rfl
theorem pFl1 (rd rs1) : Statement (.pFl1 rd rs1) := of_word rfl rfl
theorem pClb (rd rs1) : Statement (.pClb rd rs1) := of_word rfl rfl
theorem pCnt (rd rs1) : Statement (.pCnt rd rs1) := of_word rfl rfl
theorem pAbs (rd rs1) : Statement (.pAbs rd rs1) := of_word rfl rfl
theorem pSlet (rd rs1 rs2) : Statement (.pSlet rd rs1 rs2) := of_word rfl rfl
theorem pSletu (rd rs1 rs2) : Statement (.pSletu rd rs1 rs2) := of_word rfl rfl
theorem pMin (rd rs1 rs2) : Statement (.pMin rd rs1 rs2) := of_word rfl rfl
theorem pMinu (rd rs1 rs2) : Statement (.pMinu rd rs1 rs2) := of_word rfl rfl
theorem pMax (rd rs1 rs2) : Statement (.pMax rd rs1 rs2) := of_word rfl rfl
theorem pMaxu (rd rs1 rs2) : Statement (.pMaxu rd rs1 rs2) := of_word rfl rfl
theorem pExths (rd rs1) : Statement (.pExths rd rs1) := of_word rfl rfl
theorem pExthz (rd rs1) : Statement (.pExthz rd rs1) := of_word rfl rfl
theorem pExtbs (rd rs1) : Statement (.pExtbs rd rs1) := of_word rfl rfl
theorem pExtbz (rd rs1) : Statement (.pExtbz rd rs1) := of_word rfl rfl
theorem pClip (rd rs1 ls2) : Statement (.pClip rd rs1 ls2) := of_word rfl rfl
theorem pClipu (rd rs1 ls2) : Statement (.pClipu rd rs1 ls2) := of_word rfl rfl
theorem pClipr (rd rs1 rs2) : Statement (.pClipr rd rs1 rs2) := of_word rfl rfl
theorem pClipur (rd rs1 rs2) : Statement (.pClipur rd rs1 rs2) := of_word rfl rfl
theorem pAddN (rd rs1 rs2 ls3) : Statement (.pAddN rd rs1 rs2 ls3) := of_word rfl rfl
theorem pAdduN (rd rs1 rs2 ls3) : Statement (.pAdduN rd rs1 rs2 ls3) := of_word rfl rfl
theorem pAddRN (rd rs1 rs2 ls3) : Statement (.pAddRN rd rs1 rs2 ls3) := of_word rfl rfl
theorem pAdduRN (rd rs1 rs2 ls3) : Statement (.pAdduRN rd rs1 rs2 ls3) := of_word rfl rfl
theorem pAddNr (rd rs1 rs2) : Statement (.pAddNr rd rs1 rs2) := of_word rfl rfl
theorem pAdduNr (rd rs1 rs2) : Statement (.pAdduNr rd rs1 rs2) := of_word rfl rfl
theorem pAddRNr (rd rs1 rs2) : Statement (.pAddRNr rd rs1 rs2) := of_word rfl rfl
theorem pAdduRNr (rd rs1 rs2) : Statement (.pAdduRNr rd rs1 rs2) := of_word rfl rfl
theorem pSubN (rd rs1 rs2 ls3) : Statement (.pSubN rd rs1 rs2 ls3) := of_word rfl rfl
theorem pSubuN (rd rs1 rs2 ls3) : Statement (.pSubuN rd rs1 rs2 ls3) := of_word rfl rfl
theorem pSubRN (rd rs1 rs2 ls3) : Statement (.pSubRN rd rs1 rs2 ls3) := of_word rfl rfl
theorem pSubuRN (rd rs1 rs2 ls3) : Statement (.pSubuRN rd rs1 rs2 ls3) := of_word rfl rfl
theorem pSubNr (rd rs1 rs2) : Statement (.pSubNr rd rs1 rs2) := of_word rfl rfl
theorem pSubuNr (rd rs1 rs2) : Statement (.pSubuNr rd rs1 rs2) := of_word rfl rfl
theorem pSubRNr (rd rs1 rs2) : Statement (.pSubRNr rd rs1 rs2) := of_word rfl rfl
theorem pSubuRNr (rd rs1 rs2) : Statement (.pSubuRNr rd rs1 rs2) := of_word rfl rfl
theorem pBeqimm (rs1 imm5 off) : Statement (.pBeqimm rs1 imm5 off) := of_word rfl rfl
theorem pBneimm (rs1 imm5 off) : Statement (.pBneimm rs1 imm5 off) := of_word rfl rfl
theorem pMac (rd rs1 rs2) : Statement (.pMac rd rs1 rs2) := of_word rfl rfl
theorem pMsu (rd rs1 rs2) : Statement (.pMsu rd rs1 rs2) := of_word rfl rfl
theorem pMuls (rd rs1 rs2) : Statement (.pMuls rd rs1 rs2) := of_word rfl rfl
theorem pMulhhs (rd rs1 rs2) : Statement (.pMulhhs rd rs1 rs2) := of_word rfl rfl
theorem pMulsN (rd rs1 rs2 ls3) : Statement (.pMulsN rd rs1 rs2 ls3) := of_word rfl rfl
theorem pMulhhsN (rd rs1 rs2 ls3) : Statement (.pMulhhsN rd rs1 rs2 ls3) := of_word rfl rfl
theorem pMulsRN (rd rs1 rs2 ls3) : Statement (.pMulsRN rd rs1 rs2 ls3) := of_word rfl rfl
theorem pMulhhsRN (rd rs1 rs2 ls3) : Statement (.pMulhhsRN rd rs1 rs2 ls3) := of_word rfl rfl
theorem pMulu (rd rs1 rs2) : Statement (.pMulu rd rs1 rs2) := of_word rfl rfl
theorem pMulhhu (rd rs1 rs2) : Statement (.pMulhhu rd rs1 rs2) := of_word rfl rfl
theorem pMuluN (rd rs1 rs2 ls3) : Statement (.pMuluN rd rs1 rs2 ls3) := of_word rfl rfl
theorem pMulhhuN (rd rs1 rs2 ls3) : Statement (.pMulhhuN rd rs1 rs2 ls3) := of_word rfl rfl
theorem pMuluRN (rd rs1 rs2 ls3) : Statement (.pMuluRN rd rs1 rs2 ls3) := of_word rfl rfl
theorem pMulhhuRN (rd rs1 rs2 ls3) : Statement (.pMulhhuRN rd rs1 rs2 ls3) := of_word rfl rfl
theorem pMacsN (rd rs1 rs2 ls3) : Statement (.pMacsN rd rs1 rs2 ls3) := of_word rfl rfl
theorem pMachhsN (rd rs1 rs2 ls3) : Statement (.pMachhsN rd rs1 rs2 ls3) := of_word rfl rfl
theorem pMacsRN (rd rs1 rs2 ls3) : Statement (.pMacsRN rd rs1 rs2 ls3) := of_word rfl rfl
theorem pMachhsRN (rd rs1 rs2 ls3) : Statement (.pMachhsRN rd rs1 rs2 ls3) := of_word rfl rfl
theorem pMacuN (rd rs1 rs2 ls3) : Statement (.pMacuN rd rs1 rs2 ls3) := of_word rfl rfl
theorem pMachhuN (rd rs1 rs2 ls3) : Statement (.pMachhuN rd rs1 rs2 ls3) := of_word rfl rfl
theorem pMacuRN (rd rs1 rs2 ls3) : Statement (.pMacuRN rd rs1 rs2 ls3) := of_word rfl rfl
theorem pMachhuRN (rd rs1 rs2 ls3) : Statement (.pMachhuRN rd rs1 rs2 ls3) := of_word rfl rfl
theorem pvAddH (rd rs1 rs2) : Statement (.pvAddH rd rs1 rs2) := of_word rfl rfl
theorem pvAddScH (rd rs1 rs2) : Statement (.pvAddScH rd rs1 rs2) := of_word rfl rfl
theorem pvAddSciH (rd rs1 imm6) : Statement (.pvAddSciH rd rs1 imm6) := of_word rfl rfl
theorem pvAddB (rd rs1 rs2) : Statement (.pvAddB rd rs1 rs2) := of_word rfl rfl
theorem pvAddScB (rd rs1 rs2) : Statement (.pvAddScB rd rs1 rs2) := of_word rfl rfl
theorem pvAddSciB (rd rs1 imm6) : Statement (.pvAddSciB rd rs1 imm6) := of_word rfl rfl
theorem pvSubH (rd rs1 rs2) : Statement (.pvSubH rd rs1 rs2) := of_word rfl rfl
theorem pvSubScH (rd rs1 rs2) : Statement (.pvSubScH rd rs1 rs2) := of_word rfl rfl
theorem pvSubSciH (rd rs1 imm6) : Statement (.pvSubSciH rd rs1 imm6) := of_word rfl rfl
theorem pvSubB (rd rs1 rs2) : Statement (.pvSubB rd rs1 rs2) := of_word rfl rfl
theorem pvSubScB (rd rs1 rs2) : Statement (.pvSubScB rd rs1 rs2) := of_word rfl rfl
theorem pvSubSciB (rd rs1 imm6) : Statement (.pvSubSciB rd rs1 imm6) := of_word rfl rfl
theorem pvAvgH (rd rs1 rs2) : Statement (.pvAvgH rd rs1 rs2) := of_word rfl rfl
theorem pvAvgScH (rd rs1 rs2) : Statement (.pvAvgScH rd rs1 rs2) := of_word rfl rfl
theorem pvAvgSciH (rd rs1 imm6) : Statement (.pvAvgSciH rd rs1 imm6) := of_word rfl rfl
theorem pvAvgB (rd rs1 rs2) : Statement (.pvAvgB rd rs1 rs2) := of_word rfl rfl
theorem pvAvgScB (rd rs1 rs2) : Statement (.pvAvgScB rd rs1 rs2) := of_word rfl rfl
theorem pvAvgSciB (rd rs1 imm6) : Statement (.pvAvgSciB rd rs1 imm6) := of_word rfl rfl
theorem pvAvguH (rd rs1 rs2) : Statement (.pvAvguH rd rs1 rs2) := of_word rfl rfl
theorem pvAvguScH (rd rs1 rs2) : Statement (.pvAvguScH rd rs1 rs2) := of_word rfl rfl
theorem pvAvguSciH (rd rs1 imm6) : Statement (.pvAvguSciH rd rs1 imm6) := of_word rfl rfl
theorem pvAvguB (rd rs1 rs2) : Statement (.pvAvguB rd rs1 rs2) := of_word rfl rfl
theorem pvAvguScB (rd rs1 rs2) : Statement (.pvAvguScB rd rs1 rs2) := of_word rfl rfl
theorem pvAvguSciB (rd rs1 imm6) : Statement (.pvAvguSciB rd rs1 imm6) := of_word rfl rfl
theorem pvMinH (rd rs1 rs2) : Statement (.pvMinH rd rs1 rs2) := of_word rfl rfl
theorem pvMinScH (rd rs1 rs2) : Statement (.pvMinScH rd rs1 rs2) := of_word rfl rfl
theorem pvMinSciH (rd rs1 imm6) : Statement (.pvMinSciH rd rs1 imm6) := of_word rfl rfl
theorem pvMinB (rd rs1 rs2) : Statement (.pvMinB rd rs1 rs2) := of_word rfl rfl
theorem pvMinScB (rd rs1 rs2) : Statement (.pvMinScB rd rs1 rs2) := of_word rfl rfl
theorem pvMinSciB (rd rs1 imm6) : Statement (.pvMinSciB rd rs1 imm6) := of_word rfl rfl
theorem pvMinuH (rd rs1 rs2) : Statement (.pvMinuH rd rs1 rs2) := of_word rfl rfl
theorem pvMinuScH (rd rs1 rs2) : Statement (.pvMinuScH rd rs1 rs2) := of_word rfl rfl
theorem pvMinuSciH (rd rs1 imm6) : Statement (.pvMinuSciH rd rs1 imm6) := of_word rfl rfl
theorem pvMinuB (rd rs1 rs2) : Statement (.pvMinuB rd rs1 rs2) := of_word rfl rfl
theorem pvMinuScB (rd rs1 rs2) : Statement (.pvMinuScB rd rs1 rs2) := of_word rfl rfl
theorem pvMinuSciB (rd rs1 imm6) : Statement (.pvMinuSciB rd rs1 imm6) := of_word rfl rfl
theorem pvMaxH (rd rs1 rs2) : Statement (.pvMaxH rd rs1 rs2) := of_word rfl rfl
theorem pvMaxScH (rd rs1 rs2) : Statement (.pvMaxScH rd rs1 rs2) := of_word rfl rfl
theorem pvMaxSciH (rd rs1 imm6) : Statement (.pvMaxSciH rd rs1 imm6) := of_word rfl rfl
theorem pvMaxB (rd rs1 rs2) : Statement (.pvMaxB rd rs1 rs2) := of_word rfl rfl
theorem pvMaxScB (rd rs1 rs2) : Statement (.pvMaxScB rd rs1 rs2) := of_word rfl rfl
theorem pvMaxSciB (rd rs1 imm6) : Statement (.pvMaxSciB rd rs1 imm6) := of_word rfl rfl
theorem pvMaxuH (rd rs1 rs2) : Statement (.pvMaxuH rd rs1 rs2) := of_word rfl rfl
theorem pvMaxuScH (rd rs1 rs2) : Statement (.pvMaxuScH rd rs1 rs2) := of_word rfl rfl
theorem pvMaxuSciH (rd rs1 imm6) : Statement (.pvMaxuSciH rd rs1 imm6) := of_word rfl rfl
theorem pvMaxuB (rd rs1 rs2) : Statement (.pvMaxuB rd rs1 rs2) := of_word rfl rfl
theorem pvMaxuScB (rd rs1 rs2) : Statement (.pvMaxuScB rd rs1 rs2) := of_word rfl rfl
theorem pvMaxuSciB (rd rs1 imm6) : Statement (.pvMaxuSciB rd rs1 imm6) := of_word rfl rfl
theorem pvSrlH (rd rs1 rs2) : Statement (.pvSrlH rd rs1 rs2) := of_word rfl rfl
theorem pvSrlScH (rd rs1 rs2) : Statement (.pvSrlScH rd rs1 rs2) := of_word rfl rfl
theorem pvSrlSciH (rd rs1 imm6) : Statement (.pvSrlSciH rd rs1 imm6) := of_word rfl rfl
theorem pvSrlB (rd rs1 rs2) : Statement (.pvSrlB rd rs1 rs2) := of_word rfl rfl
theorem pvSrlScB (rd rs1 rs2) : Statement (.pvSrlScB rd rs1 rs2) := of_word rfl rfl
theorem pvSrlSciB (rd rs1 imm6) : Statement (.pvSrlSciB rd rs1 imm6) := of_word rfl rfl
theorem pvSraH (rd rs1 rs2) : Statement (.pvSraH rd rs1 rs2) := of_word rfl rfl
theorem pvSraScH (rd rs1 rs2) : Statement (.pvSraScH rd rs1 rs2) := of_word rfl rfl
theorem pvSraSciH (rd rs1 imm6) : Statement (.pvSraSciH rd rs1 imm6) := of_word rfl rfl
theorem pvSraB (rd rs1 rs2) : Statement (.pvSraB rd rs1 rs2) := of_word rfl rfl
theorem pvSraScB (rd rs1 rs2) : Statement (.pvSraScB rd rs1 rs2) := of_word rfl rfl
theorem pvSraSciB (rd rs1 imm6) : Statement (.pvSraSciB rd rs1 imm6) := of_word rfl rfl
theorem pvSllH (rd rs1 rs2) : Statement (.pvSllH rd rs1 rs2) := of_word rfl rfl
theorem pvSllScH (rd rs1 rs2) : Statement (.pvSllScH rd rs1 rs2) := of_word rfl rfl
theorem pvSllSciH (rd rs1 imm6) : Statement (.pvSllSciH rd rs1 imm6) := of_word rfl rfl
theorem pvSllB (rd rs1 rs2) : Statement (.pvSllB rd rs1 rs2) := of_word rfl rfl
theorem pvSllScB (rd rs1 rs2) : Statement (.pvSllScB rd rs1 rs2) := of_word rfl rfl
theorem pvSllSciB (rd rs1 imm6) : Statement (.pvSllSciB rd rs1 imm6) := of_word rfl rfl
theorem pvOrH (rd rs1 rs2) : Statement (.pvOrH rd rs1 rs2) := of_word rfl rfl
theorem pvOrScH (rd rs1 rs2) : Statement (.pvOrScH rd rs1 rs2) := of_word rfl rfl
theorem pvOrSciH (rd rs1 imm6) : Statement (.pvOrSciH rd rs1 imm6) := of_word rfl rfl
theorem pvOrB (rd rs1 rs2) : Statement (.pvOrB rd rs1 rs2) := of_word rfl rfl
theorem pvOrScB (rd rs1 rs2) : Statement (.pvOrScB rd rs1 rs2) := of_word rfl rfl
theorem pvOrSciB (rd rs1 imm6) : Statement (.pvOrSciB rd rs1 imm6) := of_word rfl rfl
theorem pvXorH (rd rs1 rs2) : Statement (.pvXorH rd rs1 rs2) := of_word rfl rfl
theorem pvXorScH (rd rs1 rs2) : Statement (.pvXorScH rd rs1 rs2) := of_word rfl rfl
theorem pvXorSciH (rd rs1 imm6) : Statement (.pvXorSciH rd rs1 imm6) := of_word rfl rfl
theorem pvXorB (rd rs1 rs2) : Statement (.pvXorB rd rs1 rs2) := of_word rfl rfl
theorem pvXorScB (rd rs1 rs2) : Statement (.pvXorScB rd rs1 rs2) := of_word rfl rfl
theorem pvXorSciB (rd rs1 imm6) : Statement (.pvXorSciB rd rs1 imm6) := of_word rfl rfl
theorem pvAndH (rd rs1 rs2) : Statement (.pvAndH rd rs1 rs2) := of_word rfl rfl
theorem pvAndScH (rd rs1 rs2) : Statement (.pvAndScH rd rs1 rs2) := of_word rfl rfl
theorem pvAndSciH (rd rs1 imm6) : Statement (.pvAndSciH rd rs1 imm6) := of_word rfl rfl
theorem pvAndB (rd rs1 rs2) : Statement (.pvAndB rd rs1 rs2) := of_word rfl rfl
theorem pvAndScB (rd rs1 rs2) : Statement (.pvAndScB rd rs1 rs2) := of_word rfl rfl
theorem pvAndSciB (rd rs1 imm6) : Statement (.pvAndSciB rd rs1 imm6) := of_word rfl rfl
theorem pvAbsH (rd rs1) : Statement (.pvAbsH rd rs1) := of_word rfl rfl
theorem pvAbsB (rd rs1) : Statement (.pvAbsB rd rs1) := of_word rfl rfl
theorem pvExtractH (rd rs1 imm6) : Statement (.pvExtractH rd rs1 imm6) := of_word rfl rfl
theorem pvExtractB (rd rs1 imm6) : Statement (.pvExtractB rd rs1 imm6) := of_word rfl rfl
theorem pvExtractuH (rd rs1 imm6) : Statement (.pvExtractuH rd rs1 imm6) := of_word rfl rfl
theorem pvExtractuB (rd rs1 imm6) : Statement (.pvExtractuB rd rs1 imm6) := of_word rfl rfl
theorem pvInsertH (rd rs1 imm6) : Statement (.pvInsertH rd rs1 imm6) := of_word rfl rfl
theorem pvInsertB (rd rs1 imm6) : Statement (.pvInsertB rd rs1 imm6) := of_word rfl rfl
theorem pvDotupH (rd rs1 rs2) : Statement (.pvDotupH rd rs1 rs2) := of_word rfl rfl
theorem pvDotupScH (rd rs1 rs2) : Statement (.pvDotupScH rd rs1 rs2) := of_word rfl rfl
theorem pvDotupSciH (rd rs1 imm6) : Statement (.pvDotupSciH rd rs1 imm6) := of_word rfl rfl
theorem pvDotupB (rd rs1 rs2) : Statement (.pvDotupB rd rs1 rs2) := of_word rfl rfl
theorem pvDotupScB (rd rs1 rs2) : Statement (.pvDotupScB rd rs1 rs2) := of_word rfl rfl
theorem pvDotupSciB (rd rs1 imm6) : Statement (.pvDotupSciB rd rs1 imm6) := of_word rfl rfl
theorem pvDotuspH (rd rs1 rs2) : Statement (.pvDotuspH rd rs1 rs2) := of_word rfl rfl
theorem pvDotuspScH (rd rs1 rs2) : Statement (.pvDotuspScH rd rs1 rs2) := of_word rfl rfl
theorem pvDotuspSciH (rd rs1 imm6) : Statement (.pvDotuspSciH rd rs1 imm6) := of_word rfl rfl
theorem pvDotuspB (rd rs1 rs2) : Statement (.pvDotuspB rd rs1 rs2) := of_word rfl rfl
theorem pvDotuspScB (rd rs1 rs2) : Statement (.pvDotuspScB rd rs1 rs2) := of_word rfl rfl
theorem pvDotuspSciB (rd rs1 imm6) : Statement (.pvDotuspSciB rd rs1 imm6) := of_word rfl rfl
theorem pvDotspH (rd rs1 rs2) : Statement (.pvDotspH rd rs1 rs2) := of_word rfl rfl
theorem pvDotspScH (rd rs1 rs2) : Statement (.pvDotspScH rd rs1 rs2) := of_word rfl rfl
theorem pvDotspSciH (rd rs1 imm6) : Statement (.pvDotspSciH rd rs1 imm6) := of_word rfl rfl
theorem pvDotspB (rd rs1 rs2) : Statement (.pvDotspB rd rs1 rs2) := of_word rfl rfl
theorem pvDotspScB (rd rs1 rs2) : Statement (.pvDotspScB rd rs1 rs2) := of_word rfl rfl
theorem pvDotspSciB (rd rs1 imm6) : Statement (.pvDotspSciB rd rs1 imm6) := of_word rfl rfl
theorem pvSdotupH (rd rs1 rs2) : Statement (.pvSdotupH rd rs1 rs2) := of_word rfl rfl
theorem pvSdotupScH (rd rs1 rs2) : Statement (.pvSdotupScH rd rs1 rs2) := of_word rfl rfl
theorem pvSdotupSciH (rd rs1 imm6) : Statement (.pvSdotupSciH rd rs1 imm6) := of_word rfl rfl
theorem pvSdotupB (rd rs1 rs2) : Statement (.pvSdotupB rd rs1 rs2) := of_word rfl rfl
theorem pvSdotupScB (rd rs1 rs2) : Statement (.pvSdotupScB rd rs1 rs2) := of_word rfl rfl
theorem pvSdotupSciB (rd rs1 imm6) : Statement (.pvSdotupSciB rd rs1 imm6) := of_word rfl rfl
theorem pvSdotuspH (rd rs1 rs2) : Statement (.pvSdotuspH rd rs1 rs2) := of_word rfl rfl
theorem pvSdotuspScH (rd rs1 rs2) : Statement (.pvSdotuspScH rd rs1 rs2) := of_word rfl rfl
theorem pvSdotuspSciH (rd rs1 imm6) : Statement (.pvSdotuspSciH rd rs1 imm6) := of_word rfl rfl
theorem pvSdotuspB (rd rs1 rs2) : Statement (.pvSdotuspB rd rs1 rs2) := of_word rfl rfl
theorem pvSdotuspScB (rd rs1 rs2) : Statement (.pvSdotuspScB rd rs1 rs2) := of_word rfl rfl
theorem pvSdotuspSciB (rd rs1 imm6) : Statement (.pvSdotuspSciB rd rs1 imm6) := of_word rfl rfl
theorem pvSdotspH (rd rs1 rs2) : Statement (.pvSdotspH rd rs1 rs2) := of_word rfl rfl
theorem pvSdotspScH (rd rs1 rs2) : Statement (.pvSdotspScH rd rs1 rs2) := of_word rfl rfl
theorem pvSdotspSciH (rd rs1 imm6) : Statement (.pvSdotspSciH rd rs1 imm6) := of_word rfl rfl
theorem pvSdotspB (rd rs1 rs2) : Statement (.pvSdotspB rd rs1 rs2) := of_word rfl rfl
theorem pvSdotspScB (rd rs1 rs2) : Statement (.pvSdotspScB rd rs1 rs2) := of_word rfl rfl
theorem pvSdotspSciB (rd rs1 imm6) : Statement (.pvSdotspSciB rd rs1 imm6) := of_word rfl rfl
theorem pvShuffleH (rd rs1 rs2) : Statement (.pvShuffleH rd rs1 rs2) := of_word rfl rfl
theorem pvShuffleB (rd rs1 rs2) : Statement (.pvShuffleB rd rs1 rs2) := of_word rfl rfl
theorem pvShuffleSciH (rd rs1 imm6) : Statement (.pvShuffleSciH rd rs1 imm6) := of_word rfl rfl
theorem pvShuffleI0SciB (rd rs1 imm6) : Statement (.pvShuffleI0SciB rd rs1 imm6) := of_word rfl rfl
theorem pvShuffleI1SciB (rd rs1 imm6) : Statement (.pvShuffleI1SciB rd rs1 imm6) := of_word rfl rfl
theorem pvShuffleI2SciB (rd rs1 imm6) : Statement (.pvShuffleI2SciB rd rs1 imm6) := of_word rfl rfl
theorem pvShuffleI3SciB (rd rs1 imm6) : Statement (.pvShuffleI3SciB rd rs1 imm6) := of_word rfl rfl
theorem pvShuffle2H (rd rs1 rs2) : Statement (.pvShuffle2H rd rs1 rs2) := of_word rfl rfl
theorem pvShuffle2B (rd rs1 rs2) : Statement (.pvShuffle2B rd rs1 rs2) := of_word rfl rfl
theorem pvPackH (rd rs1 rs2) : Statement (.pvPackH rd rs1 rs2) := of_word rfl rfl
theorem pvPackhiB (rd rs1 rs2) : Statement (.pvPackhiB rd rs1 rs2) := of_word rfl rfl
theorem pvPackloB (rd rs1 rs2) : Statement (.pvPackloB rd rs1 rs2) := of_word rfl rfl
theorem pvCmpeqH (rd rs1 rs2) : Statement (.pvCmpeqH rd rs1 rs2) := of_word rfl rfl
theorem pvCmpeqScH (rd rs1 rs2) : Statement (.pvCmpeqScH rd rs1 rs2) := of_word rfl rfl
theorem pvCmpeqSciH (rd rs1 imm6) : Statement (.pvCmpeqSciH rd rs1 imm6) := of_word rfl rfl
theorem pvCmpeqB (rd rs1 rs2) : Statement (.pvCmpeqB rd rs1 rs2) := of_word rfl rfl
theorem pvCmpeqScB (rd rs1 rs2) : Statement (.pvCmpeqScB rd rs1 rs2) := of_word rfl rfl
theorem pvCmpeqSciB (rd rs1 imm6) : Statement (.pvCmpeqSciB rd rs1 imm6) := of_word rfl rfl
theorem pvCmpneH (rd rs1 rs2) : Statement (.pvCmpneH rd rs1 rs2) := of_word rfl rfl
theorem pvCmpneScH (rd rs1 rs2) : Statement (.pvCmpneScH rd rs1 rs2) := of_word rfl rfl
theorem pvCmpneSciH (rd rs1 imm6) : Statement (.pvCmpneSciH rd rs1 imm6) := of_word rfl rfl
theorem pvCmpneB (rd rs1 rs2) : Statement (.pvCmpneB rd rs1 rs2) := of_word rfl rfl
theorem pvCmpneScB (rd rs1 rs2) : Statement (.pvCmpneScB rd rs1 rs2) := of_word rfl rfl
theorem pvCmpneSciB (rd rs1 imm6) : Statement (.pvCmpneSciB rd rs1 imm6) := of_word rfl rfl
theorem pvCmpgtH (rd rs1 rs2) : Statement (.pvCmpgtH rd rs1 rs2) := of_word rfl rfl
theorem pvCmpgtScH (rd rs1 rs2) : Statement (.pvCmpgtScH rd rs1 rs2) := of_word rfl rfl
theorem pvCmpgtSciH (rd rs1 imm6) : Statement (.pvCmpgtSciH rd rs1 imm6) := of_word rfl rfl
theorem pvCmpgtB (rd rs1 rs2) : Statement (.pvCmpgtB rd rs1 rs2) := of_word rfl rfl
theorem pvCmpgtScB (rd rs1 rs2) : Statement (.pvCmpgtScB rd rs1 rs2) := of_word rfl rfl
theorem pvCmpgtSciB (rd rs1 imm6) : Statement (.pvCmpgtSciB rd rs1 imm6) := of_word rfl rfl
theorem pvCmpgeH (rd rs1 rs2) : Statement (.pvCmpgeH rd rs1 rs2) := of_word rfl rfl
theorem pvCmpgeScH (rd rs1 rs2) : Statement (.pvCmpgeScH rd rs1 rs2) := of_word rfl rfl
theorem pvCmpgeSciH (rd rs1 imm6) : Statement (.pvCmpgeSciH rd rs1 imm6) := of_word rfl rfl
theorem pvCmpgeB (rd rs1 rs2) : Statement (.pvCmpgeB rd rs1 rs2) := of_word rfl rfl
theorem pvCmpgeScB (rd rs1 rs2) : Statement (.pvCmpgeScB rd rs1 rs2) := of_word rfl rfl
theorem pvCmpgeSciB (rd rs1 imm6) : Statement (.pvCmpgeSciB rd rs1 imm6) := of_word rfl rfl
theorem pvCmpltH (rd rs1 rs2) : Statement (.pvCmpltH rd rs1 rs2) := of_word rfl rfl
theorem pvCmpltScH (rd rs1 rs2) : Statement (.pvCmpltScH rd rs1 rs2) := of_word rfl rfl
theorem pvCmpltSciH (rd rs1 imm6) : Statement (.pvCmpltSciH rd rs1 imm6) := of_word rfl rfl
theorem pvCmpltB (rd rs1 rs2) : Statement (.pvCmpltB rd rs1 rs2) := of_word rfl rfl
theorem pvCmpltScB (rd rs1 rs2) : Statement (.pvCmpltScB rd rs1 rs2) := of_word rfl rfl
theorem pvCmpltSciB (rd rs1 imm6) : Statement (.pvCmpltSciB rd rs1 imm6) := of_word rfl rfl
theorem pvCmpleH (rd rs1 rs2) : Statement (.pvCmpleH rd rs1 rs2) := of_word rfl rfl
theorem pvCmpleScH (rd rs1 rs2) : Statement (.pvCmpleScH rd rs1 rs2) := of_word rfl rfl
theorem pvCmpleSciH (rd rs1 imm6) : Statement (.pvCmpleSciH rd rs1 imm6) := of_word rfl rfl
theorem pvCmpleB (rd rs1 rs2) : Statement (.pvCmpleB rd rs1 rs2) := of_word rfl rfl
theorem pvCmpleScB (rd rs1 rs2) : Statement (.pvCmpleScB rd rs1 rs2) := of_word rfl rfl
theorem pvCmpleSciB (rd rs1 imm6) : Statement (.pvCmpleSciB rd rs1 imm6) := of_word rfl rfl
theorem pvCmpgtuH (rd rs1 rs2) : Statement (.pvCmpgtuH rd rs1 rs2) := of_word rfl rfl
theorem pvCmpgtuScH (rd rs1 rs2) : Statement (.pvCmpgtuScH rd rs1 rs2) := of_word rfl rfl
theorem pvCmpgtuSciH (rd rs1 imm6) : Statement (.pvCmpgtuSciH rd rs1 imm6) := of_word rfl rfl
theorem pvCmpgtuB (rd rs1 rs2) : Statement (.pvCmpgtuB rd rs1 rs2) := of_word rfl rfl
theorem pvCmpgtuScB (rd rs1 rs2) : Statement (.pvCmpgtuScB rd rs1 rs2) := of_word rfl rfl
theorem pvCmpgtuSciB (rd rs1 imm6) : Statement (.pvCmpgtuSciB rd rs1 imm6) := of_word rfl rfl
theorem pvCmpgeuH (rd rs1 rs2) : Statement (.pvCmpgeuH rd rs1 rs2) := of_word rfl rfl
theorem pvCmpgeuScH (rd rs1 rs2) : Statement (.pvCmpgeuScH rd rs1 rs2) := of_word rfl rfl
theorem pvCmpgeuSciH (rd rs1 imm6) : Statement (.pvCmpgeuSciH rd rs1 imm6) := of_word rfl rfl
theorem pvCmpgeuB (rd rs1 rs2) : Statement (.pvCmpgeuB rd rs1 rs2) := of_word rfl rfl
theorem pvCmpgeuScB (rd rs1 rs2) : Statement (.pvCmpgeuScB rd rs1 rs2) := of_word rfl rfl
theorem pvCmpgeuSciB (rd rs1 imm6) : Statement (.pvCmpgeuSciB rd rs1 imm6) := of_word rfl rfl
theorem pvCmpltuH (rd rs1 rs2) : Statement (.pvCmpltuH rd rs1 rs2) := of_word rfl rfl
theorem pvCmpltuScH (rd rs1 rs2) : Statement (.pvCmpltuScH rd rs1 rs2) := of_word rfl rfl
theorem pvCmpltuSciH (rd rs1 imm6) : Statement (.pvCmpltuSciH rd rs1 imm6) := of_word rfl rfl
theorem pvCmpltuB (rd rs1 rs2) : Statement (.pvCmpltuB rd rs1 rs2) := of_word rfl rfl
theorem pvCmpltuScB (rd rs1 rs2) : Statement (.pvCmpltuScB rd rs1 rs2) := of_word rfl rfl
theorem pvCmpltuSciB (rd rs1 imm6) : Statement (.pvCmpltuSciB rd rs1 imm6) := of_word rfl rfl
theorem pvCmpleuH (rd rs1 rs2) : Statement (.pvCmpleuH rd rs1 rs2) := of_word rfl rfl
theorem pvCmpleuScH (rd rs1 rs2) : Statement (.pvCmpleuScH rd rs1 rs2) := of_word rfl rfl
theorem pvCmpleuSciH (rd rs1 imm6) : Statement (.pvCmpleuSciH rd rs1 imm6) := of_word rfl rfl
theorem pvCmpleuB (rd rs1 rs2) : Statement (.pvCmpleuB rd rs1 rs2) := of_word rfl rfl
theorem pvCmpleuScB (rd rs1 rs2) : Statement (.pvCmpleuScB rd rs1 rs2) := of_word rfl rfl
theorem pvCmpleuSciB (rd rs1 imm6) : Statement (.pvCmpleuSciB rd rs1 imm6) := of_word rfl rfl

end Sys2Proof.Laws.EncodedLength
end

