-- ==== Sys2Proof/Tests/Slice0.lean ====
section
/-! SUPPORT. Tests: ill-formed terms that WellFormed refuses; every constructor's decoding from a word that spec/ writes out;
one-step results from 95_test_vectors.md and 96_test_vectors_pulp.md; for every obligation with hypotheses, a state and
operands that meet them. -/

set_option Elab.async false
namespace Sys2Proof.Tests

open Sys2Proof.Machine

/-! ## Well-formedness -/

theorem test_wf_cAddi4spn_zero : Instr.wf (.cAddi4spn 0 0) = false := by decide
theorem test_wf_cAddi_x0 : Instr.wf (.cAddi 0 1) = false := by decide
theorem test_wf_cAddi16sp_zero : Instr.wf (.cAddi16sp 0) = false := by decide
theorem test_wf_cLui_sp : Instr.wf (.cLui 2 1) = false := by decide
theorem test_wf_cLui_zero : Instr.wf (.cLui 5 0) = false := by decide
theorem test_wf_cLwsp_x0 : Instr.wf (.cLwsp 0 1) = false := by decide
theorem test_wf_cJr_x0 : Instr.wf (.cJr 0) = false := by decide
theorem test_wf_cJalr_x0 : Instr.wf (.cJalr 0) = false := by decide
theorem test_wf_cMv_x0 : Instr.wf (.cMv 5 0) = false := by decide
theorem test_wf_cAdd_x0 : Instr.wf (.cAdd 5 0) = false := by decide
theorem test_wf_pMulsN_zero : Instr.wf (.pMulsN 5 6 7 0) = false := by decide
theorem test_wf_pMulhhsN_zero : Instr.wf (.pMulhhsN 5 6 7 0) = false := by decide
theorem test_wf_pMuluN_zero : Instr.wf (.pMuluN 5 6 7 0) = false := by decide
theorem test_wf_pMulhhuN_zero : Instr.wf (.pMulhhuN 5 6 7 0) = false := by decide
theorem test_wf_accepts : Instr.wf (.cAddi 5 1) = true := by decide

/-! ## Decoding: every row of the opcode table, from the words printed in the rules and the test vectors of spec/ (the
words of eight floating-point rows from 30_encoding.md and the table) -/

/-- Each code decodes to its instruction, and the instruction encodes to it. -/
noncomputable def decodesAll : List (Code × Instr) → Bool
  | [] => true
  | (c, i) :: l => decide (decodeCode c = .ok i) && decide (encode i = c) && decodesAll l

theorem test_decode_rv32i_1 : decodesAll
  [(.word 0x123452B7, .lui 5 74565), (.word 0x00001317, .auipc 6 1), (.word 0x008000EF, .jal 1 4),
    (.word 0x004280E7, .jalr 1 5 4), (.word 0x00208863, .beq 1 2 8), (.word 0x00209863, .bne 1 2 8),
    (.word 0x0020C863, .blt 1 2 8), (.word 0x0020D863, .bge 1 2 8), (.word 0x0020E863, .bltu 1 2 8),
    (.word 0x0020F863, .bgeu 1 2 8), (.word 0xFFC40383, .lb 7 8 4092), (.word 0x00341383, .lh 7 8 3),
    (.word 0xFFC42383, .lw 7 8 4092), (.word 0xFFC44383, .lbu 7 8 4092), (.word 0x00345383, .lhu 7 8 3),
    (.word 0x00950423, .sb 9 10 8), (.word 0xFE951FA3, .sh 9 10 4095), (.word 0x00952423, .sw 9 10 8),
    (.word 0xFFF20193, .addi 3 4 4095), (.word 0xFFF22193, .slti 3 4 4095), (.word 0xFFF23193, .sltiu 3 4 4095),
    (.word 0xFFF24193, .xori 3 4 4095), (.word 0x00526193, .ori 3 4 5), (.word 0x00527193, .andi 3 4 5),
    (.word 0x01F21193, .slli 3 4 31), (.word 0x01F35293, .srli 5 6 31), (.word 0x41F35293, .srai 5 6 31),
    (.word 0x005201B3, .add 3 4 5), (.word 0x405201B3, .sub 3 4 5), (.word 0x005211B3, .sll 3 4 5)] = true := by decide +kernel

theorem test_decode_rv32i_2 : decodesAll
  [(.word 0x005221B3, .slt 3 4 5), (.word 0x005231B3, .sltu 3 4 5), (.word 0x005241B3, .xor 3 4 5),
    (.word 0x005251B3, .srl 3 4 5), (.word 0x405251B3, .sra 3 4 5), (.word 0x005261B3, .or 3 4 5),
    (.word 0x005271B3, .and 3 4 5), (.word 0x0FF0000F, .fence 15 15), (.word 0x0000100F, .fenceI)] = true := by decide +kernel

theorem test_decode_system : decodesAll
  [(.word 0x00000073, .ecall), (.word 0x00100073, .ebreak), (.word 0x30200073, .mret), (.word 0x10500073, .wfi),
    (.word 0x341312F3, .csrrw 5 6 833), (.word 0x300322F3, .csrrs 5 6 768), (.word 0x300332F3, .csrrc 5 6 768),
    (.word 0x7A01D2F3, .csrrwi 5 3 1952), (.word 0x30046073, .csrrsi 0 8 768),
    (.word 0x300472F3, .csrrci 5 8 768)] = true := by decide +kernel

theorem test_decode_rv32c_1 : decodesAll
  [(.half 0x1FE8, .cAddi4spn 2 255), (.half 0x4144, .cLw 1 2 1), (.half 0xC144, .cSw 1 2 1),
    (.half 0x6144, .cFlw 1 2 1), (.half 0xE144, .cFsw 1 2 1), (.half 0x0001, .cNop 0), (.half 0x12FD, .cAddi 5 63),
    (.half 0x2021, .cJal 4), (.half 0x5501, .cLi 10 32), (.half 0x7139, .cAddi16sp 60), (.half 0x6285, .cLui 5 1),
    (.half 0x83FD, .cSrli 7 31), (.half 0x87FD, .cSrai 7 31), (.half 0x9871, .cAndi 0 60), (.half 0x8C05, .cSub 0 1),
    (.half 0x8C25, .cXor 0 1), (.half 0x8C45, .cOr 0 1), (.half 0x8C65, .cAnd 0 1), (.half 0xBFF5, .cJ 2046),
    (.half 0xC019, .cBeqz 0 3), (.half 0xEFFD, .cBnez 7 127), (.half 0x0292, .cSlli 5 4), (.half 0x42A2, .cLwsp 5 2),
    (.half 0x62A2, .cFlwsp 5 2), (.half 0x8082, .cJr 1), (.half 0x829A, .cMv 5 6), (.half 0x9002, .cEbreak),
    (.half 0x9282, .cJalr 5), (.half 0x929A, .cAdd 5 6), (.half 0xC416, .cSwsp 5 2)] = true := by decide +kernel

theorem test_decode_rv32c_2 : decodesAll
  [(.half 0xE416, .cFswsp 5 2)] = true := by decide +kernel

theorem test_decode_rv32m : decodesAll
  [(.word 0x027302B3, .mul 5 6 7), (.word 0x027312B3, .mulh 5 6 7), (.word 0x027322B3, .mulhsu 5 6 7),
    (.word 0x027332B3, .mulhu 5 6 7), (.word 0x027342B3, .div 5 6 7), (.word 0x027352B3, .divu 5 6 7),
    (.word 0x027362B3, .rem 5 6 7), (.word 0x027372B3, .remu 5 6 7)] = true := by decide +kernel

theorem test_decode_rv32f : decodesAll
  [(.word 0x00812087, .flw 1 2 8), (.word 0x00112427, .fsw 1 2 8), (.word 0x203100C3, .fmaddS 1 2 3 4 0),
    (.word 0x203110C7, .fmsubS 1 2 3 4 1), (.word 0x203120CB, .fnmsubS 1 2 3 4 2),
    (.word 0x203130CF, .fnmaddS 1 2 3 4 3), (.word 0x003170D3, .faddS 1 2 3 7), (.word 0x083110D3, .fsubS 1 2 3 1),
    (.word 0x103170D3, .fmulS 1 2 3 7), (.word 0x183120D3, .fdivS 1 2 3 2), (.word 0x580170D3, .fsqrtS 1 2 7),
    (.word 0x203100D3, .fsgnjS 1 2 3), (.word 0x203110D3, .fsgnjnS 1 2 3), (.word 0x203120D3, .fsgnjxS 1 2 3),
    (.word 0x283100D3, .fminS 1 2 3), (.word 0x283110D3, .fmaxS 1 2 3), (.word 0xC00112D3, .fcvtWS 5 2 1),
    (.word 0xC01112D3, .fcvtWuS 5 2 1), (.word 0xE00102D3, .fmvXW 5 2), (.word 0xA03122D3, .feqS 5 2 3),
    (.word 0xA03112D3, .fltS 5 2 3), (.word 0xA03102D3, .fleS 5 2 3), (.word 0xE00112D3, .fclassS 5 2),
    (.word 0xD00130D3, .fcvtSW 1 2 3), (.word 0xD01370D3, .fcvtSWu 1 6 7), (.word 0xF00300D3, .fmvWX 1 6)] = true := by decide +kernel

theorem test_decode_postinc : decodesAll
  [(.word 0x0043028B, .pLbPostImm 5 6 4), (.word 0x0043428B, .pLbuPostImm 5 6 4),
    (.word 0x0043128B, .pLhPostImm 5 6 4), (.word 0x0043528B, .pLhuPostImm 5 6 4),
    (.word 0x0043228B, .pLwPostImm 5 6 4), (.word 0x0073728B, .pLbPostReg 5 6 7),
    (.word 0x4073728B, .pLbuPostReg 5 6 7), (.word 0x1073728B, .pLhPostReg 5 6 7),
    (.word 0x5073728B, .pLhuPostReg 5 6 7), (.word 0x2073728B, .pLwPostReg 5 6 7), (.word 0x00737283, .pLbOff 5 6 7),
    (.word 0x40737283, .pLbuOff 5 6 7), (.word 0x10737283, .pLhOff 5 6 7), (.word 0x50737283, .pLhuOff 5 6 7),
    (.word 0x20737283, .pLwOff 5 6 7), (.word 0x0073022B, .pSbPostImm 7 6 4), (.word 0x0073122B, .pShPostImm 7 6 4),
    (.word 0x0073222B, .pSwPostImm 7 6 4), (.word 0x0073442B, .pSbPostReg 7 8 6),
    (.word 0x0073542B, .pShPostReg 7 8 6), (.word 0x0073642B, .pSwPostReg 7 8 6), (.word 0x00734423, .pSbOff 7 8 6),
    (.word 0x00735423, .pShOff 7 8 6), (.word 0x00736423, .pSwOff 7 8 6)] = true := by decide +kernel

theorem test_decode_hwloop : decodesAll
  [(.word 0x006000FB, .lpStarti 1 6), (.word 0xFFF010FB, .lpEndi 1 4095), (.word 0x0002A0FB, .lpCount 1 5),
    (.word 0xFFF030FB, .lpCounti 1 4095), (.word 0x008340FB, .lpSetup 1 6 8),
    (.word 0x064FD0FB, .lpSetupi 1 100 31)] = true := by decide +kernel

theorem test_decode_pulp_alu_1 : decodesAll
  [(.word 0xCE4302B3, .pExtract 5 6 7 4), (.word 0xCE4312B3, .pExtractu 5 6 7 4),
    (.word 0xCE4322B3, .pInsert 5 6 7 4), (.word 0xCE4332B3, .pBclr 5 6 7 4), (.word 0xCE4342B3, .pBset 5 6 7 4),
    (.word 0x807302B3, .pExtractr 5 6 7), (.word 0x807312B3, .pExtractur 5 6 7), (.word 0x807322B3, .pInsertr 5 6 7),
    (.word 0x807332B3, .pBclrr 5 6 7), (.word 0x807342B3, .pBsetr 5 6 7), (.word 0x087352B3, .pRor 5 6 7),
    (.word 0x100302B3, .pFf1 5 6), (.word 0x100312B3, .pFl1 5 6), (.word 0x100322B3, .pClb 5 6),
    (.word 0x100332B3, .pCnt 5 6), (.word 0x040302B3, .pAbs 5 6), (.word 0x047322B3, .pSlet 5 6 7),
    (.word 0x047332B3, .pSletu 5 6 7), (.word 0x047342B3, .pMin 5 6 7), (.word 0x047352B3, .pMinu 5 6 7),
    (.word 0x047362B3, .pMax 5 6 7), (.word 0x047372B3, .pMaxu 5 6 7), (.word 0x100342B3, .pExths 5 6),
    (.word 0x100352B3, .pExthz 5 6), (.word 0x100362B3, .pExtbs 5 6), (.word 0x100372B3, .pExtbz 5 6),
    (.word 0x148312B3, .pClip 5 6 8), (.word 0x148322B3, .pClipu 5 6 8), (.word 0x147352B3, .pClipr 5 6 7),
    (.word 0x147362B3, .pClipur 5 6 7)] = true := by decide +kernel

theorem test_decode_pulp_alu_2 : decodesAll
  [(.word 0x047322DB, .pAddN 5 6 7 2), (.word 0x847322DB, .pAdduN 5 6 7 2), (.word 0x047362DB, .pAddRN 5 6 7 2),
    (.word 0x847362DB, .pAdduRN 5 6 7 2), (.word 0x407322DB, .pAddNr 5 6 7), (.word 0xC07322DB, .pAdduNr 5 6 7),
    (.word 0x407362DB, .pAddRNr 5 6 7), (.word 0xC07362DB, .pAdduRNr 5 6 7), (.word 0x047332DB, .pSubN 5 6 7 2),
    (.word 0x847332DB, .pSubuN 5 6 7 2), (.word 0x047372DB, .pSubRN 5 6 7 2), (.word 0x847372DB, .pSubuRN 5 6 7 2),
    (.word 0x407332DB, .pSubNr 5 6 7), (.word 0xC07332DB, .pSubuNr 5 6 7), (.word 0x407372DB, .pSubRNr 5 6 7),
    (.word 0xC07372DB, .pSubuRNr 5 6 7), (.word 0x01F32463, .pBeqimm 6 31 4),
    (.word 0xFE533EE3, .pBneimm 6 5 4094)] = true := by decide +kernel

theorem test_decode_pulp_mac : decodesAll
  [(.word 0x427302B3, .pMac 5 6 7), (.word 0x427312B3, .pMsu 5 6 7), (.word 0x807302DB, .pMuls 5 6 7),
    (.word 0xC07302DB, .pMulhhs 5 6 7), (.word 0x847302DB, .pMulsN 5 6 7 2), (.word 0xC47302DB, .pMulhhsN 5 6 7 2),
    (.word 0x847342DB, .pMulsRN 5 6 7 2), (.word 0xC47342DB, .pMulhhsRN 5 6 7 2), (.word 0x007302DB, .pMulu 5 6 7),
    (.word 0x407302DB, .pMulhhu 5 6 7), (.word 0x047302DB, .pMuluN 5 6 7 2), (.word 0x447302DB, .pMulhhuN 5 6 7 2),
    (.word 0x047342DB, .pMuluRN 5 6 7 2), (.word 0x447342DB, .pMulhhuRN 5 6 7 2), (.word 0x847312DB, .pMacsN 5 6 7 2),
    (.word 0xC47312DB, .pMachhsN 5 6 7 2), (.word 0x847352DB, .pMacsRN 5 6 7 2),
    (.word 0xC47352DB, .pMachhsRN 5 6 7 2), (.word 0x047312DB, .pMacuN 5 6 7 2),
    (.word 0x447312DB, .pMachhuN 5 6 7 2), (.word 0x047352DB, .pMacuRN 5 6 7 2),
    (.word 0x447352DB, .pMachhuRN 5 6 7 2)] = true := by decide +kernel

theorem test_decode_vector_1 : decodesAll
  [(.word 0x007302D7, .pvAddH 5 6 7), (.word 0x007342D7, .pvAddScH 5 6 7), (.word 0x03E362D7, .pvAddSciH 5 6 61),
    (.word 0x007312D7, .pvAddB 5 6 7), (.word 0x007352D7, .pvAddScB 5 6 7), (.word 0x03E372D7, .pvAddSciB 5 6 61),
    (.word 0x087302D7, .pvSubH 5 6 7), (.word 0x087342D7, .pvSubScH 5 6 7), (.word 0x0BE362D7, .pvSubSciH 5 6 61),
    (.word 0x087312D7, .pvSubB 5 6 7), (.word 0x087352D7, .pvSubScB 5 6 7), (.word 0x0BE372D7, .pvSubSciB 5 6 61),
    (.word 0x107302D7, .pvAvgH 5 6 7), (.word 0x107342D7, .pvAvgScH 5 6 7), (.word 0x13E362D7, .pvAvgSciH 5 6 61),
    (.word 0x107312D7, .pvAvgB 5 6 7), (.word 0x107352D7, .pvAvgScB 5 6 7), (.word 0x13E372D7, .pvAvgSciB 5 6 61),
    (.word 0x187302D7, .pvAvguH 5 6 7), (.word 0x187342D7, .pvAvguScH 5 6 7), (.word 0x1BE362D7, .pvAvguSciH 5 6 61),
    (.word 0x187312D7, .pvAvguB 5 6 7), (.word 0x187352D7, .pvAvguScB 5 6 7), (.word 0x1BE372D7, .pvAvguSciB 5 6 61),
    (.word 0x207302D7, .pvMinH 5 6 7), (.word 0x207342D7, .pvMinScH 5 6 7), (.word 0x23E362D7, .pvMinSciH 5 6 61),
    (.word 0x207312D7, .pvMinB 5 6 7), (.word 0x207352D7, .pvMinScB 5 6 7), (.word 0x23E372D7, .pvMinSciB 5 6 61)] = true := by decide +kernel

theorem test_decode_vector_2 : decodesAll
  [(.word 0x287302D7, .pvMinuH 5 6 7), (.word 0x287342D7, .pvMinuScH 5 6 7), (.word 0x2BE362D7, .pvMinuSciH 5 6 61),
    (.word 0x287312D7, .pvMinuB 5 6 7), (.word 0x287352D7, .pvMinuScB 5 6 7), (.word 0x2BE372D7, .pvMinuSciB 5 6 61),
    (.word 0x307302D7, .pvMaxH 5 6 7), (.word 0x307342D7, .pvMaxScH 5 6 7), (.word 0x33E362D7, .pvMaxSciH 5 6 61),
    (.word 0x307312D7, .pvMaxB 5 6 7), (.word 0x307352D7, .pvMaxScB 5 6 7), (.word 0x33E372D7, .pvMaxSciB 5 6 61),
    (.word 0x387302D7, .pvMaxuH 5 6 7), (.word 0x387342D7, .pvMaxuScH 5 6 7), (.word 0x3BE362D7, .pvMaxuSciH 5 6 61),
    (.word 0x387312D7, .pvMaxuB 5 6 7), (.word 0x387352D7, .pvMaxuScB 5 6 7), (.word 0x3BE372D7, .pvMaxuSciB 5 6 61),
    (.word 0x407302D7, .pvSrlH 5 6 7), (.word 0x407342D7, .pvSrlScH 5 6 7), (.word 0x421362D7, .pvSrlSciH 5 6 3),
    (.word 0x407312D7, .pvSrlB 5 6 7), (.word 0x407352D7, .pvSrlScB 5 6 7), (.word 0x421372D7, .pvSrlSciB 5 6 3),
    (.word 0x487302D7, .pvSraH 5 6 7), (.word 0x487342D7, .pvSraScH 5 6 7), (.word 0x4A1362D7, .pvSraSciH 5 6 3),
    (.word 0x487312D7, .pvSraB 5 6 7), (.word 0x487352D7, .pvSraScB 5 6 7), (.word 0x4A1372D7, .pvSraSciB 5 6 3)] = true := by decide +kernel

theorem test_decode_vector_3 : decodesAll
  [(.word 0x507302D7, .pvSllH 5 6 7), (.word 0x507342D7, .pvSllScH 5 6 7), (.word 0x521362D7, .pvSllSciH 5 6 3),
    (.word 0x507312D7, .pvSllB 5 6 7), (.word 0x507352D7, .pvSllScB 5 6 7), (.word 0x521372D7, .pvSllSciB 5 6 3),
    (.word 0x587302D7, .pvOrH 5 6 7), (.word 0x587342D7, .pvOrScH 5 6 7), (.word 0x5BE362D7, .pvOrSciH 5 6 61),
    (.word 0x587312D7, .pvOrB 5 6 7), (.word 0x587352D7, .pvOrScB 5 6 7), (.word 0x5BE372D7, .pvOrSciB 5 6 61),
    (.word 0x607302D7, .pvXorH 5 6 7), (.word 0x607342D7, .pvXorScH 5 6 7), (.word 0x63E362D7, .pvXorSciH 5 6 61),
    (.word 0x607312D7, .pvXorB 5 6 7), (.word 0x607352D7, .pvXorScB 5 6 7), (.word 0x63E372D7, .pvXorSciB 5 6 61),
    (.word 0x687302D7, .pvAndH 5 6 7), (.word 0x687342D7, .pvAndScH 5 6 7), (.word 0x6BE362D7, .pvAndSciH 5 6 61),
    (.word 0x687312D7, .pvAndB 5 6 7), (.word 0x687352D7, .pvAndScB 5 6 7), (.word 0x6BE372D7, .pvAndSciB 5 6 61),
    (.word 0x700302D7, .pvAbsH 5 6), (.word 0x700312D7, .pvAbsB 5 6), (.word 0x7A0362D7, .pvExtractH 5 6 1),
    (.word 0x781372D7, .pvExtractB 5 6 2), (.word 0x920362D7, .pvExtractuH 5 6 1),
    (.word 0x921372D7, .pvExtractuB 5 6 3)] = true := by decide +kernel

theorem test_decode_vector_4 : decodesAll
  [(.word 0xB20362D7, .pvInsertH 5 6 1), (.word 0xB01372D7, .pvInsertB 5 6 2), (.word 0x807302D7, .pvDotupH 5 6 7),
    (.word 0x807342D7, .pvDotupScH 5 6 7), (.word 0x83E362D7, .pvDotupSciH 5 6 61),
    (.word 0x807312D7, .pvDotupB 5 6 7), (.word 0x807352D7, .pvDotupScB 5 6 7),
    (.word 0x83E372D7, .pvDotupSciB 5 6 61), (.word 0x887302D7, .pvDotuspH 5 6 7),
    (.word 0x887342D7, .pvDotuspScH 5 6 7), (.word 0x8BE362D7, .pvDotuspSciH 5 6 61),
    (.word 0x887312D7, .pvDotuspB 5 6 7), (.word 0x887352D7, .pvDotuspScB 5 6 7),
    (.word 0x8BE372D7, .pvDotuspSciB 5 6 61), (.word 0x987302D7, .pvDotspH 5 6 7),
    (.word 0x987342D7, .pvDotspScH 5 6 7), (.word 0x9BE362D7, .pvDotspSciH 5 6 61),
    (.word 0x987312D7, .pvDotspB 5 6 7), (.word 0x987352D7, .pvDotspScB 5 6 7),
    (.word 0x9BE372D7, .pvDotspSciB 5 6 61), (.word 0xA07302D7, .pvSdotupH 5 6 7),
    (.word 0xA07342D7, .pvSdotupScH 5 6 7), (.word 0xA3E362D7, .pvSdotupSciH 5 6 61),
    (.word 0xA07312D7, .pvSdotupB 5 6 7), (.word 0xA07352D7, .pvSdotupScB 5 6 7),
    (.word 0xA3E372D7, .pvSdotupSciB 5 6 61), (.word 0xA87302D7, .pvSdotuspH 5 6 7),
    (.word 0xA87342D7, .pvSdotuspScH 5 6 7), (.word 0xABE362D7, .pvSdotuspSciH 5 6 61),
    (.word 0xA87312D7, .pvSdotuspB 5 6 7)] = true := by decide +kernel

theorem test_decode_vector_5 : decodesAll
  [(.word 0xA87352D7, .pvSdotuspScB 5 6 7), (.word 0xABE372D7, .pvSdotuspSciB 5 6 61),
    (.word 0xB87302D7, .pvSdotspH 5 6 7), (.word 0xB87342D7, .pvSdotspScH 5 6 7),
    (.word 0xBBE362D7, .pvSdotspSciH 5 6 61), (.word 0xB87312D7, .pvSdotspB 5 6 7),
    (.word 0xB87352D7, .pvSdotspScB 5 6 7), (.word 0xBBE372D7, .pvSdotspSciB 5 6 61),
    (.word 0xC07302D7, .pvShuffleH 5 6 7), (.word 0xC07312D7, .pvShuffleB 5 6 7),
    (.word 0xC20362D7, .pvShuffleSciH 5 6 1), (.word 0xC3C372D7, .pvShuffleI0SciB 5 6 57),
    (.word 0xEBC372D7, .pvShuffleI1SciB 5 6 57), (.word 0xF3C372D7, .pvShuffleI2SciB 5 6 57),
    (.word 0xFBC372D7, .pvShuffleI3SciB 5 6 57), (.word 0xC87302D7, .pvShuffle2H 5 6 7),
    (.word 0xC87312D7, .pvShuffle2B 5 6 7), (.word 0xD07302D7, .pvPackH 5 6 7), (.word 0xD87312D7, .pvPackhiB 5 6 7),
    (.word 0xE07312D7, .pvPackloB 5 6 7), (.word 0x047302D7, .pvCmpeqH 5 6 7), (.word 0x047342D7, .pvCmpeqScH 5 6 7),
    (.word 0x07E362D7, .pvCmpeqSciH 5 6 61), (.word 0x047312D7, .pvCmpeqB 5 6 7),
    (.word 0x047352D7, .pvCmpeqScB 5 6 7), (.word 0x07E372D7, .pvCmpeqSciB 5 6 61),
    (.word 0x0C7302D7, .pvCmpneH 5 6 7), (.word 0x0C7342D7, .pvCmpneScH 5 6 7),
    (.word 0x0FE362D7, .pvCmpneSciH 5 6 61), (.word 0x0C7312D7, .pvCmpneB 5 6 7)] = true := by decide +kernel

theorem test_decode_vector_6 : decodesAll
  [(.word 0x0C7352D7, .pvCmpneScB 5 6 7), (.word 0x0FE372D7, .pvCmpneSciB 5 6 61),
    (.word 0x147302D7, .pvCmpgtH 5 6 7), (.word 0x147342D7, .pvCmpgtScH 5 6 7),
    (.word 0x17E362D7, .pvCmpgtSciH 5 6 61), (.word 0x147312D7, .pvCmpgtB 5 6 7),
    (.word 0x147352D7, .pvCmpgtScB 5 6 7), (.word 0x17E372D7, .pvCmpgtSciB 5 6 61),
    (.word 0x1C7302D7, .pvCmpgeH 5 6 7), (.word 0x1C7342D7, .pvCmpgeScH 5 6 7),
    (.word 0x1FE362D7, .pvCmpgeSciH 5 6 61), (.word 0x1C7312D7, .pvCmpgeB 5 6 7),
    (.word 0x1C7352D7, .pvCmpgeScB 5 6 7), (.word 0x1FE372D7, .pvCmpgeSciB 5 6 61),
    (.word 0x247302D7, .pvCmpltH 5 6 7), (.word 0x247342D7, .pvCmpltScH 5 6 7),
    (.word 0x27E362D7, .pvCmpltSciH 5 6 61), (.word 0x247312D7, .pvCmpltB 5 6 7),
    (.word 0x247352D7, .pvCmpltScB 5 6 7), (.word 0x27E372D7, .pvCmpltSciB 5 6 61),
    (.word 0x2C7302D7, .pvCmpleH 5 6 7), (.word 0x2C7342D7, .pvCmpleScH 5 6 7),
    (.word 0x2FE362D7, .pvCmpleSciH 5 6 61), (.word 0x2C7312D7, .pvCmpleB 5 6 7),
    (.word 0x2C7352D7, .pvCmpleScB 5 6 7), (.word 0x2FE372D7, .pvCmpleSciB 5 6 61),
    (.word 0x347302D7, .pvCmpgtuH 5 6 7), (.word 0x347342D7, .pvCmpgtuScH 5 6 7),
    (.word 0x37E362D7, .pvCmpgtuSciH 5 6 61), (.word 0x347312D7, .pvCmpgtuB 5 6 7)] = true := by decide +kernel

theorem test_decode_vector_7 : decodesAll
  [(.word 0x347352D7, .pvCmpgtuScB 5 6 7), (.word 0x37E372D7, .pvCmpgtuSciB 5 6 61),
    (.word 0x3C7302D7, .pvCmpgeuH 5 6 7), (.word 0x3C7342D7, .pvCmpgeuScH 5 6 7),
    (.word 0x3FE362D7, .pvCmpgeuSciH 5 6 61), (.word 0x3C7312D7, .pvCmpgeuB 5 6 7),
    (.word 0x3C7352D7, .pvCmpgeuScB 5 6 7), (.word 0x3FE372D7, .pvCmpgeuSciB 5 6 61),
    (.word 0x447302D7, .pvCmpltuH 5 6 7), (.word 0x447342D7, .pvCmpltuScH 5 6 7),
    (.word 0x47E362D7, .pvCmpltuSciH 5 6 61), (.word 0x447312D7, .pvCmpltuB 5 6 7),
    (.word 0x447352D7, .pvCmpltuScB 5 6 7), (.word 0x47E372D7, .pvCmpltuSciB 5 6 61),
    (.word 0x4C7302D7, .pvCmpleuH 5 6 7), (.word 0x4C7342D7, .pvCmpleuScH 5 6 7),
    (.word 0x4FE362D7, .pvCmpleuSciH 5 6 61), (.word 0x4C7312D7, .pvCmpleuB 5 6 7),
    (.word 0x4C7352D7, .pvCmpleuScB 5 6 7), (.word 0x4FE372D7, .pvCmpleuSciB 5 6 61)] = true := by decide +kernel


/-- 30_encoding.md R170, R171; 42_rv32c.md R312; 95_test_vectors.md. -/
theorem test_decode_refuses :
    decodeCode (.word 0xFFFFFFFF) = .error .illegal ∧ decodeCode (.half 0x0000) = .error .illegal ∧
    decodeCode (.half 0x9001) = .error .illegal ∧
    (∃ r, decodeCode (.half 0x6101) = .error (.reserved r)) :=
  ⟨by decide +kernel, by decide +kernel, by decide +kernel, _, rfl⟩

/-- The bytes of a table word, the first at the lowest address. -/
theorem test_decode_table_word :
    decodeTableWord 32 0x123452B7 = some (.lui 5 0x12345) ∧ decodeTableWord 16 0x457D = some (.cLi 10 31) ∧
    decodeTableWord 16 0x0000 = none := by
  decide +kernel

/-! ## One-step results -/

/-- Reset with another pc and some registers. -/
def mk (pc : Word) (rs : List (Reg × Word)) : State :=
  rs.foldl (fun s p => s.writeX p.1 p.2) { State.reset with pc := pc }

/-- The same with floating-point registers. -/
def mkF (rs : List (Reg × Word)) : State := rs.foldl (fun s p => s.writeF p.1 p.2) State.reset

/-- Bytes 0x1000 to 0x1007 of the spec's load and store vectors. -/
def loadMem : List Host.Cell :=
  ([0x80, 0xFF, 0x34, 0x92, 0x78, 0x56, 0x34, 0x12].foldl (fun p b => (Memory.write8 p.1 p.2 b, p.2 + 1))
    (([] : List Host.Cell), (0x1000 : Word))).1

/-- What `f` reads in the next state. -/
def after? {α : Type} (r : Result) (f : State → α) : Option α :=
  match r with
  | .next t => some (f t)
  | .fault _ => none
  | .refused _ => none

/-- x5 after instruction `i` at 0x200 with x6 = `a`, x7 = `b`, x5 = `d`. -/
def x5 (i : Instr) (a b d : Word) : Option Word := after? (exec i (mk 0x200 [(5, d), (6, a), (7, b)])) (·.readX 5)

theorem test_auipc_wraps : after? (exec (.auipc 5 0xFFFFF) (mk 0x100 [])) (·.readX 5) = some 0xFFFFF100 := by decide +kernel
theorem test_jal_back : after? (exec (.jal 1 0xFFFFE) (mk 0x200 [])) (fun t => (t.readX 1, t.pc)) = some (0x204, 0x1FC) := by
  decide +kernel
theorem test_jalr_same_register :
    after? (exec (.jalr 5 5 0) (mk 0x100 [(5, 0x400)])) (fun t => (t.readX 5, t.pc)) = some (0x104, 0x400) := by
  decide +kernel
theorem test_blt_taken : after? (exec (.blt 6 7 0xFFC) (mk 0x108 [(6, 0xFFFFFFFF), (7, 1)])) (·.pc) = some 0x100 := by
  decide +kernel
theorem test_bltu_not_taken :
    after? (exec (.bltu 6 7 0xFFC) (mk 0x108 [(6, 0xFFFFFFFF), (7, 1)])) (·.pc) = some 0x10C := by decide +kernel
theorem test_lh_crosses_a_word :
    after? (exec (.lh 5 6 3) { mk 0x200 [(6, 0x1000)] with mem := loadMem }) (·.readX 5) = some 0x00007892 := by decide +kernel
theorem test_lb_sign :
    after? (exec (.lb 5 6 0) { mk 0x200 [(6, 0x1000)] with mem := loadMem }) (·.readX 5) = some 0xFFFFFF80 := by decide +kernel
theorem test_sw_bytes : after? (exec (.sw 7 6 0xFFE) (mk 0x200 [(6, 0x1004), (7, 0xA1B2C3D4)]))
    (fun t => (t.read8 0x1002, t.read8 0x1005, t.read8 0x1006)) = some (0xD4, 0xA1, 0) := by decide +kernel
theorem test_addi_wraps : x5 (.addi 5 6 1) 0xFFFFFFFF 0 0 = some 0 := by decide +kernel
theorem test_sltiu_sign_extends : x5 (.sltiu 5 6 0xFFF) 0xFFFFFFFE 0 0 = some 1 := by decide +kernel
theorem test_srai : x5 (.srai 5 6 31) 0x80000000 0 0 = some 0xFFFFFFFF := by decide +kernel
theorem test_sra_low_bits : x5 (.sra 5 6 7) 0x80000000 0x24 0 = some 0xF8000000 := by decide +kernel
theorem test_x0_discards : after? (exec (.lui 0 0x12345) (mk 0x200 [])) (·.x) = some State.reset.x := by decide +kernel

theorem test_csrrw_mstatus :
    after? (exec (.csrrw 5 6 0x300) (mk 0x200 [(6, 0xFFFFFFFF)])) (fun t => (t.readX 5, t.mstatus)) =
      some (0x1800, 0x1888) := by decide +kernel
theorem test_csrrc_mstatus :
    after? (exec (.csrrc 5 6 0x300) { mk 0x200 [(6, 0x1808)] with mstatus := 0x1888 }) (·.mstatus) = some 0x1880 := by
  decide +kernel
theorem test_csr_mhartid :
    after? (exec (.csrrs 5 0 0xF14) { State.reset with params := { Params.default with clusterId := 3, coreId := 5 } })
      (·.readX 5) = some 0x65 := by decide +kernel
theorem test_csr_mtvec :
    after? (exec (.csrrs 5 0 0x305) { State.reset with bootAddr := 0x1C0080A4 }) (·.readX 5) = some 0x1C008000 := by
  decide +kernel
theorem test_pccr31_writes_all :
    after? (exec (.csrrw 0 6 0x79F) (mk 0x200 [(6, 0xAA)])) (·.pccr) = some (Vector.replicate 31 0xAA) := by decide +kernel
theorem test_ecall :
    after? (exec .ecall { mk 0x1C008204 [] with bootAddr := 0x1C008000, mstatus := 0x1808 })
      (fun t => (t.mepc, t.mcause, t.mstatus, t.pc)) = some (0x1C008204, 0xB, 0x1880, 0x1C008088) := by decide +kernel
theorem test_mret :
    after? (exec .mret { mk 0x200 [] with mepc := 0x1C008209, mstatus := 0x1880 }) (fun t => (t.pc, t.mstatus)) =
      some (0x1C008208, 0x1888) := by decide +kernel
theorem test_ebreak_halts :
    after? (exec .ebreak { mk 0x200 [] with dbgIe := 8 }) (fun t => (t.halted, t.pc, t.dbgCause)) =
      some (true, 0x204, 3) := by decide +kernel

theorem test_cLw_misaligned :
    after? (exec (.cLw 0 1 0) { mk 0x200 [(9, 0x1001)] with mem := loadMem }) (·.readX 8) = some 0x789234FF := by
  decide +kernel
theorem test_cLui_negative : after? (exec (.cLui 5 0x20) (mk 0x200 [])) (fun t => (t.readX 5, t.pc)) =
    some (0xFFFE0000, 0x202) := by decide +kernel
theorem test_cJal : after? (exec (.cJal 0x7FF) (mk 0x200 [])) (fun t => (t.readX 1, t.pc)) = some (0x202, 0x1FE) := by
  decide +kernel
theorem test_cAddi16sp : after? (exec (.cAddi16sp 0x20) (mk 0x200 [(2, 0x100)])) (·.readX 2) = some 0xFFFFFF00 := by
  decide +kernel

/-- 43_rv32m.md R332, R333, R335, R337: the corner cases. -/
theorem test_muldiv_corners :
    x5 (.mulh 5 6 7) 0x80000000 0x80000000 0 = some 0x40000000 ∧ x5 (.mulhsu 5 6 7) 0xFFFFFFFF 0xFFFFFFFF 0 = some 0xFFFFFFFF ∧
    x5 (.div 5 6 7) 0x80000000 0xFFFFFFFF 0 = some 0x80000000 ∧ x5 (.rem 5 6 7) 0x80000000 0xFFFFFFFF 0 = some 0 ∧
    x5 (.div 5 6 7) 7 0 0 = some 0xFFFFFFFF ∧ x5 (.rem 5 6 7) 0xFFFFFFF9 2 0 = some 0xFFFFFFFF := by
  decide +kernel

/-- 44_rv32f.md: 1 + 2, 1 / 3 to nearest, sqrt 2, and the flags; by hand from IEEE 754. -/
theorem test_float :
    after? (exec (.faddS 1 2 3 0) (mkF [(2, 0x3F800000), (3, 0x40000000)])) (fun t => (t.readF 1, t.fflags)) =
      some (0x40400000, 0) ∧
    after? (exec (.fdivS 1 2 3 0) (mkF [(2, 0x3F800000), (3, 0x40400000)])) (fun t => (t.readF 1, t.fflags)) =
      some (0x3EAAAAAB, 1) ∧
    after? (exec (.fsqrtS 1 2 0) (mkF [(2, 0x40000000)])) (fun t => (t.readF 1, t.fflags)) = some (0x3FB504F3, 1) ∧
    after? (exec (.fdivS 1 2 3 0) (mkF [(2, 0x3F800000)])) (fun t => (t.readF 1, t.fflags)) = some (0x7F800000, 8) ∧
    after? (exec (.fcvtWS 5 2 0) (mkF [(2, 0xC0200000)])) (fun t => (t.readX 5, t.fflags)) = some (0xFFFFFFFE, 1) := by
  decide +kernel

theorem test_pLw_postinc :
    after? (exec (.pLwPostImm 5 6 0xFFC) { mk 0x200 [(6, 0x1004)] with mem := loadMem })
      (fun t => (t.readX 5, t.readX 6)) = some (0x12345678, 0x1000) := by decide +kernel
theorem test_pSw_stores_the_old_pointer :
    after? (exec (.pSwPostImm 6 6 4) (mk 0x200 [(6, 0x1000)])) (fun t => (t.read8 0x1001, t.readX 6)) =
      some (0x10, 0x1004) := by decide +kernel
theorem test_lpSetupi :
    after? (exec (.lpSetupi 0 4095 31) (mk 0x1000 [])) (·.loop0) = some ⟨0x1004, 0x103E, 0xFFF⟩ := by decide +kernel
theorem test_loop_step_same_end :
    after? (exec (.addi 5 5 1) { mk 0x208 [] with loop0 := ⟨0x204, 0x208, 1⟩, loop1 := ⟨0x200, 0x208, 5⟩ })
      (fun t => (t.pc, t.loop0.count, t.loop1.count)) = some (0x200, 0, 4) := by decide +kernel
theorem test_ecall_leaves_the_loop :
    after? (exec .ecall { mk 0x208 [] with loop0 := ⟨0x204, 0x208, 3⟩ }) (fun t => (t.mepc, t.loop0.count)) =
      some (0x208, 3) := by decide +kernel

/-- 96_test_vectors_pulp.md section 2.8. -/
theorem test_pulp_alu :
    x5 (.pExtract 5 6 15 16) 0xDEADBEEF 0 0 = some 0xFFFFDEAD ∧ x5 (.pExtractu 5 6 31 0) 0xDEADBEEF 0 0 = some 0xDEADBEEF ∧
    x5 (.pInsert 5 6 7 12) 0xFFFFFF00 0 0xFFFFFFFF = some 0xFFF00FFF ∧ x5 (.pBclr 5 6 15 8) 0xFFFFFFFF 0 0 = some 0xFF0000FF ∧
    x5 (.pBset 5 6 29 1) 0x80000001 0 0 = some 0xFFFFFFFF ∧ x5 (.pInsertr 5 6 7) 0xAB 0xF8 0x11223344 = some 0xAB223344 ∧
    x5 (.pRor 5 6 7) 0x12345678 0xFFFFFFFC 0 = some 0x23456781 ∧ x5 (.pFf1 5 6) 0 0 0 = some 32 ∧
    x5 (.pFl1 5 6) 0xFFFF 0 0 = some 15 ∧ x5 (.pClb 5 6) 0xFFFF0000 0 0 = some 16 ∧ x5 (.pCnt 5 6) 0x80000001 0 0 = some 2 ∧
    x5 (.pAbs 5 6) 0x80000000 0 0 = some 0x80000000 ∧ x5 (.pSlet 5 6 7) 0x7FFFFFFF 0x80000000 0 = some 0 ∧
    x5 (.pClip 5 6 0) 0x80000000 0 0 = some 0xFFFFFFFF ∧ x5 (.pClip 5 6 31) 0x7FFFFFFF 0 0 = some 0x3FFFFFFF ∧
    x5 (.pClipr 5 6 7) 5 0xFFFFFFFD 0 = some 0xFFFFFFFD := by decide +kernel

/-- 96_test_vectors_pulp.md section 2.9. -/
theorem test_pulp_mac :
    x5 (.pMacuN 5 6 7 31) 0x80007FFF 0x8000FFFF 0xFFFFFFFF = some 0 ∧
    x5 (.pMachhuN 5 6 7 1) 0x80007FFF 0x8000FFFF 0xC0000000 = some 0 ∧
    x5 (.pMacuRN 5 6 7 1) 0x80007FFF 0x8000FFFF 0xFFFFFFFF = some 0x3FFF4000 ∧
    x5 (.pMachhuRN 5 6 7 31) 0x80007FFF 0x8000FFFF 0x7FFFFFFF = some 1 := by decide +kernel

/-- 96_test_vectors_pulp.md sections 2.10.1 to 2.10.5. -/
theorem test_vector :
    x5 (.pvAddB 5 6 7) 0xFF80FF7F 0x01800101 0 = some 0x80 ∧ x5 (.pvAddSciB 5 6 0x20) 0x20E01F00 0 0 = some 0x00C0FFE0 ∧
    x5 (.pvAvgH 5 6 7) 0x7FFF8000 0x7FFF8000 0 = some 0xFFFF0000 ∧ x5 (.pvMinuSciH 5 6 32) 0x0020FFDF 0 0 = some 0x00200020 ∧
    x5 (.pvSrlB 5 6 7) 0x80808080 0x08070100 0 = some 0x80014080 ∧ x5 (.pvSraSciH 5 6 63) 0x80007FFF 0 0 = some 0xFFFF0000 ∧
    x5 (.pvExtractB 5 6 3) 0x80FF7F01 0 0 = some 0xFFFFFF80 ∧ x5 (.pvInsertH 5 6 1) 0x80FF7F01 0 0xAABBCCDD = some 0x7F01CCDD ∧
    x5 (.pvDotuspB 5 6 7) 0xFFFFFFFF 0x80808080 0 = some 0xFFFE0200 ∧
    x5 (.pvSdotspSciB 5 6 31) 0x01010101 0 0xFFFFFF84 = some 0 ∧ x5 (.pvShuffleI1SciB 5 6 39) 0x44332211 0 0 = some 0x22332244 ∧
    x5 (.pvShuffle2B 5 6 7) 0x44332211 0x03060104 0xDDCCBBAA = some 0xDD33BB11 ∧
    x5 (.pvPackH 5 6 7) 0xFFFF0001 0x12348000 0 = some 0x00018000 ∧
    x5 (.pvCmpgtuSciB 5 6 31) 0x1E1F20FF 0 0 = some 0xFFFF ∧ x5 (.pvCmpleScB 5 6 7) 0x7F0080FF 0x123456FF 0 = some 0xFFFF := by
  decide +kernel

/-! ## Whole steps -/

/-- `addi x5, x6, -1` as the first instruction after reset, with x6 = 0. -/
theorem test_step_runs_the_fetched_word :
    after? (step (State.reset.withFetchWord 32 0xFFF30293)) (fun t => (t.readX 5, t.pc, t.ppc)) =
      some (0xFFFFFFFF, 0x84, 0x80) := by decide +kernel
/-- A 16-bit word: `c.li x10, 31`. -/
theorem test_step_runs_a_half_word :
    after? (step (State.reset.withFetchWord 16 0x457D)) (fun t => (t.readX 10, t.pc)) = some (31, 0x82) := by decide +kernel
/-- 95_test_vectors.md section 2.12: an illegal word with DBG_IE.ILL. -/
theorem test_step_illegal_word_halts :
    after? (step { (State.withFetchWord { State.reset with pc := 0x104 } 32 0xFFFFFFFF) with dbgIe := 4 })
      (fun t => (t.mepc, t.mcause, t.halted, t.ppc, t.pc, t.dbgCause)) = some (0x104, 2, true, 0x104, 0x84, 2) := by
  decide +kernel
/-- 95_test_vectors.md section 2.11: an interrupt wins over the illegal word at the pc. -/
theorem test_step_interrupt :
    after? (step { (State.withFetchWord { State.reset with pc := 0x100 } 32 0xFFFFFFFF) with mstatus := 0x1808, irq := some 3 })
      (fun t => (t.mepc, t.mcause, t.mstatus, t.pc, t.irqAck)) = some (0x100, 0x80000003, 0x1880, 0xC, some 3) := by
  decide +kernel
/-- 95_test_vectors.md section 2.12: debug accesses to a CSR. -/
theorem test_debug_csr :
    after? (step { State.reset with halted := true, mepc := 0x108, inputs := [.debugRead 0x4D04] }) (·.dbgRdata) = some 0x108 ∧
    after? (step { State.reset with halted := true, inputs := [.debugWrite 0x4C00 0xFFFFFFFF] }) (·.mstatus) = some 0x1888 := by
  decide +kernel
/-- 60_exceptions.md R747, U12: a debug write of DBG_NPC with bit 0 set is refused; 95_test_vectors.md section 2.12: an even
value. -/
theorem test_debug_npc :
    (match step { State.reset with halted := true, inputs := [.debugWrite 0x2000 0x203] } with
      | .refused r => decide (r = .debugAccess 0x2000)
      | _ => false) = true ∧
    after? (step { State.reset with halted := true, inputs := [.debugWrite 0x2000 0x200] }) (·.pc) = some 0x200 := by
  decide +kernel
/-- 10_state.md R33, 60_exceptions.md R723: a saturating and a wrapping counter (notes/assumptions/46.md). -/
theorem test_counter_saturates_or_wraps :
    let full : State := { State.withFetchWord State.reset 32 0x13 with
      pcer := 2, pccr := State.reset.pccr.setIfInBounds 1 0xFFFFFFFF }
    after? (step full) (·.counter 1) = some 0xFFFFFFFF ∧ after? (step { full with pcmr := 2 }) (·.counter 1) = some 0 := by
  decide +kernel

/-- 20_memory.md R108: another master stores 0xAA at 0x1004 between the two parts of a load at 0x1001. -/
theorem test_split_load_is_torn :
    after? (exec (.lw 5 6 0) { mk 0x200 [(6, 0x1001)] with mem := loadMem, between := [(0x1004, 0xAA)] })
      (fun t => (t.readX 5, t.between, t.read8 0x1004)) = some (0xAA9234FF, [], 0xAA) := by decide +kernel
/-- 20_memory.md R110: nothing answers above 0x1FFF. -/
theorem test_no_memory_is_refused :
    (match exec (.sb 5 6 0) { mk 0x200 [(6, 0x2000)] with params := { Params.default with mem :=
      [⟨0, 0x2000, true, true, true, true, .memory⟩] } } with
      | .refused r => decide (r = .noMemory 0x2000)
      | _ => false) = true := by decide +kernel
/-- 70_reset_and_hazards.md R801, its examples. -/
theorem test_reset_vector :
    (State.resetOf Params.default 0x1C008000).pc = 0x1C008080 ∧ (State.resetOf Params.default 0xFF).pc = 0x80 := by
  decide +kernel
/-- 10_state.md R50: two storages; the fetch reads the instruction port's. -/
theorem test_separate_storage_is_fetched :
    after? (step ((State.resetOf { Params.default with unified := false } 0).withFetchWord 16 0x457D))
      (fun t => (t.readX 10, t.mem)) = some (31, []) := by decide +kernel
/-- 40_rv32i_base.md R204: `jalr x1, 0(x5)` after an instruction that wrote x5, and after one that did not. -/
theorem test_jump_register_hazard :
    let s : State := { State.withFetchWord State.reset 32 0x000280E7 with pcer := 8 }
    after? (step { s with prevWrites := some [5] }) (·.counter 3) = some 1 ∧ after? (step s) (·.counter 3) = some 0 := by
  decide +kernel
/-- 60_exceptions.md R756: a request wakes a core in debug mode. -/
theorem test_request_wakes_in_debug_mode :
    after? (step { State.reset with halted := true, sleeping := true, inputs := [.irq (some 3)] })
      (fun t => (t.sleeping, t.halted)) = some (false, true) := by decide +kernel
/-- 92_eei_decisions.md D15: `wfi` with a request present, MSTATUS.MIE = 0, does not sleep, and goes on. -/
theorem test_wfi_with_a_request_goes_on :
    after? (step { State.reset.withFetchWord 32 0x10500073 with irq := some 3 }) (fun t => (t.sleeping, t.pc)) =
      some (false, 0x84) := by decide +kernel
/-- 60_exceptions.md R752: one instruction, then debug mode with SSTH = 1; DBG_HIT then reads 1. -/
theorem test_single_step :
    after? (step { State.reset.withFetchWord 16 0x457D with sste := true })
      (fun t => (t.halted, t.ssth, t.ppc, t.pc, after? (step { t with inputs := [.debugRead 0x0004] }) (·.dbgRdata))) =
      some (true, true, 0x80, 0x82, some 1) := by decide +kernel

/-! ## Witnesses: for each obligation with hypotheses, a state and operands that meet them, at the boundaries of their ranges -/

/-- Reset with x6 = 0x80000000, x7 = 0xFFFFFFFF and a memory in use. -/
def w0 : State := { mk 0x200 [(6, 0x80000000), (7, 0xFFFFFFFF)] with mem := loadMem }
/-- Shared memory at 0 to 0x1FFF, a device to 0x2FFF, a region that never grants to 0x3FFF, nothing above; x6 and x7 name
the two. -/
def wSmall : State := { mk 0x200 [(6, 0x3000), (7, 0x2000)] with mem := loadMem, params := { Params.default with mem :=
  [⟨0, 0x2000, true, true, true, true, .memory⟩, ⟨0x2000, 0x1000, true, true, true, false, .device⟩,
   ⟨0x3000, 0x1000, true, true, true, false, .silent⟩] } }
/-- 20_memory.md R118: the hart stores to an executable device, and the fetch of that byte is refused. -/
theorem test_fetch_after_a_device_store_is_refused :
    after? (exec (.sb 6 7 1) wSmall) (fun t =>
      match State.fetch { t with pc := 0x2000 } with
      | .error e => some e
      | .ok _ => none) = some (some (.refuse (.staleFetch 0x2000))) := by decide +kernel
/-- Loop 0 ends at the pc with count `c0`, loop 1 at `e1` with count `c1`. -/
def wLoop (c0 e1 c1 : Word) : State := { w0 with loop0 := ⟨0x1F0, 0x200, c0⟩, loop1 := ⟨0x1E1, e1, c1⟩ }
/-- The FPU is absent. -/
def wNoFpu : State := { w0 with params := { Params.default with fpu := false } }
/-- The step answers a next state. -/
noncomputable def steps (s : State) : Bool := (after? (step s) fun _ => true) == some true
/-- The instruction answers a next state. -/
def runs (i : Instr) (s : State) : Bool := (after? (exec i s) fun _ => true) == some true

theorem witness_RegisterZeroReadsZero : (31 : Reg) ≠ 0 ∧ (1 : Reg) ≠ 31 := by decide
theorem witness_IntegerAluResults : w0.hitsShortLoop = false := by decide +kernel
/-- Of the same hypothesis: the results with a loop that ends here and is long enough. -/
theorem witness_long_loop : (wLoop 2 0x200 1).hitsShortLoop = false ∧ (wLoop 2 0x200 1).hitsLoop = true := by decide +kernel
theorem witness_JumpTargets : w0.hitsLoop = false := by decide +kernel
theorem witness_BranchOutcomes : (wLoop 0 0x200 0).hitsLoop = false := by decide +kernel
theorem witness_LoadResults :
    let a := w0.readX 7 + BitVec.ofInt 32 (0 : BitVec 12).toInt
    let b := w0.readX 7 + w0.readX 7
    w0.hitsShortLoop = false ∧ a = 0xFFFFFFFF ∧ w0.stopAccess .load a 1 = none ∧ w0.stopAccess .load a 2 = none ∧
    w0.stopAccess .load a 4 = none ∧ w0.stopAccess .load b 1 = none ∧ w0.stopAccess .load b 2 = none ∧
    w0.stopAccess .load b 4 = none := by decide +kernel
theorem witness_StoreEffects :
    let a := w0.readX 7 + BitVec.ofInt 32 (0xFFF : BitVec 12).toInt
    let b := w0.readX 7 + w0.readX 6
    w0.hitsShortLoop = false ∧ a = 0xFFFFFFFE ∧ w0.stopAccess .store a 1 = none ∧ w0.stopAccess .store a 2 = none ∧
    w0.stopAccess .store a 4 = none ∧ w0.stopAccess .store b 1 = none ∧ w0.stopAccess .store b 2 = none ∧
    w0.stopAccess .store b 4 = none := by decide +kernel
/-- A byte of the second part, one of the first part with no store between, a device, a byte outside. -/
theorem witness_StoredBytesReadBack :
    Memory.wf w0.mem = true ∧ 3 < StoreKind.sw.size ∧ w0.deviceAt .store (0xFFFFFFFE + BitVec.ofNat 32 3) = false ∧
    (splits 0xFFFFFFFE 4 = true ∧ ¬ (0xFFFFFFFE : Word).toNat % 4 + 3 < 4 ∧ w0.between = []) ∧
    (Memory.wf wSmall.mem = true ∧ wSmall.deviceAt .store (0x1FFE + BitVec.ofNat 32 3) = true) ∧
    ∀ j < StoreKind.sw.size, (0x1000 : Word) ≠ 0xFFFFFFFE + BitVec.ofNat 32 j := by decide +kernel
theorem witness_FenceEffects : w0.hitsShortLoop = false := by decide +kernel
theorem witness_BreakpointHaltsOrStops :
    ({ w0 with dbgIe := 0x8 } : State).dbgIe.getLsbD 3 = true ∧ w0.dbgIe.getLsbD 3 = false := by decide +kernel
theorem witness_TrapReturn : w0.hitsLoop = false := by decide +kernel
theorem witness_WaitForInterruptSleepsAndWakes :
    let a : State := { w0 with sleeping := true }
    w0.hitsShortLoop = false ∧ (a.inputs = [] ∧ a.halted = false ∧ a.sleeping = true ∧ a.irq = none) ∧
    ({ a with irq := some 31 }.irq = some (31 : BitVec 5)) ∧
    ({ a with inputs := [.irq (some 31)] } : State).inputs = [.irq (some 31)] ∧
    ({ a with irq := some 31, inputs := [.irq none] } : State).inputs = [.irq none] := by decide +kernel
theorem witness_CsrInstructionsReadThenWrite :
    let c := Csr.lpend 0
    let x := w0.readX 6
    let i := BitVec.ofNat 32 (31 : BitVec 5).toNat
    let old := w0.readCsr c
    Csr.ofNumber w0.params.fpu 0x7B1 = some c ∧ w0.hitsShortLoop = false ∧ c.readOnly = false ∧ w0.csrInBody c = false ∧
    (w0.writeCsr c x).hitsShortLoop = false ∧ (w0.writeCsr c i).hitsShortLoop = false ∧ (6 : Reg) ≠ 0 ∧ (31 : BitVec 5) ≠ 0 ∧
    (w0.writeCsr c (old ||| x)).hitsShortLoop = false ∧ (w0.writeCsr c (old &&& ~~~x)).hitsShortLoop = false ∧
    (w0.writeCsr c (old ||| i)).hitsShortLoop = false ∧ (w0.writeCsr c (old &&& ~~~i)).hitsShortLoop = false := by
  decide +kernel
theorem witness_CsrWritesReadBackThroughTheirMasks : Csr.mtvec.readOnly = true ∧ Csr.mstatus.readOnly = false := by
  decide +kernel
theorem witness_CsrStops :
    Csr.ofNumber w0.params.fpu 0xB00 = none ∧ Csr.ofNumber wNoFpu.params.fpu 0x001 = none ∧
    Csr.ofNumber w0.params.fpu 0x305 = some .mtvec ∧ Csr.mtvec.readOnly = true ∧ (1 : Reg) ≠ 0 ∧ (1 : BitVec 5) ≠ 0 ∧
    (let s := wLoop 1 0x204 0
     let l := s.loopRegs 0
     Csr.ofNumber s.params.fpu 0x7B2 = some (.lpcount 0) ∧ Csr.lpcount 0 ∈ [Csr.lpstart 0, .lpend 0, .lpcount 0] ∧
     l.count.toNat ≠ 0 ∧ l.start.toNat ≤ s.pc.toNat ∧ s.pc.toNat ≤ l.stop.toNat) := by
  decide +kernel
theorem witness_MultiplyHalvesOfTheProduct : w0.hitsShortLoop = false := by decide +kernel
theorem witness_DivideQuotientAndRemainder :
    w0.hitsShortLoop = false ∧ (w0.readX 0).toNat = 0 ∧ ((w0.readX 6).toInt = -2 ^ 31 ∧ (w0.readX 7).toInt = -1) ∧
    ((w0.readX 6).toNat ≠ 0 ∧ ((w0.readX 7).toInt ≠ -2 ^ 31 ∨ (w0.readX 6).toInt ≠ -1)) := by decide +kernel
theorem witness_FloatLoadsAndStores :
    let a := w0.readX 7 + BitVec.ofInt 32 (0 : BitVec 12).toInt
    let c := w0.readX (BitVec.ofNat 5 (8 + (7 : CReg).toNat)) + BitVec.ofNat 32 (4 * (31 : BitVec 5).toNat)
    let p := w0.readX 2 + BitVec.ofNat 32 (4 * (63 : BitVec 6).toNat)
    w0.params.fpu = true ∧ w0.hitsShortLoop = false ∧
    (w0.stopAccess .load a 4 = none ∧ w0.stopAccess .load c 4 = none ∧ w0.stopAccess .load p 4 = none) ∧
    (w0.stopAccess .store a 4 = none ∧ w0.stopAccess .store c 4 = none ∧ w0.stopAccess .store p 4 = none) := by
  decide +kernel
theorem witness_FloatMovesAndSigns : w0.params.fpu = true ∧ w0.hitsShortLoop = false := by decide +kernel
theorem witness_FloatArithmeticCompletes :
    w0.params.fpu = true ∧ w0.hitsShortLoop = false ∧ w0.rounding 4 = some .rmm ∧
    ({ w0 with frm := 3 } : State).rounding 7 = some .rup := by decide +kernel
/-- The premises inside `RoundsTo`: no overflow, exact and inexact; overflow; underflow; a tie to even. -/
theorem witness_RoundingIsCorrect :
    (Ieee.roundPack .rne false 1 0).2.getLsbD 2 = false ∧ (Ieee.roundPack .rtz true (2 ^ 24 + 1) 0).2 = 1 ∧
    Ieee.roundPack .rdn true 1 128 = (0xFF800000, 5) ∧ Ieee.roundPack .rup true 1 128 = (0xFF7FFFFF, 5) ∧
    Ieee.roundPack .rne false 3 (-150) = (2, 3) ∧ Ieee.roundPack .rne false 1 (-150) = (0, 3) ∧
    Ieee.roundPack .rmm false 1 (-150) = (1, 3) := by decide +kernel
theorem witness_FloatSumsAndProductsAreRoundedOnce :
    let one := Ieee.unpack 0x3F800000
    let zero := Ieee.unpack 0x80000000
    one.isFin = true ∧ zero.isFin = true ∧ one.toRat + one.toRat ≠ 0 ∧ zero.toRat + zero.toRat = 0 ∧
    one.toRat - zero.toRat ≠ 0 ∧ one.toRat - one.toRat = 0 ∧ Ieee.isNaN 0x7F800001 = true ∧
    (Ieee.Val.fin false 1 0).toRat * (Ieee.Val.fin false 1 0).toRat + (Ieee.Val.fin false 0 0).toRat ≠ 0 ∧
    (Ieee.Val.fin false 1 0).toRat * (Ieee.Val.fin false 2 0).toRat + (Ieee.Val.fin true 1 1).toRat = 0 := by
  decide +kernel
/-- Of the same: the first and the last NaN, the infinities, the last finite number, each kind of product. -/
theorem witness_FloatSumsAndProducts_special :
    (Ieee.isNaN 0x7F800001 = true ∧ Ieee.isSignalling 0x7F800001 = true ∧ Ieee.isNaN 0xFFFFFFFF = true ∧
      Ieee.isSignalling 0xFFFFFFFF = false) ∧
    (0x7F800000 : Word).toNat % 2 ^ 31 = 0x7F800000 ∧ (0xFF800000 : Word).toNat % 2 ^ 31 = 0x7F800000 ∧
    (0xFF7FFFFF : Word).toNat % 2 ^ 31 < 0x7F800000 ∧ (Ieee.unpack 0xFF7FFFFF).isFin = true ∧
    (let p := Ieee.Val.inf true
     (∃ s1 s2 e, (p = .inf s1 ∧ Ieee.Val.fin false 0 7 = .fin s2 0 e) ∨ (p = .fin s2 0 e ∧ Ieee.Val.fin false 0 7 = .inf s1)) ∧
     ∃ s1 s2, true = (s1 ^^ s2) ∧ ((p = .inf s1 ∧ Ieee.Val.fin false 1 7 = .inf s2) ∨
       ∃ n e, n ≠ 0 ∧ ((p = .inf s1 ∧ Ieee.Val.fin false 1 7 = .fin s2 n e) ∨
         (p = .fin s2 n e ∧ Ieee.Val.fin false 1 7 = .inf s1)))) :=
  ⟨by decide, by decide, by decide, by decide, by decide, ⟨true, false, 7, .inl ⟨rfl, rfl⟩⟩,
    true, false, rfl, .inr ⟨1, 7, by decide, .inl ⟨rfl, rfl⟩⟩⟩
theorem witness_QuotientAndRootAreCorrectlyRounded :
    let one := Ieee.unpack 0x3F800000
    let zero := Ieee.unpack 0
    let neg := Ieee.unpack 0xBF800000
    one.isFin = true ∧ zero.isFin = true ∧ neg.isFin = true ∧ one.toRat ≠ 0 ∧ 0 ≤ zero.toRat ∧ 0 ≤ one.toRat ∧
    zero.toRat = 0 ∧ neg.toRat < 0 ∧ Ieee.isNaN 0xFF800001 = true ∧ (0x7F800000 : Word).toNat % 2 ^ 31 = 0x7F800000 ∧
    (0xFF800000 : Word).toNat % 2 ^ 31 = 0x7F800000 ∧ (0x3F800000 : Word).getLsbD 31 ≠ (0xFF800000 : Word).getLsbD 31 := by
  decide +kernel
theorem witness_FloatComparisonsAndExtrema :
    w0.params.fpu = true ∧ w0.hitsShortLoop = false ∧ Ieee.isNaN (w0.readF 1) = false ∧
    (let s := { w0 with f := w0.f.setIfInBounds 2 0x7F800001 }
     Ieee.isNaN (s.readF 2) = true ∧ Ieee.isNaN (s.readF 1) = false) ∧
    (let s := { w0 with f := w0.f.setIfInBounds 2 0x80000000 }
     s.readF 1 = 0 ∧ s.readF 2 = 0x80000000) := by decide +kernel
theorem witness_FloatToIntegerConversions :
    w0.params.fpu = true ∧ w0.hitsShortLoop = false ∧ w0.rounding 1 = some .rtz ∧ (Ieee.unpack (w0.readF 1)).isFin = true ∧
    (let s := { w0 with f := (w0.f.setIfInBounds 2 0x7F800000).setIfInBounds 3 0xFF800000 }
     s.readF 2 = 0x7F800000 ∧ s.readF 3 = 0xFF800000) := by decide +kernel
theorem witness_ReservedRoundingIsRefused :
    w0.params.fpu = true ∧ ((7 : BitVec 3) = 7 ∧ 5 ≤ ({ w0 with frm := 5 } : State).frm.toNat) := by decide +kernel
theorem witness_FloatWithoutFpuTraps : wNoFpu.params.fpu = false ∧ isFloat (.flw 1 2 3) = true := by decide +kernel
theorem witness_CompressedInstructionResults :
    let m := w0.readX (BitVec.ofNat 5 (8 + (7 : CReg).toNat)) + BitVec.ofNat 32 (4 * (31 : BitVec 5).toNat)
    let p := w0.readX 2 + BitVec.ofNat 32 (4 * (63 : BitVec 6).toNat)
    w0.hitsShortLoop = false ∧ w0.stopAccess .load m 4 = none ∧ w0.stopAccess .load p 4 = none ∧
    w0.stopAccess .store m 4 = none ∧ w0.stopAccess .store p 4 = none := by decide +kernel
theorem witness_PostIncrementLoads :
    w0.hitsShortLoop = false ∧ w0.stopAccess .load (w0.readX 7) 1 = none ∧ w0.stopAccess .load (w0.readX 7) 2 = none ∧
    w0.stopAccess .load (w0.readX 7) 4 = none := by decide +kernel
theorem witness_PostIncrementStores :
    w0.hitsShortLoop = false ∧ w0.stopAccess .store (w0.readX 7) 1 = none ∧ w0.stopAccess .store (w0.readX 7) 2 = none ∧
    w0.stopAccess .store (w0.readX 7) 4 = none := by decide +kernel
theorem witness_LoopSetupWrites :
    let old := w0.loopRegs 1
    let target := w0.pc + BitVec.ofNat 32 (2 * (4095 : BitVec 12).toNat)
    old.insideActive w0.pc = false ∧ (w0.setLoopRegs 1 { old with start := target }).hitsShortLoop = false ∧
    (w0.setLoopRegs 1 { old with stop := target }).hitsShortLoop = false ∧
    (w0.setLoopRegs 1 { old with count := w0.readX 7 }).hitsShortLoop = false ∧
    (w0.setLoopRegs 1 { old with count := 4095 }).hitsShortLoop = false ∧
    (w0.setLoopRegs 1 ⟨w0.pc + 4, target, w0.readX 7⟩).hitsShortLoop = false := by decide +kernel
theorem witness_ImmediateLoopSetupAndLoopWriteStops :
    (¬((w0.loopRegs 0).count.toNat ≠ 0) ∧
      (w0.setLoopRegs 0 ⟨w0.pc + 4, w0.pc + BitVec.ofNat 32 (2 * (31 : BitVec 5).toNat), 4095⟩).hitsShortLoop = false) ∧
    (let old := (wLoop 1 0x200 1).loopRegs 0
     old.count.toNat ≠ 0 ∧ old.start.toNat ≤ (0x200 : Word).toNat ∧ (0x200 : Word).toNat ≤ old.stop.toNat) := by
  decide +kernel
theorem witness_HardwareLoopStep :
    (∀ c : Word, (wLoop c 0x204 0).pc = (wLoop c 0x204 0).loop0.stop) ∧
    (wLoop 2 0x204 0).loop0.count.toNat = 2 ∧ (wLoop 1 0x200 2).loop0.count.toNat = 1 ∧
    (wLoop 1 0x200 2).pc = (wLoop 1 0x200 2).loop1.stop ∧ (wLoop 1 0x200 2).loop1.count.toNat = 2 ∧
    (wLoop 1 0x200 1).loop1.count.toNat = 1 ∧ (wLoop 1 0x204 1).pc ≠ (wLoop 1 0x204 1).loop1.stop ∧
    (wLoop 0 0x200 2).loop0.count = 0 ∧ (wLoop 0 0x200 2).pc = (wLoop 0 0x200 2).loop1.stop :=
  ⟨fun _ => rfl, by decide +kernel⟩
theorem witness_LoopEndConstraints :
    ((wLoop 1 0x204 0).hitsLoop = true ∧ assignsPc (.jal 0 4) = true) ∧
    (let s := { w0 with loop0 := ⟨0x200, 0x200, 1⟩ }
     s.hitsShortLoop = true ∧ ∀ i ∈ [Instr.addi 5 5 1, .csrrs 5 0 0x7B1, .csrrw 5 6 0x300],
       entersTrap s i = false ∧ writesLoopRegister s i = false) := by decide +kernel
/-- The widest field that fits, and the narrowest that does not. -/
theorem witness_BitFieldResults :
    w0.hitsShortLoop = false ∧ (0 : BitVec 5).toNat + ((31 : BitVec 5).toNat + 1) ≤ 32 ∧
    32 < (1 : BitVec 5).toNat + ((31 : BitVec 5).toNat + 1) ∧ (w0.readX 6).toNat % 32 + ((w0.readX 6).toNat / 32 % 32 + 1) ≤ 32 ∧
    32 < (w0.readX 7).toNat % 32 + ((w0.readX 7).toNat / 32 % 32 + 1) := by decide +kernel
theorem witness_BitCountingResults :
    w0.hitsShortLoop = false ∧ (w0.readX 0).toNat = 0 ∧ (w0.readX 7).toNat ≠ 0 := by decide +kernel
theorem witness_GeneralAluResults : w0.hitsShortLoop = false := by decide +kernel
theorem witness_NormalisingAdditions : w0.hitsShortLoop = false := by decide +kernel
theorem witness_MultiplyAccumulate : w0.hitsShortLoop = false := by decide +kernel
theorem witness_HalfWordMultiplications : w0.hitsShortLoop = false := by decide +kernel
theorem witness_VectorHalfWordAlu : w0.hitsShortLoop = false := by decide +kernel
theorem witness_VectorByteAlu : w0.hitsShortLoop = false := by decide +kernel
theorem witness_VectorComparisons : w0.hitsShortLoop = false := by decide +kernel
theorem witness_DotProducts : w0.hitsShortLoop = false := by decide +kernel
theorem witness_VectorExtractAndInsert :
    w0.hitsShortLoop = false ∧ (1 : BitVec 6).toNat < 2 ∧ (3 : BitVec 6).toNat < 4 ∧ 2 ≤ (2 : BitVec 6).toNat ∧
    4 ≤ (4 : BitVec 6).toNat := by decide +kernel
theorem witness_VectorShuffles : w0.hitsShortLoop = false := by decide +kernel
theorem witness_VectorPacks : w0.hitsShortLoop = false := by decide +kernel
theorem witness_DecodeAndEncodeAreInverse :
    Instr.wf (.pMulsN 5 6 7 31) = true ∧ decodeCode (.word 0xFFF30293) = .ok (.addi 5 6 0xFFF) := by decide +kernel
/-- Every case: a next state, a fault, a refusal, an illegal word, a reserved word, a fetch that stops both ways. -/
theorem witness_StepRunsTheDecodedInstruction :
    let s := w0.withFetchWord 32 0xFFF30293
    (s.inputs = [] ∧ s.halted = false ∧ s.sleeping = false ∧ s.takeable = none) ∧ s.begin.fetch = .ok (.word 0xFFF30293) ∧
    decodeCode (.word 0xFFF30293) = .ok (.addi 5 6 0xFFF) ∧ runs (.addi 5 6 0xFFF) s.begin = true ∧
    (wSmall.withFetchWord 32 0x00032283).begin.fetch = .ok (.word 0x00032283) ∧
    decodeCode (.word 0x00032283) = .ok (.lw 5 6 0) ∧
    (match exec (.lw 5 6 0) (wSmall.withFetchWord 32 0x00032283).begin with | .fault _ => true | _ => false) = true ∧
    (match exec .ebreak s.begin with | .refused _ => true | _ => false) = true ∧
    (w0.withFetchWord 32 0xFFFFFFFF).begin.fetch = .ok (.word 0xFFFFFFFF) ∧
    (w0.withFetchWord 16 0x6101).begin.fetch = .ok (.half 0x6101) ∧
    State.fetch { wSmall with pc := 0x3000 } = .error (.fault (.stuck 0x3000)) ∧
    State.fetch { wSmall with pc := 0x4000 } = .error (.refuse (.noMemory 0x4000)) := by decide +kernel
theorem witness_FetchReadsTheParcelsAtThePc :
    let s := w0.withFetchWord 32 0xFFF30293
    let h := w0.withFetchWord 16 0x457D
    (s.stopAccess .fetch s.pc 2 = none ∧ s.isDirty s.pc = false ∧ s.isDirty (s.pc + 1) = false) ∧
    (s.stopAccess .fetch (s.pc + 2) 2 = none ∧ s.isDirty (s.pc + 2) = false ∧ s.isDirty (s.pc + 3) = false) ∧
    s.fetched s.pc 2 % 4 = 3 ∧ h.fetched h.pc 2 % 4 ≠ 3 ∧
    ({ s with dirty := [0x201] } : State).isDirty (s.pc + 1) = true ∧
    ({ s with dirty := [0x203] } : State).isDirty (s.pc + 3) = true ∧
    s.deviceAt .fetch 0x2000 = false ∧ wSmall.deviceAt .fetch 0x2000 = true := by decide +kernel
theorem witness_InterruptIsTaken :
    let s : State := { w0 with mstatus := 0x1808, irq := some 31, sleeping := true }
    s.inputs = [] ∧ s.halted = false ∧ s.mstatus.getLsbD 3 = true ∧ s.irq = some 31 ∧
    (s.heldIrq && Config.freeHolds s.draws) = false := by decide +kernel
/-- The debug addresses of x0 and x31, and the cases of the other clauses. -/
theorem witness_DebugHostAccess :
    (BitVec.ofNat 15 (0x400 + 4 * (0 : Reg).toNat) = 0x400 ∧ BitVec.ofNat 15 (0x400 + 4 * (31 : Reg).toNat) = 0x47C) ∧
    (let h : State := { w0 with halted := true }
     (h.inputs = [] ∧ h.halted = true) ∧
     ({ h with inputs := [.debugWrite 0x47C 5] } : State).inputs = [.debugWrite 0x47C 5] ∧
     (0x84 : Word).getLsbD 0 = false ∧ (0x85 : Word).getLsbD 0 = true ∧
     (1 : Word).getLsbD 16 = false ∧ (0x10001 : Word).getLsbD 16 = true ∧
     BitVec.ofNat 15 (0x4000 + 4 * (0x7B6 : CsrNum).toNat) = 0x5ED8 ∧
     Csr.ofNumber h.params.fpu 0x7B6 = some (.lpcount 1) ∧ Csr.ofNumber h.params.fpu 0x305 = some .mtvec ∧
     Csr.ofNumber h.params.fpu 0xFFF = none) ∧
    (BitVec.ofNat 15 (0x40 + 8 * 7) = 0x78 ∧ BitVec.ofNat 15 (0x44 + 8 * 7) = 0x7C) ∧
    (let s : State := { w0.withFetchWord 32 0xFFF30293 with sste := true }
     (s.inputs = [] ∧ s.halted = false ∧ s.sleeping = false ∧ s.sste = true ∧ s.takeable = none) ∧
     ({ s with mstatus := 0x1808, irq := some 31 } : State).takeable = some 31 ∧
     s.begin.fetch = .ok (.word 0xFFF30293) ∧ decodeCode (.word 0xFFF30293) = .ok (.addi 5 6 0xFFF) ∧
     runs (.addi 5 6 0xFFF) s.begin = true) ∧
    (let r : State := { w0.withFetchWord 32 0xFFF30293 with inputs := [.haltPulse] }
     let e : State := { w0.withFetchWord 32 0x00000073 with inputs := [.haltPulse] }
     (r.halted = false ∧ (r.mstatus.getLsbD 3 && r.irq.isSome || r.trapPending) = false) ∧
     e.halted = false ∧ e.trapPending = true) := by decide +kernel
theorem witness_OnlyDestinationRegistersChange : runs (.addi 5 6 1) w0 = true ∧ (7 : Reg) ∉ xWritten (.addi 5 6 1) := by
  decide +kernel
theorem witness_OnlyStoredBytesChange :
    Memory.wf w0.mem = true ∧ runs (.sw 7 6 0) w0 = true ∧ ¬ storesTo w0 (.sw 7 6 0) 0x80000004 := by
  refine ⟨by decide +kernel, by decide +kernel, ?_⟩
  rintro ⟨d, hd, _, k, hk, ha⟩
  obtain rfl : d = ⟨.store, 0x80000000, 4⟩ := by
    have : dataAccess w0 (.sw 7 6 0) = some ⟨.store, 0x80000000, 4⟩ := by decide +kernel
    rw [this] at hd; exact (Option.some.inj hd).symm
  revert ha; revert k; decide +kernel
theorem witness_OnlyNamedSystemStateChanges :
    let i : Instr := .faddS 1 2 3 0
    runs i w0 = true ∧ isCsrAccess i = false ∧ entersTrap w0 i = false ∧ i ≠ .mret ∧ i ≠ .wfi ∧ i ≠ .fenceI ∧
    isLoopSetup i = false := by decide +kernel
theorem witness_InvariantIsKeptByEveryStep : Inv State.reset ∧ steps State.reset = true :=
  ⟨⟨by decide, by decide, by decide, by decide, by decide, by decide, by decide, by decide, by decide, by decide⟩,
    by decide +kernel⟩
theorem witness_CountersCountAndAreWritten :
    let s : State := { w0 with pcer := 10, prevWrites := some [5] }
    (s.params.perfCounters = .individual ∧ raisesException s (.addi 5 6 1) = false ∧ s.live 1 = true ∧ s.live 2 = false ∧
      s.live 3 = true ∧ jumpBase (.jalr 1 5 0) = some 5 ∧ jumpBase (.addi 5 6 1) = none) ∧
    (4 : BitVec 5) ≠ 31 ∧ s.live (4 : BitVec 5).toNat = false ∧
    (let t : State := { w0 with params := { Params.default with perfCounters := .single }, pcmr := 0 }
     t.params.perfCounters = .single ∧ t.liveShared = false) ∧
    (let t : State := { w0 with params := { Params.default with perfCounters := .single }, pcer := 0x42 }
     t.params.perfCounters = .single ∧ raisesException t (.sw 7 6 1) = false ∧ t.liveShared = true ∧
     (∀ k < 21, t.pcer.getLsbD k = true → k ∈ [1, 5, 6, 7, 8, 9, 10]) ∧
     (dataAccess t (.sw 7 6 1)).map (fun d => (d.kind, d.addr.toNat % 4 + d.size)) = some (.store, 5)) := by decide +kernel
/-- An access inside a word and one across two, a device and no device, memory that answers and memory that does not, a silent
region, an instruction that each of the two stops, a second parcel that does, and shared and other addresses. -/
theorem witness_DataPortTransactions :
    (0x1000 : Word).toNat % 4 + 4 ≤ 4 ∧ 4 < (0x1001 : Word).toNat % 4 + 4 ∧ Memory.wf wSmall.mem = true ∧
    wSmall.deviceAt .load 0x2FFF = true ∧ wSmall.deviceAt .load 0x1FFF = false ∧ wSmall.deviceAt .store 0x2000 = true ∧
    wSmall.regionAt .load 0x4000 = none ∧
    (dataAccess wSmall (.lw 5 6 0) = some ⟨.load, 0x3000, 4⟩ ∧ raisesException wSmall (.lw 5 6 0) = false ∧
      wSmall.stopAccess .load 0x3000 4 = some (.fault (.stuck 0x3000))) ∧
    (dataAccess wSmall (.sw 5 7 0xFFE) = some ⟨.store, 0x1FFE, 4⟩ ∧ wSmall.stopAccess .store 0x3FFE 4 ≠ none ∧
      wSmall.stopAccess .load 0x4000 1 = some (.refuse (.noMemory 0x4000))) ∧
    wSmall.stopAccess .fetch 0x4000 2 = some (.refuse (.noMemory 0x4000)) ∧
    (let s : State := { wSmall with
        pc := 0x1FFE
        mem := [(0x1FFE, 0x13)]
        params := { wSmall.params with mem := [⟨0, 0x2000, true, true, true, true, .memory⟩] } }
     s.stopAccess .fetch s.pc 2 = none ∧ s.isDirty s.pc = false ∧ s.isDirty (s.pc + 1) = false ∧
     s.fetched s.pc 2 % 4 = 3 ∧ s.stopAccess .fetch (s.pc + 2) 2 = some (.refuse (.noMemory 0x2000))) ∧
    (wSmall.regionAt .load 0x3000).map (·.kind) = some .silent ∧ wSmall.sharedAt 0x1FFF = true ∧
    wSmall.sharedAt 0x2000 = false ∧ Memory.wf wSmall.imem = true := by decide +kernel

end Sys2Proof.Tests
end

