-- ==== Sys2Proof/Proofs/RegisterState.lean ====
section
/-! The integer register file (10_state.md R21), from the read-after-write laws of `writeX`. -/

namespace Sys2Proof.Proofs

open Sys2Proof.Machine

/-- Settles O1: it holds, by the laws of reading x0, the register just written and another register. -/
theorem registerZeroReadsZero : Obligations.RegisterZeroReadsZero := by
  intro s v
  refine ⟨readX_zero s, writeX_zero s v, fun r hr => ⟨?same, fun q hq => ?other⟩⟩
  case same => exact readX_writeX_same s r v hr
  case other => exact readX_writeX_other s r q v hq

end Sys2Proof.Proofs
end

