-- ==== Sys2Proof/Proofs/MultiplyAccumulate.lean ====
section
/-! 32-bit multiply-accumulate (48_pulp_mac.md R541, R542): reduction modulo `2^w` respects sums, differences and products,
so any integers that represent the operands give the same word. -/

namespace Sys2Proof.Proofs

open Sys2Proof.Machine

/-! ## Integers that represent a word -/

theorem ofInt_toNat {w : Nat} (x : BitVec w) : BitVec.ofInt w (x.toNat : Int) = x := by
  rw [BitVec.ofInt_natCast, BitVec.ofNat_toNat, BitVec.setWidth_eq]

theorem ofInt_add_mul {w : Nat} (d a b : Int) :
    BitVec.ofInt w (d + a * b) = BitVec.ofInt w d + BitVec.ofInt w a * BitVec.ofInt w b := by
  rw [BitVec.ofInt_add, BitVec.ofInt_mul]

theorem ofInt_sub_mul {w : Nat} (d a b : Int) :
    BitVec.ofInt w (d - a * b) = BitVec.ofInt w d - BitVec.ofInt w a * BitVec.ofInt w b := by
  rw [Int.sub_eq_add_neg, BitVec.ofInt_add, BitVec.ofInt_neg, BitVec.ofInt_mul, BitVec.sub_eq_add_neg]

/-! ## The two readings of the operands -/

theorem ofInt_toInt_add_mul {w : Nat} (d a b : BitVec w) :
    BitVec.ofInt w (d.toInt + a.toInt * b.toInt) = d + a * b := by
  simp only [ofInt_add_mul, BitVec.ofInt_toInt]

theorem ofInt_toInt_sub_mul {w : Nat} (d a b : BitVec w) :
    BitVec.ofInt w (d.toInt - a.toInt * b.toInt) = d - a * b := by
  simp only [ofInt_sub_mul, BitVec.ofInt_toInt]

theorem ofInt_toNat_sub_mul {w : Nat} (d a b : BitVec w) :
    BitVec.ofInt w (d.toNat - a.toNat * b.toNat) = d - a * b := by
  simp only [ofInt_sub_mul, ofInt_toNat]

theorem ofNat_toNat_add_mul {w : Nat} (d a b : BitVec w) :
    BitVec.ofNat w (d.toNat + a.toNat * b.toNat) = d + a * b := by
  simp only [BitVec.ofNat_add, BitVec.ofNat_mul, BitVec.ofNat_toNat, BitVec.setWidth_eq]

/-! ## The instructions -/

/-- Where no too-short loop ends, writing a register back is all an instruction does before the hardware-loop step. -/
theorem writeBack_eq_afterX {s : State} (n : Word) (rd : Reg) (v : Word) (h : s.hitsShortLoop = false) :
    writeBack n rd v s = .next (s.afterX n rd v) := by
  rw [writeBack_of_not_short n rd v h, State.afterX, State.after, writeX_pc]

theorem exec_pMac {s : State} (rd rs1 rs2 : Reg) (h : s.hitsShortLoop = false) :
    exec (.pMac rd rs1 rs2) s = .next (s.afterX 4 rd (s.readX rd + s.readX rs1 * s.readX rs2)) :=
  writeBack_eq_afterX 4 rd _ h

theorem exec_pMsu {s : State} (rd rs1 rs2 : Reg) (h : s.hitsShortLoop = false) :
    exec (.pMsu rd rs1 rs2) s = .next (s.afterX 4 rd (s.readX rd - s.readX rs1 * s.readX rs2)) :=
  writeBack_eq_afterX 4 rd _ h

/-- Settles O39: it holds. Each instruction writes the accumulated word, which both readings of the operands represent. -/
theorem multiplyAccumulate : Obligations.MultiplyAccumulate := by
  intro s rd rs1 rs2 a b d
  have signed_mac : BitVec.ofInt 32 (d.toInt + a.toInt * b.toInt) = d + a * b := ofInt_toInt_add_mul d a b
  have signed_msu : BitVec.ofInt 32 (d.toInt - a.toInt * b.toInt) = d - a * b := ofInt_toInt_sub_mul d a b
  rw [signed_mac, signed_msu]
  refine ⟨fun hs => ⟨exec_pMac rd rs1 rs2 hs, exec_pMsu rd rs1 rs2 hs⟩, ?unsigned_mac, ?unsigned_msu, ?word_mac, ?word_msu⟩
  case unsigned_mac => exact (ofNat_toNat_add_mul d a b).symm
  case unsigned_msu => exact (ofInt_toNat_sub_mul d a b).symm
  case word_mac => rfl
  case word_msu => rfl

end Sys2Proof.Proofs
end

