-- ==== Sys2Proof/Proofs/VectorPacks.lean ====
section
/-! PULP vectorial packs (49_pulp_vector.md R615 to R617): each element of a word put together from elements is the one put
there, so an instruction that writes such a word back writes those elements. -/

namespace Sys2Proof.Proofs

open Sys2Proof.Machine

/-! ## The elements of a word put together from elements -/

@[simp] theorem halfAt_ofHalves_one (e1 e0 : Half) : halfAt (ofHalves e1 e0) 1 = e1 :=
  (extract_append_high e1 e0 0 16).trans (extract_all e1)

@[simp] theorem halfAt_ofHalves_zero (e1 e0 : Half) : halfAt (ofHalves e1 e0) 0 = e0 :=
  (extract_append_low e1 e0 0 16 (by omega)).trans (extract_all e0)

@[simp] theorem byteAt_ofBytes_three (e3 e2 e1 e0 : Byte) : byteAt (ofBytes e3 e2 e1 e0) 3 = e3 :=
  (extract_append_high (e3 ++ e2 ++ e1) e0 16 8).trans <|
    (extract_append_high (e3 ++ e2) e1 8 8).trans <|
    (extract_append_high e3 e2 0 8).trans (extract_all e3)

@[simp] theorem byteAt_ofBytes_two (e3 e2 e1 e0 : Byte) : byteAt (ofBytes e3 e2 e1 e0) 2 = e2 :=
  (extract_append_high (e3 ++ e2 ++ e1) e0 8 8).trans <|
    (extract_append_high (e3 ++ e2) e1 0 8).trans <|
    (extract_append_low e3 e2 0 8 (by omega)).trans (extract_all e2)

@[simp] theorem byteAt_ofBytes_one (e3 e2 e1 e0 : Byte) : byteAt (ofBytes e3 e2 e1 e0) 1 = e1 :=
  (extract_append_high (e3 ++ e2 ++ e1) e0 0 8).trans <|
    (extract_append_low (e3 ++ e2) e1 0 8 (by omega)).trans (extract_all e1)

@[simp] theorem byteAt_ofBytes_zero (e3 e2 e1 e0 : Byte) : byteAt (ofBytes e3 e2 e1 e0) 0 = e0 :=
  (extract_append_low (e3 ++ e2 ++ e1) e0 0 8 (by omega)).trans (extract_all e0)

/-! ## Instructions that write such a word back -/

/-- An instruction that writes back a word put together from the half-words `e 1` and `e 0`. -/
theorem writesHalves_of_exec {s : State} {i : Instr} {rd : Reg} (e : Nat → Half) (h : s.hitsShortLoop = false)
    (hi : exec i s = writeBack ilen4 rd (ofHalves (e 1) (e 0)) s) : WritesHalves s i rd e := by
  refine ⟨ofHalves (e 1) (e 0), hi.trans (writeBack_eq_afterX ilen4 rd _ h), fun k hk => ?elements⟩
  case elements =>
    match k, hk with
    | 0, _ => exact halfAt_ofHalves_zero (e 1) (e 0)
    | 1, _ => exact halfAt_ofHalves_one (e 1) (e 0)

/-- An instruction that writes back a word put together from the bytes `e 3` to `e 0`. -/
theorem writesBytes_of_exec {s : State} {i : Instr} {rd : Reg} (e : Nat → Byte) (h : s.hitsShortLoop = false)
    (hi : exec i s = writeBack ilen4 rd (ofBytes (e 3) (e 2) (e 1) (e 0)) s) : WritesBytes s i rd e := by
  refine ⟨ofBytes (e 3) (e 2) (e 1) (e 0), hi.trans (writeBack_eq_afterX ilen4 rd _ h), fun k hk => ?elements⟩
  case elements =>
    match k, hk with
    | 0, _ => exact byteAt_ofBytes_zero (e 3) (e 2) (e 1) (e 0)
    | 1, _ => exact byteAt_ofBytes_one (e 3) (e 2) (e 1) (e 0)
    | 2, _ => exact byteAt_ofBytes_two (e 3) (e 2) (e 1) (e 0)
    | 3, _ => exact byteAt_ofBytes_three (e 3) (e 2) (e 1) (e 0)

theorem exec_pvPackH (rd rs1 rs2 : Reg) (s : State) :
    exec (.pvPackH rd rs1 rs2) s =
      writeBack ilen4 rd (ofHalves (halfAt (s.readX rs1) 0) (halfAt (s.readX rs2) 0)) s := rfl

theorem exec_pvPackhiB (rd rs1 rs2 : Reg) (s : State) :
    exec (.pvPackhiB rd rs1 rs2) s =
      writeBack ilen4 rd (ofBytes (byteAt (s.readX rs1) 0) (byteAt (s.readX rs2) 0)
        (byteAt (s.readX rd) 1) (byteAt (s.readX rd) 0)) s := rfl

theorem exec_pvPackloB (rd rs1 rs2 : Reg) (s : State) :
    exec (.pvPackloB rd rs1 rs2) s =
      writeBack ilen4 rd (ofBytes (byteAt (s.readX rd) 3) (byteAt (s.readX rd) 2)
        (byteAt (s.readX rs1) 0) (byteAt (s.readX rs2) 0)) s := rfl

/-- Settles O47: it holds. Each pack writes back the word put together from the elements that the statement names. -/
theorem vectorPacks : Obligations.VectorPacks := by
  intro s rd rs1 rs2 a b d
  refine ⟨fun hs => ⟨?pack_h, ?packhi_b, ?packlo_b⟩, ?word_h, ?word_hi, ?word_lo⟩
  case pack_h => exact writesHalves_of_exec _ hs (exec_pvPackH rd rs1 rs2 s)
  case packhi_b => exact writesBytes_of_exec _ hs (exec_pvPackhiB rd rs1 rs2 s)
  case packlo_b => exact writesBytes_of_exec _ hs (exec_pvPackloB rd rs1 rs2 s)
  case word_h => rfl
  case word_hi => rfl
  case word_lo => rfl

end Sys2Proof.Proofs
end

