-- ==== Sys2Proof/Proofs/EncodeOfDecode.lean ====
section
/-! Every word that the decoder reads is the encoding of what it read (30_encoding.md R140, R159, R175), table by table. -/

namespace Sys2Proof.Proofs

theorem extract_high {n m : Nat} (x : BitVec n) (y : BitVec m) : (x ++ y).extractLsb' m n = x :=
  (extract_append_high x y 0 n).trans (extract_all x)

theorem extract_low {n m : Nat} (x : BitVec n) (y : BitVec m) : (x ++ y).extractLsb' 0 m = y :=
  (extract_append_low x y 0 m (by omega)).trans (extract_all y)

/-- A vector is put together again from its two parts. -/
theorem extract_join {n m : Nat} (x : BitVec (n + m)) : x.extractLsb' m n ++ x.extractLsb' 0 m = x := by
  apply BitVec.eq_of_getLsbD_eq
  intro i hi
  simp only [BitVec.getLsbD_append, BitVec.getLsbD_extractLsb']
  grind

/-! ## The encoder undoes the decoder's reading of the fields -/

/-- The words `c` are the encoding of the well-formed instruction `i`. -/
def Encodes (c : Code) (i : Instr) : Prop := i.wf = true ∧ encode i = c

theorem whenZero_ok {z : Bool} {c : ReservedClass} {i j : Instr} (h : whenZero z c i = .ok j) : z = true ∧ i = j := by
  unfold whenZero at h
  split at h
  · exact ⟨by assumption, by injection h⟩
  · cases h

theorem orReserved_ok {c : ReservedClass} {o : Option Instr} {i : Instr} (h : orReserved c o = .ok i) : o = some i := by
  cases o <;> cases h
  rfl

theorem orIllegal_ok {o : Option Instr} {i : Instr} (h : orIllegal o = .ok i) : o = some i := by
  cases o <;> cases h
  rfl

section Formats
variable (f7 : BitVec 7) (rs2 rs1 : BitVec 5) (f3 : BitVec 3) (rd : BitVec 5) (op : BitVec 7)

theorem encI_immI : encI (immI f7 rs2) rs1 f3 rd op = encR f7 rs2 rs1 f3 rd op := by
  simp only [encI, immI, extract_high, extract_low]

theorem encS_immS : encS (immS f7 rd) rs2 rs1 f3 op = encR f7 rs2 rs1 f3 rd op := by
  simp only [encS, immS, extract_high, extract_low]

theorem encB_immB : encB (immB f7 rd) rs2 rs1 f3 op = encR f7 rs2 rs1 f3 rd op := by
  apply BitVec.eq_of_getLsbD_eq
  intro i hi
  simp only [encB, immB, encR, BitVec.getLsbD_append, BitVec.getLsbD_extractLsb']
  grind

theorem encU_immU : encU (immU f7 rs2 rs1 f3) rd op = encR f7 rs2 rs1 f3 rd op := by
  apply BitVec.eq_of_getLsbD_eq
  intro i hi
  simp only [encU, immU, encR, BitVec.getLsbD_append, BitVec.getLsbD_extractLsb']
  grind

theorem encJ_immJ : encJ (immJ f7 rs2 rs1 f3) rd op = encR f7 rs2 rs1 f3 rd op := by
  apply BitVec.eq_of_getLsbD_eq
  intro i hi
  simp only [encJ, immJ, encR, BitVec.getLsbD_append, BitVec.getLsbD_extractLsb']
  grind

theorem encPVI_imm6 : encPVI (f7.extractLsb' 1 6) (imm6 f7 rs2) rs1 f3 rd = encR f7 rs2 rs1 f3 rd 0x57#7 := by
  have h : f7.extractLsb' 1 6 ++ f7.extractLsb' 0 1 = f7 := extract_join (n := 6) (m := 1) f7
  simp only [encPVI, imm6, extract_high, extract_low, h]

end Formats

section Tables
variable {f7 : BitVec 7} {rs2 rs1 : BitVec 5} {f3 : BitVec 3} {rd : BitVec 5} {i : Instr}

theorem decodeLoad_encodes (h : decodeLoad f7 rs2 rs1 f3 rd = some i) :
    Encodes (.word (encR f7 rs2 rs1 f3 rd 0x03#7)) i := by
  unfold decodeLoad at h
  split at h
  case h_6 => split at h <;> cases h <;> exact ⟨rfl, rfl⟩
  all_goals cases h
  all_goals exact ⟨rfl, congrArg Code.word (encI_immI ..)⟩

theorem decodePostLoad_encodes (h : decodePostLoad f7 rs2 rs1 f3 rd = some i) :
    Encodes (.word (encR f7 rs2 rs1 f3 rd 0x0B#7)) i := by
  unfold decodePostLoad at h
  split at h
  case h_6 => split at h <;> cases h <;> exact ⟨rfl, rfl⟩
  all_goals cases h
  all_goals exact ⟨rfl, congrArg Code.word (encI_immI ..)⟩

theorem decodeStore_encodes (h : decodeStore f7 rs2 rs1 f3 rd = some i) :
    Encodes (.word (encR f7 rs2 rs1 f3 rd 0x23#7)) i := by
  unfold decodeStore at h
  split at h
  case h_4 | h_5 | h_6 =>
    split at h <;> cases h
    subst f7
    exact ⟨rfl, rfl⟩
  all_goals cases h
  all_goals exact ⟨rfl, congrArg Code.word (encS_immS ..)⟩

theorem decodePostStore_encodes (h : decodePostStore f7 rs2 rs1 f3 rd = some i) :
    Encodes (.word (encR f7 rs2 rs1 f3 rd 0x2B#7)) i := by
  unfold decodePostStore at h
  split at h
  case h_4 | h_5 | h_6 =>
    split at h <;> cases h
    subst f7
    exact ⟨rfl, rfl⟩
  all_goals cases h
  all_goals exact ⟨rfl, congrArg Code.word (encS_immS ..)⟩

theorem decodeFence_encodes (h : decodeFence f7 rs2 rs1 f3 rd = .ok i) :
    Encodes (.word (encR f7 rs2 rs1 f3 rd 0x0F#7)) i := by
  unfold decodeFence at h
  split at h
  case h_1 =>
    obtain ⟨hz, rfl⟩ := whenZero_ok h
    simp only [Bool.and_eq_true, beq_iff_eq] at hz
    obtain ⟨⟨h7, rfl⟩, rfl⟩ := hz
    refine ⟨rfl, congrArg Code.word ?_⟩
    have imm : 0#4 ++ (immI f7 rs2).extractLsb' 4 4 ++ (immI f7 rs2).extractLsb' 0 4 = immI f7 rs2 := by
      revert rs2 h7 f7; decide +kernel
    rw [imm]
    exact encI_immI ..
  case h_2 =>
    obtain ⟨hz, rfl⟩ := whenZero_ok h
    simp only [Bool.and_eq_true, beq_iff_eq] at hz
    obtain ⟨⟨⟨rfl, rfl⟩, rfl⟩, rfl⟩ := hz
    exact ⟨rfl, rfl⟩
  case h_3 => cases h

theorem decodeOpImm_encodes (h : decodeOpImm f7 rs2 rs1 f3 rd = some i) :
    Encodes (.word (encR f7 rs2 rs1 f3 rd 0x13#7)) i := by
  unfold decodeOpImm at h
  split at h
  case h_7 =>
    split at h <;> cases h
    subst f7
    exact ⟨rfl, rfl⟩
  case h_8 =>
    split at h
    · subst f7; cases h; exact ⟨rfl, rfl⟩
    · split at h <;> cases h
      subst f7
      exact ⟨rfl, rfl⟩
  all_goals cases h
  all_goals exact ⟨rfl, congrArg Code.word (encI_immI ..)⟩

theorem decodeOp00_encodes (h : decodeOp00 rs2 rs1 f3 rd = some i) :
    Encodes (.word (encR 0x00#7 rs2 rs1 f3 rd 0x33#7)) i := by
  unfold decodeOp00 at h
  split at h <;> cases h <;> exact ⟨rfl, rfl⟩

theorem decodeOp01_encodes (h : decodeOp01 rs2 rs1 f3 rd = some i) :
    Encodes (.word (encR 0x01#7 rs2 rs1 f3 rd 0x33#7)) i := by
  unfold decodeOp01 at h
  split at h <;> cases h <;> exact ⟨rfl, rfl⟩

theorem decodeOp02_encodes (h : decodeOp02 rs2 rs1 f3 rd = .ok i) :
    Encodes (.word (encR 0x02#7 rs2 rs1 f3 rd 0x33#7)) i := by
  unfold decodeOp02 at h
  split at h
  case h_1 =>
    obtain ⟨hz, rfl⟩ := whenZero_ok h
    obtain rfl : rs2 = 0 := by simpa using hz
    exact ⟨rfl, rfl⟩
  all_goals cases h
  all_goals exact ⟨rfl, rfl⟩

theorem decodeOp08_encodes (h : decodeOp08 rs1 f3 rd = some i) :
    Encodes (.word (encR 0x08#7 0 rs1 f3 rd 0x33#7)) i := by
  unfold decodeOp08 at h
  split at h <;> cases h <;> exact ⟨rfl, rfl⟩

theorem decodeOp0A_encodes (h : decodeOp0A rs2 rs1 f3 rd = some i) :
    Encodes (.word (encR 0x0A#7 rs2 rs1 f3 rd 0x33#7)) i := by
  unfold decodeOp0A at h
  split at h <;> cases h <;> exact ⟨rfl, rfl⟩

theorem decodeBF_encodes {ls3 ls2 : BitVec 5} (h : decodeBF ls3 ls2 rs1 f3 rd = some i) :
    Encodes (.word (encR (3#2 ++ ls3) ls2 rs1 f3 rd 0x33#7)) i := by
  unfold decodeBF at h
  split at h <;> cases h <;> exact ⟨rfl, rfl⟩

theorem decodeBFR_encodes {ls3 : BitVec 5} (h : decodeBFR ls3 rs2 rs1 f3 rd = .ok i) :
    Encodes (.word (encR (2#2 ++ ls3) rs2 rs1 f3 rd 0x33#7)) i := by
  unfold decodeBFR at h
  split at h
  case h_6 => cases h
  all_goals
    obtain ⟨hz, rfl⟩ := whenZero_ok h
    obtain rfl : ls3 = 0 := by simpa using hz
    exact ⟨rfl, rfl⟩

theorem decodeOpLow_encodes (h : decodeOpLow f7 rs2 rs1 f3 rd = .ok i) :
    Encodes (.word (encR f7 rs2 rs1 f3 rd 0x33#7)) i := by
  unfold decodeOpLow at h
  split at h
  case h_1 => exact decodeOp00_encodes (orIllegal_ok h)
  case h_2 => split at h <;> cases h <;> exact ⟨rfl, rfl⟩
  case h_3 => exact decodeOp01_encodes (orIllegal_ok h)
  case h_4 => split at h <;> cases h <;> exact ⟨rfl, rfl⟩
  case h_5 => exact decodeOp02_encodes h
  case h_6 =>
    split at h <;> cases h
    subst f3
    exact ⟨rfl, rfl⟩
  case h_7 =>
    split at h
    · subst rs2; exact decodeOp08_encodes (orIllegal_ok h)
    · cases h
  case h_8 => exact decodeOp0A_encodes (orIllegal_ok h)
  case h_9 => cases h

theorem decodeOp_encodes (h : decodeOp f7 rs2 rs1 f3 rd = .ok i) :
    Encodes (.word (encR f7 rs2 rs1 f3 rd 0x33#7)) i := by
  have joined : f7.extractLsb' 5 2 ++ f7.extractLsb' 0 5 = f7 := extract_join (n := 2) (m := 5) f7
  unfold decodeOp at h
  split at h
  case h_1 hf =>
    have := decodeBF_encodes (orIllegal_ok h)
    rwa [← hf, joined] at this
  case h_2 hf =>
    have := decodeBFR_encodes h
    rwa [← hf, joined] at this
  case h_3 => exact decodeOpLow_encodes h

theorem decodeOpFp_encodes (h : decodeOpFp f7 rs2 rs1 f3 rd = some i) :
    Encodes (.word (encR f7 rs2 rs1 f3 rd 0x53#7)) i := by
  unfold decodeOpFp at h
  split at h
  case h_5 =>
    split at h <;> cases h
    subst rs2
    exact ⟨rfl, rfl⟩
  case h_6 | h_7 | h_10 => split at h <;> cases h <;> exact ⟨rfl, rfl⟩
  case h_8 | h_11 =>
    split at h
    · subst rs2; cases h; exact ⟨rfl, rfl⟩
    · split at h <;> cases h
      subst rs2
      exact ⟨rfl, rfl⟩
  case h_9 =>
    split at h
    · subst rs2
      split at h <;> cases h <;> exact ⟨rfl, rfl⟩
    · cases h
  case h_12 =>
    split at h
    · rename_i hz
      simp only [Bool.and_eq_true, decide_eq_true_eq] at hz
      obtain ⟨rfl, rfl⟩ := hz
      cases h
      exact ⟨rfl, rfl⟩
    · cases h
  all_goals cases h
  all_goals exact ⟨rfl, rfl⟩

theorem decodeFma_encodes {op : BitVec 7} (h : decodeFma op f7 rs2 rs1 f3 rd = some i) :
    Encodes (.word (encR f7 rs2 rs1 f3 rd op)) i := by
  have joined : f7.extractLsb' 2 5 ++ f7.extractLsb' 0 2 = f7 := extract_join (n := 5) (m := 2) f7
  unfold decodeFma at h
  split at h
  case isTrue hz =>
    have fmt : f7.extractLsb' 2 5 ++ 0#2 = f7 := by rw [hz] at joined; exact joined
    split at h <;> cases h <;> exact ⟨rfl, congrArg (fun f => Code.word (encR f ..)) fmt⟩
  case isFalse => cases h

theorem decodePvH_encodes {f6 : BitVec 6} (h : decodePvH f6 rs2 rs1 rd = some i) :
    Encodes (.word (encR (f6 ++ 0#1) rs2 rs1 0#3 rd 0x57#7)) i := by
  unfold decodePvH at h
  split at h <;> cases h <;> exact ⟨rfl, rfl⟩

theorem decodePvB_encodes {f6 : BitVec 6} (h : decodePvB f6 rs2 rs1 rd = some i) :
    Encodes (.word (encR (f6 ++ 0#1) rs2 rs1 1#3 rd 0x57#7)) i := by
  unfold decodePvB at h
  split at h <;> cases h <;> exact ⟨rfl, rfl⟩

theorem decodePvScH_encodes {f6 : BitVec 6} (h : decodePvScH f6 rs2 rs1 rd = some i) :
    Encodes (.word (encR (f6 ++ 0#1) rs2 rs1 4#3 rd 0x57#7)) i := by
  unfold decodePvScH at h
  split at h <;> cases h <;> exact ⟨rfl, rfl⟩

theorem decodePvScB_encodes {f6 : BitVec 6} (h : decodePvScB f6 rs2 rs1 rd = some i) :
    Encodes (.word (encR (f6 ++ 0#1) rs2 rs1 5#3 rd 0x57#7)) i := by
  unfold decodePvScB at h
  split at h <;> cases h <;> exact ⟨rfl, rfl⟩

theorem decodePvSciH_encodes {f6 imm : BitVec 6} (h : decodePvSciH f6 imm rs1 rd = some i) :
    Encodes (.word (encPVI f6 imm rs1 6#3 rd)) i := by
  unfold decodePvSciH at h
  split at h <;> cases h <;> exact ⟨rfl, rfl⟩

theorem decodePvSciB_encodes {f6 imm : BitVec 6} (h : decodePvSciB f6 imm rs1 rd = some i) :
    Encodes (.word (encPVI f6 imm rs1 7#3 rd)) i := by
  unfold decodePvSciB at h
  split at h <;> cases h <;> exact ⟨rfl, rfl⟩

theorem decodePV_encodes (h : decodePV f7 rs2 rs1 f3 rd = .ok i) :
    Encodes (.word (encR f7 rs2 rs1 f3 rd 0x57#7)) i := by
  have joined : f7.extractLsb' 1 6 ++ f7.extractLsb' 0 1 = f7 := extract_join (n := 6) (m := 1) f7
  have register {t : Option Instr}
      (ht : (if f7.extractLsb' 0 1 = 0 then orReserved .vectorUnused t else .error (.reserved .vectorBit25)) = .ok i) :
      f7.extractLsb' 1 6 ++ 0#1 = f7 ∧ t = some i := by
    split at ht
    case isTrue hz => exact ⟨by rw [hz] at joined; exact joined, orReserved_ok ht⟩
    case isFalse => cases ht
  simp only [decodePV] at h
  split at h
  case h_1 =>
    obtain ⟨h7, ht⟩ := register h
    rw [← h7]
    split at ht
    case isTrue hf =>
      rw [hf]
      split at ht <;> cases ht
      subst rs2
      exact ⟨rfl, rfl⟩
    case isFalse => exact decodePvH_encodes ht
  case h_2 =>
    obtain ⟨h7, ht⟩ := register h
    rw [← h7]
    split at ht
    case isTrue hf =>
      rw [hf]
      split at ht <;> cases ht
      subst rs2
      exact ⟨rfl, rfl⟩
    case isFalse => exact decodePvB_encodes ht
  case h_3 => obtain ⟨h7, ht⟩ := register h; rw [← h7]; exact decodePvScH_encodes ht
  case h_4 => obtain ⟨h7, ht⟩ := register h; rw [← h7]; exact decodePvScB_encodes ht
  case h_5 => rw [← encPVI_imm6]; exact decodePvSciH_encodes (orReserved_ok h)
  case h_6 => rw [← encPVI_imm6]; exact decodePvSciB_encodes (orReserved_ok h)
  case h_7 => cases h

theorem decodePN_encodes {f2 : BitVec 2} {ls3 : BitVec 5} (h : decodePN f2 ls3 rs2 rs1 f3 rd = .ok i) :
    Encodes (.word (encR (f2 ++ ls3) rs2 rs1 f3 rd 0x5B#7)) i := by
  unfold decodePN at h
  split at h
  case h_1 | h_2 | h_3 | h_4 =>
    split at h
    · subst ls3; cases h; exact ⟨rfl, rfl⟩
    · cases h; exact ⟨by simpa [Instr.wf], rfl⟩
  case h_10 | h_12 | h_14 | h_16 | h_26 | h_28 | h_30 | h_32 =>
    obtain ⟨hz, rfl⟩ := whenZero_ok h
    obtain rfl : ls3 = 0 := by simpa using hz
    exact ⟨rfl, rfl⟩
  all_goals cases h
  all_goals exact ⟨rfl, rfl⟩

theorem decodeBranch_encodes (h : decodeBranch f7 rs2 rs1 f3 rd = some i) :
    Encodes (.word (encR f7 rs2 rs1 f3 rd 0x63#7)) i := by
  unfold decodeBranch at h
  split at h <;> cases h <;> exact ⟨rfl, congrArg Code.word (encB_immB ..)⟩

theorem decodeSystem_encodes (h : decodeSystem f7 rs2 rs1 f3 rd = some i) :
    Encodes (.word (encR f7 rs2 rs1 f3 rd 0x73#7)) i := by
  unfold decodeSystem at h
  split at h
  case h_1 =>
    split at h
    case isTrue hz =>
      simp only [Bool.and_eq_true, decide_eq_true_eq] at hz
      obtain ⟨rfl, rfl⟩ := hz
      split at h <;> cases h
      all_goals
        rename_i himm
        refine ⟨rfl, congrArg Code.word ?_⟩
        rw [← himm]
        exact encI_immI ..
    case isFalse => cases h
  all_goals cases h
  all_goals exact ⟨rfl, congrArg Code.word (encI_immI ..)⟩

theorem decodeHwLoop_encodes (h : decodeHwLoop f7 rs2 rs1 f3 rd = .ok i) :
    Encodes (.word (encR f7 rs2 rs1 f3 rd 0x7B#7)) i := by
  have joined : rd.extractLsb' 1 4 ++ rd.extractLsb' 0 1 = rd := extract_join (n := 4) (m := 1) rd
  have loop (hz : rd.extractLsb' 1 4 = 0) : 0#4 ++ rd.extractLsb' 0 1 = rd := by rw [hz] at joined; exact joined
  unfold decodeHwLoop at h
  split at h
  case h_7 => cases h
  all_goals
    obtain ⟨hz, rfl⟩ := whenZero_ok h
    simp only [Bool.and_eq_true, beq_iff_eq] at hz
  case h_1 | h_2 | h_4 =>
    obtain ⟨hl, rfl⟩ := hz
    refine ⟨rfl, congrArg Code.word ?_⟩
    rw [loop hl]
    exact encI_immI ..
  case h_3 =>
    obtain ⟨hl, hu⟩ := hz
    refine ⟨rfl, congrArg Code.word ?_⟩
    rw [loop hl, ← encI_immI, hu]
  case h_5 | h_6 =>
    refine ⟨rfl, congrArg Code.word ?_⟩
    rw [loop hz]
    exact encI_immI ..

theorem decodeFields_encodes {op : BitVec 7} (h : decodeFields f7 rs2 rs1 f3 rd op = .ok i) :
    Encodes (.word (encR f7 rs2 rs1 f3 rd op)) i := by
  unfold decodeFields at h
  split at h
  case h_1 => exact decodeLoad_encodes (orIllegal_ok h)
  case h_2 =>
    split at h <;> cases h
    subst f3
    exact ⟨rfl, congrArg Code.word (encI_immI ..)⟩
  case h_3 => exact decodePostLoad_encodes (orReserved_ok h)
  case h_4 => exact decodeFence_encodes h
  case h_5 => exact decodeOpImm_encodes (orIllegal_ok h)
  case h_6 => cases h; exact ⟨rfl, congrArg Code.word (encU_immU ..)⟩
  case h_7 => exact decodeStore_encodes (orIllegal_ok h)
  case h_8 =>
    split at h <;> cases h
    subst f3
    exact ⟨rfl, congrArg Code.word (encS_immS ..)⟩
  case h_9 => exact decodePostStore_encodes (orReserved_ok h)
  case h_10 => exact decodeOp_encodes h
  case h_11 => cases h; exact ⟨rfl, congrArg Code.word (encU_immU ..)⟩
  case h_12 | h_13 | h_14 | h_15 => exact decodeFma_encodes (orIllegal_ok h)
  case h_16 => exact decodeOpFp_encodes (orIllegal_ok h)
  case h_17 => exact decodePV_encodes h
  case h_18 =>
    have joined : f7.extractLsb' 5 2 ++ f7.extractLsb' 0 5 = f7 := extract_join (n := 2) (m := 5) f7
    have := decodePN_encodes h
    rwa [joined] at this
  case h_19 => exact decodeBranch_encodes (orIllegal_ok h)
  case h_20 =>
    split at h <;> cases h
    subst f3
    exact ⟨rfl, congrArg Code.word (encI_immI ..)⟩
  case h_21 => cases h; exact ⟨rfl, congrArg Code.word (encJ_immJ ..)⟩
  case h_22 => exact decodeSystem_encodes (orIllegal_ok h)
  case h_23 => exact decodeHwLoop_encodes h
  case h_24 => cases h

end Tables

/-! ## Compressed words -/

section Compressed
variable {f3 : BitVec 3} {b : BitVec 1} {hi lo : BitVec 5} {i : Instr}

theorem immCI_split (imm : BitVec 6) : immCI (imm.extractLsb' 5 1) (imm.extractLsb' 0 5) = imm :=
  extract_join (n := 1) (m := 5) imm

theorem encCI_immCI (f3 : BitVec 3) (b : BitVec 1) (hi lo : BitVec 5) (op : BitVec 2) :
    encCI f3 (immCI b lo) hi op = encC f3 b hi lo op := by
  simp only [encCI, immCI, extract_high, extract_low]

theorem encCL_immCL (f3 : BitVec 3) (b : BitVec 1) (hi lo : BitVec 5) (op : BitVec 2) :
    encCL f3 (immCL b hi lo) (hi.extractLsb' 0 3) (lo.extractLsb' 0 3) op = encC f3 b hi lo op := by
  apply BitVec.eq_of_getLsbD_eq
  intro i hi
  simp only [encCL, immCL, encC, BitVec.getLsbD_append, BitVec.getLsbD_extractLsb']
  grind

theorem encCJ_immCJ (f3 : BitVec 3) (b : BitVec 1) (hi lo : BitVec 5) (op : BitVec 2) :
    encCJ f3 (immCJ b hi lo) op = encC f3 b hi lo op := by
  apply BitVec.eq_of_getLsbD_eq
  intro i hi
  simp only [encCJ, immCJ, encC, BitVec.getLsbD_append, BitVec.getLsbD_extractLsb']
  grind

theorem encCB_immCB (f3 : BitVec 3) (b : BitVec 1) (hi lo : BitVec 5) (op : BitVec 2) :
    encCB f3 (immCB b hi lo) (hi.extractLsb' 0 3) op = encC f3 b hi lo op := by
  apply BitVec.eq_of_getLsbD_eq
  intro i hi
  simp only [encCB, immCB, encC, BitVec.getLsbD_append, BitVec.getLsbD_extractLsb']
  grind

theorem decodeC0_encodes (h : decodeC0 f3 b hi lo = some i) : Encodes (.half (encC f3 b hi lo 0#2)) i := by
  unfold decodeC0 at h
  dsimp only at h
  split at h
  case h_1 =>
    split at h <;> cases h
    refine ⟨by simpa [Instr.wf], congrArg Code.half ?_⟩
    apply BitVec.eq_of_getLsbD_eq
    intro i hi
    simp only [immCIW, encC, BitVec.getLsbD_append, BitVec.getLsbD_extractLsb']
    grind
  case h_6 => cases h
  all_goals cases h
  all_goals exact ⟨rfl, congrArg Code.half (encCL_immCL ..)⟩

/-- A 5-bit field of a compressed word as a selector and a register. -/
theorem creg_join {f : BitVec 5} {sel : BitVec 2} (h : f.extractLsb' 3 2 = sel) : sel ++ f.extractLsb' 0 3 = f := by
  rw [← h]
  exact extract_join (n := 2) (m := 3) f

theorem decodeC1Alu_encodes (h : decodeC1Alu b hi lo = some i) : Encodes (.half (encC 4#3 b hi lo 1#2)) i := by
  unfold decodeC1Alu at h
  dsimp only at h
  split at h
  case h_1 hs | h_2 hs =>
    split at h <;> cases h
    subst b
    exact ⟨rfl, congrArg (fun f => Code.half (encC 4#3 0 f lo 1#2)) (creg_join hs)⟩
  case h_3 hs =>
    cases h
    refine ⟨rfl, congrArg Code.half ?_⟩
    rw [creg_join hs]
    exact encCI_immCI ..
  case h_4 h0 h1 h2 =>
    have hs : hi.extractLsb' 3 2 = 3#2 := by
      generalize hi.extractLsb' 3 2 = x at h0 h1 h2
      revert x; decide
    split at h
    case isTrue hb =>
      subst b
      split at h
      case h_4 k0 k1 k2 =>
        have ks : lo.extractLsb' 3 2 = 3#2 := by
          generalize lo.extractLsb' 3 2 = x at k0 k1 k2
          revert x; decide
        cases h
        exact ⟨rfl, congrArg₂ (fun f g => Code.half (encC 4#3 0 f g 1#2)) (creg_join hs) (creg_join ks)⟩
      all_goals
        rename_i ks
        cases h
        exact ⟨rfl, congrArg₂ (fun f g => Code.half (encC 4#3 0 f g 1#2)) (creg_join hs) (creg_join ks)⟩
    case isFalse => cases h

theorem decodeC1_encodes (h : decodeC1 f3 b hi lo = .ok i) : Encodes (.half (encC f3 b hi lo 1#2)) i := by
  unfold decodeC1 at h
  split at h
  case h_1 =>
    split at h <;> cases h
    · subst hi; exact ⟨rfl, congrArg Code.half (encCI_immCI ..)⟩
    · exact ⟨by simpa [Instr.wf], congrArg Code.half (encCI_immCI ..)⟩
  case h_2 | h_6 => cases h; exact ⟨rfl, congrArg Code.half (encCJ_immCJ ..)⟩
  case h_3 => cases h; exact ⟨rfl, congrArg Code.half (encCI_immCI ..)⟩
  case h_4 =>
    split at h
    case isTrue => cases h
    case isFalse hz =>
      split at h <;> cases h
      · subst hi
        refine ⟨?_, congrArg Code.half ?_⟩
        · have : immSP16 b lo ≠ 0 := by revert hz; revert b lo; decide +kernel
          simpa [Instr.wf]
        · revert b lo; decide +kernel
      · exact ⟨by simp [Instr.wf]; constructor <;> assumption, congrArg Code.half (encCI_immCI ..)⟩
  case h_5 => exact decodeC1Alu_encodes (orIllegal_ok h)
  case h_7 => cases h; exact ⟨rfl, congrArg Code.half (encCB_immCB ..)⟩
  case h_8 h0 h1 h2 h3 h4 h5 h6 =>
    obtain rfl : f3 = 7#3 := by revert f3; decide
    cases h
    exact ⟨rfl, congrArg Code.half (encCB_immCB ..)⟩

theorem decodeC2Jump_encodes (h : decodeC2Jump b hi lo = .ok i) : Encodes (.half (encC 4#3 b hi lo 2#2)) i := by
  unfold decodeC2Jump at h
  have hb : b = 0 ∨ b = 1 := by clear h; revert b; decide
  rcases hb with rfl | rfl
  case inl =>
    rw [if_pos rfl] at h
    split at h
    · subst lo
      split at h <;> cases h
      exact ⟨by simpa [Instr.wf], rfl⟩
    · cases h
      exact ⟨by simpa [Instr.wf], rfl⟩
  case inr =>
    rw [if_neg (by decide)] at h
    split at h
    · subst lo
      split at h <;> cases h
      · subst hi; exact ⟨rfl, rfl⟩
      · exact ⟨by simpa [Instr.wf], rfl⟩
    · cases h
      exact ⟨by simpa [Instr.wf], rfl⟩

theorem immLwsp_fields (b : BitVec 1) (lo : BitVec 5) : (immLwsp b lo).extractLsb' 3 1 = b ∧
    (immLwsp b lo).extractLsb' 0 3 ++ (immLwsp b lo).extractLsb' 4 2 = lo := by
  revert b lo; decide +kernel

theorem immSwsp_fields (b : BitVec 1) (hi : BitVec 5) : (immSwsp b hi).extractLsb' 3 1 = b ∧
    (immSwsp b hi).extractLsb' 0 3 ++ (immSwsp b hi).extractLsb' 4 2 = hi := by
  revert b hi; decide +kernel

theorem decodeC2_encodes (h : decodeC2 f3 b hi lo = .ok i) : Encodes (.half (encC f3 b hi lo 2#2)) i := by
  unfold decodeC2 at h
  obtain ⟨hb, hl⟩ := immLwsp_fields b lo
  obtain ⟨hb', hh⟩ := immSwsp_fields b hi
  split at h
  case h_1 =>
    split at h <;> cases h
    subst b
    exact ⟨rfl, rfl⟩
  case h_2 =>
    split at h <;> cases h
    exact ⟨by simpa [Instr.wf], by rw [encode, hb, hl]⟩
  case h_3 => cases h; exact ⟨rfl, by rw [encode, hb, hl]⟩
  case h_4 => exact decodeC2Jump_encodes h
  case h_5 | h_6 => cases h; exact ⟨rfl, by rw [encode, hb', hh]⟩
  case h_7 => cases h

theorem decodeCFields_encodes {op : BitVec 2} (h : decodeCFields f3 b hi lo op = .ok i) :
    Encodes (.half (encC f3 b hi lo op)) i := by
  unfold decodeCFields at h
  split at h
  case h_1 => exact decodeC0_encodes (orIllegal_ok h)
  case h_2 => exact decodeC1_encodes h
  case h_3 => exact decodeC2_encodes h
  case h_4 => cases h

end Compressed

/-! ## A word is put together from its fields -/

theorem encR_fields (w : BitVec 32) : encR (fF7 w) (fRs2 w) (fRs1 w) (fF3 w) (fRd w) (fOp w) = w := by
  apply BitVec.eq_of_getLsbD_eq
  intro i hi
  simp only [encR, fF7, fRs2, fRs1, fF3, fRd, fOp, BitVec.getLsbD_append, BitVec.getLsbD_extractLsb']
  grind

theorem encC_fields (w : BitVec 16) : encC (cF3 w) (cB12 w) (cHi w) (cLo w) (cOp w) = w := by
  apply BitVec.eq_of_getLsbD_eq
  intro i hi
  simp only [encC, cF3, cB12, cHi, cLo, cOp, BitVec.getLsbD_append, BitVec.getLsbD_extractLsb']
  grind

theorem decodeCode_encodes {c : Code} {i : Instr} (h : decodeCode c = .ok i) : Encodes c i := by
  cases c with
  | half w => have := decodeCFields_encodes h; rwa [encC_fields] at this
  | word w => have := decodeFields_encodes h; rwa [encR_fields] at this

end Sys2Proof.Proofs
end

