-- ==== Sys2Proof/Proofs/DecodeOfEncode.lean ====
section
/-! The decoder reads the encoding of every well-formed instruction back (30_encoding.md R175, 42_rv32c.md). -/

namespace Sys2Proof.Proofs

/-! ## The decoder undoes the encoder -/

theorem immU_split (imm : BitVec 20) :
    immU (imm.extractLsb' 13 7) (imm.extractLsb' 8 5) (imm.extractLsb' 3 5) (imm.extractLsb' 0 3) = imm := by
  apply BitVec.eq_of_getLsbD_eq
  intro i hi
  simp only [immU, BitVec.getLsbD_append, BitVec.getLsbD_extractLsb']
  grind

theorem immJ_split (off : BitVec 20) :
    immJ (off.extractLsb' 19 1 ++ off.extractLsb' 4 6) (off.extractLsb' 0 4 ++ off.extractLsb' 10 1)
      (off.extractLsb' 14 5) (off.extractLsb' 11 3) = off := by
  apply BitVec.eq_of_getLsbD_eq
  intro i hi
  simp only [immJ, BitVec.getLsbD_append, BitVec.getLsbD_extractLsb']
  grind

theorem imm6_split (f6 imm : BitVec 6) : imm6 (f6 ++ imm.extractLsb' 0 1) (imm.extractLsb' 1 5) = imm := by
  rw [imm6, extract_low]
  exact extract_join (n := 5) (m := 1) imm

theorem bytes_join32 (w : BitVec 32) :
    w.extractLsb' 24 8 ++ w.extractLsb' 16 8 ++ w.extractLsb' 8 8 ++ w.extractLsb' 0 8 = w := by
  apply BitVec.eq_of_getLsbD_eq
  intro i hi
  simp only [BitVec.getLsbD_append, BitVec.getLsbD_extractLsb']
  grind

theorem bytes_join_low (w : BitVec 32) : w.extractLsb' 8 8 ++ w.extractLsb' 0 8 = w.extractLsb' 0 16 := by
  apply BitVec.eq_of_getLsbD_eq
  intro i hi
  simp only [BitVec.getLsbD_append, BitVec.getLsbD_extractLsb']
  grind

/-- A 32-bit word is read back from its bytes as the hardware stores them (20_memory.md R104). -/
theorem decode_bytes_word {w : BitVec 32} {i : Instr} (rest : List Byte) (hl : isLong (w.extractLsb' 0 16) = true)
    (hd : decode32 w = .ok i) : decode ((Code.word w).bytes ++ rest) = .ok (i, rest) := by
  simp [decode, codeOfBytes, Code.bytes, bytes_join32, bytes_join_low, hl, decodeCode, hd]

theorem decode_bytes_half {w : BitVec 16} {i : Instr} (rest : List Byte) (hl : isLong w = false)
    (hd : decode16 w = .ok i) : decode ((Code.half w).bytes ++ rest) = .ok (i, rest) := by
  have joined : w.extractLsb' 8 8 ++ w.extractLsb' 0 8 = w := extract_join (n := 8) (m := 8) w
  simp [decode, codeOfBytes, Code.bytes, joined, hl, decodeCode, hd]

/-- An instruction encoded as six fields is read back, when the fields decode to it. -/
theorem decode_of_encR {i j : Instr} {f7 : BitVec 7} {rs2 rs1 : BitVec 5} {f3 : BitVec 3} {rd : BitVec 5} {op : BitVec 7}
    (he : encode i = .word (encR f7 rs2 rs1 f3 rd op)) (ho : op.extractLsb' 0 2 = 3#2)
    (hd : decodeFields f7 rs2 rs1 f3 rd op = .ok j) (hj : j = i) (rest : List Byte) :
    decode ((encode i).bytes ++ rest) = .ok (i, rest) := by
  rw [he]
  exact decode_bytes_word rest (isLong_encR f7 rs2 rs1 f3 rd op ho) (by rw [decode32_encR, hd, hj])

/-- A compressed instruction encoded as five fields is read back, when the fields decode to it. -/
theorem decode_of_encC {i j : Instr} {f3 : BitVec 3} {b : BitVec 1} {hi lo : BitVec 5} {op : BitVec 2}
    (he : encode i = .half (encC f3 b hi lo op)) (ho : op ≠ 3#2)
    (hd : decodeCFields f3 b hi lo op = .ok j) (hj : j = i) (rest : List Byte) :
    decode ((encode i).bytes ++ rest) = .ok (i, rest) := by
  rw [he]
  exact decode_bytes_half rest (isLong_encC f3 b hi lo op ho) (by rw [decode16_encC, hd, hj])

theorem immCL_split (u : BitVec 5) (r1 r2 : CReg) : immCL (u.extractLsb' 3 1) (u.extractLsb' 1 2 ++ r1)
    (u.extractLsb' 0 1 ++ u.extractLsb' 4 1 ++ r2) = u := by
  apply BitVec.eq_of_getLsbD_eq
  intro i hi
  simp only [immCL, BitVec.getLsbD_append, BitVec.getLsbD_extractLsb']
  grind

theorem immCJ_split (off : BitVec 11) : immCJ (off.extractLsb' 10 1)
    (off.extractLsb' 3 1 ++ off.extractLsb' 7 2 ++ off.extractLsb' 9 1 ++ off.extractLsb' 5 1)
    (off.extractLsb' 6 1 ++ off.extractLsb' 0 3 ++ off.extractLsb' 4 1) = off := by
  revert off; decide +kernel

theorem immCB_split (off : BitVec 8) (r : CReg) : immCB (off.extractLsb' 7 1) (off.extractLsb' 2 2 ++ r)
    (off.extractLsb' 5 2 ++ off.extractLsb' 0 2 ++ off.extractLsb' 4 1) = off := by
  revert off r; decide +kernel

theorem immCIW_split (u : BitVec 8) (r : CReg) : immCIW (u.extractLsb' 3 1) (u.extractLsb' 2 1 ++ u.extractLsb' 4 4)
    (u.extractLsb' 0 1 ++ u.extractLsb' 1 1 ++ r) = u := by
  revert u r; decide +kernel

theorem immSP16_split (imm : BitVec 6) : immSP16 (imm.extractLsb' 5 1)
    (imm.extractLsb' 0 1 ++ imm.extractLsb' 2 1 ++ imm.extractLsb' 3 2 ++ imm.extractLsb' 1 1) = imm := by
  revert imm; decide +kernel

/-- The immediate of `c.addi16sp` is 0 in its own order exactly when it is in the order of format CI (R290). -/
theorem immCI_sp16 {imm : BitVec 6} (h : imm ≠ 0) : immCI (imm.extractLsb' 5 1)
    (imm.extractLsb' 0 1 ++ imm.extractLsb' 2 1 ++ imm.extractLsb' 3 2 ++ imm.extractLsb' 1 1) ≠ 0 := by
  revert imm; decide +kernel

theorem immLwsp_split (u : BitVec 6) :
    immLwsp (u.extractLsb' 3 1) (u.extractLsb' 0 3 ++ u.extractLsb' 4 2) = u := by
  revert u; decide +kernel

theorem immSwsp_split (u : BitVec 6) :
    immSwsp (u.extractLsb' 3 1) (u.extractLsb' 0 3 ++ u.extractLsb' 4 2) = u := by
  revert u; decide +kernel

/-! ### Rows whose fields are parts of one operand -/

section Rows
variable (f7 : BitVec 7) (rs2 rs1 : BitVec 5) (f3 : BitVec 3) (rd : BitVec 5)

theorem decodeFields_bitField (ls3 : BitVec 5) :
    decodeFields (3#2 ++ ls3) rs2 rs1 f3 rd 0x33#7 = orIllegal (decodeBF ls3 rs2 rs1 f3 rd) := by
  change decodeOp (3#2 ++ ls3) rs2 rs1 f3 rd = _
  simp only [decodeOp, extract_high, extract_low]

theorem decodeFields_normalising (f2 : BitVec 2) (ls3 : BitVec 5) :
    decodeFields (f2 ++ ls3) rs2 rs1 f3 rd 0x5B#7 = decodePN f2 ls3 rs2 rs1 f3 rd := by
  change decodePN ((f2 ++ ls3).extractLsb' 5 2) ((f2 ++ ls3).extractLsb' 0 5) rs2 rs1 f3 rd = _
  simp only [extract_high, extract_low]

theorem decodeFields_sciH (f6 imm : BitVec 6) :
    decodeFields (f6 ++ imm.extractLsb' 0 1) (imm.extractLsb' 1 5) rs1 6#3 rd 0x57#7 =
      orReserved .vectorUnused (decodePvSciH f6 imm rs1 rd) := by
  change orReserved .vectorUnused (decodePvSciH ((f6 ++ imm.extractLsb' 0 1).extractLsb' 1 6) _ rs1 rd) = _
  rw [extract_high, imm6_split]

theorem decodeFields_sciB (f6 imm : BitVec 6) :
    decodeFields (f6 ++ imm.extractLsb' 0 1) (imm.extractLsb' 1 5) rs1 7#3 rd 0x57#7 =
      orReserved .vectorUnused (decodePvSciB f6 imm rs1 rd) := by
  change orReserved .vectorUnused (decodePvSciB ((f6 ++ imm.extractLsb' 0 1).extractLsb' 1 6) _ rs1 rd) = _
  rw [extract_high, imm6_split]

end Rows
theorem decode_encode (i : Instr) (rest : List Byte) (h : i.wf = true) :
    decode ((encode i).bytes ++ rest) = .ok (i, rest) := by
  cases i with
  | fence pred succ =>
    refine decode_of_encR rfl rfl ?_ rfl rest
    simp only [decodeFields, decodeFence, immI_split]
    have low : (0#4 ++ pred ++ succ).extractLsb' 0 4 = succ := extract_low (0#4 ++ pred) succ
    have mid : (0#4 ++ pred ++ succ).extractLsb' 4 4 = pred :=
      (extract_append_high (0#4 ++ pred) succ 0 4).trans (extract_low 0#4 pred)
    have high : ((0#4 ++ pred ++ succ).extractLsb' 5 7).extractLsb' 3 4 = 0#4 := by
      revert pred succ; decide +kernel
    rw [low, mid, high]
    rfl
  | fmaddS | fmsubS | fnmsubS | fnmaddS =>
    refine decode_of_encR rfl rfl ?_ rfl rest
    simp only [decodeFields, decodeFma, extract_high, extract_low]
    rfl
  | cLw | cSw | cFlw | cFsw => exact decode_of_encC rfl (by decide) rfl (by simp only [immCL_split, extract_low]) rest
  | cNop | cLi => exact decode_of_encC rfl (by decide) rfl (by rw [immCI_split]) rest
  | cJal | cJ => exact decode_of_encC rfl (by decide) rfl (by rw [immCJ_split]) rest
  | cBeqz | cBnez => exact decode_of_encC rfl (by decide) rfl (by simp only [immCB_split, extract_low]) rest
  | cSlli | cEbreak => exact decode_of_encC rfl (by decide) rfl rfl rest
  | cFlwsp => exact decode_of_encC rfl (by decide) rfl (by rw [immLwsp_split]) rest
  | cSwsp | cFswsp => exact decode_of_encC rfl (by decide) rfl (by rw [immSwsp_split]) rest
  | cAddi4spn rd u =>
    have nonzero : u ≠ 0 := by simpa [Instr.wf] using h
    refine decode_of_encC rfl (by decide) ?_ rfl rest
    simp only [decodeCFields, decodeC0, immCIW_split, extract_low, if_neg nonzero]
    rfl
  | cAddi rd imm =>
    have nonzero : rd ≠ 0 := by simpa [Instr.wf] using h
    refine decode_of_encC rfl (by decide) ?_ rfl rest
    simp only [decodeCFields, decodeC1, immCI_split, if_neg nonzero]
  | cAddi16sp imm =>
    have nonzero : imm ≠ 0 := by simpa [Instr.wf] using h
    refine decode_of_encC rfl (by decide) ?_ rfl rest
    simp only [decodeCFields, decodeC1, if_neg (immCI_sp16 nonzero), immSP16_split, if_true]
  | cLui rd imm =>
    have nonzero : rd ≠ 2 ∧ imm ≠ 0 := by simpa [Instr.wf] using h
    refine decode_of_encC rfl (by decide) ?_ rfl rest
    simp only [decodeCFields, decodeC1, immCI_split, if_neg nonzero.1, if_neg nonzero.2]
  | cLwsp rd imm =>
    have nonzero : rd ≠ 0 := by simpa [Instr.wf] using h
    refine decode_of_encC rfl (by decide) ?_ rfl rest
    simp only [decodeCFields, decodeC2, immLwsp_split, if_neg nonzero]
  | cJr r | cJalr r | cMv rd r | cAdd rd r =>
    have nonzero : r ≠ 0 := by simpa [Instr.wf] using h
    refine decode_of_encC rfl (by decide) ?_ rfl rest
    exact if_neg nonzero
  | cSrli | cSrai | cAndi | cSub | cXor | cOr | cAnd =>
    refine decode_of_encC rfl (by decide) ?_ rfl rest
    simp only [decodeCFields, decodeC1, decodeC1Alu, extract_high, extract_low, immCI_split]
    rfl
  | lpStarti | lpEndi | lpCounti | lpSetup | lpSetupi | lpCount =>
    refine decode_of_encR rfl rfl ?_ rfl rest
    simp only [decodeFields, decodeHwLoop, extract_high, extract_low, immI_split]
    rfl
  | pExtract | pExtractu | pInsert | pBclr | pBset =>
    exact decode_of_encR rfl rfl ((decodeFields_bitField ..).trans rfl) rfl rest
  | pMuluN | pMulhhuN | pMulsN | pMulhhsN =>
    refine decode_of_encR rfl rfl ?_ rfl rest
    rw [decodeFields_normalising]
    exact if_neg (by simpa [Instr.wf] using h)
  | pMacuN | pMachhuN | pMacsN | pMachhsN | pAddN | pAdduN | pSubN | pSubuN | pMuluRN | pMulhhuRN | pMulsRN | pMulhhsRN
  | pMacuRN | pMachhuRN | pMacsRN | pMachhsRN | pAddRN | pAdduRN | pSubRN | pSubuRN =>
    exact decode_of_encR rfl rfl ((decodeFields_normalising ..).trans rfl) rfl rest
  | pvAddSciH | pvSubSciH | pvAvgSciH | pvAvguSciH | pvMinSciH | pvMinuSciH | pvMaxSciH | pvMaxuSciH | pvSrlSciH
  | pvSraSciH | pvSllSciH | pvOrSciH | pvXorSciH | pvAndSciH | pvDotupSciH | pvDotuspSciH | pvDotspSciH | pvSdotupSciH
  | pvSdotuspSciH | pvSdotspSciH | pvCmpeqSciH | pvCmpneSciH | pvCmpgtSciH | pvCmpgeSciH | pvCmpltSciH | pvCmpleSciH
  | pvCmpgtuSciH | pvCmpgeuSciH | pvCmpltuSciH | pvCmpleuSciH | pvExtractH | pvExtractuH | pvInsertH | pvShuffleSciH =>
    exact decode_of_encR rfl rfl ((decodeFields_sciH ..).trans rfl) rfl rest
  | pvAddSciB | pvSubSciB | pvAvgSciB | pvAvguSciB | pvMinSciB | pvMinuSciB | pvMaxSciB | pvMaxuSciB | pvSrlSciB
  | pvSraSciB | pvSllSciB | pvOrSciB | pvXorSciB | pvAndSciB | pvDotupSciB | pvDotuspSciB | pvDotspSciB | pvSdotupSciB
  | pvSdotuspSciB | pvSdotspSciB | pvCmpeqSciB | pvCmpneSciB | pvCmpgtSciB | pvCmpgeSciB | pvCmpltSciB | pvCmpleSciB
  | pvCmpgtuSciB | pvCmpgeuSciB | pvCmpltuSciB | pvCmpleuSciB | pvExtractB | pvExtractuB | pvInsertB | pvShuffleI0SciB
  | pvShuffleI1SciB | pvShuffleI2SciB | pvShuffleI3SciB =>
    exact decode_of_encR rfl rfl ((decodeFields_sciB ..).trans rfl) rfl rest
  | lui | auipc => exact decode_of_encR rfl rfl rfl (by rw [immU_split]) rest
  | jal => exact decode_of_encR rfl rfl rfl (by rw [immJ_split]) rest
  | beq | bne | blt | bge | bltu | bgeu | pBeqimm | pBneimm =>
    exact decode_of_encR rfl rfl rfl (by rw [immB_split]) rest
  | sb | sh | sw | fsw | pSbPostImm | pShPostImm | pSwPostImm =>
    exact decode_of_encR rfl rfl rfl (by rw [immS_split]) rest
  | jalr | lb | lh | lw | lbu | lhu | addi | slti | sltiu | xori | ori | andi | flw | csrrw | csrrs | csrrc | csrrwi
  | csrrsi | csrrci | pLbPostImm | pLbuPostImm | pLhPostImm | pLhuPostImm | pLwPostImm =>
    exact decode_of_encR rfl rfl rfl (by rw [immI_split]) rest
  | _ => exact decode_of_encR rfl rfl rfl rfl rest

/-- Settles O48: it holds. The decoder reads every encoding back, row by row of the opcode table, and every word that it
reads is the encoding of what it read, table by table of the decoder. -/
theorem decodeAndEncodeAreInverse : Obligations.DecodeAndEncodeAreInverse :=
  ⟨decode_encode, fun _ _ h => decodeCode_encodes h⟩

end Sys2Proof.Proofs
end

