-- ==== Sys2Proof/Proofs/Meaning.lean ====
section
/-! What each of the 414 instructions does, as one of the shared operations of the machine, and what the model's tables say of
it (written registers, data access, class). The frames and the invariant follow from this one table. -/

namespace Sys2Proof.Proofs

open Sys2Proof.Machine

/-- What the tables of the model say of an instruction in a state. -/
structure Traits where
  /-- `xWritten` -/
  x : List Reg := []
  /-- `fWritten` -/
  f : List Reg := []
  /-- `mayRaiseFlags` -/
  flags : Bool := false
  /-- `isFloat` -/
  float : Bool := false
  /-- `assignsPc` -/
  jump : Bool := false
  /-- `isLoopSetup` -/
  loop : Bool := false
  /-- `isCsrAccess` -/
  csr : Bool := false
  /-- `csrWritten` -/
  csrTo : Option CsrNum := none
  /-- `dataAccess` -/
  access : Option DataAccess := none
  /-- the instruction is `ecall` -/
  call : Bool := false
  /-- the instruction is `ebreak` or `c.ebreak` -/
  brk : Bool := false

def traits (s : State) (i : Instr) : Traits where
  x := xWritten i
  f := fWritten i
  flags := mayRaiseFlags i
  float := isFloat i
  jump := assignsPc i
  loop := isLoopSetup i
  csr := isCsrAccess i
  csrTo := csrWritten i
  access := dataAccess s i
  call := i == .ecall
  brk := i == .ebreak || i == .cEbreak

/-- The next pc is even if the pc is. -/
def KeepsEven (s : State) (t : Word) : Prop := s.pc.getLsbD 0 = false → t.getLsbD 0 = false

/-- The shared operations of the machine that the instructions are made of, each with the traits of the instructions that
are made of it. -/
inductive Meaning (s : State) (i : Instr) : Result → Prop
  | writes {n v : Word} {rd : Reg} (h : traits s i = { x := [rd] }) (hn : n.getLsbD 0 = false) :
      Meaning s i (writeBack n rd v s)
  | ends {n : Word} (h : traits s i = {}) (hn : n.getLsbD 0 = false) : Meaning s i (retire n s)
  | fenceI (hi : i = .fenceI) (h : traits s i = {}) : Meaning s i (retire ilen4 { s with dirty := [] })
  | wfi (hi : i = .wfi) (h : traits s i = {}) : Meaning s i (retire ilen4 { s with sleeping := s.irq.isNone })
  | mret (hi : i = .mret) (h : traits s i = { jump := true }) : Meaning s i (returnFromTrap s)
  | ecall (h : traits s i = { call := true }) : Meaning s i (.next s.envCall)
  | breaks {n : Word} (h : traits s i = { brk := true }) (hn : n.getLsbD 0 = false) : Meaning s i (breakpoint n s)
  | jumps {t : Word} (h : traits s i = { jump := true }) (ht : KeepsEven s t) : Meaning s i (jumpTo t s)
  | links {t v : Word} {rd : Reg} (h : traits s i = { x := [rd], jump := true }) (ht : KeepsEven s t) :
      Meaning s i (jumpTo t (s.writeX rd v))
  | branches {b : Bool} {t n : Word} (h : traits s i = { jump := true }) (ht : KeepsEven s t)
      (hn : n.getLsbD 0 = false) : Meaning s i (branchTo b t n s)
  | loads {n a : Word} {k : LoadKind} {rd : Reg} (h : traits s i = { x := [rd], access := some ⟨.load, a, k.size⟩ })
      (hn : n.getLsbD 0 = false) : Meaning s i (loadX n k rd a s)
  | stores {n a v : Word} {k : StoreKind} (h : traits s i = { access := some ⟨.store, a, k.size⟩ })
      (hn : n.getLsbD 0 = false) : Meaning s i (storeTo n k a v s)
  | postLoads {inc : Word} {k : LoadKind} {rd rs1 : Reg}
      (h : traits s i = { x := [rd, rs1], access := some ⟨.load, s.readX rs1, k.size⟩ }) :
      Meaning s i (postLoad k rd rs1 inc s)
  | postStores {v inc : Word} {k : StoreKind} {rs1 : Reg}
      (h : traits s i = { x := [rs1], access := some ⟨.store, s.readX rs1, k.size⟩ }) :
      Meaning s i (postStore k rs1 v inc s)
  | loadsF {n a : Word} {rd : Reg} (h : traits s i = { f := [rd], float := true, access := some ⟨.load, a, 4⟩ })
      (hn : n.getLsbD 0 = false) : Meaning s i (needsFpu s (loadF n rd a s))
  | storesF {n a v : Word} (h : traits s i = { float := true, access := some ⟨.store, a, 4⟩ })
      (hn : n.getLsbD 0 = false) : Meaning s i (needsFpu s (storeTo n .sw a v s))
  | fpRounds {rd : Reg} {rm : BitVec 3} {g : Rounding → Word × BitVec 5}
      (h : traits s i = { f := [rd], float := true, flags := true }) : Meaning s i (fpRounded rd rm g s)
  | fpWrites {rd : Reg} {v : Word × BitVec 5} {b : Bool} (h : traits s i = { f := [rd], float := true, flags := b })
      (hb : b = false → v.2 = Flag.none) : Meaning s i (fpResult rd v s)
  | fpToX {rd : Reg} {v : Word × BitVec 5} {b : Bool} (h : traits s i = { x := [rd], float := true, flags := b })
      (hb : b = false → v.2 = Flag.none) : Meaning s i (fpToX rd v s)
  | fpToXRounds {rd : Reg} {rm : BitVec 3} {g : Rounding → Word × BitVec 5}
      (h : traits s i = { x := [rd], float := true, flags := true }) : Meaning s i (fpToXRounded rd rm g s)
  | loopSetup {l : BitVec 1} {v : LoopRegs} (h : traits s i = { loop := true }) : Meaning s i (writeLoop l v s)
  | csrReads {rd : Reg} {n : CsrNum} (h : traits s i = { x := [rd], csr := true }) :
      Meaning s i (csrReadOnlyForm rd n s)
  | csrWrites {rd : Reg} {n : CsrNum} {g : Word → Word}
      (h : traits s i = { x := [rd], csr := true, csrTo := some n }) : Meaning s i (csrReadWrite rd n g s)

/-! ## Targets -/

theorem getLsbD_zero_eq {w : Nat} (x : BitVec w) : x.getLsbD 0 = decide (x.toNat % 2 = 1) := by
  rw [BitVec.getLsbD, Nat.testBit_zero]

theorem evenTarget_even (t : Word) : (evenTarget t).getLsbD 0 = false := by
  rw [evenTarget, BitVec.getLsbD_and]
  exact Bool.and_false _

theorem add_even {a b : Word} (ha : a.getLsbD 0 = false) (hb : b.getLsbD 0 = false) : (a + b).getLsbD 0 = false := by
  rw [getLsbD_zero_eq, decide_eq_false_iff_not] at *
  bv_omega

theorem offset_even {n : Nat} (off : BitVec n) : ((off ++ 0#1).signExtend 32).getLsbD 0 = false := by
  rw [BitVec.getLsbD_signExtend, if_pos (Nat.succ_pos n), BitVec.getLsbD_append, if_pos Nat.zero_lt_one]
  rfl

theorem keepsEven_evenTarget (s : State) (t : Word) : KeepsEven s (evenTarget t) := fun _ => evenTarget_even t

theorem keepsEven_offset (s : State) {n : Nat} (off : BitVec n) : KeepsEven s (s.pc + (off ++ 0#1).signExtend 32) :=
  fun h => add_even h (offset_even off)

/-- `fdiv.s` and `fsqrt.s` are rounding instructions, of a free result when fprec is not 0 (44_rv32f.md R383). -/
theorem fpIterative_eq (rd : Reg) (rm : BitVec 3) (g : Rounding → Word × BitVec 5) (s : State) :
    fpIterative rd rm g s = fpRounded rd rm
      (fun m => if s.fprec = 0 then g m else (Config.freeFpResult s.draws, Config.freeFpFlags s.draws)) s := by
  unfold fpIterative
  split <;> rfl

/-! ## The instructions that only write an integer register -/

/-- The destination of an instruction that computes a word from registers, pc and immediates, writes it to an integer register
and does nothing else; none for the others. -/
def plainDest : Instr → Option Reg
  | .fence _ _ | .fenceI | .wfi | .mret | .ecall | .ebreak | .cEbreak | .cNop _ | .jal _ _ | .jalr _ _ _
  | .cJ _ | .cJr _ | .cJal _ | .cJalr _ | .beq _ _ _ | .bne _ _ _ | .blt _ _ _ | .bge _ _ _ | .bltu _ _ _
  | .bgeu _ _ _ | .pBeqimm _ _ _ | .pBneimm _ _ _ | .cBeqz _ _ | .cBnez _ _ | .lb _ _ _ | .lh _ _ _
  | .lw _ _ _ | .lbu _ _ _ | .lhu _ _ _ | .cLw _ _ _ | .cLwsp _ _ | .pLbOff _ _ _ | .pLbuOff _ _ _
  | .pLhOff _ _ _ | .pLhuOff _ _ _ | .pLwOff _ _ _ | .sb _ _ _ | .sh _ _ _ | .sw _ _ _ | .cSw _ _ _
  | .cSwsp _ _ | .pSbOff _ _ _ | .pShOff _ _ _ | .pSwOff _ _ _ | .pLbPostImm _ _ _ | .pLbuPostImm _ _ _
  | .pLhPostImm _ _ _ | .pLhuPostImm _ _ _ | .pLwPostImm _ _ _ | .pLbPostReg _ _ _ | .pLbuPostReg _ _ _
  | .pLhPostReg _ _ _ | .pLhuPostReg _ _ _ | .pLwPostReg _ _ _ | .pSbPostImm _ _ _ | .pShPostImm _ _ _
  | .pSwPostImm _ _ _ | .pSbPostReg _ _ _ | .pShPostReg _ _ _ | .pSwPostReg _ _ _ | .flw _ _ _ | .cFlw _ _ _
  | .cFlwsp _ _ | .fsw _ _ _ | .cFsw _ _ _ | .cFswsp _ _ | .fmaddS _ _ _ _ _ | .fmsubS _ _ _ _ _
  | .fnmsubS _ _ _ _ _ | .fnmaddS _ _ _ _ _ | .faddS _ _ _ _ | .fsubS _ _ _ _ | .fmulS _ _ _ _
  | .fcvtSW _ _ _ | .fcvtSWu _ _ _ | .fdivS _ _ _ _ | .fsqrtS _ _ _ | .fsgnjS _ _ _ | .fsgnjnS _ _ _
  | .fsgnjxS _ _ _ | .fmvWX _ _ | .fminS _ _ _ | .fmaxS _ _ _ | .fmvXW _ _ | .fclassS _ _ | .feqS _ _ _
  | .fltS _ _ _ | .fleS _ _ _ | .fcvtWS _ _ _ | .fcvtWuS _ _ _ | .lpStarti _ _ | .lpEndi _ _ | .lpCount _ _
  | .lpCounti _ _ | .lpSetup _ _ _ | .lpSetupi _ _ _ | .csrrw _ _ _ | .csrrwi _ _ _ | .csrrs _ _ _
  | .csrrc _ _ _ | .csrrsi _ _ _ | .csrrci _ _ _ => none
  | i => (xWritten i).head?

theorem traits_of_plainDest {s : State} {i : Instr} {rd : Reg} (h : plainDest i = some rd) :
    traits s i = { x := [rd] } := by
  cases i with
  | fence | fenceI | wfi | mret | ecall | ebreak | cEbreak | cNop | jal | jalr | cJ | cJr | cJal | cJalr
  | beq | bne | blt | bge | bltu | bgeu | pBeqimm | pBneimm | cBeqz | cBnez | lb | lh | lw | lbu | lhu | cLw
  | cLwsp | pLbOff | pLbuOff | pLhOff | pLhuOff | pLwOff | sb | sh | sw | cSw | cSwsp | pSbOff | pShOff
  | pSwOff | pLbPostImm | pLbuPostImm | pLhPostImm | pLhuPostImm | pLwPostImm | pLbPostReg | pLbuPostReg
  | pLhPostReg | pLhuPostReg | pLwPostReg | pSbPostImm | pShPostImm | pSwPostImm | pSbPostReg | pShPostReg
  | pSwPostReg | flw | cFlw | cFlwsp | fsw | cFsw | cFswsp | fmaddS | fmsubS | fnmsubS | fnmaddS | faddS
  | fsubS | fmulS | fcvtSW | fcvtSWu | fdivS | fsqrtS | fsgnjS | fsgnjnS | fsgnjxS | fmvWX | fminS | fmaxS
  | fmvXW | fclassS | feqS | fltS | fleS | fcvtWS | fcvtWuS | lpStarti | lpEndi | lpCount | lpCounti
  | lpSetup | lpSetupi | csrrw | csrrwi | csrrs | csrrc | csrrsi | csrrci => exact nomatch h
  | _ => cases h; rfl

theorem exec_of_plainDest {s : State} {i : Instr} {rd : Reg} (h : plainDest i = some rd) :
    ∃ n v : Word, n.getLsbD 0 = false ∧ exec i s = writeBack n rd v s := by
  cases i with
  | fence | fenceI | wfi | mret | ecall | ebreak | cEbreak | cNop | jal | jalr | cJ | cJr | cJal | cJalr
  | beq | bne | blt | bge | bltu | bgeu | pBeqimm | pBneimm | cBeqz | cBnez | lb | lh | lw | lbu | lhu | cLw
  | cLwsp | pLbOff | pLbuOff | pLhOff | pLhuOff | pLwOff | sb | sh | sw | cSw | cSwsp | pSbOff | pShOff
  | pSwOff | pLbPostImm | pLbuPostImm | pLhPostImm | pLhuPostImm | pLwPostImm | pLbPostReg | pLbuPostReg
  | pLhPostReg | pLhuPostReg | pLwPostReg | pSbPostImm | pShPostImm | pSwPostImm | pSbPostReg | pShPostReg
  | pSwPostReg | flw | cFlw | cFlwsp | fsw | cFsw | cFswsp | fmaddS | fmsubS | fnmsubS | fnmaddS | faddS
  | fsubS | fmulS | fcvtSW | fcvtSWu | fdivS | fsqrtS | fsgnjS | fsgnjnS | fsgnjxS | fmvWX | fminS | fmaxS
  | fmvXW | fclassS | feqS | fltS | fleS | fcvtWS | fcvtWuS | lpStarti | lpEndi | lpCount | lpCounti
  | lpSetup | lpSetupi | csrrw | csrrwi | csrrs | csrrc | csrrsi | csrrci => exact nomatch h
  | _ => cases h; exact ⟨_, _, rfl, rfl⟩

theorem meaning_of_plainDest {s : State} {i : Instr} {rd : Reg} (h : plainDest i = some rd) : Meaning s i (exec i s) := by
  obtain ⟨n, v, hn, he⟩ := exec_of_plainDest (s := s) h
  rw [he]
  exact .writes (traits_of_plainDest h) hn

/-! ## The table -/

/-- The six CSR instructions only read with x0 or 0, and else read and write (41_rv32i_system.md R256). -/
theorem csrSet_meaning {s : State} {i : Instr} {rd : Reg} {n : CsrNum} {g : Word → Word} {z : Prop} [Decidable z]
    (h : traits s i = { x := [rd], csr := true, csrTo := if z then none else some n }) :
    Meaning s i (if z then csrReadOnlyForm rd n s else csrReadWrite rd n g s) := by
  by_cases hz : z
  · rw [if_pos hz] at h ⊢; exact .csrReads h
  · rw [if_neg hz] at h ⊢; exact .csrWrites h

/-- Every instruction is one of the shared operations, with the traits that the tables give it. -/
theorem exec_meaning (s : State) (i : Instr) : Meaning s i (exec i s) := by
  cases i with
  | fence | cNop => exact .ends rfl rfl
  | fenceI => exact .fenceI rfl rfl
  | wfi => exact .wfi rfl rfl
  | mret => exact .mret rfl rfl
  | ecall => exact .ecall rfl
  | ebreak | cEbreak => exact .breaks rfl rfl
  | jal => exact .links rfl (keepsEven_offset s _)
  | jalr => exact .links rfl (keepsEven_evenTarget s _)
  | cJ => exact .jumps rfl (keepsEven_offset s _)
  | cJr => exact .jumps rfl (keepsEven_evenTarget s _)
  | cJal => exact .links rfl (keepsEven_offset s _)
  | cJalr => exact .links rfl (keepsEven_evenTarget s _)
  | beq | bne | blt | bge | bltu | bgeu | pBeqimm | pBneimm | cBeqz | cBnez =>
    exact .branches rfl (keepsEven_offset s _) rfl
  | lb | lh | lw | lbu | lhu | cLw | cLwsp | pLbOff | pLbuOff | pLhOff | pLhuOff | pLwOff => exact .loads rfl rfl
  | sb | sh | sw | cSw | cSwsp | pSbOff | pShOff | pSwOff => exact .stores rfl rfl
  | pLbPostImm | pLbuPostImm | pLhPostImm | pLhuPostImm | pLwPostImm | pLbPostReg | pLbuPostReg | pLhPostReg
  | pLhuPostReg | pLwPostReg => exact .postLoads rfl
  | pSbPostImm | pShPostImm | pSwPostImm | pSbPostReg | pShPostReg | pSwPostReg => exact .postStores rfl
  | flw | cFlw | cFlwsp => exact .loadsF rfl rfl
  | fsw | cFsw | cFswsp => exact .storesF rfl rfl
  | fmaddS | fmsubS | fnmsubS | fnmaddS | faddS | fsubS | fmulS | fcvtSW | fcvtSWu => exact .fpRounds rfl
  | fdivS rd rs1 rs2 rm | fsqrtS rd rs1 rm =>
    change Meaning s _ (fpIterative rd rm _ s)
    rw [fpIterative_eq]
    exact .fpRounds rfl
  | fsgnjS | fsgnjnS | fsgnjxS | fmvWX => exact .fpWrites rfl fun _ => rfl
  | fminS | fmaxS => exact .fpWrites rfl nofun
  | fmvXW | fclassS => exact .fpToX rfl fun _ => rfl
  | feqS | fltS | fleS => exact .fpToX rfl nofun
  | fcvtWS | fcvtWuS => exact .fpToXRounds rfl
  | lpStarti | lpEndi | lpCount | lpCounti | lpSetup | lpSetupi => exact .loopSetup rfl
  | csrrw rd rs1 n => exact .csrWrites (g := fun _ => s.readX rs1) rfl
  | csrrwi rd u n => exact .csrWrites (g := fun _ => u.setWidth 32) rfl
  | csrrs | csrrc | csrrsi | csrrci => exact csrSet_meaning rfl
  | _ => exact meaning_of_plainDest rfl

end Sys2Proof.Proofs
end

