-- ==== Sys2Proof/Proofs/Effect.lean ====
section
/-! What an instruction that answers a next state has done to the state. The frames, the loop-end rule and the invariant are
case splits over this. -/

namespace Sys2Proof.Proofs

open Sys2Proof.Machine

/-! ## Reading the table -/

section Traits
variable {s : State} {i : Instr} {τ : Traits} (h : traits s i = τ)
include h

theorem xWritten_of_traits : xWritten i = τ.x := congrArg Traits.x h
theorem fWritten_of_traits : fWritten i = τ.f := congrArg Traits.f h
theorem mayRaiseFlags_of_traits : mayRaiseFlags i = τ.flags := congrArg Traits.flags h
theorem isFloat_of_traits : isFloat i = τ.float := congrArg Traits.float h
theorem assignsPc_of_traits : assignsPc i = τ.jump := congrArg Traits.jump h
theorem isLoopSetup_of_traits : isLoopSetup i = τ.loop := congrArg Traits.loop h
theorem isCsrAccess_of_traits : isCsrAccess i = τ.csr := congrArg Traits.csr h
theorem csrWritten_of_traits : csrWritten i = τ.csrTo := congrArg Traits.csrTo h
theorem dataAccess_of_traits : dataAccess s i = τ.access := congrArg Traits.access h

theorem raisesException_of_traits : raisesException s i = (τ.call || (τ.float && !s.params.fpu)) := by
  rw [raisesException, isFloat_of_traits h, ← congrArg Traits.call h]
  rfl

theorem entersTrap_of_traits : entersTrap s i = (τ.call || (τ.float && !s.params.fpu) || τ.brk) := by
  rw [entersTrap, raisesException_of_traits h, ← congrArg Traits.brk h, Bool.or_assoc]
  rfl

end Traits

/-! ## The effect of an instruction -/

/-- How the state after an instruction comes from the state before: what was written, then the hardware-loop step, a jump, or a
trap entry. -/
inductive Effect (s : State) (i : Instr) : State → Prop
  | writes {n v : Word} {rd : Reg} (h : traits s i = { x := [rd] }) (hn : n.getLsbD 0 = false)
      (hs : s.hitsShortLoop = false) : Effect s i ((s.writeX rd v).stepLoops (s.pc + n))
  | ends {n : Word} (h : traits s i = {}) (hn : n.getLsbD 0 = false) (hs : s.hitsShortLoop = false) :
      Effect s i (s.stepLoops (s.pc + n))
  | fenceI (hi : i = .fenceI) (h : traits s i = {}) (hs : s.hitsShortLoop = false) :
      Effect s i ({ s with dirty := [] }.stepLoops (s.pc + 4))
  | wfi (hi : i = .wfi) (h : traits s i = {}) (hs : s.hitsShortLoop = false) :
      Effect s i ({ s with sleeping := s.irq.isNone }.stepLoops (s.pc + 4))
  | mret (hi : i = .mret) (h : traits s i = { jump := true }) (hl : s.hitsLoop = false) :
      Effect s i { s with mstatus := withMie s.mstatus true s.mpie, pc := evenTarget s.mepc }
  | breaks {n : Word} (h : traits s i = { brk := true }) (hn : n.getLsbD 0 = false) :
      Effect s i { s with pc := s.pc + n, halted := true, dbgCause := 3 }
  | ecall (h : traits s i = { call := true }) : Effect s i s.envCall
  | illegal {τ : Traits} (h : traits s i = τ) (hf : τ.float = true) (hp : s.params.fpu = false)
      (ha : τ.loop = false ∧ τ.csrTo = none) : Effect s i s.illegalInstruction
  | jumps {p : Word} (h : traits s i = { jump := true }) (hp : KeepsEven s p) (hl : s.hitsLoop = false) :
      Effect s i { s with pc := p }
  | links {p v : Word} {rd : Reg} (h : traits s i = { x := [rd], jump := true }) (hp : KeepsEven s p)
      (hl : s.hitsLoop = false) : Effect s i { s.writeX rd v with pc := p }
  | loads {n a v : Word} {k : Nat} {rd : Reg} (h : traits s i = { x := [rd], access := some ⟨.load, a, k⟩ })
      (hn : n.getLsbD 0 = false) (hs : s.hitsShortLoop = false) :
      Effect s i (((s.settle a k).writeX rd v).stepLoops (s.pc + n))
  | postLoads {a b v : Word} {k : Nat} {rd rs1 : Reg}
      (h : traits s i = { x := [rd, rs1], access := some ⟨.load, a, k⟩ }) (hs : s.hitsShortLoop = false) :
      Effect s i ((((s.settle a k).writeX rs1 b).writeX rd v).stepLoops (s.pc + 4))
  | loadsF {n a v : Word} {rd : Reg} (h : traits s i = { f := [rd], float := true, access := some ⟨.load, a, 4⟩ })
      (hf : s.params.fpu = true) (hn : n.getLsbD 0 = false) (hs : s.hitsShortLoop = false) :
      Effect s i (((s.settle a 4).writeF rd v).stepLoops (s.pc + n))
  | stores {n a v : Word} {k : StoreKind} {float : Bool}
      (h : traits s i = { float := float, access := some ⟨.store, a, k.size⟩ }) (hf : float = true → s.params.fpu = true)
      (hn : n.getLsbD 0 = false) (hs : s.hitsShortLoop = false) :
      Effect s i ((s.storeValue k a v).stepLoops (s.pc + n))
  | postStores {a v b : Word} {k : StoreKind} {rs1 : Reg}
      (h : traits s i = { x := [rs1], access := some ⟨.store, a, k.size⟩ }) (hs : s.hitsShortLoop = false) :
      Effect s i (((s.storeValue k a v).writeX rs1 b).stepLoops (s.pc + 4))
  | fpWrites {v : Word} {w : BitVec 5} {rd : Reg} {flags : Bool}
      (h : traits s i = { f := [rd], float := true, flags := flags }) (hw : flags = false → w = Flag.none)
      (hf : s.params.fpu = true) (hs : s.hitsShortLoop = false) :
      Effect s i (((s.writeF rd v).raise w).stepLoops (s.pc + 4))
  | fpToX {v : Word} {w : BitVec 5} {rd : Reg} {flags : Bool}
      (h : traits s i = { x := [rd], float := true, flags := flags }) (hw : flags = false → w = Flag.none)
      (hf : s.params.fpu = true) (hs : s.hitsShortLoop = false) :
      Effect s i (((s.writeX rd v).raise w).stepLoops (s.pc + 4))
  | loopSetup {l : BitVec 1} {v : LoopRegs} (h : traits s i = { loop := true }) :
      Effect s i ((s.setLoopRegs l v).stepLoops (s.pc + 4))
  | csrReads {rd : Reg} {v : Word} (h : traits s i = { x := [rd], csr := true }) (hs : s.hitsShortLoop = false) :
      Effect s i ((s.writeX rd v).stepLoops (s.pc + 4))
  | csrWrites {rd : Reg} {n : CsrNum} {c : Csr} {v w : Word}
      (h : traits s i = { x := [rd], csr := true, csrTo := some n }) (hc : Csr.ofNumber s.params.fpu n = some c)
      (hs : (s.writeCsr c w).hitsShortLoop = false) :
      Effect s i (((s.writeCsr c w).writeX rd v).stepLoops (s.pc + 4))

/-- What a next state says of the shared operation that gave it. -/
theorem Meaning.effect {s : State} {i : Instr} {r : Result} (hm : Meaning s i r) {t : State} (hr : r = .next t) :
    Effect s i t := by
  cases hm with
  | writes h hn => obtain ⟨hs, rfl⟩ := writeBack_next hr; exact .writes h hn hs
  | ends h hn => obtain ⟨hs, rfl⟩ := retire_next hr; exact .ends h hn hs
  | fenceI hi h => obtain ⟨hs, rfl⟩ := retire_next hr; exact .fenceI hi h hs
  | wfi hi h => obtain ⟨hs, rfl⟩ := retire_next hr; exact .wfi hi h hs
  | mret hi h => obtain ⟨hl, rfl⟩ := returnFromTrap_next hr; exact .mret hi h hl
  | ecall h => cases hr; exact .ecall h
  | breaks h hn => obtain ⟨-, rfl⟩ := breakpoint_next hr; exact .breaks h hn
  | jumps h hp => obtain ⟨hl, rfl⟩ := jumpTo_next hr; exact .jumps h hp hl
  | links h hp => obtain ⟨hl, rfl⟩ := jumpTo_next hr; exact .links h hp (by simpa using hl)
  | @branches b p n h hp hn =>
    obtain ⟨hl, rfl⟩ := branchTo_next hr
    refine .jumps h (fun he => ?_) hl
    cases b with
    | true => exact hp he
    | false => exact add_even he hn
  | loads h hn => obtain ⟨-, hs, rfl⟩ := loadX_next hr; exact .loads h hn hs
  | stores h hn => obtain ⟨-, hs, rfl⟩ := storeTo_next hr; exact .stores h nofun hn hs
  | postLoads h => obtain ⟨-, hs, rfl⟩ := postLoad_next hr; exact .postLoads h hs
  | postStores h => obtain ⟨-, hs, rfl⟩ := postStore_next hr; exact .postStores h hs
  | loadsF h hn =>
    obtain ⟨hf, hr⟩ | ⟨hf, rfl⟩ := needsFpu_next hr
    · obtain ⟨-, hs, rfl⟩ := loadF_next hr; exact .loadsF h hf hn hs
    · exact .illegal h rfl hf ⟨rfl, rfl⟩
  | storesF h hn =>
    obtain ⟨hf, hr⟩ | ⟨hf, rfl⟩ := needsFpu_next hr
    · obtain ⟨-, hs, rfl⟩ := storeTo_next hr; exact .stores h (fun _ => hf) hn hs
    · exact .illegal h rfl hf ⟨rfl, rfl⟩
  | fpRounds h =>
    obtain ⟨hf, hs, m, -, rfl⟩ | ⟨hf, rfl⟩ := fpRounded_next hr
    · exact .fpWrites h nofun hf hs
    · exact .illegal h rfl hf ⟨rfl, rfl⟩
  | fpWrites h hw =>
    obtain ⟨hf, hs, rfl⟩ | ⟨hf, rfl⟩ := fpResult_next hr
    · exact .fpWrites h hw hf hs
    · exact .illegal h rfl hf ⟨rfl, rfl⟩
  | fpToX h hw =>
    obtain ⟨hf, hs, rfl⟩ | ⟨hf, rfl⟩ := fpToX_next hr
    · exact .fpToX h hw hf hs
    · exact .illegal h rfl hf ⟨rfl, rfl⟩
  | fpToXRounds h =>
    obtain ⟨hf, hs, m, -, rfl⟩ | ⟨hf, rfl⟩ := fpToXRounded_next hr
    · exact .fpToX h nofun hf hs
    · exact .illegal h rfl hf ⟨rfl, rfl⟩
  | loopSetup h => obtain ⟨-, -, rfl⟩ := writeLoop_next hr; exact .loopSetup h
  | csrReads h => obtain ⟨c, -, hs, rfl⟩ := csrReadOnlyForm_next hr; exact .csrReads h hs
  | csrWrites h => obtain ⟨c, hc, -, -, hs, rfl⟩ := csrReadWrite_next hr; exact .csrWrites h hc hs

theorem exec_effect {i : Instr} {s t : State} (h : exec i s = .next t) : Effect s i t := (exec_meaning s i).effect h

end Sys2Proof.Proofs
end

