-- ==== Sys2Proof/Proofs/RegisterFrame.lean ====
section
/-! The register frame: an instruction changes the registers that its rule writes, and no other (00_scope.md section 5). -/

namespace Sys2Proof.Proofs

open Sys2Proof.Machine

/-! ## What the updates leave of the registers -/

theorem readF_of_f_eq {s t : State} (r : Reg) (h : t.f = s.f) : t.readF r = s.readF r := by
  rw [State.readF, State.readF, h]

@[simp] theorem settle_readX (s : State) (a : Word) (n : Nat) (r : Reg) : (s.settle a n).readX r = s.readX r :=
  readX_of_x_eq _ _ _ (settle_x s a n)
@[simp] theorem storeValue_readX (s : State) (k : StoreKind) (a v : Word) (r : Reg) :
    (s.storeValue k a v).readX r = s.readX r := readX_of_x_eq _ _ _ (storeValue_x s k a v)
@[simp] theorem writeF_readX (s : State) (q : Reg) (v : Word) (r : Reg) : (s.writeF q v).readX r = s.readX r :=
  readX_of_x_eq _ _ _ (writeF_x s q v)
@[simp] theorem raise_readX (s : State) (w : BitVec 5) (r : Reg) : (s.raise w).readX r = s.readX r :=
  readX_of_x_eq _ _ _ (raise_x s w)
@[simp] theorem setLoopRegs_readX (s : State) (l : BitVec 1) (v : LoopRegs) (r : Reg) :
    (s.setLoopRegs l v).readX r = s.readX r := readX_of_x_eq _ _ _ (setLoopRegs_x s l v)
@[simp] theorem writeCsr_readX (s : State) (c : Csr) (v : Word) (r : Reg) : (s.writeCsr c v).readX r = s.readX r :=
  readX_of_x_eq _ _ _ (writeCsr_keeps s c v).1
@[simp] theorem takeException_readX (s : State) (c : BitVec 5) (o : BitVec 8) (r : Reg) :
    (s.takeException c o).readX r = s.readX r := readX_of_x_eq _ _ _ (takeException_x s c o)

@[simp] theorem stepLoops_readF (s : State) (n : Word) (r : Reg) : (s.stepLoops n).readF r = s.readF r :=
  readF_of_f_eq r (stepLoops_f s n)
@[simp] theorem settle_readF (s : State) (a : Word) (n : Nat) (r : Reg) : (s.settle a n).readF r = s.readF r :=
  readF_of_f_eq r (settle_f s a n)
@[simp] theorem storeValue_readF (s : State) (k : StoreKind) (a v : Word) (r : Reg) :
    (s.storeValue k a v).readF r = s.readF r := readF_of_f_eq r (storeValue_f s k a v)
@[simp] theorem writeX_readF (s : State) (q : Reg) (v : Word) (r : Reg) : (s.writeX q v).readF r = s.readF r :=
  readF_of_f_eq r (writeX_f s q v)
@[simp] theorem raise_readF (s : State) (w : BitVec 5) (r : Reg) : (s.raise w).readF r = s.readF r :=
  readF_of_f_eq r (raise_f s w)
@[simp] theorem setLoopRegs_readF (s : State) (l : BitVec 1) (v : LoopRegs) (r : Reg) :
    (s.setLoopRegs l v).readF r = s.readF r := readF_of_f_eq r (setLoopRegs_f s l v)
@[simp] theorem writeCsr_readF (s : State) (c : Csr) (v : Word) (r : Reg) : (s.writeCsr c v).readF r = s.readF r :=
  readF_of_f_eq r (writeCsr_keeps s c v).2.1
@[simp] theorem takeException_readF (s : State) (c : BitVec 5) (o : BitVec 8) (r : Reg) :
    (s.takeException c o).readF r = s.readF r := readF_of_f_eq r (takeException_f s c o)

/-! ## The frame -/

theorem Effect.readX_of_not_written {s t : State} {i : Instr} (he : Effect s i t) {r : Reg} (hr : r ∉ xWritten i) :
    t.readX r = s.readX r := by
  cases he with
  | ends | loadsF | stores | fpWrites | loopSetup => simp
  | fenceI | wfi => exact stepLoops_readX _ _ r
  | mret | breaks | jumps => rfl
  | ecall => exact takeException_readX s 11 0x88 r
  | illegal => exact takeException_readX s 2 0x84 r
  | writes h | loads h | postStores h | fpToX h | csrReads h | csrWrites h =>
    rw [xWritten_of_traits h, List.mem_singleton] at hr
    simp [readX_writeX_other _ _ _ _ hr]
  | links h =>
    rw [xWritten_of_traits h, List.mem_singleton] at hr
    exact readX_writeX_other _ _ _ _ hr
  | postLoads h =>
    simp only [xWritten_of_traits h, List.mem_cons, List.not_mem_nil, or_false, not_or] at hr
    simp [readX_writeX_other _ _ _ _ hr.1, readX_writeX_other _ _ _ _ hr.2]

theorem Effect.readF_of_not_written {s t : State} {i : Instr} (he : Effect s i t) {r : Reg} (hr : r ∉ fWritten i) :
    t.readF r = s.readF r := by
  cases he with
  | fenceI | wfi => exact stepLoops_readF _ _ r
  | ends | stores | loopSetup | writes | loads | postLoads | postStores | fpToX | csrReads
  | csrWrites => simp
  | mret | breaks | jumps => rfl
  | links => exact writeX_readF s _ _ r
  | ecall => exact takeException_readF s 11 0x88 r
  | illegal => exact takeException_readF s 2 0x84 r
  | loadsF h | fpWrites h =>
    rw [fWritten_of_traits h, List.mem_singleton] at hr
    simp [readF_writeF_other _ _ _ _ hr]

/-- Settles O54: it holds, by the effect of the instruction: every register write in it is one that the tables name. -/
theorem onlyDestinationRegistersChange : Obligations.OnlyDestinationRegistersChange := by
  intro i s t h
  have he : Effect s i t := exec_effect h
  exact ⟨fun r hr => he.readX_of_not_written hr, fun r hr => he.readF_of_not_written hr⟩

end Sys2Proof.Proofs
end

