-- ==== Sys2Proof/Proofs/StoredBytes.lean ====
section
/-! Memory after a store, byte by byte (20_memory.md section 3): what another master stores between the two parts of a split
store, then the bytes of the store itself. -/

namespace Sys2Proof.Proofs

open Sys2Proof.Machine

/-! ## The stores of another master -/

theorem read8_of_mem_eq {s t : State} (h : t.mem = s.mem) (b : Word) : t.read8 b = s.read8 b := by
  rw [State.read8, State.read8, h]

/-- What memory holds after a list of byte stores: the last one to the address, or what it held. -/
theorem read8_foldl_put8 (l : List (Word × Byte)) (b : Word) : ∀ s : State, Memory.wf s.mem = true →
    (l.foldl (fun t c => t.put8 c.1 c.2) s).read8 b =
      ((l.reverse.find? fun c => c.1 == b).map Prod.snd).getD (s.read8 b) := by
  induction l with
  | nil => intro s _; rfl
  | cons c l ih =>
    intro s hs
    rw [List.foldl_cons, ih _ (put8_mem_wf s c.1 c.2 hs), List.reverse_cons, List.find?_append]
    cases l.reverse.find? fun c => c.1 == b with
    | some d => rfl
    | none =>
      by_cases hb : c.1 = b
      · subst hb
        simpa using read8_put8_same s c.1 c.2 hs
      · simpa [hb] using read8_put8_other s c.1 b c.2 (Ne.symm hb)

theorem landed_read8 {s : State} (h : Memory.wf s.mem = true) (b : Word) :
    s.landed.read8 b = ((s.between.reverse.find? fun c => c.1 == b).map Prod.snd).getD (s.read8 b) :=
  read8_foldl_put8 s.between b { s with between := [] } h

theorem landed_read8_of_not_mem {s : State} (h : Memory.wf s.mem = true) {b : Word} (hb : ∀ c ∈ s.between, c.1 ≠ b) :
    s.landed.read8 b = s.read8 b := by
  have hn : (s.between.reverse.find? fun c => c.1 == b) = none := by
    simpa [List.find?_eq_none] using fun x y hm e => hb (x, y) hm e
  rw [landed_read8 h, hn]
  rfl

/-- A byte after the stores of another master depends on that byte and those stores alone. -/
theorem landed_read8_congr {s t : State} (hs : Memory.wf s.mem = true) (ht : Memory.wf t.mem = true)
    (hb : t.between = s.between) {b : Word} (hr : t.read8 b = s.read8 b) : t.landed.read8 b = s.landed.read8 b := by
  rw [landed_read8 hs, landed_read8 ht, hb, hr]

/-! ## One byte of a store -/

theorem deviceAt_congr {s t : State} (h : t.params = s.params) (k : Access) (b : Word) :
    t.deviceAt k b = s.deviceAt k b := by
  rw [State.deviceAt, State.deviceAt, State.regionAt, State.regionAt, h]

theorem store8_read8_other {s : State} {a b : Word} (v : Byte) (h : b = a → s.deviceAt .store a = true) :
    (s.store8 a v).read8 b = s.read8 b := by
  cases hd : s.deviceAt .store a with
  | true => simp [State.store8, hd, State.markStale, State.read8]
  | false =>
    have hne : b ≠ a := fun e => by simp [h e] at hd
    simpa [State.store8, hd] using read8_put8_other s a b v hne

theorem store8_read8_same {s : State} {a : Word} (v : Byte) (hm : Memory.wf s.mem = true)
    (h : s.deviceAt .store a = false) : (s.store8 a v).read8 a = v := by
  simpa [State.store8, h] using read8_put8_same s a v hm

theorem store8_mem_wf {s : State} (a : Word) (v : Byte) (h : Memory.wf s.mem = true) :
    Memory.wf (s.store8 a v).mem = true := by
  unfold State.store8
  split
  · exact h
  · exact put8_mem_wf s a v h

/-! ## The bytes of a store, one after the other -/

/-- `s` after the first `n` bytes of a store of `v` at `a`. -/
def storedBytes (s : State) (a v : Word) (n : Nat) : State :=
  (List.range n).foldl (fun t j => t.storeByte a j (v.extractLsb' (8 * j) 8)) s

theorem storeValue_eq_storedBytes (s : State) (k : StoreKind) (a v : Word) :
    s.storeValue k a v = storedBytes s a v k.size := rfl

theorem storedBytes_succ (s : State) (a v : Word) (n : Nat) :
    storedBytes s a v (n + 1) = (storedBytes s a v n).storeByte a n (v.extractLsb' (8 * n) 8) := by
  simp [storedBytes, List.range_succ]

@[simp] theorem storedBytes_params (s : State) (a v : Word) (n : Nat) : (storedBytes s a v n).params = s.params := by
  induction n with
  | zero => rfl
  | succ n ih => rw [storedBytes_succ, storeByte_params, ih]

/-- The transactions of `n` bytes, one more byte: the next part begins in the next aligned word. -/
theorem settle_succ (s : State) (a : Word) (n : Nat) :
    s.settle a (n + 1) = if a.toNat % 4 + n = 4 then s.landed else s.settle a n := by
  have split_iff : 4 < a.toNat % 4 + (n + 1) ↔ a.toNat % 4 + n = 4 ∨ 4 < a.toNat % 4 + n := by omega
  by_cases h : a.toNat % 4 + n = 4
  · simp [State.settle, splits, split_iff, h]
  · simp [State.settle, splits, split_iff, h]

/-- Before the next part begins no part has ended. -/
theorem settle_of_part_begins {s : State} {a : Word} {n : Nat} (h : a.toNat % 4 + n = 4) : s.settle a n = s :=
  settle_of_whole s (Nat.le_of_eq h)

/-- After `n` bytes of a store, memory is canonical, the stores of another master have taken effect if the second part has
begun, and a byte that was not stored reads accordingly. -/
theorem storedBytes_spec {s : State} (a v : Word) (hs : Memory.wf s.mem = true) (n : Nat) :
    Memory.wf (storedBytes s a v n).mem = true ∧ (storedBytes s a v n).between = (s.settle a n).between ∧
      ∀ b, (∀ j < n, b = a + BitVec.ofNat 32 j → s.deviceAt .store b = true) →
        (storedBytes s a v n).read8 b = (s.settle a n).read8 b := by
  induction n with
  | zero =>
    rw [settle_of_whole s (Nat.le_of_lt (Nat.mod_lt _ (by omega)))]
    exact ⟨hs, rfl, fun b _ => rfl⟩
  | succ n ih =>
    obtain ⟨hw, hb, hr⟩ := ih
    rw [storedBytes_succ, settle_succ, State.storeByte]
    have device : ∀ {u : State} {b : Word}, u.params = s.params →
        (∀ j < n + 1, b = a + BitVec.ofNat 32 j → s.deviceAt .store b = true) →
        b = a + BitVec.ofNat 32 n → u.deviceAt .store (a + BitVec.ofNat 32 n) = true := fun hp hd he =>
      he ▸ (deviceAt_congr hp .store _).trans (hd n (Nat.lt_succ_self n) he)
    split_ifs with h
    · rw [settle_of_part_begins h] at hb hr
      refine ⟨store8_mem_wf _ _ (landed_mem_wf _ hw), by simp, fun b hd => ?_⟩
      rw [store8_read8_other _ (device (by simp) hd)]
      exact landed_read8_congr hs hw hb (hr b fun j hj => hd j (Nat.lt_succ_of_lt hj))
    · refine ⟨store8_mem_wf _ _ hw, by simpa using hb, fun b hd => ?_⟩
      rw [store8_read8_other _ (device (by simp) hd)]
      exact hr b fun j hj => hd j (Nat.lt_succ_of_lt hj)

/-- The offsets of the bytes of a store are different addresses. -/
theorem offset_ne {a : Word} {i j : Nat} (hi : i < 4) (hj : j < 4) (h : i ≠ j) :
    a + BitVec.ofNat 32 i ≠ a + BitVec.ofNat 32 j := by
  intro e
  have := congrArg BitVec.toNat e
  simp at this
  omega

/-- A byte that was stored, and not stored over by another master between the parts, reads as stored. -/
theorem storedBytes_read8 {s : State} (a v : Word) (hs : Memory.wf s.mem = true) {i : Nat}
    (hd : s.deviceAt .store (a + BitVec.ofNat 32 i) = false) (n : Nat) (hn : n ≤ 4) (hi : i < n)
    (hb : splits a n = true → a.toNat % 4 + i < 4 → ∀ c ∈ s.between, c.1 ≠ a + BitVec.ofNat 32 i) :
    (storedBytes s a v n).read8 (a + BitVec.ofNat 32 i) = v.extractLsb' (8 * i) 8 := by
  induction n with
  | zero => omega
  | succ n ih =>
    obtain ⟨hw, hbn, -⟩ := storedBytes_spec a v hs n
    have hd' : ∀ u : State, u.params = s.params → u.deviceAt .store (a + BitVec.ofNat 32 i) = false :=
      fun u hu => (deviceAt_congr hu .store _).trans hd
    rw [storedBytes_succ, State.storeByte]
    by_cases hin : i = n
    · subst hin
      split_ifs
      · exact store8_read8_same _ (landed_mem_wf _ hw) (hd' _ (by simp))
      · exact store8_read8_same _ hw (hd' _ (by simp))
    · have hlt : i < n := by omega
      have hne : ∀ {P : Prop}, a + BitVec.ofNat 32 i = a + BitVec.ofNat 32 n → P := fun e =>
        absurd e (offset_ne (by omega) (by omega) hin)
      split_ifs with h
      · rw [settle_of_part_begins h] at hbn
        rw [store8_read8_other _ hne, landed_read8_of_not_mem hw]
        · exact ih (by omega) hlt fun hsp => by simp [splits] at hsp; omega
        · rw [hbn]
          exact hb (by simp [splits]; omega) (by omega)
      · rw [store8_read8_other _ hne]
        exact ih (by omega) hlt fun hsp => hb (by simp [splits] at hsp ⊢; omega)

/-! ## A whole store -/

theorem storeValue_read8_other {s : State} (k : StoreKind) {a : Word} (v : Word) {b : Word} (hs : Memory.wf s.mem = true)
    (h : ∀ j < k.size, b = a + BitVec.ofNat 32 j → s.deviceAt .store b = true) :
    (s.storeValue k a v).read8 b = (s.settle a k.size).read8 b := (storedBytes_spec a v hs k.size).2.2 b h

theorem storeValue_read8_same {s : State} (k : StoreKind) {a : Word} (v : Word) {j : Nat} (hj : j < k.size)
    (hs : Memory.wf s.mem = true) (hd : s.deviceAt .store (a + BitVec.ofNat 32 j) = false)
    (hb : splits a k.size = true → a.toNat % 4 + j < 4 → ∀ c ∈ s.between, c.1 ≠ a + BitVec.ofNat 32 j) :
    (s.storeValue k a v).read8 (a + BitVec.ofNat 32 j) = v.extractLsb' (8 * j) 8 :=
  storedBytes_read8 a v hs hd k.size (by cases k <;> decide) hj hb

/-- Settles O7: it holds, by induction on the bytes of the store, with what memory is after the bytes so far. -/
theorem storedBytesReadBack : Obligations.StoredBytesReadBack := by
  intro s k a v hs t u at'
  refine ⟨fun j hj hd hb => ?stored, fun j hj hd => ?device, fun b hb => ?other, ?canonical⟩
  case stored => exact storeValue_read8_same k v hj hs hd hb
  case device => exact storeValue_read8_other k v hs fun _ _ _ => hd
  case other => exact storeValue_read8_other k v hs fun j hj e => absurd e (hb j hj)
  case canonical => exact storeValue_mem_wf s k a v hs

end Sys2Proof.Proofs
end

