-- ==== Sys2Proof/Proofs/MemoryFrame.lean ====
section
/-! The memory frame: an instruction changes the bytes that it stores, and no other; what another master stores between the two
parts of its access is not its doing (20_memory.md R108). -/

namespace Sys2Proof.Proofs

open Sys2Proof.Machine

/-! ## The state after the transactions of an access -/

theorem settled_of_access {s : State} {i : Instr} {d : DataAccess} (hr : raisesException s i = false)
    (hd : dataAccess s i = some d) : s.settled i = s.settle d.addr d.size := by
  simp [State.settled, hr, hd]

theorem settled_of_no_access {s : State} {i : Instr} (hd : dataAccess s i = none) : s.settled i = s := by
  simp [State.settled, hd]

theorem settled_of_raisesException {s : State} {i : Instr} (hr : raisesException s i = true) : s.settled i = s := by
  simp [State.settled, hr]

theorem settle_of_no_between {s : State} (h : s.between = []) (a : Word) (n : Nat) : s.settle a n = s := by
  rw [State.settle, landed_of_none h, ite_self]

theorem settled_of_no_between {s : State} (h : s.between = []) (i : Instr) : s.settled i = s := by
  unfold State.settled
  split
  · rfl
  · split
    · exact settle_of_no_between h _ _
    · rfl

section
variable {s : State} {i : Instr} {τ : Traits} (h : traits s i = τ)
include h

theorem settled_of_traits {d : DataAccess} (hd : τ.access = some d) (hc : τ.call = false)
    (hf : τ.float = true → s.params.fpu = true) : s.settled i = s.settle d.addr d.size := by
  refine settled_of_access ?_ ((dataAccess_of_traits h).trans hd)
  rw [raisesException_of_traits h, hc]
  cases hτ : τ.float with
  | true => simp [hf hτ]
  | false => rfl

theorem settled_of_traits_none (hd : τ.access = none) : s.settled i = s :=
  settled_of_no_access ((dataAccess_of_traits h).trans hd)

theorem storesTo_of_traits {a : Word} {k : Nat} (hd : τ.access = some ⟨.store, a, k⟩) {j : Nat} (hj : j < k) :
    storesTo s i (a + BitVec.ofNat 32 j) := ⟨_, (dataAccess_of_traits h).trans hd, rfl, j, hj, rfl⟩

/-- An address that is not stored to is none of those of the store. -/
theorem offset_of_not_stored {a b : Word} {k : Nat} (hd : τ.access = some ⟨.store, a, k⟩) (hb : ¬ storesTo s i b) {P : Prop} :
    ∀ j < k, b = a + BitVec.ofNat 32 j → P := by
  rintro j hj rfl
  exact (hb (storesTo_of_traits h hd hj)).elim

end

theorem settled_of_illegal {s : State} {i : Instr} {τ : Traits} (h : traits s i = τ) (hf : τ.float = true)
    (hp : s.params.fpu = false) : s.settled i = s :=
  settled_of_raisesException (by rw [raisesException_of_traits h, hf, hp]; exact Bool.or_true _)

/-! ## The frame -/

theorem writeCsr_imem (s : State) (c : Csr) (v : Word) : (s.writeCsr c v).imem = s.imem := by
  cases c <;> simp [State.writeCsr]

theorem writeCsr_mem (s : State) (c : Csr) (v : Word) : (s.writeCsr c v).mem = s.mem := (writeCsr_keeps s c v).2.2.2.1

/-- The storage that only the instruction port reaches is not changed. -/
theorem Effect.imem_eq {s t : State} {i : Instr} (he : Effect s i t) : t.imem = s.imem := by
  cases he with
  | csrWrites => simpa using writeCsr_imem s _ _
  | ecall => exact takeException_imem s 11 0x88
  | illegal => exact takeException_imem s 2 0x84
  | mret | breaks | jumps => rfl
  | _ => simp

theorem Effect.read8_of_not_stored {s t : State} {i : Instr} (he : Effect s i t) (hm : Memory.wf s.mem = true) {b : Word}
    (hb : ¬ storesTo s i b) : t.read8 b = (s.settled i).read8 b := by
  cases he with
  | loads h | postLoads h =>
    rw [settled_of_traits h rfl rfl nofun]
    exact read8_of_mem_eq (by simp) b
  | loadsF h hf =>
    rw [settled_of_traits h rfl rfl fun _ => hf]
    exact read8_of_mem_eq (by simp) b
  | @stores n a v k _ h hf =>
    rw [settled_of_traits h rfl rfl hf, ← storeValue_read8_other k v hm (offset_of_not_stored h rfl hb)]
    exact read8_of_mem_eq (by simp) b
  | @postStores a v _ k _ h =>
    rw [settled_of_traits h rfl rfl nofun, ← storeValue_read8_other k v hm (offset_of_not_stored h rfl hb)]
    exact read8_of_mem_eq (by simp) b
  | ecall h =>
    rw [settled_of_traits_none h rfl]
    exact read8_of_mem_eq (takeException_mem s 11 0x88) b
  | illegal h hf hp =>
    rw [settled_of_illegal h hf hp]
    exact read8_of_mem_eq (takeException_mem s 2 0x84) b
  | csrWrites h =>
    rw [settled_of_traits_none h rfl]
    exact read8_of_mem_eq (by simpa using writeCsr_mem s _ _) b
  | mret _ h | breaks h | jumps h =>
    rw [settled_of_traits_none h rfl]
    rfl
  | writes h | ends h | fenceI _ h | wfi _ h | links h | fpWrites h | fpToX h | loopSetup h | csrReads h =>
    rw [settled_of_traits_none h rfl]
    exact read8_of_mem_eq (by simp) b

/-- Settles O55: it holds, by the effect of the instruction: only a store writes memory, and `storeValue` leaves every byte but
its own as the transactions of the access left it. -/
theorem onlyStoredBytesChange : Obligations.OnlyStoredBytesChange := by
  intro i s t h
  have he : Effect s i t := exec_effect h
  exact ⟨fun hm a ha => he.read8_of_not_stored hm ha, he.imem_eq, fun hb => settled_of_no_between hb i⟩

end Sys2Proof.Proofs
end

