-- ==== Sys2Proof/Proofs/SystemFrame.lean ====
section
/-! The frame over the special registers, the debug registers, the inputs and outputs (00_scope.md section 5): compared at once, as
what is left of a state when the fields that ordinary instructions work on are blanked out. -/

namespace Sys2Proof.Proofs

open Sys2Proof.Machine

/-- A state with the registers, the pc, the flags, the loop registers and memory blanked out: MSTATUS, MEPC, MCAUSE, the counters,
frm, fprec, the sleep bit, inputs, outputs, the debug registers and the parameters are left. -/
def systemPart (s : State) : State :=
  { s with
    x := Vector.replicate 31 0, f := Vector.replicate 32 0, pc := 0, fflags := 0
    loop0 := ⟨0, 0, 0⟩, loop1 := ⟨0, 0, 0⟩, mem := [], dirty := [], between := [] }

/-! ## What the updates leave of it -/

@[simp] theorem systemPart_writeX (s : State) (r : Reg) (v : Word) : systemPart (s.writeX r v) = systemPart s := by
  unfold State.writeX; split <;> rfl
@[simp] theorem systemPart_writeF (s : State) (r : Reg) (v : Word) : systemPart (s.writeF r v) = systemPart s := rfl
@[simp] theorem systemPart_raise (s : State) (w : BitVec 5) : systemPart (s.raise w) = systemPart s := rfl
@[simp] theorem systemPart_setLoopRegs (s : State) (l : BitVec 1) (v : LoopRegs) :
    systemPart (s.setLoopRegs l v) = systemPart s := by
  unfold State.setLoopRegs; split <;> rfl
@[simp] theorem systemPart_stepLoops (s : State) (n : Word) : systemPart (s.stepLoops n) = systemPart s := by
  rw [stepLoops_eq]; rfl
@[simp] theorem systemPart_landed (s : State) : systemPart s.landed = systemPart s :=
  foldl_put8 systemPart (fun _ _ _ => rfl) s.between _
@[simp] theorem systemPart_settle (s : State) (a : Word) (n : Nat) : systemPart (s.settle a n) = systemPart s := by
  unfold State.settle
  split
  · exact systemPart_landed s
  · rfl
@[simp] theorem systemPart_store8 (s : State) (a : Word) (v : Byte) : systemPart (s.store8 a v) = systemPart s := by
  unfold State.store8; split <;> rfl
@[simp] theorem systemPart_storeByte (s : State) (a : Word) (j : Nat) (v : Byte) :
    systemPart (s.storeByte a j v) = systemPart s := by
  unfold State.storeByte; split <;> simp
@[simp] theorem systemPart_storeValue (s : State) (k : StoreKind) (a v : Word) :
    systemPart (s.storeValue k a v) = systemPart s :=
  storeValue_keeps systemPart systemPart_storeByte s k a v

/-! ## The loop registers, the stores of another master, the stale bytes -/

/-- The loop step counts down and moves no bound. -/
theorem stepLoop1_bounds (s : State) (n : Word) :
    (s.stepLoop1 n).loop1.start = s.loop1.start ∧ (s.stepLoop1 n).loop1.stop = s.loop1.stop := by
  unfold State.stepLoop1
  repeat' split
  all_goals exact ⟨rfl, rfl⟩

theorem stepLoops_bounds (s : State) (n : Word) :
    ((s.stepLoops n).loop0.start = s.loop0.start ∧ (s.stepLoops n).loop0.stop = s.loop0.stop) ∧
      (s.stepLoops n).loop1.start = s.loop1.start ∧ (s.stepLoops n).loop1.stop = s.loop1.stop := by
  unfold State.stepLoops
  split
  · split
    · exact ⟨⟨rfl, rfl⟩, rfl, rfl⟩
    · rw [stepLoop1_loop0]
      exact ⟨⟨rfl, rfl⟩, stepLoop1_bounds _ n⟩
  · rw [stepLoop1_loop0]
    exact ⟨⟨rfl, rfl⟩, stepLoop1_bounds s n⟩

@[simp] theorem stepLoops_loop0_start (s : State) (n : Word) : (s.stepLoops n).loop0.start = s.loop0.start :=
  (stepLoops_bounds s n).1.1
@[simp] theorem stepLoops_loop0_stop (s : State) (n : Word) : (s.stepLoops n).loop0.stop = s.loop0.stop :=
  (stepLoops_bounds s n).1.2
@[simp] theorem stepLoops_loop1_start (s : State) (n : Word) : (s.stepLoops n).loop1.start = s.loop1.start :=
  (stepLoops_bounds s n).2.1
@[simp] theorem stepLoops_loop1_stop (s : State) (n : Word) : (s.stepLoops n).loop1.stop = s.loop1.stop :=
  (stepLoops_bounds s n).2.2

/-- What of the stores of another master a store uses up does not depend on what it stores. -/
theorem storedBytes_between (s : State) (a v : Word) (n : Nat) : (storedBytes s a v n).between = (s.settle a n).between := by
  induction n with
  | zero => rw [settle_of_whole s (Nat.le_of_lt (Nat.mod_lt _ (by omega)))]; rfl
  | succ n ih =>
    rw [storedBytes_succ, settle_succ, State.storeByte, store8_between]
    split
    · rw [landed_between, landed_between]
    · exact ih

theorem storeValue_between (s : State) (k : StoreKind) (a v : Word) :
    (s.storeValue k a v).between = (s.settle a k.size).between := storedBytes_between s a v k.size

/-! ## The frame -/

/-- The instructions whose rule is not about the special registers. -/
structure Ordinary (s : State) (i : Instr) : Prop where
  not_csr : isCsrAccess i = false
  not_trap : entersTrap s i = false
  not_mret : i ≠ .mret
  not_wfi : i ≠ .wfi

/-- What such an instruction leaves as it was. -/
structure KeepsSystem (s : State) (i : Instr) (t : State) : Prop where
  system : systemPart t = systemPart s
  flags : if mayRaiseFlags i then ∃ w, t.fflags = s.fflags ||| w else t.fflags = s.fflags
  bounds : isLoopSetup i = false → t.loop0.start = s.loop0.start ∧ t.loop0.stop = s.loop0.stop ∧
    t.loop1.start = s.loop1.start ∧ t.loop1.stop = s.loop1.stop
  between : t.between = (s.settled i).between
  dirty : (∀ a, ¬ storesTo s i a) → i ≠ .fenceI → t.dirty = (s.settled i).dirty

theorem fflags_of_no_flags {s t : State} {i : Instr} {τ : Traits} (h : traits s i = τ) (hf : τ.flags = false)
    (ht : t.fflags = s.fflags) : if mayRaiseFlags i then ∃ w, t.fflags = s.fflags ||| w else t.fflags = s.fflags := by
  rw [mayRaiseFlags_of_traits h, hf]
  exact ht

/-- The flags of a float instruction, ORed in; none if it is not one that raises flags. -/
theorem fflags_of_flags {s t : State} {i : Instr} {τ : Traits} {w : BitVec 5} (h : traits s i = τ)
    (hw : τ.flags = false → w = Flag.none) (ht : t.fflags = s.fflags ||| w) :
    if mayRaiseFlags i then ∃ w, t.fflags = s.fflags ||| w else t.fflags = s.fflags := by
  rw [mayRaiseFlags_of_traits h]
  cases hf : τ.flags with
  | true => exact ⟨w, ht⟩
  | false => simpa [hw hf, Flag.none] using ht

/-- A store to some byte. -/
theorem not_storesTo_nothing {s : State} {i : Instr} {τ : Traits} {a : Word} {k : StoreKind} (h : traits s i = τ)
    (hd : τ.access = some ⟨.store, a, k.size⟩) (hn : ∀ a, ¬ storesTo s i a) {P : Prop} : P :=
  (hn _ (storesTo_of_traits h hd (show 0 < k.size by cases k <;> decide))).elim

theorem Effect.keepsSystem {s t : State} {i : Instr} (he : Effect s i t) (ho : Ordinary s i) : KeepsSystem s i t := by
  cases he with
  | wfi hi => exact (ho.not_wfi hi).elim
  | mret hi => exact (ho.not_mret hi).elim
  | breaks h | ecall h => exact nomatch (entersTrap_of_traits h).symm.trans ho.not_trap
  | illegal h hf hp =>
    have := (entersTrap_of_traits h).symm.trans ho.not_trap
    simp [hf, hp] at this
  | csrReads h | csrWrites h => exact nomatch (isCsrAccess_of_traits h).symm.trans ho.not_csr
  | fenceI hi h =>
    exact ⟨systemPart_stepLoops _ _, fflags_of_no_flags h rfl (by simp), fun _ => by simp,
      by simp [settled_of_traits_none h rfl], fun _ hf => (hf hi).elim⟩
  | loopSetup h =>
    exact ⟨by simp, fflags_of_no_flags h rfl (by simp), fun hl => (nomatch (isLoopSetup_of_traits h).symm.trans hl),
      by simp [settled_of_traits_none h rfl], fun _ _ => by simp [settled_of_traits_none h rfl]⟩
  | jumps h =>
    exact ⟨rfl, fflags_of_no_flags h rfl rfl, fun _ => ⟨rfl, rfl, rfl, rfl⟩,
      by rw [settled_of_traits_none h rfl], fun _ _ => by rw [settled_of_traits_none h rfl]⟩
  | links h =>
    exact ⟨systemPart_writeX s _ _, fflags_of_no_flags h rfl (by simp), fun _ => by simp,
      by simp [settled_of_traits_none h rfl], fun _ _ => by simp [settled_of_traits_none h rfl]⟩
  | writes h | ends h =>
    exact ⟨by simp, fflags_of_no_flags h rfl (by simp), fun _ => by simp,
      by simp [settled_of_traits_none h rfl], fun _ _ => by simp [settled_of_traits_none h rfl]⟩
  | fpWrites h hw | fpToX h hw =>
    exact ⟨by simp, fflags_of_flags h hw (by simp), fun _ => by simp,
      by simp [settled_of_traits_none h rfl], fun _ _ => by simp [settled_of_traits_none h rfl]⟩
  | loads h | postLoads h =>
    have hs := settled_of_traits h rfl rfl nofun
    exact ⟨by simp, fflags_of_no_flags h rfl (by simp), fun _ => by simp, by simp [hs], fun _ _ => by simp [hs]⟩
  | loadsF h hf =>
    have hs := settled_of_traits h rfl rfl fun _ => hf
    exact ⟨by simp, fflags_of_no_flags h rfl (by simp), fun _ => by simp, by simp [hs], fun _ _ => by simp [hs]⟩
  | stores h hf =>
    have hs := settled_of_traits h rfl rfl hf
    exact ⟨by simp, fflags_of_no_flags h rfl (by simp), fun _ => by simp,
      by simpa [hs] using storeValue_between s _ _ _, fun hn _ => not_storesTo_nothing h rfl hn⟩
  | postStores h =>
    have hs := settled_of_traits h rfl rfl nofun
    exact ⟨by simp, fflags_of_no_flags h rfl (by simp), fun _ => by simp,
      by simpa [hs] using storeValue_between s _ _ _, fun hn _ => not_storesTo_nothing h rfl hn⟩

/-- Settles O56: it holds, by the effect of the instruction: none of the updates it may be made of reaches the system part of the
state, and each of the other fields named is followed through them. -/
theorem onlyNamedSystemStateChanges : Obligations.OnlyNamedSystemStateChanges := by
  intro i s t h hc ht hm hw
  obtain ⟨hsys, hflags, hbounds, hbetween, hdirty⟩ := (exec_effect h).keepsSystem ⟨hc, ht, hm, hw⟩
  have same : ∀ {α : Type} (g : State → α), g (systemPart t) = g (systemPart s) := fun g => congrArg g hsys
  exact ⟨same State.mstatus, same State.mepc, same State.mcause, same State.pcmr, same State.pcer, same State.pccr,
    same State.frm, same State.fprec, same State.sleeping, same State.irq, same State.irqAck, same State.bootAddr,
    same State.halted, same State.sste, same State.ssth, same State.dbgIe, same State.dbgCause, same State.ppc,
    same State.dbgRdata, same State.inputs, same State.draws, same State.params, same State.imem, same State.prevWrites,
    same State.heldIrq, hbetween, hflags, hbounds, hdirty⟩

end Sys2Proof.Proofs
end

