-- ==== Sys2Proof/Proofs/HardwareLoops.lean ====
section
/-! Hardware loops (46_pulp_hwloop.md): the loop step, the set-up instructions, and what cannot complete at the end of a body. -/

namespace Sys2Proof.Proofs

open Sys2Proof.Machine

/-! ## The loop step -/

theorem hit_iff (l : LoopRegs) (pc : Word) : l.hit pc = true ↔ pc = l.stop ∧ l.count.toNat ≠ 0 := by
  rw [LoopRegs.hit, Bool.and_eq_true, beq_iff_eq, bne_iff_ne, eq_comm, ne_eq, BitVec.toNat_eq (x := l.count)]
  rfl

theorem hit_eq_false_iff (l : LoopRegs) (pc : Word) : l.hit pc = false ↔ ¬ (pc = l.stop ∧ l.count.toNat ≠ 0) := by
  rw [← hit_iff, Bool.not_eq_true]

theorem getLsbD_evenMask {k : Nat} (hk : k < 32) : (0xFFFFFFFE : Word).getLsbD k = decide (1 ≤ k) := by
  revert k; decide

/-- Clearing bit 0 rounds down to an even number. -/
theorem evenTarget_eq_ofNat (t : Word) : evenTarget t = BitVec.ofNat 32 (t.toNat / 2 * 2) := by
  apply BitVec.eq_of_getLsbD_eq
  intro k hk
  rw [evenTarget, BitVec.getLsbD_and, getLsbD_evenMask hk, BitVec.getLsbD_ofNat, decide_eq_true hk, Bool.true_and,
    show t.toNat / 2 * 2 = t.toNat / 2 * 2 ^ 1 from rfl, Nat.testBit_mul_two_pow, Bool.and_comm]
  cases k with
  | zero => rfl
  | succ k => rw [Nat.add_sub_cancel, ← Nat.testBit_succ]; rfl

theorem entry_eq (l : LoopRegs) : l.entry = BitVec.ofNat 32 (l.start.toNat / 2 * 2) := evenTarget_eq_ofNat l.start

theorem pass_eq {l : LoopRegs} (h : l.count.toNat ≠ 0) :
    l.pass = { l with count := BitVec.ofNat 32 (l.count.toNat - 1) } := by
  have : l.count - 1 = BitVec.ofNat 32 (l.count.toNat - 1) := by bv_omega
  rw [LoopRegs.pass, this]

theorem stepLoop1_again {s : State} (n : Word) (h : s.loop1.hit s.pc = true) (hc : 1 < s.loop1.count.toNat) :
    s.stepLoop1 n = { s with loop1 := s.loop1.pass, pc := s.loop1.entry } := by
  rw [State.stepLoop1, if_pos h, if_pos hc]

theorem stepLoop1_last {s : State} (n : Word) (h : s.loop1.hit s.pc = true) (hc : s.loop1.count.toNat = 1) :
    s.stepLoop1 n = { s with loop1 := s.loop1.pass, pc := n } := by
  rw [State.stepLoop1, if_pos h, if_neg (by omega)]

theorem stepLoop1_no_hit {s : State} (n : Word) (h : s.loop1.hit s.pc = false) : s.stepLoop1 n = { s with pc := n } := by
  rw [State.stepLoop1, h]; rfl

theorem stepLoops_again {s : State} (n : Word) (h : s.loop0.hit s.pc = true) (hc : 1 < s.loop0.count.toNat) :
    s.stepLoops n = { s with loop0 := s.loop0.pass, pc := s.loop0.entry } := by
  rw [State.stepLoops, if_pos h, if_pos hc]

/-- After the last pass of loop 0 loop 1 decides. -/
theorem stepLoops_last {s : State} (n : Word) (h : s.loop0.hit s.pc = true) (hc : s.loop0.count.toNat = 1) :
    s.stepLoops n = State.stepLoop1 { s with loop0 := s.loop0.pass } n := by
  rw [State.stepLoops, if_pos h, if_neg (by omega)]

theorem stepLoops_last_again {s : State} (n : Word) (h : s.loop0.hit s.pc = true) (hc : s.loop0.count.toNat = 1)
    (h' : s.loop1.hit s.pc = true) (hc' : 1 < s.loop1.count.toNat) :
    s.stepLoops n = { s with loop0 := s.loop0.pass, loop1 := s.loop1.pass, pc := s.loop1.entry } :=
  (stepLoops_last n h hc).trans (stepLoop1_again (s := { s with loop0 := s.loop0.pass }) n h' hc')

theorem stepLoops_last_last {s : State} (n : Word) (h : s.loop0.hit s.pc = true) (hc : s.loop0.count.toNat = 1)
    (h' : s.loop1.hit s.pc = true) (hc' : s.loop1.count.toNat = 1) :
    s.stepLoops n = { s with loop0 := s.loop0.pass, loop1 := s.loop1.pass, pc := n } :=
  (stepLoops_last n h hc).trans (stepLoop1_last (s := { s with loop0 := s.loop0.pass }) n h' hc')

theorem stepLoops_last_no_hit {s : State} (n : Word) (h : s.loop0.hit s.pc = true) (hc : s.loop0.count.toNat = 1)
    (h' : s.loop1.hit s.pc = false) : s.stepLoops n = { s with loop0 := s.loop0.pass, pc := n } :=
  (stepLoops_last n h hc).trans (stepLoop1_no_hit (s := { s with loop0 := s.loop0.pass }) n h')

theorem stepLoops_other {s : State} (n : Word) (h : s.loop0.hit s.pc = false) : s.stepLoops n = s.stepLoop1 n := by
  rw [State.stepLoops, h]; rfl

/-- Settles O33: it holds, case by case along the loop step: loop 0 goes on, ends, or is not hit, and then loop 1. -/
theorem hardwareLoopStep : Obligations.HardwareLoopStep := by
  intro s n c0 c1 hit0 hit1 start0 start1
  have h0 : hit0 → s.loop0.hit s.pc = true := (hit_iff _ _).mpr
  have h1 : hit1 → s.loop1.hit s.pc = true := (hit_iff _ _).mpr
  have n0 : ¬ hit0 → s.loop0.hit s.pc = false := (hit_eq_false_iff _ _).mpr
  have n1 : ¬ hit1 → s.loop1.hit s.pc = false := (hit_eq_false_iff _ _).mpr
  have last0 : hit0 → c0 = 1 → s.loop0.pass = { s.loop0 with count := 0 } := fun h hc => by
    rw [pass_eq h.2, show s.loop0.count.toNat = 1 from hc]; rfl
  have last1 : hit1 → c1 = 1 → s.loop1.pass = { s.loop1 with count := 0 } := fun h hc => by
    rw [pass_eq h.2, show s.loop1.count.toNat = 1 from hc]; rfl
  refine ⟨fun h hc => ?again0, fun h hc h' hc' => ?again1, fun h hc h' hc' => ?last_both, fun h hc h' => ?last_only,
    fun h h' hc => ?other_again, fun h h' hc => ?other_last, fun h h' => ?none⟩
  case again0 => rw [State.after, stepLoops_again _ (h0 h) hc, pass_eq h.2, entry_eq]
  case again1 => rw [State.after, stepLoops_last_again _ (h0 h) hc (h1 h') hc', pass_eq h'.2, last0 h hc, entry_eq]
  case last_both => rw [State.after, stepLoops_last_last _ (h0 h) hc (h1 h') hc', last0 h hc, last1 h' hc']
  case last_only => rw [State.after, stepLoops_last_no_hit _ (h0 h) hc (n1 h'), last0 h hc]
  case other_again => rw [State.after, stepLoops_other _ (n0 h), stepLoop1_again _ (h1 h') hc, pass_eq h'.2, entry_eq]
  case other_last => rw [State.after, stepLoops_other _ (n0 h), stepLoop1_last _ (h1 h') hc, last1 h' hc]
  case none => rw [State.after, stepLoops_other _ (n0 h), stepLoop1_no_hit _ (n1 h')]

/-! ## Setting up a loop -/

theorem insideActive_iff (l : LoopRegs) (pc : Word) : l.insideActive pc = true ↔
    l.count.toNat ≠ 0 ∧ l.start.toNat ≤ pc.toNat ∧ pc.toNat ≤ l.stop.toNat := by
  rw [LoopRegs.insideActive, Bool.and_eq_true, Bool.and_eq_true, bne_iff_ne, ne_eq, BitVec.toNat_eq (x := l.count),
    BitVec.ule_eq_decide, BitVec.ule_eq_decide, decide_eq_true_eq, decide_eq_true_eq, and_assoc]
  rfl

theorem insideActive_eq_false_iff (l : LoopRegs) (pc : Word) : l.insideActive pc = false ↔
    ¬ (l.count.toNat ≠ 0 ∧ l.start.toNat ≤ pc.toNat ∧ pc.toNat ≤ l.stop.toNat) := by
  rw [← insideActive_iff, Bool.not_eq_true]

/-- Outside the active body, where no too-short loop ends, writing the registers is all a set-up instruction does before the
loop step. -/
theorem writeLoop_eq_after {s : State} {l : BitVec 1} {v : LoopRegs} (h : (s.loopRegs l).insideActive s.pc = false)
    (hs : (s.setLoopRegs l v).hitsShortLoop = false) : writeLoop l v s = .next ((s.setLoopRegs l v).after 4) := by
  rw [writeLoop, h, retire_of_not_short _ hs]
  rfl

theorem writeLoop_of_inside {s : State} {l : BitVec 1} (v : LoopRegs) (h : (s.loopRegs l).insideActive s.pc = true) :
    writeLoop l v s = .refused .loopWriteInBody := by
  rw [writeLoop, if_pos h]

theorem loopOffset_eq (u : BitVec 12) : loopOffset u = BitVec.ofNat 32 (2 * u.toNat) := by
  rw [loopOffset]; bv_omega

theorem loopOffsetS_eq (u : BitVec 5) : loopOffsetS u = BitVec.ofNat 32 (2 * u.toNat) := by
  rw [loopOffsetS]; bv_omega

/-- The word of a hardware-loop instruction, field by field. -/
theorem encI_loop (u : BitVec 12) (rs1 : BitVec 5) (f3 : BitVec 3) (l : BitVec 1) :
    encI u rs1 f3 (0#4 ++ l) 0x7B#7 = u ++ rs1 ++ f3 ++ 0#4 ++ l ++ 0x7B#7 := by
  apply BitVec.eq_of_getLsbD_eq
  intro k hk
  simp only [encI, encR, BitVec.getLsbD_append, BitVec.getLsbD_extractLsb']
  grind

/-- Settles O31: it holds. Each of the five writes the registers that its rule names, by the common end of the `lp.*`. -/
theorem loopSetupWrites : Obligations.LoopSetupWrites := by
  intro s l rs1 u old target completes
  have offset : s.pc + loopOffset u = target := by rw [loopOffset_eq]
  refine ⟨fun h hs => ?starti, fun h hs => ?endi, fun h hs => ?count, fun h hs => ?counti, fun h hs => ?setup, rfl, rfl,
    fun new => ⟨rfl, rfl⟩, ?_, ?_, ?_, ?_, ?_⟩
  case starti => rw [← offset] at hs ⊢; exact writeLoop_eq_after h hs
  case endi => rw [← offset] at hs ⊢; exact writeLoop_eq_after h hs
  case count => exact writeLoop_eq_after h hs
  case counti => rw [BitVec.ofNat_toNat] at hs ⊢; exact writeLoop_eq_after h hs
  case setup => rw [← offset] at hs ⊢; exact writeLoop_eq_after h hs
  all_goals exact congrArg Code.word (encI_loop _ _ _ _)

/-- Settles O32: it holds, by the common end of the `lp.*`, which completes outside the active body and is refused inside. -/
theorem immediateLoopSetupAndLoopWriteStops : Obligations.ImmediateLoopSetupAndLoopWriteStops := by
  intro s l rs1 u v old new inside
  refine ⟨fun h hs => ?outside, fun h => ?inside⟩
  case outside =>
    have offset : BitVec.ofNat 32 (2 * v.toNat) = loopOffsetS v := (loopOffsetS_eq v).symm
    have h' : (s.loopRegs l).insideActive s.pc = false := (insideActive_eq_false_iff _ _).mpr h
    simp only [new, offset, BitVec.ofNat_toNat] at hs ⊢
    exact writeLoop_eq_after h' hs
  case inside =>
    have refused : ∀ v, writeLoop l v s = .refused .loopWriteInBody := fun v =>
      writeLoop_of_inside v ((insideActive_iff _ _).mpr h)
    simp only [List.forall_mem_cons]
    exact ⟨refused _, refused _, refused _, refused _, refused _, refused _, nofun⟩

/-! ## What cannot complete at the end of a body -/

theorem hitsLoop_of_hitsShortLoop {s : State} (h : s.hitsShortLoop = true) : s.hitsLoop = true := by
  rw [State.hitsShortLoop, Bool.or_eq_true, Bool.and_eq_true, Bool.and_eq_true] at h
  rw [State.hitsLoop, Bool.or_eq_true]
  exact h.imp And.left And.left

/-- A CSR that is no loop register leaves the loops as they are. -/
theorem writeCsr_hitsShortLoop {c : Csr} (hc : c.loop? = none) (s : State) (v : Word) :
    (s.writeCsr c v).hitsShortLoop = s.hitsShortLoop := by
  cases c with
  | lpstart | lpend | lpcount => exact nomatch hc
  | pccr n => exact hitsShortLoop_congr (writePccr_loop0 s n v) (writePccr_loop1 s n v) (writePccr_pc s n v)
  | _ => rfl

/-- At the end of an active body every instruction that assigns the pc is refused. -/
theorem Meaning.refused_of_hitsLoop {s : State} {i : Instr} {r : Result} (hm : Meaning s i r) (hl : s.hitsLoop = true)
    (hj : assignsPc i = true) : r = .refused .loopEndsInJump := by
  have refused : ∀ {u : State} (p : Word), u.hitsLoop = true → jumpTo p u = .refused .loopEndsInJump := fun p h => by
    rw [jumpTo, if_pos h]
  cases hm with
  | mret => exact refused _ hl
  | jumps => exact refused _ hl
  | links => exact refused _ (by simpa using hl)
  | @branches b =>
    cases b with
    | true => exact refused _ hl
    | false => exact refused _ hl
  | writes h | ends h | fenceI _ h | wfi _ h | ecall h | breaks h | loads h | stores h | postLoads h | postStores h
  | loadsF h | storesF h | fpRounds h | fpWrites h | fpToX h | fpToXRounds h | loopSetup h | csrReads h | csrWrites h =>
    exact nomatch (assignsPc_of_traits h).symm.trans hj

/-- At the end of a too-short loop only a trap, or a write of a loop register, has completed. -/
theorem Effect.not_hitsShortLoop {s t : State} {i : Instr} (he : Effect s i t) (ht : entersTrap s i = false)
    (hw : writesLoopRegister s i = false) : s.hitsShortLoop = false := by
  have jump : s.hitsLoop = false → s.hitsShortLoop = false := fun hl =>
    Bool.eq_false_iff.mpr fun hs => by simp [hitsLoop_of_hitsShortLoop hs] at hl
  rw [writesLoopRegister, Bool.or_eq_false_iff] at hw
  cases he with
  | breaks h | ecall h => exact nomatch (entersTrap_of_traits h).symm.trans ht
  | illegal h hf hp =>
    have := (entersTrap_of_traits h).symm.trans ht
    simp [hf, hp] at this
  | loopSetup h => exact nomatch (isLoopSetup_of_traits h).symm.trans hw.1
  | mret _ _ hl | jumps _ _ hl | links _ _ hl => exact jump hl
  | csrWrites h hc hs =>
    have hn : _ = false := hw.2
    rw [csrWritten_of_traits h] at hn
    rw [writeCsr_hitsShortLoop (by simpa [hc] using hn)] at hs
    exact hs
  | _ => assumption

/-- Settles O34: it holds. Jumps are refused by `jumpTo`; and an instruction that answers a next state, writes no loop register
and enters no trap has passed the test of `retire` or of `jumpTo`. -/
theorem loopEndConstraints : Obligations.LoopEndConstraints := by
  intro s i
  refine ⟨fun hl hj => (exec_meaning s i).refused_of_hitsLoop hl hj, fun hs ht hw t h => ?short⟩
  case short =>
    have := (exec_effect h).not_hitsShortLoop ht hw
    simp [hs] at this

end Sys2Proof.Proofs
end

