-- ==== Sys2Proof/Proofs/Traps.lean ====
section
/-! Traps, returns, breakpoints, fences and sleep (60_exceptions.md, 41_rv32i_system.md): the trap entry written out, field by
field, and the instructions that make it. -/

namespace Sys2Proof.Proofs

open Sys2Proof.Machine

/-! ## MSTATUS and the vector -/

/-- The two bits of MSTATUS that a trap entry and a return move, and the others (10_state.md R27). -/
theorem getLsbD_withMie (w : Word) (mpie mie : Bool) {k : Nat} (hk : k < 32) :
    (withMie w mpie mie).getLsbD k = if k = 3 then mie else if k = 7 then mpie else w.getLsbD k := by
  have mask : ∀ j < 32, (0xFFFFFF77 : Word).getLsbD j = decide (j ≠ 3 ∧ j ≠ 7) := by decide
  have bit7 : ∀ j < 32, (0x80 : Word).getLsbD j = decide (j = 7) := by decide
  have bit3 : ∀ j < 32, (0x8 : Word).getLsbD j = decide (j = 3) := by decide
  have ite_getLsbD : ∀ (b : Bool) (v : Word), (if b then v else 0).getLsbD k = (b && v.getLsbD k) := fun b v => by
    cases b <;> simp
  rw [withMie, BitVec.getLsbD_or, BitVec.getLsbD_or, BitVec.getLsbD_and, ite_getLsbD, ite_getLsbD, mask k hk, bit7 k hk,
    bit3 k hk]
  by_cases h3 : k = 3
  · simp [h3]
  · by_cases h7 : k = 7
    · simp [h7]
    · simp [h3, h7]

/-- What a trap entry leaves in MSTATUS: MIE cleared, MPIE the old MIE, the others kept (60_exceptions.md R707). -/
theorem withMie_of_entry (s : State) :
    (withMie s.mstatus s.mie false).getLsbD 3 = false ∧
      (withMie s.mstatus s.mie false).getLsbD 7 = s.mstatus.getLsbD 3 ∧
      ∀ k, k ≠ 3 → k ≠ 7 → (withMie s.mstatus s.mie false).getLsbD k = s.mstatus.getLsbD k := by
  refine ⟨getLsbD_withMie _ _ _ (by omega), getLsbD_withMie _ _ _ (by omega), fun k h3 h7 => ?_⟩
  by_cases hk : k < 32
  · rw [getLsbD_withMie _ _ _ hk, if_neg h3, if_neg h7]
  · rw [BitVec.getLsbD_of_ge _ _ (by omega), BitVec.getLsbD_of_ge _ _ (by omega)]

/-- What a return leaves in MSTATUS: MIE the old MPIE, MPIE set, the others kept (60_exceptions.md R708). -/
theorem withMie_of_return (s : State) :
    (withMie s.mstatus true s.mpie).getLsbD 3 = s.mstatus.getLsbD 7 ∧
      (withMie s.mstatus true s.mpie).getLsbD 7 = true ∧
      ∀ k, k ≠ 3 → k ≠ 7 → (withMie s.mstatus true s.mpie).getLsbD k = s.mstatus.getLsbD k := by
  refine ⟨getLsbD_withMie _ _ _ (by omega), getLsbD_withMie _ _ _ (by omega), fun k h3 h7 => ?_⟩
  by_cases hk : k < 32
  · rw [getLsbD_withMie _ _ _ hk, if_neg h3, if_neg h7]
  · rw [BitVec.getLsbD_of_ge _ _ (by omega), BitVec.getLsbD_of_ge _ _ (by omega)]

/-- The number of a concatenation. -/
theorem toNat_append_eq {n m : Nat} (x : BitVec n) (y : BitVec m) : (x ++ y).toNat = x.toNat * 2 ^ m + y.toNat := by
  rw [BitVec.toNat_append, ← Nat.shiftLeft_add_eq_or_of_lt y.isLt, Nat.shiftLeft_eq]

/-- A word put together from the high 24 bits of another and a byte. -/
theorem toNat_high24_append (w : Word) (o : BitVec 8) :
    (w.extractLsb' 8 24 ++ o).toNat = w.toNat / 256 * 256 + o.toNat := by
  have hw := w.isLt
  rw [toNat_append_eq, BitVec.extractLsb'_toNat, Nat.shiftRight_eq_div_pow]
  omega

theorem vector_toNat (s : State) (o : BitVec 8) : (s.vector o).toNat = s.bootAddr.toNat / 256 * 256 + o.toNat :=
  toNat_high24_append s.bootAddr o

theorem vector_eq (s : State) (o : BitVec 8) : s.vector o = BitVec.ofNat 32 (s.bootAddr.toNat / 256 * 256 + o.toNat) := by
  rw [← vector_toNat, BitVec.ofNat_toNat, BitVec.setWidth_eq]

/-! ## The trap entry -/

theorem takeException_eq (s : State) (c : BitVec 5) (o : BitVec 8) : s.takeException c o = { s with
    mepc := s.pc, mcause := c.setWidth 32, mstatus := withMie s.mstatus s.mie false, pc := s.vector o
    halted := s.halted || s.dbgIe.getLsbD c.toNat
    dbgCause := if s.dbgIe.getLsbD c.toNat then c else s.dbgCause } := by
  unfold State.takeException
  cases h : s.dbgIe.getLsbD c.toNat with
  | true => simp [State.halt, State.enterTrap]
  | false => simp [State.enterTrap]

/-- Settles O9: it holds, by the trap entry written out and the bits of MSTATUS after it. -/
theorem ecallTrapEntry : Obligations.EcallTrapEntry := by
  intro s
  refine ⟨withMie s.mstatus s.mie false, ?_, withMie_of_entry s⟩
  exact congrArg Host.Outcome.next ((takeException_eq s 11 0x88).trans (by rw [vector_eq]; rfl))

/-- With no FPU a floating-point instruction is the illegal-instruction exception. -/
theorem Meaning.illegal_of_no_fpu {s : State} {i : Instr} {r : Result} (hm : Meaning s i r) (hp : s.params.fpu = false)
    (hf : isFloat i = true) : r = .next s.illegalInstruction := by
  have trap : ∀ r, needsFpu s r = .next s.illegalInstruction := fun r => by rw [needsFpu, hp]; rfl
  cases hm with
  | loadsF | storesF | fpRounds | fpWrites | fpToX | fpToXRounds => exact trap _
  | writes h | ends h | fenceI _ h | wfi _ h | mret _ h | ecall h | breaks h | jumps h | links h | branches h | loads h
  | stores h | postLoads h | postStores h | loopSetup h | csrReads h | csrWrites h =>
    exact nomatch (isFloat_of_traits h).symm.trans hf

/-- Settles O27: it holds. Every floating-point instruction asks for the FPU first. -/
theorem floatWithoutFpuTraps : Obligations.FloatWithoutFpuTraps := by
  intro s i hp hf
  refine ⟨withMie s.mstatus s.mie false, ?_, withMie_of_entry s⟩
  rw [(exec_meaning s i).illegal_of_no_fpu hp hf]
  exact congrArg Host.Outcome.next ((takeException_eq s 2 0x84).trans (by rw [vector_eq]; rfl))

/-- Settles O11: it holds, by the jump at the end of `mret` and the bits of MSTATUS it moves. -/
theorem trapReturn : Obligations.TrapReturn := by
  intro s hl
  refine ⟨withMie s.mstatus true s.mpie, ?_, withMie_of_return s⟩
  rw [← evenTarget_eq_ofNat]
  exact jumpTo_of_no_hit (s := { s with mstatus := withMie s.mstatus true s.mpie }) (evenTarget s.mepc) hl

/-! ## Breakpoints, fences, sleep -/

/-- Settles O10: it holds, by the two branches of a breakpoint. -/
theorem breakpointHaltsOrStops : Obligations.BreakpointHaltsOrStops := by
  intro s
  have halts : s.dbgIe.getLsbD 3 = true →
      ∀ n, breakpoint n s = .next { s with pc := s.pc + n, halted := true, dbgCause := 3 } := fun h n => by
    rw [breakpoint, if_pos h]; rfl
  have stops : s.dbgIe.getLsbD 3 = false → ∀ n, breakpoint n s = .refused .breakpointUnhandled := fun h n => by
    rw [breakpoint, h]; rfl
  exact ⟨fun h => ⟨halts h 4, halts h 2⟩, fun h => ⟨stops h 4, stops h 2⟩⟩

/-- Settles O8: it holds, by the common end of an instruction. -/
theorem fenceEffects : Obligations.FenceEffects := by
  intro s pred succ hs
  exact ⟨retire_of_not_short 4 hs, retire_of_not_short (s := { s with dirty := [] }) 4 hs⟩

theorem step_of_no_input {s : State} (h : s.inputs = []) : step s = hartStep s := by
  simp only [step, h]

theorem step_of_input {s : State} {i : Input} {rest : List Input} (h : s.inputs = i :: rest) (hi : i ≠ .tick) :
    step s = environment i { s with inputs := rest } := by
  cases i with
  | tick => exact (hi rfl).elim
  | _ => simp only [step, h]

/-- Asleep with no request the hart changes nothing. -/
theorem hartStep_asleep {s : State} (hs : s.sleeping = true) (hi : s.irq = none) : hartStep s = .next s := by
  simp [hartStep, hs, hi]

/-- With a request, or awake, the hart steps as if awake. -/
theorem hartStep_awake {s : State} (h : (s.sleeping && s.irq.isNone) = false) :
    hartStep s = if s.halted then haltedStep s.begin else
      match s.takeable with
      | some i => runInterrupt i s.begin
      | none => fetchAndRun s.begin := by
  rw [hartStep, h]
  rfl

/-- Settles O12: it holds, by the end of `wfi`, the first case of the hart's step, and the request line. -/
theorem waitForInterruptSleepsAndWakes : Obligations.WaitForInterruptSleepsAndWakes := by
  intro s
  refine ⟨fun hs => ?sleeps, fun hn hs hi => ?asleep, fun i hn hs hi => ?wakes, fun i rest h => ?request,
    fun rest h => ?withdrawn⟩
  case sleeps => exact retire_of_not_short (s := { s with sleeping := s.irq.isNone }) 4 hs
  case asleep => exact (step_of_no_input hn).trans (hartStep_asleep hs hi)
  case wakes =>
    have awake : (s.sleeping && s.irq.isNone) = false := by simp [hi]
    have h : step { s with sleeping := false } = hartStep { s with sleeping := false } := step_of_no_input hn
    rw [step_of_no_input hn, h, hartStep_awake awake, hartStep_awake (s := { s with sleeping := false }) rfl]
    rfl
  case request =>
    rw [step_of_input h nofun]
    simp [environment, mapNext, State.requestIrq]
  case withdrawn =>
    rw [step_of_input h nofun]
    simp [environment, mapNext, State.requestIrq]

end Sys2Proof.Proofs
end

