-- ==== Sys2Proof/Proofs/CsrAccess.lean ====
section
/-! The control and status registers: what a read gives after a write, and the six CSR instructions (10_state.md, 41_rv32i_system.md
section 2). -/

namespace Sys2Proof.Proofs

open Sys2Proof.Machine

/-! ## Masks and fields -/

theorem getLsbD_mask (mask : Word) (p : Nat → Bool) (h : ∀ j < 32, mask.getLsbD j = p j) (v : Word) (k : Nat) :
    (v &&& mask).getLsbD k = (p k && v.getLsbD k) := by
  by_cases hk : k < 32
  · rw [BitVec.getLsbD_and, h k hk, Bool.and_comm]
  · rw [BitVec.getLsbD_of_ge _ _ (by omega), BitVec.getLsbD_of_ge v _ (by omega), Bool.and_false]

/-- The bits of MSTATUS that a write reaches (10_state.md R27). -/
theorem getLsbD_mstatus_write (m v : Word) (k : Nat) : ((m &&& ~~~mstatusMask) ||| (v &&& mstatusMask)).getLsbD k =
    if k = 3 ∨ k = 7 then v.getLsbD k else m.getLsbD k := by
  rw [BitVec.getLsbD_or, getLsbD_mask _ (fun k => !decide (k = 3 ∨ k = 7)) (by decide),
    getLsbD_mask _ (fun k => decide (k = 3 ∨ k = 7)) (by decide)]
  by_cases h : k = 3 ∨ k = 7
  · simp [h]
  · simp [h]

theorem toNat_and_low {mask : Word} {n : Nat} (h : mask.toNat = 2 ^ n - 1) (v : Word) :
    (v &&& mask).toNat = v.toNat % 2 ^ n := by
  rw [BitVec.toNat_and, h, Nat.and_two_pow_sub_one_eq_mod]

theorem toNat_low_field (v : Word) {n : Nat} (h : n ≤ 32) : ((v.extractLsb' 0 n).setWidth 32).toNat = v.toNat % 2 ^ n := by
  have : v.toNat % 2 ^ n < 2 ^ 32 := Nat.lt_of_lt_of_le (Nat.mod_lt _ (Nat.two_pow_pos n)) (Nat.pow_le_pow_right (by omega) h)
  rw [BitVec.toNat_setWidth, BitVec.extractLsb'_toNat, Nat.shiftRight_zero, Nat.mod_eq_of_lt this]

theorem loopRegs_setLoopRegs_same (s : State) (l : BitVec 1) (v : LoopRegs) : (s.setLoopRegs l v).loopRegs l = v := by
  by_cases hl : l = 0
  · rw [State.setLoopRegs, State.loopRegs, if_pos hl, if_pos hl]
  · rw [State.setLoopRegs, State.loopRegs, if_neg hl, if_neg hl]

theorem hartId_toNat (s : State) : s.hartId.toNat = s.params.clusterId.toNat * 32 + s.params.coreId.toNat := by
  simp only [State.hartId, toNat_append_eq, BitVec.toNat_ofNat]
  omega

theorem writeCsr_readOnly {c : Csr} (h : c.readOnly = true) (s : State) (v : Word) : s.writeCsr c v = s := by
  cases c with
  | uhartid | mtvec | privlv | mhartid => rfl
  | _ => exact nomatch h

/-- Settles O14: it holds, by the fields and masks of the registers one by one. -/
theorem csrWritesReadBackThroughTheirMasks : Obligations.CsrWritesReadBackThroughTheirMasks := by
  intro s v
  refine ⟨getLsbD_mstatus_write s.mstatus v, rfl, ?mcause, ?pcmr, ?pcer,
    toNat_low_field v (by omega), toNat_low_field v (by omega), toNat_low_field v (by omega), ?fcsr,
    toNat_low_field v (by omega), ?frm, fun l => ?loops, hartId_toNat s, rfl, ?mtvec, rfl,
    fun c hc => writeCsr_readOnly hc s v⟩
  case pcmr => exact toNat_and_low (mask := 3) (n := 2) (by simp) v
  case pcer => exact toNat_and_low (mask := pcerMask) (n := 21) (by simp [pcerMask]) v
  case mtvec => exact (vector_toNat s 0).trans (Nat.add_zero _)
  case mcause => exact getLsbD_mask _ (fun k => decide (k = 31 ∨ k < 5)) (by decide) v
  case fcsr =>
    have : (v.extractLsb' 5 3 ++ v.extractLsb' 0 5 : BitVec 8) = v.extractLsb' 0 8 := by
      apply BitVec.eq_of_getLsbD_eq
      intro k hk
      simp only [BitVec.getLsbD_append, BitVec.getLsbD_extractLsb']
      grind
    change ((v.extractLsb' 5 3 ++ v.extractLsb' 0 5 : BitVec 8).setWidth 32).toNat = _
    rw [this]
    exact toNat_low_field v (by omega)
  case frm =>
    change ((v.extractLsb' 5 3).setWidth 32).toNat = _
    rw [BitVec.toNat_setWidth, BitVec.extractLsb'_toNat, Nat.shiftRight_eq_div_pow]
    omega
  case loops =>
    simp only [State.writeCsr, State.readCsr, loopRegs_setLoopRegs_same, and_self]

/-! ## The instructions -/

theorem csrLookup_of_some {s : State} {n : CsrNum} {c : Csr} (h : Csr.ofNumber s.params.fpu n = some c) :
    s.csrLookup n = .ok c := by
  rw [State.csrLookup, h]

theorem csrLookup_of_none {s : State} {n : CsrNum} (h : Csr.ofNumber s.params.fpu n = none) :
    s.csrLookup n = .error (.csrUnimplemented n) := by
  rw [State.csrLookup, h]

theorem csrReadOnlyForm_eq {s : State} {n : CsrNum} {c : Csr} (rd : Reg) (h : Csr.ofNumber s.params.fpu n = some c)
    (hs : s.hitsShortLoop = false) : csrReadOnlyForm rd n s = .next (s.afterX 4 rd (s.readCsr c)) := by
  rw [csrReadOnlyForm, csrLookup_of_some h]
  exact writeBack_eq_afterX 4 rd _ hs

theorem csrReadWrite_eq {s : State} {n : CsrNum} {c : Csr} (rd : Reg) (g : Word → Word)
    (h : Csr.ofNumber s.params.fpu n = some c) (hr : c.readOnly = false) (hb : s.csrInBody c = false)
    (hs : (s.writeCsr c (g (s.readCsr c))).hitsShortLoop = false) :
    csrReadWrite rd n g s = .next ((s.writeCsr c (g (s.readCsr c))).afterX 4 rd (s.readCsr c)) := by
  simp only [csrReadWrite, csrLookup_of_some h, State.csrWriteStop, hr, hb, Bool.false_eq_true, if_false]
  exact writeBack_eq_afterX 4 rd _ hs

/-- Settles O13: it holds, by the two common rules: the form that only reads and the form that writes. -/
theorem csrInstructionsReadThenWrite : Obligations.CsrInstructionsReadThenWrite := by
  intro s rd rs1 u n c hc old x i
  have hi : i = u.setWidth 32 := BitVec.ofNat_toNat 32 u
  refine ⟨fun hs => ?reads, fun hr hb => ⟨fun hs => ?_, fun hs => ?_, fun h0 hs => ?_, fun h0 hs => ?_, fun h0 hs => ?_,
    fun h0 hs => ?_⟩⟩
  case reads =>
    have reads := csrReadOnlyForm_eq rd hc hs
    exact ⟨reads, reads, reads, reads⟩
  · exact csrReadWrite_eq rd (fun _ => x) hc hr hb hs
  · rw [hi] at hs ⊢
    exact csrReadWrite_eq rd (fun _ => u.setWidth 32) hc hr hb hs
  · exact (if_neg h0).trans (csrReadWrite_eq rd (fun t => t ||| x) hc hr hb hs)
  · exact (if_neg h0).trans (csrReadWrite_eq rd (fun t => t &&& ~~~x) hc hr hb hs)
  · rw [hi] at hs ⊢
    exact (if_neg h0).trans (csrReadWrite_eq rd (fun t => t ||| u.setWidth 32) hc hr hb hs)
  · rw [hi] at hs ⊢
    exact (if_neg h0).trans (csrReadWrite_eq rd (fun t => t &&& ~~~u.setWidth 32) hc hr hb hs)

/-! ## The refusals -/

theorem csrReadOnlyForm_unimplemented {s : State} {n : CsrNum} (rd : Reg) (h : Csr.ofNumber s.params.fpu n = none) :
    csrReadOnlyForm rd n s = .refused (.csrUnimplemented n) := by
  rw [csrReadOnlyForm, csrLookup_of_none h]

theorem csrReadWrite_unimplemented {s : State} {n : CsrNum} (rd : Reg) (g : Word → Word)
    (h : Csr.ofNumber s.params.fpu n = none) : csrReadWrite rd n g s = .refused (.csrUnimplemented n) := by
  rw [csrReadWrite, csrLookup_of_none h]

theorem csrReadWrite_of_stop {s : State} {n : CsrNum} {c : Csr} {r : Refusal} (rd : Reg) (g : Word → Word)
    (h : Csr.ofNumber s.params.fpu n = some c) (hr : s.csrWriteStop n c = some r) :
    csrReadWrite rd n g s = .refused r := by
  simp only [csrReadWrite, csrLookup_of_some h, hr]

theorem csrWriteStop_of_readOnly {s : State} {n : CsrNum} {c : Csr} (h : c.readOnly = true) :
    s.csrWriteStop n c = some (.csrReadOnly n) := by
  rw [State.csrWriteStop, if_pos h]

/-- A loop register inside the active body of its loop. -/
theorem csrWriteStop_of_inside {s : State} {n : CsrNum} {c : Csr} {l : BitVec 1}
    (hc : c ∈ [Csr.lpstart l, .lpend l, .lpcount l]) (h : (s.loopRegs l).insideActive s.pc = true) :
    s.csrWriteStop n c = some .loopWriteInBody := by
  have hl : c.readOnly = false ∧ c.loop? = some l := by
    simp only [List.mem_cons, List.not_mem_nil, or_false] at hc
    rcases hc with rfl | rfl | rfl <;> exact ⟨rfl, rfl⟩
  rw [State.csrWriteStop, hl.1, State.csrInBody, hl.2]
  simp [h]

/-- What stops the write half stops every CSR instruction that writes. -/
theorem csr_writes_stop {s : State} {n : CsrNum} {c : Csr} {r : Refusal} (rd rs1 : Reg) (u : BitVec 5)
    (h : Csr.ofNumber s.params.fpu n = some c) (hr : s.csrWriteStop n c = some r) :
    exec (.csrrw rd rs1 n) s = .refused r ∧ exec (.csrrwi rd u n) s = .refused r ∧
      (rs1 ≠ 0 → exec (.csrrs rd rs1 n) s = .refused r ∧ exec (.csrrc rd rs1 n) s = .refused r) ∧
      (u ≠ 0 → exec (.csrrsi rd u n) s = .refused r ∧ exec (.csrrci rd u n) s = .refused r) := by
  have stops : ∀ g, csrReadWrite rd n g s = .refused r := fun g => csrReadWrite_of_stop rd g h hr
  exact ⟨stops fun _ => s.readX rs1, stops fun _ => u.setWidth 32,
    fun h0 => ⟨(if_neg h0).trans (stops fun t => t ||| s.readX rs1), (if_neg h0).trans (stops fun t => t &&& ~~~s.readX rs1)⟩,
    fun h0 => ⟨(if_neg h0).trans (stops fun t => t ||| u.setWidth 32),
      (if_neg h0).trans (stops fun t => t &&& ~~~u.setWidth 32)⟩⟩

/-- Settles O15: it holds, by the two halves of a CSR instruction: the lookup and the test before the write. -/
theorem csrStops : Obligations.CsrStops := by
  intro s rd rs1 u n
  refine ⟨fun h => ?unimplemented, fun c h hr => ?read_only, fun l c h hc h1 h2 h3 => ?in_body⟩
  case unimplemented =>
    have reads := csrReadOnlyForm_unimplemented rd h
    have writes := fun g => csrReadWrite_unimplemented rd g h
    have either : ∀ (p : Prop) [Decidable p] g, (if p then csrReadOnlyForm rd n s else csrReadWrite rd n g s) =
        .refused (.csrUnimplemented n) := fun p _ g => by rw [reads, writes, ite_self]
    exact ⟨writes fun _ => s.readX rs1, either (rs1 = 0) fun t => t ||| s.readX rs1,
      either (rs1 = 0) fun t => t &&& ~~~s.readX rs1, writes fun _ => u.setWidth 32,
      either (u = 0) fun t => t ||| u.setWidth 32, either (u = 0) fun t => t &&& ~~~u.setWidth 32⟩
  case read_only => exact csr_writes_stop rd rs1 u h (csrWriteStop_of_readOnly hr)
  case in_body =>
    exact csr_writes_stop rd rs1 u h (csrWriteStop_of_inside hc ((insideActive_iff _ _).mpr ⟨h1, h2, h3⟩))

end Sys2Proof.Proofs
end

