-- ==== Sys2Proof/Proofs/Invariant.lean ====
section
/-! The invariant of the machine: the reset state has it, and every step keeps it: the step of an instruction by its effect, an
interrupt by the trap entry, an action of the world by what it writes. -/

namespace Sys2Proof.Proofs

open Sys2Proof.Machine

/-! ## Fixed bits -/

theorem withMie_fixed (w : Word) (mpie mie : Bool) : withMie w mpie mie &&& 0xFFFFFF77 = w &&& 0xFFFFFF77 := by
  apply BitVec.eq_of_getLsbD_eq
  intro k hk
  have mask : ∀ j < 32, (0xFFFFFF77 : Word).getLsbD j = decide (j ≠ 3 ∧ j ≠ 7) := by decide
  rw [BitVec.getLsbD_and, BitVec.getLsbD_and, getLsbD_withMie w mpie mie hk, mask k hk]
  by_cases h3 : k = 3
  · simp [h3]
  · by_cases h7 : k = 7
    · simp [h7]
    · rw [if_neg h3, if_neg h7]

theorem mstatus_write_fixed (m v : Word) :
    ((m &&& ~~~mstatusMask) ||| (v &&& mstatusMask)) &&& 0xFFFFFF77 = m &&& 0xFFFFFF77 := by
  apply BitVec.eq_of_getLsbD_eq
  intro k hk
  have mask : ∀ j < 32, (0xFFFFFF77 : Word).getLsbD j = !decide (j = 3 ∨ j = 7) := by decide
  rw [BitVec.getLsbD_and, BitVec.getLsbD_and, getLsbD_mstatus_write, mask k hk]
  by_cases h : k = 3 ∨ k = 7
  · simp [h]
  · rw [if_neg h]

/-- What a masked write leaves outside its mask. -/
theorem masked_fixed {mask rest : Word} (h : mask &&& rest = 0) (v : Word) : v &&& mask &&& rest = 0 := by
  rw [BitVec.and_assoc, h]
  exact BitVec.and_zero

theorem interruptCause_fixed (i : BitVec 5) : (0x80000000 ||| i.setWidth 32 : Word) &&& 0x7FFFFFE0 = 0 := by
  revert i; decide

/-! ## The pc -/

theorem stepLoops_even {s : State} {n : Word} (hn : n.getLsbD 0 = false) : (s.stepLoops n).pc.getLsbD 0 = false := by
  obtain h | h | h := stepLoops_pc s n
  · rw [h, hn]
  · rw [h]; exact evenTarget_even _
  · rw [h]; exact evenTarget_even _

theorem vector_even {s : State} {o : BitVec 8} (ho : o.getLsbD 0 = false) : (s.vector o).getLsbD 0 = false := by
  rw [State.vector, BitVec.getLsbD_append, if_pos (by omega), ho]

end Sys2Proof.Proofs

namespace Sys2Proof.Machine

open Sys2Proof.Proofs

/-! ## What keeps the invariant -/

/-- A state with the same system part, an even pc and memory in canonical form. -/
theorem Inv.of_systemPart {s t : State} (hi : Inv s) (h : systemPart t = systemPart s) (hp : t.pc.getLsbD 0 = false)
    (hm : Memory.wf t.mem = true) (hd : AddrSet.wf t.dirty = true) : Inv t := by
  have same : ∀ {α : Type} (g : State → α), g (systemPart t) = g (systemPart s) := fun g => congrArg g h
  have himem : t.imem = s.imem := same State.imem
  have hmstatus : t.mstatus = s.mstatus := same State.mstatus
  have hmcause : t.mcause = s.mcause := same State.mcause
  have hpcmr : t.pcmr = s.pcmr := same State.pcmr
  have hpcer : t.pcer = s.pcer := same State.pcer
  have hie : t.dbgIe = s.dbgIe := same State.dbgIe
  have hsleep : t.sleeping = s.sleeping := same State.sleeping
  have hirq : t.irq = s.irq := same State.irq
  exact ⟨hp, hm, himem ▸ hi.imem_wf, hd, hmstatus ▸ hi.mstatus_fixed, hmcause ▸ hi.mcause_fixed, hpcmr ▸ hi.pcmr_fixed,
    hpcer ▸ hi.pcer_fixed, hie ▸ hi.dbgIe_fixed, hsleep ▸ hirq ▸ hi.sleep_idle⟩

/-- A state with the same memory. -/
theorem Inv.of_same_memory {s t : State} (hi : Inv s) (h : systemPart t = systemPart s) (hp : t.pc.getLsbD 0 = false)
    (hm : t.mem = s.mem) (hd : t.dirty = s.dirty) : Inv t :=
  hi.of_systemPart h hp (hm ▸ hi.mem_wf) (hd ▸ hi.dirty_wf)

theorem Inv.writeX {s : State} (hi : Inv s) (r : Reg) (v : Word) : Inv (s.writeX r v) :=
  hi.of_same_memory (by simp) (by simpa using hi.pc_even) (by simp) (by simp)

theorem Inv.setLoopRegs {s : State} (hi : Inv s) (l : BitVec 1) (v : LoopRegs) : Inv (s.setLoopRegs l v) :=
  hi.of_same_memory (by simp) (by simpa using hi.pc_even) (by simp) (by simp)

theorem Inv.setCounters {s : State} (hi : Inv s) (c : Vector Word 31) : Inv { s with pccr := c } := { hi with }

theorem Inv.writePccr {s : State} (hi : Inv s) (n : BitVec 5) (v : Word) : Inv (s.writePccr n v) := by
  unfold State.writePccr
  split
  · exact hi.setCounters _
  · split
    · exact hi.setCounters _
    · exact hi.setCounters _

theorem Inv.writeCsr {s : State} (hi : Inv s) (c : Csr) (v : Word) : Inv (s.writeCsr c v) := by
  cases c with
  | mstatus => exact { hi with mstatus_fixed := (mstatus_write_fixed _ _).trans hi.mstatus_fixed }
  | mcause => exact { hi with mcause_fixed := masked_fixed (by decide) v }
  | pcer => exact { hi with pcer_fixed := masked_fixed (by decide) v }
  | pcmr => exact { hi with pcmr_fixed := masked_fixed (by decide) v }
  | pccr n => exact hi.writePccr n v
  | lpstart l | lpend l | lpcount l => exact hi.setLoopRegs l _
  | _ => exact { hi with }

/-- A trap entry with a cause and a vector that traps have. -/
theorem Inv.enterTrap {s : State} (hi : Inv s) (e : Word) {c : Word} {o : BitVec 8} (hc : c &&& 0x7FFFFFE0 = 0)
    (ho : o.getLsbD 0 = false) : Inv (s.enterTrap e c o) :=
  { hi with
    pc_even := vector_even ho
    mcause_fixed := hc
    mstatus_fixed := (withMie_fixed _ _ _).trans hi.mstatus_fixed }

theorem Inv.takeException {s : State} (hi : Inv s) {c : BitVec 5} {o : BitVec 8}
    (hc : (c.setWidth 32 : Word) &&& 0x7FFFFFE0 = 0) (ho : o.getLsbD 0 = false) : Inv (s.takeException c o) := by
  have h := hi.enterTrap s.pc hc ho
  unfold State.takeException
  dsimp only
  split
  · exact { h with }
  · exact h

theorem Inv.illegalInstruction {s : State} (hi : Inv s) : Inv s.illegalInstruction := hi.takeException (by decide) rfl

theorem Inv.takeInterrupt {s : State} (hi : Inv s) (i : BitVec 5) : Inv (s.takeInterrupt i) := by
  have even : ∀ j : BitVec 5, (j.setWidth 8 <<< 2 : BitVec 8).getLsbD 0 = false := by decide
  exact { hi.enterTrap s.pc (interruptCause_fixed i) (even i) with }

/-- The end of an instruction after a state that has the invariant. -/
theorem Inv.stepLoops {s : State} (hi : Inv s) {n : Word} (hn : n.getLsbD 0 = false) : Inv (s.stepLoops n) :=
  hi.of_same_memory (by simp) (stepLoops_even hn) (by simp) (by simp)

/-! ## An instruction -/

theorem Inv.of_effect {s t : State} {i : Instr} (hi : Inv s) (he : Effect s i t) : Inv t := by
  have next : ∀ {n : Word}, n.getLsbD 0 = false → (s.pc + n).getLsbD 0 = false := fun hn => add_even hi.pc_even hn
  have next4 : (s.pc + 4).getLsbD 0 = false := next rfl
  have settled_mem := fun a n => settle_mem_wf s a n hi.mem_wf
  have settled_dirty := fun a n => settle_dirty_wf s a n hi.dirty_wf
  have stored_mem := fun k a v => storeValue_mem_wf s k a v hi.mem_wf
  have stored_dirty := fun k a v => storeValue_dirty_wf s k a v hi.dirty_wf
  cases he with
  | writes _ hn => exact (hi.writeX _ _).stepLoops (next hn)
  | ends _ hn => exact hi.stepLoops (next hn)
  | csrReads => exact (hi.writeX _ _).stepLoops next4
  | fenceI =>
    have : Inv { s with dirty := [] } := { hi with dirty_wf := rfl }
    exact this.stepLoops next4
  | wfi =>
    have : Inv { s with sleeping := s.irq.isNone } := { hi with sleep_idle := Option.isNone_iff_eq_none.mp }
    exact this.stepLoops next4
  | mret => exact { hi with pc_even := evenTarget_even _, mstatus_fixed := (withMie_fixed _ _ _).trans hi.mstatus_fixed }
  | breaks _ hn => exact { hi with pc_even := next hn }
  | ecall => exact hi.takeException (by decide) rfl
  | illegal => exact hi.illegalInstruction
  | jumps _ hp => exact { hi with pc_even := hp hi.pc_even }
  | links _ hp => exact { hi.writeX _ _ with pc_even := hp hi.pc_even }
  | loads _ hn | loadsF _ _ hn =>
    exact hi.of_systemPart (by simp) (stepLoops_even (next hn)) (by simpa using settled_mem _ _) (by simpa using settled_dirty _ _)
  | postLoads =>
    exact hi.of_systemPart (by simp) (stepLoops_even next4) (by simpa using settled_mem _ _) (by simpa using settled_dirty _ _)
  | stores _ _ hn =>
    exact hi.of_systemPart (by simp) (stepLoops_even (next hn)) (by simpa using stored_mem _ _ _) (by simpa using stored_dirty _ _ _)
  | postStores =>
    exact hi.of_systemPart (by simp) (stepLoops_even next4) (by simpa using stored_mem _ _ _) (by simpa using stored_dirty _ _ _)
  | fpWrites | fpToX => exact hi.of_same_memory (by simp) (stepLoops_even next4) (by simp) (by simp)
  | loopSetup => exact (hi.setLoopRegs _ _).stepLoops next4
  | csrWrites => exact ((hi.writeCsr _ _).writeX _ _).stepLoops next4

/-! ## A step of the hart -/

theorem Inv.begin {s : State} (hi : Inv s) : Inv s.begin := { hi with sleep_idle := nofun }

theorem Inv.complete {s : State} (hi : Inv s) (ev : Events) (p : Word) (w : Option (List Reg)) (b : State) :
    Inv (complete ev p w b s) := by
  constructor
  case pc_even => simpa using hi.pc_even
  case mem_wf => simpa using hi.mem_wf
  case imem_wf => simpa using hi.imem_wf
  case dirty_wf => simpa using hi.dirty_wf
  case mstatus_fixed => simpa using hi.mstatus_fixed
  case mcause_fixed => simpa using hi.mcause_fixed
  case pcmr_fixed => simpa using hi.pcmr_fixed
  case pcer_fixed => simpa using hi.pcer_fixed
  case dbgIe_fixed => simpa using hi.dbgIe_fixed
  case sleep_idle => simpa using hi.sleep_idle

theorem Inv.countEvents {s : State} (hi : Inv s) (ev : Events) (b : State) : Inv (countEvents ev b s) := by
  unfold Machine.countEvents
  split
  · exact hi.setCounters _
  · exact hi.setCounters _

theorem Inv.hartStep {s t : State} (hi : Inv s) (h : hartStep s = .next t) : Inv t := by
  obtain ⟨-, -, rfl⟩ | ⟨-, h⟩ | ⟨-, i, -, rfl⟩ | ⟨-, -, h⟩ := hartStep_next h
  · exact hi
  · cases h
    exact { hi.begin.countEvents idleEvents s.begin with }
  · exact (hi.begin.takeInterrupt i).complete _ _ _ _
  · obtain ⟨c, -, ⟨i, u, -, hu, rfl⟩ | ⟨e, -, rfl⟩⟩ := fetchAndRun_next h
    · exact (hi.begin.of_effect (exec_effect hu)).complete _ _ _ _
    · exact hi.begin.illegalInstruction.complete _ _ _ _

/-! ## An action of the world -/

theorem Inv.haltRequest {s t : State} (hi : Inv s) (h : haltRequest s = .next t) : Inv t := by
  obtain rfl | ⟨-, -, -, rfl⟩ := haltRequest_next h
  · exact hi
  · exact { hi with sleep_idle := fun hs => hi.sleep_idle (Bool.and_eq_true_iff.mp hs).1 }

theorem Inv.resume {s : State} (hi : Inv s) : Inv s.resume := by
  unfold State.resume
  split
  · exact { hi with }
  · exact hi

theorem Inv.requestIrq {s : State} (hi : Inv s) (l : Option (BitVec 5)) : Inv (s.requestIrq l) :=
  { hi with sleep_idle := fun hs => Option.isNone_iff_eq_none.mp (Bool.and_eq_true_iff.mp hs).2 }

theorem Inv.put8 {s : State} (hi : Inv s) (a : Word) (v : Byte) : Inv (s.put8 a v) :=
  { hi with mem_wf := put8_mem_wf s a v hi.mem_wf, dirty_wf := put8_dirty_wf s a v hi.dirty_wf }

theorem Inv.busStore {s : State} (hi : Inv s) (p : Port) (a : Word) (v : Byte) : Inv (s.busStore p a v) := by
  cases p with
  | data => exact hi.put8 a v
  | instr =>
    unfold State.busStore State.putCode8
    dsimp only
    split
    · exact hi.put8 a v
    · exact { hi with imem_wf := Memory.write8_wf s.imem a v hi.imem_wf, dirty_wf := AddrSet.insert_wf a s.dirty hi.dirty_wf }

theorem Inv.writeDebug {s t : State} (hi : Inv s) {a : BitVec 15} {r : DebugReg} {v : Word}
    (h : writeDebug a r v s = .next t) : Inv t := by
  have hs : Inv { s with sste := v.getLsbD 0 } := { hi with }
  obtain ⟨u, rfl, h | rfl⟩ | rfl | rfl | rfl | ⟨g, rfl⟩ | ⟨-, rfl⟩ | ⟨c, rfl⟩ := writeDebug_next h
  · exact hs.haltRequest h
  · exact hs.resume
  · exact { hi with }
  · exact { hi with dbgIe_fixed := masked_fixed (by decide) v }
  · exact hi
  · exact hi.writeX g v
  · exact { hi with pc_even := evenTarget_even v }
  · exact hi.writeCsr c v

theorem Inv.environment {s t : State} (hi : Inv s) {i : Input} (h : environment i s = .next t) : Inv t := by
  obtain ⟨u, rfl, hu⟩ := environment_next h
  suffices Inv u from { this with }
  obtain rfl | ⟨l, rfl⟩ | ⟨a, rfl⟩ | ⟨v, rfl⟩ | ⟨a, r, v, hw⟩ | hh | rfl | ⟨p, a, b, -, rfl⟩ | ⟨a, b, -, rfl⟩ := hu
  · exact hi
  · exact hi.requestIrq l
  · exact { hi with }
  · exact { hi with }
  · exact hi.writeDebug hw
  · exact hi.haltRequest hh
  · exact hi.resume
  · exact hi.busStore p a b
  · exact { hi with }

end Sys2Proof.Machine

namespace Sys2Proof.Proofs

open Sys2Proof.Machine

/-- Settles O57: it holds, by the three kinds of step: of the hart, of the hart at a tick, of the world. -/
theorem invariantIsKeptByEveryStep : Obligations.InvariantIsKeptByEveryStep := by
  intro s t hi h
  have used : ∀ rest, Inv { s with inputs := rest } := fun rest => { hi with }
  obtain ⟨-, h⟩ | ⟨rest, -, h⟩ | ⟨i, rest, -, h⟩ := step_next h
  · exact hi.hartStep h
  · exact (used rest).hartStep h
  · exact (used rest).environment h

/-! ## Reset -/

theorem resetOf_inv (p : Params) (boot : Word) : Inv (State.resetOf p boot) where
  pc_even := by
    change (boot.extractLsb' 8 24 ++ 0x80#8).getLsbD 0 = false
    rw [BitVec.getLsbD_append, if_pos (by omega)]
    rfl
  mem_wf := rfl
  imem_wf := rfl
  dirty_wf := rfl
  mstatus_fixed := show (0x1800 : Word) &&& 0xFFFFFF77 = 0x1800 by decide
  mcause_fixed := BitVec.zero_and
  pcmr_fixed := show (3 : Word) &&& 0xFFFFFFFC = 0 by decide
  pcer_fixed := BitVec.zero_and
  dbgIe_fixed := BitVec.zero_and
  sleep_idle := nofun

theorem resetOf_counter (p : Params) (boot : Word) {k : Nat} (hk : k < 31) : (State.resetOf p boot).counter k = 0 := by
  simp [State.counter, State.resetOf, Vector.getD, hk]

/-- Settles O58: it holds, field by field. -/
theorem resetStateMeetsTheInvariantAndR49 : Obligations.ResetStateMeetsTheInvariantAndR49 := by
  refine ⟨fun p boot => ?values, fun p => ⟨rfl, rfl⟩, rfl⟩
  case values =>
    have hv : ((State.resetOf p boot).readCsr .mtvec).toNat = boot.toNat / 256 * 256 :=
      (vector_toNat (State.resetOf p boot) 0).trans (Nat.add_zero _)
    exact ⟨resetOf_inv p boot, toNat_high24_append boot 0x80, rfl, rfl, rfl, rfl, rfl, rfl, hv, rfl, rfl,
      fun k hk => resetOf_counter p boot hk, rfl, rfl, rfl⟩

end Sys2Proof.Proofs
end

