-- ==== Sys2Proof/Proofs/WordArithmetic.lean ====
section
/-! What the word operations of the instructions say of the integers that the words stand for: sums, differences, shifts,
comparisons and extended immediates. -/

namespace Sys2Proof.Proofs

open Sys2Proof.Machine

/-! ## Immediates -/

theorem signExtend_eq_ofInt {n : Nat} (m : Nat) (v : BitVec n) : v.signExtend m = BitVec.ofInt m v.toInt := rfl

/-- A field with `m` zeros put behind it stands for the field times `2 ^ m`. -/
theorem signExtend_append_zeros {n : Nat} (w m : Nat) (v : BitVec n) :
    (v ++ 0#m).signExtend w = BitVec.ofInt w (2 ^ m * v.toInt) := by
  rw [signExtend_eq_ofInt, BitVec.toInt_append_zero]

theorem setWidth_append_zeros {n : Nat} (w m : Nat) (v : BitVec n) :
    (v ++ 0#m).setWidth w = BitVec.ofNat w (v.toNat * 2 ^ m) := by
  rw [← BitVec.ofNat_toNat, toNat_append_eq]
  simp

theorem uimm20_eq (up : BitVec 20) : uimm20 up = BitVec.ofNat 32 (up.toNat * 4096) := by
  have h : (up ++ 0#12).setWidth 32 = BitVec.ofNat 32 (up.toNat * 2 ^ 12) := setWidth_append_zeros 32 12 up
  rwa [BitVec.setWidth_eq] at h

/-- The register that a 3-bit field names is register 8 + field (30_encoding.md R161). -/
theorem creg_eq (r : CReg) : creg r = BitVec.ofNat 5 (8 + r.toNat) := by
  revert r; decide

/-! ## Sums and differences -/

section
variable {w : Nat}

theorem add_eq_ofInt (a : BitVec w) (n : Int) : a + BitVec.ofInt w n = BitVec.ofInt w (a.toInt + n) := by
  rw [BitVec.ofInt_add, BitVec.ofInt_toInt]

theorem add_eq_ofInt_toInt (a b : BitVec w) : a + b = BitVec.ofInt w (a.toInt + b.toInt) := by
  rw [BitVec.ofInt_add, BitVec.ofInt_toInt, BitVec.ofInt_toInt]

theorem sub_eq_ofInt_toInt (a b : BitVec w) : a - b = BitVec.ofInt w (a.toInt - b.toInt) := by
  rw [Int.sub_eq_add_neg, BitVec.ofInt_add, BitVec.ofInt_neg, BitVec.ofInt_toInt, BitVec.ofInt_toInt,
    BitVec.sub_eq_add_neg]

theorem mul_eq_ofInt_toInt (a b : BitVec w) : a * b = BitVec.ofInt w (a.toInt * b.toInt) := by
  rw [BitVec.ofInt_mul, BitVec.ofInt_toInt, BitVec.ofInt_toInt]

theorem add_eq_ofNat (a : BitVec w) (n : Nat) : a + BitVec.ofNat w n = BitVec.ofNat w (a.toNat + n) := by
  rw [BitVec.ofNat_add, BitVec.ofNat_toNat, BitVec.setWidth_eq]

theorem add_eq_ofNat_toNat (a b : BitVec w) : a + b = BitVec.ofNat w (a.toNat + b.toNat) := by
  rw [BitVec.ofNat_add, BitVec.ofNat_toNat, BitVec.ofNat_toNat, BitVec.setWidth_eq, BitVec.setWidth_eq]

/-! ## Shifts -/

theorem shiftLeft_eq_ofNat (a : BitVec w) (n : Nat) : a <<< n = BitVec.ofNat w (a.toNat * 2 ^ n) := by
  apply BitVec.eq_of_toNat_eq
  rw [BitVec.toNat_shiftLeft, BitVec.toNat_ofNat, Nat.shiftLeft_eq]

theorem ushiftRight_eq_ofNat (a : BitVec w) (n : Nat) : a >>> n = BitVec.ofNat w (a.toNat / 2 ^ n) := by
  apply BitVec.eq_of_toNat_eq
  rw [BitVec.toNat_ushiftRight, BitVec.toNat_ofNat, Nat.shiftRight_eq_div_pow,
    Nat.mod_eq_of_lt ((Nat.div_le_self _ _).trans_lt a.isLt)]

theorem sshiftRight_eq_ofInt (a : BitVec w) (n : Nat) : a.sshiftRight n = BitVec.ofInt w (a.toInt / 2 ^ n) := by
  rw [BitVec.sshiftRight, Int.shiftRight_eq_div_pow]
  norm_cast

end

/-- The shift amount that a register names is its value modulo 32. -/
theorem amount_eq (v : Word) : amount v = v.toNat % 32 := by
  simp [amount]

/-! ## Comparisons -/

theorem ofBool_eq_ite {b : Bool} {p : Prop} [Decidable p] (h : b = true ↔ p) : ofBool b = if p then 1 else 0 := by
  simp only [ofBool, h]

section
variable {w : Nat} (a b : BitVec w)

theorem ult_iff : a.ult b = true ↔ a.toNat < b.toNat := BitVec.ult_iff_lt

theorem not_slt_iff : (!a.slt b) = true ↔ b.toInt ≤ a.toInt := by
  rw [Bool.not_eq_true', ← Bool.not_eq_true, BitVec.slt_iff_toInt_lt, not_lt]

theorem not_ult_iff : (!a.ult b) = true ↔ b.toNat ≤ a.toNat := by
  rw [Bool.not_eq_true', ← Bool.not_eq_true, ult_iff, not_lt]

end

theorem ofBool_slt (a b : Word) : ofBool (a.slt b) = if a.toInt < b.toInt then 1 else 0 :=
  ofBool_eq_ite BitVec.slt_iff_toInt_lt

theorem ofBool_ult (a b : Word) : ofBool (a.ult b) = if a.toNat < b.toNat then 1 else 0 := ofBool_eq_ite (ult_iff a b)

/-- A sign-extended field stands for the same integer. -/
theorem toInt_ofInt_toInt {n m : Nat} (v : BitVec n) (h : n ≤ m) : (BitVec.ofInt m v.toInt).toInt = v.toInt :=
  BitVec.toInt_signExtend_of_le h

/-! ## Writing a result back -/

/-- An instruction that writes back `v` writes back whatever equals `v`. -/
theorem writeBack_afterX {s : State} {n : Word} {rd : Reg} {v w : Word} (h : s.hitsShortLoop = false) (e : v = w) :
    writeBack n rd v s = .next (s.afterX n rd w) :=
  e ▸ writeBack_eq_afterX n rd v h

end Sys2Proof.Proofs
end

