-- ==== Sys2Proof/Proofs/IntegerResults.lean ====
section
/-! RV32I arithmetic, jumps and branches (40_rv32i_base.md), multiplication and division (43_rv32m.md) in integer
arithmetic. -/

namespace Sys2Proof.Proofs

open Sys2Proof.Machine

/-! ## Arithmetic -/

/-- Settles O2: it holds. Each instruction writes back a word operation, which the rules of word arithmetic give in
integers. -/
theorem integerAluResults : Obligations.IntegerAluResults := by
  intro s rd rs1 rs2 imm up sh hs a b
  have writes {i : Instr} {v w : Word} (hi : exec i s = writeBack ilen4 rd v s) (e : v = w) :
      exec i s = .next (s.afterX 4 rd w) := hi.trans (writeBack_afterX hs e)
  refine ⟨?lui, ?auipc, ?addi, ?slti, ?sltiu, ?xori, ?ori, ?andi, ?slli, ?srli, ?srai, ?add, ?sub, ?sll, ?slt, ?sltu,
    ?xor, ?srl, ?sra, ?or, ?and⟩
  case lui => exact writes rfl (uimm20_eq up)
  case auipc => exact writes rfl ((congrArg (s.pc + ·) (uimm20_eq up)).trans (add_eq_ofNat _ _))
  case addi => exact writes rfl (add_eq_ofInt a imm.toInt)
  case slti =>
    have value : (simm12 imm).toInt = imm.toInt := BitVec.toInt_signExtend_of_le (by omega)
    exact writes rfl ((ofBool_slt a (simm12 imm)).trans (by rw [value]))
  case sltiu => exact writes rfl (ofBool_ult a (simm12 imm))
  case xori | ori | andi => exact writes rfl rfl
  case slli => exact writes rfl (shiftLeft_eq_ofNat a sh.toNat)
  case srli => exact writes rfl (ushiftRight_eq_ofNat a sh.toNat)
  case srai => exact writes rfl (sshiftRight_eq_ofInt a sh.toNat)
  case add => exact writes rfl (add_eq_ofInt_toInt a b)
  case sub => exact writes rfl (sub_eq_ofInt_toInt a b)
  case sll => exact writes rfl (amount_eq b ▸ shiftLeft_eq_ofNat a (amount b))
  case slt => exact writes rfl (ofBool_slt a b)
  case sltu => exact writes rfl (ofBool_ult a b)
  case srl => exact writes rfl (amount_eq b ▸ ushiftRight_eq_ofNat a (amount b))
  case sra => exact writes rfl (amount_eq b ▸ sshiftRight_eq_ofInt a (amount b))
  case xor | or | and => exact writes rfl rfl

/-! ## Jumps and branches -/

theorem offset_eq {n : Nat} (off : BitVec n) : (off ++ 0#1).signExtend 32 = BitVec.ofInt 32 (2 * off.toInt) :=
  signExtend_append_zeros 32 1 off

/-- A jump that has written its link ends at its target. -/
theorem jumpTo_writeX {s : State} (h : s.hitsLoop = false) (r : Reg) (v : Word) {t u : Word} (e : t = u) :
    jumpTo t (s.writeX r v) = .next { s.writeX r v with pc := u } :=
  e ▸ jumpTo_of_no_hit t (by rw [writeX_hitsLoop, h])

/-- Settles O3: it holds, by the sum that each offset form stands for. -/
theorem jumpTargets : Obligations.JumpTargets := by
  intro s rd rs1 off imm offc hs
  refine ⟨?jal, ?jalr, ?c_j, ?c_jal, ?c_jr, ?c_jalr⟩
  case jal => exact jumpTo_writeX hs rd _ (congrArg (s.pc + ·) (offset_eq off))
  case jalr =>
    have target : evenTarget (s.addrImm rs1 imm) =
        BitVec.ofNat 32 ((BitVec.ofInt 32 ((s.readX rs1).toInt + imm.toInt)).toNat / 2 * 2) :=
      (evenTarget_eq_ofNat _).trans (by rw [← add_eq_ofInt]; rfl)
    exact jumpTo_writeX hs rd _ target
  case c_j => exact (jumpTo_of_no_hit _ hs).trans (by rw [offsetCJ, offset_eq])
  case c_jal => exact jumpTo_writeX hs 1 _ (congrArg (s.pc + ·) (offset_eq offc))
  case c_jr => exact (jumpTo_of_no_hit _ hs).trans (by rw [evenTarget_eq_ofNat])
  case c_jalr => exact jumpTo_writeX hs 1 _ (evenTarget_eq_ofNat _)

/-- A branch whose condition says `p` goes to its target when `p` holds, and on when it does not. -/
theorem branchTo_eq_ite {s : State} (hs : s.hitsLoop = false) {c : Bool} {p : Prop} [Decidable p] (hc : c = true ↔ p)
    {t u : Word} (e : t = u) (n : Word) : branchTo c t n s = .next { s with pc := if p then u else s.pc + n } := by
  rw [branchTo_of_no_hit c t n hs, e]
  simp only [hc]

theorem eq_simm5_iff (a : Word) (imm : BitVec 5) : a = simm5 imm ↔ a.toInt = imm.toInt := by
  rw [← BitVec.toInt_inj, simm5, BitVec.toInt_signExtend_of_le (by omega)]

theorem beq_iff (a b : Word) : Cond.eq.holds a b = true ↔ a = b := beq_iff_eq

theorem bne_iff (a b : Word) : Cond.ne.holds a b = true ↔ a ≠ b := bne_iff_ne

theorem eq_zero_iff_toNat (a : Word) : a = 0 ↔ a.toNat = 0 := BitVec.toNat_inj.symm

/-- Settles O4: it holds. The condition of each branch is the comparison of the integers. -/
theorem branchOutcomes : Obligations.BranchOutcomes := by
  intro s rs1 rs2 rc imm off offc hs a b c t tc
  have target : s.pc + offsetB off = t := congrArg (s.pc + ·) (offset_eq off)
  have targetC : s.pc + offsetCB offc = tc := congrArg (s.pc + ·) (offset_eq offc)
  have operand : s.readX (creg rc) = c := congrArg s.readX (creg_eq rc)
  refine ⟨?beq, ?bne, ?blt, ?bge, ?bltu, ?bgeu, ?beqimm, ?bneimm, ?beqz, ?bnez⟩
  case beq => exact branchTo_eq_ite hs (beq_iff a b) target 4
  case bne => exact branchTo_eq_ite hs (bne_iff a b) target 4
  case blt => exact branchTo_eq_ite hs BitVec.slt_iff_toInt_lt target 4
  case bge => exact branchTo_eq_ite hs (not_slt_iff a b) target 4
  case bltu => exact branchTo_eq_ite hs (ult_iff a b) target 4
  case bgeu => exact branchTo_eq_ite hs (not_ult_iff a b) target 4
  case beqimm => exact branchTo_eq_ite hs ((beq_iff a _).trans (eq_simm5_iff a imm)) target 4
  case bneimm => exact branchTo_eq_ite hs ((bne_iff a _).trans (eq_simm5_iff a imm).not) target 4
  case beqz => exact branchTo_eq_ite hs (operand ▸ (beq_iff c 0).trans (eq_zero_iff_toNat c)) targetC 2
  case bnez => exact branchTo_eq_ite hs (operand ▸ (bne_iff c 0).trans (eq_zero_iff_toNat c).not) targetC 2

/-! ## Multiplication -/

/-- An integer is its part above bit 32 and the word below. -/
theorem ediv_add_low (p : Int) : p / 2 ^ 32 * 2 ^ 32 + (BitVec.ofInt 32 p).toNat = p := by
  have low : ((BitVec.ofInt 32 p).toNat : Int) = p % 2 ^ 32 := by
    rw [BitVec.toNat_ofInt, Int.toNat_of_nonneg (Int.emod_nonneg _ (by norm_num))]
    norm_num
  rw [low]
  omega

/-- The high word of a product in the range of a signed double word. -/
theorem highProduct_toInt {a b : Int} (lo : -2 ^ 63 ≤ a * b) (hi : a * b < 2 ^ 63) :
    (highProduct a b).toInt = a * b / 2 ^ 32 :=
  BitVec.toInt_ofInt_eq_self (by norm_num) (by omega) (by omega)

theorem highProduct_toNat {a b : Nat} (ha : a < 2 ^ 32) (hb : b < 2 ^ 32) :
    ((highProduct a b).toNat : Int) = (a : Int) * b / 2 ^ 32 := by
  have bound : a * b < 2 ^ 32 * 2 ^ 32 := Nat.mul_lt_mul'' ha hb
  have cast : (a : Int) * b / 2 ^ 32 = ((a * b / 2 ^ 32 : Nat) : Int) := by norm_cast
  rw [highProduct, cast, BitVec.ofInt_natCast, BitVec.toNat_ofNat, Nat.mod_eq_of_lt (by omega)]

/-- The product of two words read with a sign, or of one read with a sign and one without, fits a signed double word. -/
theorem mul_mem_range {a b : Int} (ha : -2 ^ 31 ≤ a ∧ a < 2 ^ 31) (hb : -2 ^ 32 < b ∧ b < 2 ^ 32) :
    -2 ^ 63 ≤ a * b ∧ a * b < 2 ^ 63 := by
  obtain ⟨ha1, ha2⟩ := ha
  obtain ⟨hb1, hb2⟩ := hb
  constructor <;> nlinarith

theorem toInt_mem_range (a : Word) : -2 ^ 31 ≤ a.toInt ∧ a.toInt < 2 ^ 31 :=
  ⟨BitVec.le_toInt a, BitVec.toInt_lt⟩

/-- Settles O16: it holds. Every reading of the operands gives the same low word, and the high word is the product without
it. -/
theorem multiplyHalvesOfTheProduct : Obligations.MultiplyHalvesOfTheProduct := by
  intro s rd rs1 rs2 hs a b
  refine ⟨a * b, highProduct a.toInt b.toInt, highProduct a.toInt b.toNat, highProduct a.toNat b.toNat,
    writeBack_eq_afterX 4 rd _ hs, writeBack_eq_afterX 4 rd _ hs, writeBack_eq_afterX 4 rd _ hs,
    writeBack_eq_afterX 4 rd _ hs, ?signed, ?mixed, ?unsigned⟩
  case signed =>
    have rangeB := toInt_mem_range b
    obtain ⟨lo, hi⟩ := mul_mem_range (toInt_mem_range a) (by omega : -2 ^ 32 < b.toInt ∧ b.toInt < 2 ^ 32)
    rw [highProduct_toInt lo hi, mul_eq_ofInt_toInt, ediv_add_low]
  case mixed =>
    obtain ⟨lo, hi⟩ := mul_mem_range (toInt_mem_range a)
      (by omega : -2 ^ 32 < (b.toNat : Int) ∧ (b.toNat : Int) < 2 ^ 32)
    have low : a * b = BitVec.ofInt 32 (a.toInt * b.toNat) := by
      rw [BitVec.ofInt_mul, BitVec.ofInt_toInt, ofInt_toNat]
    rw [highProduct_toInt lo hi, low, ediv_add_low]
  case unsigned =>
    have low : a * b = BitVec.ofInt 32 ((a.toNat : Int) * b.toNat) := by
      rw [BitVec.ofInt_mul, ofInt_toNat, ofInt_toNat]
    zify
    rw [highProduct_toNat a.isLt b.isLt, low, ediv_add_low]

/-! ## Division -/

theorem eq_zero_iff_toInt (b : Word) : b = 0 ↔ b.toInt = 0 := by
  rw [← BitVec.toInt_inj]
  rfl

theorem overflow_iff (a b : Word) :
    (a = 0x80000000 ∧ b = 0xFFFFFFFF) ↔ (a.toInt = -2 ^ 31 ∧ b.toInt = -1) := by
  rw [← BitVec.toInt_inj, ← BitVec.toInt_inj]
  rfl

section
variable {a b : Word} (nonzero : b.toInt ≠ 0) (fits : a.toInt ≠ -2 ^ 31 ∨ b.toInt ≠ -1)
include nonzero fits

/-- The quotient is the one toward zero, when it is a signed word. -/
theorem quotientSigned_toInt : (quotientSigned a b).toInt = a.toInt.tdiv b.toInt := by
  have hb : ¬ b = 0 := (eq_zero_iff_toInt b).not.mpr nonzero
  have ho : ¬ (a = 0x80000000 ∧ b = 0xFFFFFFFF) := (overflow_iff a b).not.mpr (not_and_or.mpr fits)
  rw [quotientSigned, if_neg hb, if_neg ho, ← BitVec.toInt_sdiv_of_ne_or_ne a b ?_, BitVec.ofInt_toInt]
  exact (not_and_or.mp ho).imp (fun h => h) (fun h => h)

theorem remainderSigned_toInt : (remainderSigned a b).toInt = a.toInt.tmod b.toInt := by
  have hb : ¬ b = 0 := (eq_zero_iff_toInt b).not.mpr nonzero
  have ho : ¬ (a = 0x80000000 ∧ b = 0xFFFFFFFF) := (overflow_iff a b).not.mpr (not_and_or.mpr fits)
  have rest : a.toInt - b.toInt * a.toInt.tdiv b.toInt = a.toInt.tmod b.toInt := by
    have := Int.mul_tdiv_add_tmod a.toInt b.toInt
    omega
  rw [remainderSigned, if_neg hb, if_neg ho, rest, ← BitVec.toInt_srem, BitVec.ofInt_toInt]

/-- The signed division identity, with the size and the sign of the remainder. -/
theorem quotientSigned_remainderSigned :
    a.toInt = b.toInt * (quotientSigned a b).toInt + (remainderSigned a b).toInt ∧
      |(remainderSigned a b).toInt| < |b.toInt| ∧
      ((remainderSigned a b).toInt = 0 ∨ (0 < (remainderSigned a b).toInt ↔ 0 < a.toInt)) := by
  rw [quotientSigned_toInt nonzero fits, remainderSigned_toInt nonzero fits]
  refine ⟨(Int.mul_tdiv_add_tmod a.toInt b.toInt).symm, ?size, ?sign⟩
  case size =>
    rw [Int.abs_eq_natAbs, Int.abs_eq_natAbs, Int.natAbs_tmod]
    exact_mod_cast Nat.mod_lt _ (Int.natAbs_pos.mpr nonzero)
  case sign =>
    rcases le_or_gt 0 a.toInt with nonneg | neg
    · have : 0 ≤ a.toInt.tmod b.toInt := Int.tmod_nonneg b.toInt nonneg
      by_cases zero : a.toInt = 0
      · simp [zero]
      · omega
    · have : 0 ≤ (-a.toInt).tmod b.toInt := Int.tmod_nonneg b.toInt (by omega)
      rw [Int.neg_tmod] at this
      omega

end

section
variable {a b : Word} (nonzero : b.toNat ≠ 0)
include nonzero

theorem quotientUnsigned_toNat : (quotientUnsigned a b).toNat = a.toNat / b.toNat := by
  rw [quotientUnsigned, if_neg ((eq_zero_iff_toNat b).not.mpr nonzero), BitVec.toNat_ofNat,
    Nat.mod_eq_of_lt ((Nat.div_le_self _ _).trans_lt a.isLt)]

theorem remainderUnsigned_toNat : (remainderUnsigned a b).toNat = a.toNat % b.toNat := by
  rw [remainderUnsigned, if_neg ((eq_zero_iff_toNat b).not.mpr nonzero), BitVec.toNat_ofNat,
    Nat.mod_eq_of_lt ((Nat.mod_le _ _).trans_lt a.isLt)]

end

/-- Settles O17: it holds. The special divisors are the first branches of the four definitions; the others follow from the
division identities of the integers. -/
theorem divideQuotientAndRemainder : Obligations.DivideQuotientAndRemainder := by
  intro s rd rs1 rs2 hs a b
  refine ⟨quotientSigned a b, remainderSigned a b, quotientUnsigned a b, remainderUnsigned a b,
    writeBack_eq_afterX 4 rd _ hs, writeBack_eq_afterX 4 rd _ hs, writeBack_eq_afterX 4 rd _ hs,
    writeBack_eq_afterX 4 rd _ hs, ?byZero, ?overflow, ?signed, ?unsigned⟩
  case byZero =>
    intro zero
    have hb : b = 0 := (eq_zero_iff_toNat b).mpr zero
    rw [quotientSigned, remainderSigned, quotientUnsigned, remainderUnsigned, if_pos hb, if_pos hb, if_pos hb, if_pos hb]
    exact ⟨rfl, rfl, rfl, rfl⟩
  case overflow =>
    intro ha hb
    have ho : a = 0x80000000 ∧ b = 0xFFFFFFFF := (overflow_iff a b).mpr ⟨ha, hb⟩
    obtain ⟨ha, hb⟩ := ho
    rw [ha, hb]
    exact ⟨rfl, rfl⟩
  case signed =>
    intro nonzero fits
    have nonzero' : b.toInt ≠ 0 := (eq_zero_iff_toInt b).not.mp ((eq_zero_iff_toNat b).not.mpr nonzero)
    exact quotientSigned_remainderSigned nonzero' fits
  case unsigned =>
    intro nonzero
    rw [quotientUnsigned_toNat nonzero, remainderUnsigned_toNat nonzero]
    exact ⟨(Nat.div_add_mod _ _).symm, Nat.mod_lt _ (Nat.pos_of_ne_zero nonzero)⟩

end Sys2Proof.Proofs
end

