-- ==== Sys2Proof/Proofs/LoadAndStoreResults.lean ====
section
/-! Loads and stores of RV32I, RV32C, RV32F and Xpulp where memory answers (20_memory.md, 40_rv32i_base.md,
42_rv32c.md, 44_rv32f.md, 45_pulp_postinc_loadstore.md). -/

namespace Sys2Proof.Proofs

open Sys2Proof.Machine

/-! ## The value of a load: little-endian, extended -/

theorem loaded_one (s : State) (a : Word) : s.loaded a 1 = (s.accessByte a 0).toNat := by
  simp [State.loaded]

theorem loaded_two (s : State) (a : Word) : s.loaded a 2 = (s.accessHalf a).toNat := by
  rw [State.accessHalf, toNat_append_eq]
  simp [State.loaded]
  omega

theorem loaded_four (s : State) (a : Word) : s.loaded a 4 = (s.accessWord a).toNat := by
  rw [State.accessWord, toNat_append_eq, toNat_append_eq, toNat_append_eq]
  simp [State.loaded]
  omega

section
variable (s : State) (a : Word)

theorem loadValue_lb : s.loadValue .lb a = BitVec.ofInt 32 (BitVec.ofNat 8 (s.loaded a 1)).toInt := by
  rw [loaded_one, BitVec.ofNat_toNat, BitVec.setWidth_eq]
  rfl

theorem loadValue_lbu : s.loadValue .lbu a = BitVec.ofNat 32 (s.loaded a 1) := by
  rw [loaded_one, BitVec.ofNat_toNat]
  rfl

theorem loadValue_lh : s.loadValue .lh a = BitVec.ofInt 32 (BitVec.ofNat 16 (s.loaded a 2)).toInt := by
  rw [loaded_two, BitVec.ofNat_toNat, BitVec.setWidth_eq]
  rfl

theorem loadValue_lhu : s.loadValue .lhu a = BitVec.ofNat 32 (s.loaded a 2) := by
  rw [loaded_two, BitVec.ofNat_toNat]
  rfl

theorem accessWord_eq : s.accessWord a = BitVec.ofNat 32 (s.loaded a 4) := by
  rw [loaded_four, BitVec.ofNat_toNat, BitVec.setWidth_eq]

theorem loadValue_lw : s.loadValue .lw a = BitVec.ofNat 32 (s.loaded a 4) := accessWord_eq s a

end

/-! ## Accesses that memory answers -/

section
variable {s : State} (hs : s.hitsShortLoop = false)
include hs

theorem loadX_eq {n rdValue : Word} {k : LoadKind} {rd : Reg} {a b : Word} (e : a = b)
    (ok : s.stopAccess .load b k.size = none) (value : s.loadValue k b = rdValue) :
    loadX n k rd a s = .next ((s.settle b k.size).afterX n rd rdValue) := by
  subst e value
  rw [loadX, guardAccess_of_none _ ok]
  exact writeBack_eq_afterX n rd _ ((settle_hitsShortLoop s a k.size).trans hs)

theorem loadF_eq {n : Word} {rd : Reg} {a b : Word} (e : a = b) (ok : s.stopAccess .load b 4 = none) :
    loadF n rd a s = .next ((s.settle b 4).afterF n rd (BitVec.ofNat 32 (s.loaded b 4))) := by
  subst e
  rw [loadF, guardAccess_of_none _ ok, accessWord_eq]
  exact retire_of_not_short n (by rw [writeF_hitsShortLoop, settle_hitsShortLoop, hs])

theorem storeTo_eq {n : Word} {k : StoreKind} {a b v : Word} (e : a = b) (ok : s.stopAccess .store b k.size = none) :
    storeTo n k a v s = .next ((s.storeValue k b v).after n) := by
  subst e
  rw [storeTo, guardAccess_of_none _ ok]
  exact retire_of_not_short n (by rw [storeValue_hitsShortLoop, hs])

/-- A post-increment load reads at the old base, and then the base is written, and then the destination. -/
theorem postLoad_eq {k : LoadKind} {rd rs1 : Reg} {inc v : Word}
    (ok : s.stopAccess .load (s.readX rs1) k.size = none) (value : s.loadValue k (s.readX rs1) = v) :
    postLoad k rd rs1 inc s = .next (((s.settle (s.readX rs1) k.size).writeX rs1 (s.readX rs1 + inc)).afterX 4 rd
      (if rd = rs1 then Config.freeLoadResult s.draws else v)) := by
  subst value
  rw [postLoad]
  exact (guardAccess_of_none _ ok).trans
    (writeBack_eq_afterX 4 rd _ (by rw [writeX_hitsShortLoop, settle_hitsShortLoop, hs]))

theorem postStore_eq {k : StoreKind} {rs1 : Reg} {v inc : Word}
    (ok : s.stopAccess .store (s.readX rs1) k.size = none) :
    postStore k rs1 v inc s = .next ((s.storeValue k (s.readX rs1) v).afterX 4 rs1 (s.readX rs1 + inc)) := by
  rw [postStore]
  exact (guardAccess_of_none _ ok).trans
    (writeBack_eq_afterX 4 rs1 _ (by rw [storeValue_hitsShortLoop, hs]))

end

/-- With the FPU an instruction does what it does. -/
theorem needsFpu_of_fpu {s : State} (r : Result) (h : s.params.fpu = true) : needsFpu s r = r := if_pos h

/-! ## Compressed operands -/

theorem setWidth_append_two_zeros {n : Nat} (v : BitVec n) : (v ++ 0#2).setWidth 32 = BitVec.ofNat 32 (4 * v.toNat) := by
  rw [setWidth_append_zeros, Nat.mul_comm]
  rfl

theorem addrC_eq (s : State) (r : CReg) (u : BitVec 5) :
    s.addrC r u = s.readX (BitVec.ofNat 5 (8 + r.toNat)) + BitVec.ofNat 32 (4 * u.toNat) := by
  rw [State.addrC, creg_eq, uimmCL, setWidth_append_two_zeros]

theorem addrSp_eq (s : State) (u : BitVec 6) : s.addrSp u = s.readX 2 + BitVec.ofNat 32 (4 * u.toNat) := by
  rw [State.addrSp, uimmSp, setWidth_append_two_zeros]

/-! ## The obligations -/

/-- Settles O5: it holds. The value of each load is the number its bytes spell, lowest address first. -/
theorem loadResults : Obligations.LoadResults := by
  intro s rd rs1 rs2 imm hs a b
  refine ⟨fun ok => ⟨?lb, ?lbu⟩, fun ok => ⟨?lh, ?lhu⟩, fun ok => ?lw, fun ok => ⟨?lbOff, ?lbuOff⟩,
    fun ok => ⟨?lhOff, ?lhuOff⟩, fun ok => ?lwOff⟩
  case lb => exact loadX_eq hs (a := a) rfl ok (loadValue_lb s a)
  case lbu => exact loadX_eq hs (a := a) rfl ok (loadValue_lbu s a)
  case lh => exact loadX_eq hs (a := a) rfl ok (loadValue_lh s a)
  case lhu => exact loadX_eq hs (a := a) rfl ok (loadValue_lhu s a)
  case lw => exact loadX_eq hs (a := a) rfl ok (loadValue_lw s a)
  case lbOff => exact loadX_eq hs (a := b) rfl ok (loadValue_lb s b)
  case lbuOff => exact loadX_eq hs (a := b) rfl ok (loadValue_lbu s b)
  case lhOff => exact loadX_eq hs (a := b) rfl ok (loadValue_lh s b)
  case lhuOff => exact loadX_eq hs (a := b) rfl ok (loadValue_lhu s b)
  case lwOff => exact loadX_eq hs (a := b) rfl ok (loadValue_lw s b)

/-- Settles O6: it holds. Each store is the guarded store at its address. -/
theorem storeEffects : Obligations.StoreEffects := by
  intro s rs1 rs2 rs3 imm hs a b v
  refine ⟨?sb, ?sh, ?sw, ?sbOff, ?shOff, ?swOff⟩
  case sb | sh | sw => exact fun ok => storeTo_eq hs (a := a) rfl ok
  case sbOff | shOff | swOff => exact fun ok => storeTo_eq hs (a := b) rfl ok

/-- Settles O18: it holds. With the FPU the six are the guarded loads and stores of a word. -/
theorem floatLoadsAndStores : Obligations.FloatLoadsAndStores := by
  intro s rd rs1 rs2 rdc rsc imm uc us fpu hs a ac asp fc
  have here {i : Instr} {r : Result} (hi : exec i s = needsFpu s r) {t : State} (hr : r = .next t) :
      exec i s = .next t := hi.trans ((needsFpu_of_fpu r fpu).trans hr)
  have freg : creg rdc = fc := creg_eq rdc
  refine ⟨fun ok => ?flw, fun ok => ?c_flw, fun ok => ?c_flwsp, fun ok => ?fsw, fun ok => ?c_fsw, fun ok => ?c_fswsp⟩
  case flw => exact here rfl (loadF_eq hs (a := a) rfl ok)
  case c_flw => exact here rfl (freg ▸ loadF_eq hs (addrC_eq s rsc uc) ok)
  case c_flwsp => exact here rfl (loadF_eq hs (addrSp_eq s us) ok)
  case fsw => exact here rfl (storeTo_eq hs (a := a) rfl ok)
  case c_fsw => exact here rfl (freg ▸ storeTo_eq hs (addrC_eq s rsc uc) ok)
  case c_fswsp => exact here rfl (storeTo_eq hs (addrSp_eq s us) ok)

/-- Settles O28: it holds. Each compressed instruction is its expansion on the registers 8 + field, two bytes long. -/
theorem compressedInstructionResults : Obligations.CompressedInstructionResults := by
  intro s rd rs2 rdc rsc imm u8 sh uc us hs r a b d
  have dst : creg rdc = r := creg_eq rdc
  have src : s.readX (creg rsc) = b := congrArg s.readX (creg_eq rsc)
  have writes {i : Instr} {q : Reg} {v w : Word} (hi : exec i s = writeBack ilen2 q v s) (e : v = w) :
      exec i s = .next (s.afterX 2 q w) := hi.trans (writeBack_afterX hs e)
  have writesC {i : Instr} {v : Reg → Word} {w : Word} (hi : exec i s = writeBack ilen2 (creg rdc) (v (creg rdc)) s)
      (e : v r = w) : exec i s = .next (s.afterX 2 r w) := by
    rw [dst] at hi
    exact writes hi e
  refine ⟨?addi4spn, ?nop, ?addi, ?li, ?addi16sp, ?lui, ?srli, ?srai, ?andi, ?sub, ?xor, ?or, ?and, ?slli, ?mv, ?add,
    ?lw, ?lwsp, ?sw, ?swsp⟩
  case addi4spn =>
    exact writesC (v := fun _ => s.readX sp + uimm4spn u8) rfl
      ((congrArg (s.readX 2 + ·) (setWidth_append_two_zeros u8)).trans (add_eq_ofNat _ _))
  case nop => exact retire_of_not_short 2 hs
  case addi => exact writes rfl (add_eq_ofInt d imm.toInt)
  case li => exact writes rfl rfl
  case addi16sp =>
    exact writes rfl ((congrArg (s.readX 2 + ·) (signExtend_append_zeros 32 4 imm)).trans (add_eq_ofInt _ _))
  case lui => exact writes rfl (signExtend_append_zeros 32 12 imm)
  case srli => exact writesC (v := fun q => s.readX q >>> sh.toNat) rfl (ushiftRight_eq_ofNat a sh.toNat)
  case srai => exact writesC (v := fun q => (s.readX q).sshiftRight sh.toNat) rfl (sshiftRight_eq_ofInt a sh.toNat)
  case andi => exact writesC (v := fun q => s.readX q &&& simm6 imm) rfl rfl
  case sub =>
    exact writesC (v := fun q => s.readX q - s.readX (creg rsc)) rfl
      ((congrArg (a - ·) src).trans (sub_eq_ofInt_toInt a b))
  case xor => exact writesC (v := fun q => s.readX q ^^^ s.readX (creg rsc)) rfl (congrArg (a ^^^ ·) src)
  case or => exact writesC (v := fun q => s.readX q ||| s.readX (creg rsc)) rfl (congrArg (a ||| ·) src)
  case and => exact writesC (v := fun q => s.readX q &&& s.readX (creg rsc)) rfl (congrArg (a &&& ·) src)
  case slli => exact writes rfl (shiftLeft_eq_ofNat d sh.toNat)
  case mv => exact writes rfl rfl
  case add => exact writes rfl (add_eq_ofInt_toInt d (s.readX rs2))
  case lw => exact fun ok => dst ▸ loadX_eq hs (addrC_eq s rsc uc) ok (loadValue_lw s _)
  case lwsp => exact fun ok => loadX_eq hs (addrSp_eq s us) ok (loadValue_lw s _)
  case sw =>
    have value : s.readX (creg rdc) = a := congrArg s.readX dst
    exact fun ok => value ▸ storeTo_eq hs (addrC_eq s rsc uc) ok
  case swsp => exact fun ok => storeTo_eq hs (addrSp_eq s us) ok

/-- Settles O29: it holds, by the rule of the post-increment load at each size. -/
theorem postIncrementLoads : Obligations.PostIncrementLoads := by
  intro s rd rs1 rs2 imm hs a i ends vb vh
  refine ⟨fun ok => ⟨?lbImm, ?lbReg, ?lbuImm, ?lbuReg⟩, fun ok => ⟨?lhImm, ?lhReg, ?lhuImm, ?lhuReg⟩,
    fun ok => ⟨?lwImm, ?lwReg⟩⟩
  case lbImm | lbReg => exact postLoad_eq hs ok (loadValue_lb s a)
  case lbuImm | lbuReg => exact postLoad_eq hs ok (loadValue_lbu s a)
  case lhImm | lhReg => exact postLoad_eq hs ok (loadValue_lh s a)
  case lhuImm | lhuReg => exact postLoad_eq hs ok (loadValue_lhu s a)
  case lwImm | lwReg => exact postLoad_eq hs ok (loadValue_lw s a)

/-- Settles O30: it holds, by the rule of the post-increment store at each size. -/
theorem postIncrementStores : Obligations.PostIncrementStores := by
  intro s rs1 rs2 rs3 imm hs a v i r
  refine ⟨fun ok => ⟨?sbImm, ?sbReg⟩, fun ok => ⟨?shImm, ?shReg⟩, fun ok => ⟨?swImm, ?swReg⟩⟩
  case sbImm | sbReg | shImm | shReg | swImm | swReg => exact postStore_eq hs ok

end Sys2Proof.Proofs
end

