-- ==== Sys2Proof/Proofs/PulpAluResults.lean ====
section
/-! PULP general ALU, normalising additions and half-word multiplications (47_pulp_alu.md, 48_pulp_mac.md) in integer
arithmetic. -/

namespace Sys2Proof.Proofs

open Sys2Proof.Machine

/-! ## Absolute value, minimum, maximum -/

section
variable {w : Nat} (a b : BitVec w)

theorem ite_slt_zero_neg : (if a.slt 0 then -a else a) = BitVec.ofInt w |a.toInt| := by
  by_cases negative : a.toInt < 0
  · rw [if_pos (BitVec.slt_iff_toInt_lt.mpr (by simpa using negative)), abs_of_neg negative, BitVec.ofInt_neg,
      BitVec.ofInt_toInt]
  · rw [if_neg (BitVec.slt_iff_toInt_lt.not.mpr (by simpa using negative)), abs_of_nonneg (not_lt.mp negative),
      BitVec.ofInt_toInt]

theorem ite_slt_min : (if a.slt b then a else b) = BitVec.ofInt w (min a.toInt b.toInt) := by
  by_cases less : a.toInt < b.toInt
  · rw [if_pos (BitVec.slt_iff_toInt_lt.mpr less), min_eq_left less.le, BitVec.ofInt_toInt]
  · rw [if_neg (BitVec.slt_iff_toInt_lt.not.mpr less), min_eq_right (not_lt.mp less), BitVec.ofInt_toInt]

theorem ite_slt_max : (if a.slt b then b else a) = BitVec.ofInt w (max a.toInt b.toInt) := by
  by_cases less : a.toInt < b.toInt
  · rw [if_pos (BitVec.slt_iff_toInt_lt.mpr less), max_eq_right less.le, BitVec.ofInt_toInt]
  · rw [if_neg (BitVec.slt_iff_toInt_lt.not.mpr less), max_eq_left (not_lt.mp less), BitVec.ofInt_toInt]

theorem ite_ult_min : (if a.ult b then a else b) = BitVec.ofNat w (min a.toNat b.toNat) := by
  by_cases less : a.toNat < b.toNat
  · rw [if_pos ((ult_iff a b).mpr less), min_eq_left less.le, BitVec.ofNat_toNat, BitVec.setWidth_eq]
  · rw [if_neg ((ult_iff a b).not.mpr less), min_eq_right (not_lt.mp less), BitVec.ofNat_toNat, BitVec.setWidth_eq]

theorem ite_ult_max : (if a.ult b then b else a) = BitVec.ofNat w (max a.toNat b.toNat) := by
  by_cases less : a.toNat < b.toNat
  · rw [if_pos ((ult_iff a b).mpr less), max_eq_right less.le, BitVec.ofNat_toNat, BitVec.setWidth_eq]
  · rw [if_neg ((ult_iff a b).not.mpr less), max_eq_left (not_lt.mp less), BitVec.ofNat_toNat, BitVec.setWidth_eq]

end

theorem ofBool_sle (a b : Word) : ofBool (a.sle b) = if a.toInt ≤ b.toInt then 1 else 0 :=
  ofBool_eq_ite BitVec.sle_iff_toInt_le

theorem ofBool_ule (a b : Word) : ofBool (a.ule b) = if a.toNat ≤ b.toNat then 1 else 0 :=
  ofBool_eq_ite BitVec.ule_iff_le

/-! ## Half-words and bytes of a word -/

theorem extractLsb'_eq_ofNat {n : Nat} (v : BitVec n) (start len : Nat) :
    v.extractLsb' start len = BitVec.ofNat len (v.toNat / 2 ^ start) := by
  apply BitVec.eq_of_toNat_eq
  rw [BitVec.extractLsb'_toNat, BitVec.toNat_ofNat, Nat.shiftRight_eq_div_pow]

theorem extractLsb'_zero_eq_ofNat {n : Nat} (v : BitVec n) (len : Nat) : v.extractLsb' 0 len = BitVec.ofNat len v.toNat := by
  rw [extractLsb'_eq_ofNat, Nat.pow_zero, Nat.div_one]

/-- The number that bits of a word spell. -/
theorem setWidth_ofNat (m len n : Nat) : (BitVec.ofNat len n).setWidth m = BitVec.ofNat m (n % 2 ^ len) := by
  rw [← BitVec.ofNat_toNat, BitVec.toNat_ofNat]

/-! ## Clipping -/

theorem clip_eq (lo hi v : Word) :
    clip lo hi v =
      BitVec.ofInt 32 (if v.toInt ≤ lo.toInt then lo.toInt else if hi.toInt ≤ v.toInt then hi.toInt else v.toInt) := by
  unfold clip
  by_cases low : v.toInt ≤ lo.toInt
  · rw [if_pos (BitVec.sle_iff_toInt_le.mpr low), if_pos low, BitVec.ofInt_toInt]
  by_cases high : hi.toInt ≤ v.toInt
  · rw [if_neg (BitVec.sle_iff_toInt_le.not.mpr low), if_pos (BitVec.sle_iff_toInt_le.mpr high), if_neg low, if_pos high,
      BitVec.ofInt_toInt]
  · rw [if_neg (BitVec.sle_iff_toInt_le.not.mpr low), if_neg (BitVec.sle_iff_toInt_le.not.mpr high), if_neg low,
      if_neg high, BitVec.ofInt_toInt]

theorem clipHigh_toInt (n : BitVec 5) : (clipHigh n).toInt = if n.toNat = 0 then 0 else 2 ^ (n.toNat - 1) - 1 := by
  revert n; decide

theorem not_toInt (v : Word) : (~~~v).toInt = -v.toInt - 1 := by
  rw [BitVec.toInt_eq_toNat_cond, BitVec.toInt_eq_toNat_cond, BitVec.toNat_not]
  have := v.isLt
  split <;> split <;> omega

/-- Settles O37: it holds, by the integer each operation gives. -/
theorem generalAluResults : Obligations.GeneralAluResults := by
  intro s rd rs1 rs2 n hs a b _ hi
  have writes {i : Instr} {v w : Word} (hi : exec i s = writeBack ilen4 rd v s) (e : v = w) :
      exec i s = .next (s.afterX 4 rd w) := hi.trans (writeBack_afterX hs e)
  have high : (clipHigh n).toInt = hi := clipHigh_toInt n
  have low : (clipLow n).toInt = -hi - 1 := (not_toInt _).trans (by rw [high])
  refine ⟨?abs, ?slet, ?sletu, ?min, ?minu, ?max, ?maxu, ?exths, ?exthz, ?extbs, ?extbz, ?clip, ?clipu, ?clipr, ?clipur⟩
  case abs => exact writes rfl (ite_slt_zero_neg a)
  case slet => exact writes rfl (ofBool_sle a b)
  case sletu => exact writes rfl (ofBool_ule a b)
  case min => exact writes rfl (ite_slt_min a b)
  case minu => exact writes rfl (ite_ult_min a b)
  case max => exact writes rfl (ite_slt_max a b)
  case maxu => exact writes rfl (ite_ult_max a b)
  case exths => exact writes rfl (congrArg (BitVec.signExtend 32) (extractLsb'_zero_eq_ofNat a 16))
  case exthz => exact writes rfl ((congrArg (BitVec.setWidth 32) (extractLsb'_zero_eq_ofNat a 16)).trans (setWidth_ofNat ..))
  case extbs => exact writes rfl (congrArg (BitVec.signExtend 32) (extractLsb'_zero_eq_ofNat a 8))
  case extbz => exact writes rfl ((congrArg (BitVec.setWidth 32) (extractLsb'_zero_eq_ofNat a 8)).trans (setWidth_ofNat ..))
  case clip => exact writes rfl ((clip_eq _ _ a).trans (by rw [high, low]))
  case clipu => exact writes rfl ((clip_eq _ _ a).trans (by rw [high]; rfl))
  case clipr => exact writes rfl ((clip_eq _ b a).trans (by rw [not_toInt]))
  case clipur => exact writes rfl (clip_eq 0 b a)

/-! ## Sums that are rounded and shifted -/

/-- The rounding constant as an integer. -/
theorem rnd_eq (k : Nat) : rnd k = BitVec.ofInt 32 (if k = 0 then 0 else 2 ^ (k - 1)) := by
  unfold rnd
  split
  · rfl
  · apply BitVec.eq_of_toNat_eq
    rw [BitVec.toNat_twoPow, show (2 : Int) ^ (k - 1) = ((2 ^ (k - 1) : Nat) : Int) by norm_cast, BitVec.ofInt_natCast,
      BitVec.toNat_ofNat]

section
variable {v u : Word} {n m : Int} (hv : v = BitVec.ofInt 32 n) (hu : u = BitVec.ofInt 32 m)
include hv

theorem add_of_eq_ofInt (hu : u = BitVec.ofInt 32 m) : v + u = BitVec.ofInt 32 (n + m) := by
  rw [hv, hu, BitVec.ofInt_add]

theorem shiftS_of_eq_ofInt {k j : Nat} (hk : k = j) :
    shiftS v k = BitVec.ofInt 32 ((BitVec.ofInt 32 n).toInt / 2 ^ j) := by
  subst hv hk
  exact sshiftRight_eq_ofInt _ _

theorem shiftU_of_eq_ofInt {k j : Nat} (hk : k = j) :
    shiftU v k = BitVec.ofNat 32 ((BitVec.ofInt 32 n).toNat / 2 ^ j) := by
  subst hv hk
  exact ushiftRight_eq_ofNat _ _

theorem add_rnd {k j : Nat} (hk : k = j) :
    v + rnd k = BitVec.ofInt 32 (n + if j = 0 then 0 else 2 ^ (j - 1)) :=
  hk ▸ add_of_eq_ofInt hv (rnd_eq k)

end

/-- Settles O38: it holds. Each word represents the sum or difference of the integers, with the constant added for the
rounding forms, and is shifted. -/
theorem normalisingAdditions : Obligations.NormalisingAdditions := by
  intro s rd rs1 rs2 ls3 hs a b d n r
  have writes {i : Instr} {v w : Word} (hi : exec i s = writeBack ilen4 rd v s) (e : v = w) :
      exec i s = .next (s.afterX 4 rd w) := hi.trans (writeBack_afterX hs e)
  have sum (p q : Reg) := add_eq_ofInt_toInt (s.readX p) (s.readX q)
  have difference (p q : Reg) := sub_eq_ofInt_toInt (s.readX p) (s.readX q)
  have byRegister : amount (s.readX rs2) = r := amount_eq _
  refine ⟨?addN, ?adduN, ?addRN, ?adduRN, ?subN, ?subuN, ?subRN, ?subuRN, ?addNr, ?adduNr, ?addRNr, ?adduRNr, ?subNr,
    ?subuNr, ?subRNr, ?subuRNr⟩
  case addN => exact writes rfl (shiftS_of_eq_ofInt (sum rs1 rs2) rfl)
  case adduN => exact writes rfl (shiftU_of_eq_ofInt (sum rs1 rs2) rfl)
  case addRN => exact writes rfl (shiftS_of_eq_ofInt (add_rnd (sum rs1 rs2) rfl) rfl)
  case adduRN => exact writes rfl (shiftU_of_eq_ofInt (add_rnd (sum rs1 rs2) rfl) rfl)
  case subN => exact writes rfl (shiftS_of_eq_ofInt (difference rs1 rs2) rfl)
  case subuN => exact writes rfl (shiftU_of_eq_ofInt (difference rs1 rs2) rfl)
  case subRN => exact writes rfl (shiftS_of_eq_ofInt (add_rnd (difference rs1 rs2) rfl) rfl)
  case subuRN => exact writes rfl (shiftU_of_eq_ofInt (add_rnd (difference rs1 rs2) rfl) rfl)
  case addNr => exact writes rfl (shiftS_of_eq_ofInt (sum rd rs1) byRegister)
  case adduNr => exact writes rfl (shiftU_of_eq_ofInt (sum rd rs1) byRegister)
  case addRNr => exact writes rfl (shiftS_of_eq_ofInt (add_rnd (sum rd rs1) byRegister) byRegister)
  case adduRNr => exact writes rfl (shiftU_of_eq_ofInt (add_rnd (sum rd rs1) byRegister) byRegister)
  case subNr => exact writes rfl (shiftS_of_eq_ofInt (difference rd rs1) byRegister)
  case subuNr => exact writes rfl (shiftU_of_eq_ofInt (difference rd rs1) byRegister)
  case subRNr => exact writes rfl (shiftS_of_eq_ofInt (add_rnd (difference rd rs1) byRegister) byRegister)
  case subuRNr => exact writes rfl (shiftU_of_eq_ofInt (add_rnd (difference rd rs1) byRegister) byRegister)

/-! ## Half-word multiplications -/

theorem mulS16_eq (x y : Half) : mulS16 x y = BitVec.ofInt 32 (x.toInt * y.toInt) := (BitVec.ofInt_mul _ _).symm

theorem setWidth_eq_ofInt {n : Nat} (m : Nat) (v : BitVec n) : v.setWidth m = BitVec.ofInt m v.toNat := by
  rw [BitVec.ofInt_natCast, BitVec.ofNat_toNat]

theorem mulU16_eq (x y : Half) : mulU16 x y = BitVec.ofInt 32 ((x.toNat : Int) * (y.toNat : Int)) := by
  rw [mulU16, setWidth_eq_ofInt, setWidth_eq_ofInt, ← BitVec.ofInt_mul]

theorem lo16_eq (v : Word) : lo16 v = BitVec.ofNat 16 v.toNat := extractLsb'_zero_eq_ofNat v 16

theorem hi16_eq (v : Word) : hi16 v = BitVec.ofNat 16 (v.toNat / 2 ^ 16) := extractLsb'_eq_ofNat v 16 16

theorem hi16_toNat (v : Word) : (hi16 v).toNat = v.toNat / 2 ^ 16 := by
  rw [hi16_eq, BitVec.toNat_ofNat, Nat.mod_eq_of_lt (by omega)]

theorem lo16_toNat (v : Word) : (lo16 v).toNat = v.toNat % 2 ^ 16 := by
  rw [lo16_eq, BitVec.toNat_ofNat]

/-- Settles O40: it holds. Each product of half-words represents the exact product; the sums and shifts are those of the
normalising additions. -/
theorem halfWordMultiplications : Obligations.HalfWordMultiplications := by
  intro s rd rs1 rs2 ls3 hs a b d n half ls hsig lu hu
  have writes {i : Instr} {v w : Word} (hi : exec i s = writeBack ilen4 rd v s) (e : v = w) :
      exec i s = .next (s.afterX 4 rd w) := hi.trans (writeBack_afterX hs e)
  have lowSigned : mulS16 (lo16 a) (lo16 b) = BitVec.ofInt 32 ls := by rw [mulS16_eq, lo16_eq, lo16_eq]
  have highSigned : mulS16 (hi16 a) (hi16 b) = BitVec.ofInt 32 hsig := by rw [mulS16_eq, hi16_eq, hi16_eq]
  have lowUnsigned : mulU16 (lo16 a) (lo16 b) = BitVec.ofInt 32 lu := by rw [mulU16_eq, lo16_toNat, lo16_toNat]
  have highUnsigned : mulU16 (hi16 a) (hi16 b) = BitVec.ofInt 32 hu := by rw [mulU16_eq, hi16_toNat, hi16_toNat]
  have old : s.readX rd = BitVec.ofInt 32 d := BitVec.ofInt_toInt.symm
  refine ⟨?muls, ?mulhhs, ?mulu, ?mulhhu, ?mulsN, ?mulhhsN, ?muluN, ?mulhhuN, ?mulsRN, ?mulhhsRN, ?muluRN, ?mulhhuRN,
    ?macsN, ?machhsN, ?macuN, ?machhuN, ?macsRN, ?machhsRN, ?macuRN, ?machhuRN⟩
  case muls => exact writes rfl lowSigned
  case mulhhs => exact writes rfl highSigned
  case mulu => exact writes rfl lowUnsigned
  case mulhhu => exact writes rfl highUnsigned
  case mulsN => exact writes rfl (shiftS_of_eq_ofInt lowSigned rfl)
  case mulhhsN => exact writes rfl (shiftS_of_eq_ofInt highSigned rfl)
  case muluN => exact writes rfl (shiftU_of_eq_ofInt lowUnsigned rfl)
  case mulhhuN => exact writes rfl (shiftU_of_eq_ofInt highUnsigned rfl)
  case mulsRN => exact writes rfl (shiftS_of_eq_ofInt (add_rnd lowSigned rfl) rfl)
  case mulhhsRN => exact writes rfl (shiftS_of_eq_ofInt (add_rnd highSigned rfl) rfl)
  case muluRN => exact writes rfl (shiftU_of_eq_ofInt (add_rnd lowUnsigned rfl) rfl)
  case mulhhuRN => exact writes rfl (shiftU_of_eq_ofInt (add_rnd highUnsigned rfl) rfl)
  case macsN => exact writes rfl (shiftS_of_eq_ofInt (add_of_eq_ofInt lowSigned old) rfl)
  case machhsN => exact writes rfl (shiftS_of_eq_ofInt (add_of_eq_ofInt highSigned old) rfl)
  case macuN => exact writes rfl (shiftU_of_eq_ofInt (add_of_eq_ofInt lowUnsigned old) rfl)
  case machhuN => exact writes rfl (shiftU_of_eq_ofInt (add_of_eq_ofInt highUnsigned old) rfl)
  case macsRN => exact writes rfl (shiftS_of_eq_ofInt (add_rnd (add_of_eq_ofInt lowSigned old) rfl) rfl)
  case machhsRN => exact writes rfl (shiftS_of_eq_ofInt (add_rnd (add_of_eq_ofInt highSigned old) rfl) rfl)
  case macuRN => exact writes rfl (shiftU_of_eq_ofInt (add_rnd (add_of_eq_ofInt lowUnsigned old) rfl) rfl)
  case machhuRN => exact writes rfl (shiftU_of_eq_ofInt (add_rnd (add_of_eq_ofInt highUnsigned old) rfl) rfl)

end Sys2Proof.Proofs
end

