-- ==== Sys2Proof/Proofs/PulpBitResults.lean ====
section
/-! PULP bit fields and bit counting (47_pulp_alu.md R471 to R485, R520), bit by bit. -/

namespace Sys2Proof.Proofs

open Sys2Proof.Machine

/-! ## Bit fields -/

theorem fieldReg_pos (v : Word) : (fieldReg v).pos = v.toNat % 32 := by
  simp [fieldReg, fieldImm]

theorem fieldReg_len (v : Word) : (fieldReg v).len = v.toNat / 32 % 32 + 1 := by
  simp [fieldReg, fieldImm, BitVec.extractLsb'_toNat, Nat.shiftRight_eq_div_pow]

theorem extractField_pos (s : State) (b : BitField) : (s.extractField b).pos = b.pos := by
  unfold State.extractField BitField.forExtract
  split <;> rfl

theorem extractField_len (s : State) (b : BitField) :
    (s.extractField b).len = if s.params.extractWidth = .plus1 then b.len else b.len - 1 := by
  unfold State.extractField BitField.forExtract
  split <;> simp [*]

section
variable (b : BitField) (v d : Word) {k : Nat} (hk : k < 32)
include hk

theorem mask_getLsbD : b.mask.getLsbD k = decide (b.pos ≤ k ∧ k < b.pos + b.len) := by
  rw [BitField.mask, BitVec.getLsbD_shiftLeft, BitVec.getLsbD_ofNat, Nat.testBit_two_pow_sub_one]
  grind

/-- The bits of the field from the bottom, and then its top bit. -/
theorem extractSigned_getLsbD :
    (b.extractSigned v).getLsbD k =
      if k < b.len then v.getLsbD (b.pos + k) else decide (0 < b.len) && v.getLsbD (b.pos + b.len - 1) := by
  rw [BitField.extractSigned, BitVec.getLsbD_signExtend, BitVec.msb_eq_getLsbD_last, BitVec.getLsbD_setWidth,
    BitVec.getLsbD_setWidth, BitVec.getLsbD_ushiftRight, BitVec.getLsbD_ushiftRight]
  by_cases inside : k < b.len
  · simp [hk, inside]
  · by_cases empty : b.len = 0
    · simp [empty]
    · simp [hk, inside, Nat.pos_of_ne_zero empty, show b.pos + (b.len - 1) = b.pos + b.len - 1 by omega]

theorem extractUnsigned_getLsbD :
    (b.extractUnsigned v).getLsbD k = (decide (k < b.len) && v.getLsbD (b.pos + k)) := by
  simp [BitField.extractUnsigned, BitVec.getLsbD_setWidth, hk]

theorem insert_getLsbD :
    (b.insert d v).getLsbD k = if b.pos ≤ k ∧ k < b.pos + b.len then v.getLsbD (k - b.pos) else d.getLsbD k := by
  simp only [BitField.insert, BitVec.getLsbD_or, BitVec.getLsbD_and, BitVec.getLsbD_not, BitVec.getLsbD_shiftLeft,
    mask_getLsbD b hk, hk]
  by_cases inside : b.pos ≤ k ∧ k < b.pos + b.len
  · simp [inside, Nat.not_lt.mpr inside.1]
  · simp [inside]

theorem clear_getLsbD :
    (v &&& ~~~b.mask).getLsbD k = if b.pos ≤ k ∧ k < b.pos + b.len then false else v.getLsbD k := by
  rw [BitVec.getLsbD_and, BitVec.getLsbD_not, mask_getLsbD b hk]
  by_cases inside : b.pos ≤ k ∧ k < b.pos + b.len <;> simp [inside, hk]

theorem set_getLsbD :
    (v ||| b.mask).getLsbD k = if b.pos ≤ k ∧ k < b.pos + b.len then true else v.getLsbD k := by
  rw [BitVec.getLsbD_or, mask_getLsbD b hk]
  by_cases inside : b.pos ≤ k ∧ k < b.pos + b.len <;> simp [inside]

end

/-- A bit-field instruction writes the bits of its value where the field lies in the word, and a free value where it does
not. -/
theorem fieldResult_writes {s : State} {i : Instr} {rd : Reg} {b : BitField} {v : Word} {p w : Nat}
    {bits : Nat → Bool} (hs : s.hitsShortLoop = false) (hi : exec i s = fieldResult rd b v s) (hp : b.pos = p)
    (hw : b.len = w) (hbits : ∀ k < 32, v.getLsbD k = bits k) :
    (p + w ≤ 32 → WritesBits s i rd bits) ∧
      (32 < p + w → exec i s = .next (s.afterX 4 rd (Config.freeField s.draws))) := by
  subst hp hw
  constructor
  · intro fits
    have field : fieldResult rd b v s = writeBack ilen4 rd v s := by simp [fieldResult, BitField.fits, fits]
    exact ⟨v, (hi.trans field).trans (writeBack_eq_afterX ilen4 rd v hs), hbits⟩
  · intro past
    have field : fieldResult rd b v s = writeBack ilen4 rd (Config.freeField s.draws) s := by
      simp [fieldResult, BitField.fits, Nat.not_le.mpr past]
    exact (hi.trans field).trans (writeBack_eq_afterX ilen4 rd _ hs)

/-- Settles O35: it holds, bit by bit for the mask and the two extractions. -/
theorem bitFieldResults : Obligations.BitFieldResults := by
  intro s rd rs1 rs2 ls3 ls2 hs x d free wx signed unsigned insert clear set writes p w pr wr
  have immPos (b : BitField) {q : Nat} (h : b.pos = q) : (s.extractField b).pos = q := (extractField_pos s b).trans h
  have immLen (b : BitField) {u : Nat} (h : b.len = u) : (s.extractField b).len = wx u := by
    rw [extractField_len, h]
  have regPos := fieldReg_pos (s.readX rs2)
  have regLen := fieldReg_len (s.readX rs2)
  refine ⟨?extract, ?extractu, ?insert, ?bclr, ?bset, ?extractr, ?extractur, ?insertr, ?bclrr, ?bsetr⟩
  case extract =>
    refine fieldResult_writes hs rfl (immPos _ rfl) (immLen _ rfl) fun k hk => ?_
    rw [extractSigned_getLsbD _ _ hk, immPos (fieldImm ls3 ls2) rfl, immLen (fieldImm ls3 ls2) rfl]
    rfl
  case extractr =>
    refine fieldResult_writes hs rfl (immPos _ regPos) (immLen _ regLen) fun k hk => ?_
    rw [extractSigned_getLsbD _ _ hk, immPos _ regPos, immLen _ regLen]
  case extractu =>
    refine fieldResult_writes hs rfl (immPos _ rfl) (immLen _ rfl) fun k hk => ?_
    rw [extractUnsigned_getLsbD _ _ hk, immPos (fieldImm ls3 ls2) rfl, immLen (fieldImm ls3 ls2) rfl]
    rfl
  case extractur =>
    refine fieldResult_writes hs rfl (immPos _ regPos) (immLen _ regLen) fun k hk => ?_
    rw [extractUnsigned_getLsbD _ _ hk, immPos _ regPos, immLen _ regLen]
  case insert => exact fieldResult_writes hs rfl rfl rfl fun k hk => insert_getLsbD _ x d hk
  case insertr =>
    exact fieldResult_writes hs rfl regPos regLen fun k hk => by rw [insert_getLsbD _ x d hk, regPos, regLen]
  case bclr => exact fieldResult_writes hs rfl rfl rfl fun k hk => clear_getLsbD _ x hk
  case bclrr =>
    exact fieldResult_writes hs rfl regPos regLen fun k hk => by rw [clear_getLsbD _ x hk, regPos, regLen]
  case bset => exact fieldResult_writes hs rfl rfl rfl fun k hk => set_getLsbD _ x hk
  case bsetr =>
    exact fieldResult_writes hs rfl regPos regLen fun k hk => by rw [set_getLsbD _ x hk, regPos, regLen]

/-! ## Searching the bits of a word -/

theorem reverse_range_succ (n : Nat) : (List.range (n + 1)).reverse = n :: (List.range n).reverse := by
  rw [List.range_succ, List.reverse_append]
  rfl

/-- Going down from `n - 1`, the search finds the highest number with the property. -/
theorem find?_reverse_range_eq_some {p : Nat → Bool} {i : Nat} :
    ∀ {n : Nat}, (List.range n).reverse.find? p = some i → i < n ∧ p i = true ∧ ∀ k, i < k → k < n → p k = false
  | 0, h => by simp at h
  | n + 1, h => by
    rw [reverse_range_succ, List.find?_cons] at h
    split at h
    next top =>
      obtain rfl : n = i := Option.some.inj h
      exact ⟨by omega, top, fun k low high => by omega⟩
    next top =>
      obtain ⟨less, holds, above⟩ := find?_reverse_range_eq_some h
      refine ⟨by omega, holds, fun k low high => ?_⟩
      rcases Nat.lt_succ_iff_lt_or_eq.mp high with inside | rfl
      · exact above k low inside
      · simpa using top

/-- Going down from `n - 1`, the numbers with the property are counted up to the first without it. -/
theorem takeWhile_reverse_range (p : Nat → Bool) (n : Nat) :
    ((List.range n).reverse.takeWhile p).length ≤ n ∧
      (∀ k, n - ((List.range n).reverse.takeWhile p).length ≤ k → k < n → p k = true) ∧
      (((List.range n).reverse.takeWhile p).length < n →
        p (n - 1 - ((List.range n).reverse.takeWhile p).length) = false) := by
  induction n with
  | zero => simp
  | succ n ih =>
    obtain ⟨bound, holds, stops⟩ := ih
    rw [reverse_range_succ, List.takeWhile_cons]
    by_cases top : p n = true
    · simp only [top, if_true, List.length_cons]
      refine ⟨by omega, fun k low high => ?_, fun less => ?_⟩
      · rcases Nat.lt_succ_iff_lt_or_eq.mp high with inside | rfl
        · exact holds k (by omega) inside
        · exact top
      · have := stops (by omega)
        rwa [show n + 1 - 1 - (((List.range n).reverse.takeWhile p).length + 1)
          = n - 1 - ((List.range n).reverse.takeWhile p).length by omega]
    · simp only [top, if_false, Bool.false_eq_true, List.length_nil]
      exact ⟨by omega, fun k low high => by omega, fun _ => by simpa using top⟩

/-- How many numbers below `n` have the property. -/
theorem length_filter_range (p : Nat → Bool) (n : Nat) :
    ((List.range n).filter p).length = (Finset.univ.filter fun k : Fin n => p k.val = true).card := by
  rw [Finset.card_filter, Fin.sum_univ_eq_sum_range (fun k => if p k = true then 1 else 0), ← Finset.card_filter]
  change _ = ((List.range n).filter fun i => decide (p i = true)).length
  simp

theorem exists_bit_of_ne_zero {x : Word} (h : x.toNat ≠ 0) : ∃ k < 32, x.getLsbD k = true := by
  by_contra none
  push Not at none
  refine h ((eq_zero_iff_toNat x).mp (BitVec.eq_of_getLsbD_eq fun k hk => ?_))
  simpa using none k hk

/-! ## The counts -/

section
variable (x : Word)

theorem findFirst_spec : ∃ n : Nat, findFirst x = BitVec.ofNat 32 n ∧ (x.toNat = 0 → n = 32) ∧
    (x.toNat ≠ 0 → n < 32 ∧ x.getLsbD n = true) ∧ ∀ k < n, x.getLsbD k = false := by
  refine ⟨_, rfl, ?_⟩
  cases found : (List.range 32).find? fun i => x.getLsbD i with
  | none =>
    have clear : ∀ k < 32, x.getLsbD k = false := fun k hk => by simpa using List.find?_range_eq_none.mp found k hk
    refine ⟨fun _ => rfl, fun nonzero => ?_, clear⟩
    obtain ⟨k, hk, bit⟩ := exists_bit_of_ne_zero nonzero
    simp [clear k hk] at bit
  | some i =>
    obtain ⟨bit, mem, below⟩ := List.find?_range_eq_some.mp found
    refine ⟨fun zero => ?_, fun _ => ⟨List.mem_range.mp mem, bit⟩, fun k hk => by simpa using below k hk⟩
    rw [(eq_zero_iff_toNat x).mpr zero] at bit
    simp at bit

theorem findLast_spec : ∃ n : Nat, findLast x = BitVec.ofNat 32 n ∧ (x.toNat = 0 → n = 32) ∧
    (x.toNat ≠ 0 → n < 32 ∧ x.getLsbD n = true ∧ ∀ k, n < k → x.getLsbD k = false) := by
  refine ⟨_, rfl, ?_⟩
  cases found : (List.range 32).reverse.find? fun i => x.getLsbD i with
  | none =>
    refine ⟨fun _ => rfl, fun nonzero => ?_⟩
    obtain ⟨k, hk, bit⟩ := exists_bit_of_ne_zero nonzero
    exact absurd bit (List.find?_eq_none.mp found k (by simpa using hk))
  | some i =>
    obtain ⟨less, bit, above⟩ := find?_reverse_range_eq_some found
    refine ⟨fun zero => ?_, fun _ => ⟨less, bit, fun k hk => ?_⟩⟩
    · rw [(eq_zero_iff_toNat x).mpr zero] at bit
      simp at bit
    · by_cases inside : k < 32
      · exact above k hk inside
      · exact BitVec.getLsbD_of_ge x k (by omega)

/-- The leading bits that equal the sign bit: bit 31 is one of them. -/
theorem leadingBits_spec : 1 ≤ leadingBits x ∧ leadingBits x ≤ 32 ∧
    (∀ k, 32 - leadingBits x ≤ k → k < 32 → x.getLsbD k = x.getLsbD 31) ∧
    (leadingBits x < 32 → x.getLsbD (31 - leadingBits x) ≠ x.getLsbD 31) := by
  obtain ⟨bound, holds, stops⟩ := takeWhile_reverse_range (fun i => x.getLsbD i == x.msb) 32
  change leadingBits x ≤ 32 at bound
  have sign : x.msb = x.getLsbD 31 := BitVec.msb_eq_getLsbD_last x
  refine ⟨?positive, bound, fun k low high => ?_, fun less => ?_⟩
  case positive =>
    by_contra none
    have zero : leadingBits x = 0 := by omega
    have differs : (x.getLsbD (31 - leadingBits x) == x.msb) = false := stops (by change leadingBits x < 32; omega)
    rw [zero, sign] at differs
    simp at differs
  · rw [← sign]
    simpa using holds k low high
  · have differs : (x.getLsbD (31 - leadingBits x) == x.msb) = false := stops less
    rw [← sign]
    simpa using differs

end

/-- Settles O36: it holds, by what each search of the bits finds. -/
theorem bitCountingResults : Obligations.BitCountingResults := by
  intro s rd rs1 rs2 hs x
  have writes {i : Instr} {v w : Word} (hi : exec i s = writeBack ilen4 rd v s) (e : v = w) :
      exec i s = .next (s.afterX 4 rd w) := hi.trans (writeBack_afterX hs e)
  refine ⟨?ror, ?ff1, ?fl1, ?cnt, ?clbZero, ?clb⟩
  case ror =>
    refine ⟨_, writes rfl rfl, fun k hk => ?_⟩
    rw [BitVec.getLsbD_rotateRight, amount_eq, Nat.mod_mod]
    change _ = x.getLsbD ((k + (s.readX rs2).toNat % 32) % 32)
    by_cases low : k < 32 - (s.readX rs2).toNat % 32
    · rw [decide_eq_true low, cond_true]
      congr 1
      omega
    · rw [decide_eq_false low, cond_false, decide_eq_true hk, Bool.true_and]
      congr 1
      omega
  case ff1 =>
    obtain ⟨n, value, rest⟩ := findFirst_spec x
    exact ⟨n, writes rfl value, rest⟩
  case fl1 =>
    obtain ⟨n, value, rest⟩ := findLast_spec x
    exact ⟨n, writes rfl value, rest⟩
  case cnt => exact writes rfl (congrArg (BitVec.ofNat 32) (length_filter_range _ 32))
  case clbZero =>
    intro zero
    exact writes rfl (if_pos ((eq_zero_iff_toNat x).mpr zero))
  case clb =>
    intro nonzero
    obtain ⟨positive, bound, rest⟩ := leadingBits_spec x
    have value : countLeading s.params.clbMinusOne x =
        BitVec.ofNat 32 (if s.params.clbMinusOne then leadingBits x - 1 else leadingBits x) := by
      rw [countLeading, if_neg ((eq_zero_iff_toNat x).not.mpr nonzero)]
      cases s.params.clbMinusOne <;> rfl
    exact ⟨leadingBits x, positive, bound, writes rfl value, rest⟩

end Sys2Proof.Proofs
end

