-- ==== Sys2Proof/Proofs/PulpVectorResults.lean ====
section
/-! PULP vectorial instructions (49_pulp_vector.md): every element of the result from the elements of the operands. -/

namespace Sys2Proof.Proofs

open Sys2Proof.Machine

/-! ## The three forms of an element by element operation -/

@[simp] theorem halfAt_replH (e : Half) {k : Nat} (hk : k < 2) : halfAt (replH e) k = e := by
  match k, hk with
  | 0, _ => exact halfAt_ofHalves_zero e e
  | 1, _ => exact halfAt_ofHalves_one e e

@[simp] theorem byteAt_replB (e : Byte) {k : Nat} (hk : k < 4) : byteAt (replB e) k = e := by
  match k, hk with
  | 0, _ => exact byteAt_ofBytes_zero e e e e
  | 1, _ => exact byteAt_ofBytes_one e e e e
  | 2, _ => exact byteAt_ofBytes_two e e e e
  | 3, _ => exact byteAt_ofBytes_three e e e e

section
variable {s : State} (hs : s.hitsShortLoop = false)
include hs

/-- An instruction that writes back an operation on each pair of half-words writes each half-word. -/
theorem writesHalves_of_zipH {i : Instr} {rd : Reg} {g : Half → Half → Half} {a b : Word} {e : Nat → Half}
    (hi : exec i s = writeBack ilen4 rd (zipH g a b) s) (he : ∀ k < 2, g (halfAt a k) (halfAt b k) = e k) :
    WritesHalves s i rd e := by
  obtain ⟨v, next, elements⟩ := writesHalves_of_exec (fun k => g (halfAt a k) (halfAt b k)) hs hi
  exact ⟨v, next, fun k hk => (elements k hk).trans (he k hk)⟩

theorem writesBytes_of_zipB {i : Instr} {rd : Reg} {g : Byte → Byte → Byte} {a b : Word} {e : Nat → Byte}
    (hi : exec i s = writeBack ilen4 rd (zipB g a b) s) (he : ∀ k < 4, g (byteAt a k) (byteAt b k) = e k) :
    WritesBytes s i rd e := by
  obtain ⟨v, next, elements⟩ := writesBytes_of_exec (fun k => g (byteAt a k) (byteAt b k)) hs hi
  exact ⟨v, next, fun k hk => (elements k hk).trans (he k hk)⟩

/-- The three forms of an instruction that computes `g` on half-words, which is `op`. -/
theorem halfForms_of_zipH {g op : Half → Half → Half} {ext ext' : BitVec 6 → Half} {vv sc : Reg → Reg → Reg → Instr}
    {sci : Reg → Reg → BitVec 6 → Instr} (hop : ∀ x y, g x y = op x y) (hext : ∀ imm, ext' imm = ext imm)
    (hvv : ∀ rd rs1 rs2, exec (vv rd rs1 rs2) s = writeBack ilen4 rd (zipH g (s.readX rs1) (s.readX rs2)) s)
    (hsc : ∀ rd rs1 rs2, exec (sc rd rs1 rs2) s = writeBack ilen4 rd (zipH g (s.readX rs1) (scH (s.readX rs2))) s)
    (hsci : ∀ rd rs1 imm, exec (sci rd rs1 imm) s = writeBack ilen4 rd (zipH g (s.readX rs1) (replH (ext' imm))) s) :
    HalfForms s op ext vv sc sci := by
  intro rd rs1 rs2 imm
  refine ⟨writesHalves_of_zipH hs (hvv rd rs1 rs2) fun k _ => hop _ _,
    writesHalves_of_zipH hs (hsc rd rs1 rs2) fun k hk => ?scalar,
    writesHalves_of_zipH hs (hsci rd rs1 imm) fun k hk => ?immediate⟩
  case scalar => rw [scH, halfAt_replH _ hk, hop]
  case immediate => rw [halfAt_replH _ hk, hext, hop]

theorem byteForms_of_zipB {g op : Byte → Byte → Byte} {ext ext' : BitVec 6 → Byte} {vv sc : Reg → Reg → Reg → Instr}
    {sci : Reg → Reg → BitVec 6 → Instr} (hop : ∀ x y, g x y = op x y) (hext : ∀ imm, ext' imm = ext imm)
    (hvv : ∀ rd rs1 rs2, exec (vv rd rs1 rs2) s = writeBack ilen4 rd (zipB g (s.readX rs1) (s.readX rs2)) s)
    (hsc : ∀ rd rs1 rs2, exec (sc rd rs1 rs2) s = writeBack ilen4 rd (zipB g (s.readX rs1) (scB (s.readX rs2))) s)
    (hsci : ∀ rd rs1 imm, exec (sci rd rs1 imm) s = writeBack ilen4 rd (zipB g (s.readX rs1) (replB (ext' imm))) s) :
    ByteForms s op ext vv sc sci := by
  intro rd rs1 rs2 imm
  refine ⟨writesBytes_of_zipB hs (hvv rd rs1 rs2) fun k _ => hop _ _,
    writesBytes_of_zipB hs (hsc rd rs1 rs2) fun k hk => ?scalar,
    writesBytes_of_zipB hs (hsci rd rs1 imm) fun k hk => ?immediate⟩
  case scalar => rw [scB, byteAt_replB _ hk, hop]
  case immediate => rw [byteAt_replB _ hk, hext, hop]

end

/-! ## The operations on elements -/

section
variable {w : Nat} (a b : BitVec w)

theorem half_sum_signed : (a + b).sshiftRight 1 = BitVec.ofInt w ((BitVec.ofInt w (a.toInt + b.toInt)).toInt / 2) := by
  rw [add_eq_ofInt_toInt, sshiftRight_eq_ofInt]
  rfl

theorem half_sum_unsigned : (a + b) >>> 1 = BitVec.ofNat w ((BitVec.ofNat w (a.toNat + b.toNat)).toNat / 2) := by
  rw [add_eq_ofNat_toNat, ushiftRight_eq_ofNat]
  rfl

theorem max_of_slt : (if b.slt a then a else b) = BitVec.ofInt w (max a.toInt b.toInt) := by
  rw [ite_slt_max, max_comm]

theorem max_of_ult : (if b.ult a then a else b) = BitVec.ofNat w (max a.toNat b.toNat) := by
  rw [ite_ult_max, max_comm]

end

theorem zeroExtended (w : Nat) (imm : BitVec 6) : imm.setWidth w = BitVec.ofNat w imm.toNat := (BitVec.ofNat_toNat ..).symm

theorem signExtended (w : Nat) (imm : BitVec 6) : imm.signExtend w = BitVec.ofInt w imm.toInt := rfl

/-! ## The vectorial ALU -/

/-- Settles O41: it holds. Each operation on half-words is the operation of the integers. -/
theorem vectorHalfWordAlu : Obligations.VectorHalfWordAlu := by
  intro s hs
  refine ⟨?add, ?sub, ?avg, ?avgu, ?min, ?minu, ?max, ?maxu, ?srl, ?sra, ?sll, ?or, ?xor, ?and, fun rd rs1 => ?abs⟩
  case add =>
    exact halfForms_of_zipH hs add_eq_ofInt_toInt (signExtended 16)
      (fun _ _ _ => rfl) (fun _ _ _ => rfl) (fun _ _ _ => rfl)
  case sub =>
    exact halfForms_of_zipH hs sub_eq_ofInt_toInt (signExtended 16)
      (fun _ _ _ => rfl) (fun _ _ _ => rfl) (fun _ _ _ => rfl)
  case avg =>
    exact halfForms_of_zipH hs half_sum_signed (signExtended 16)
      (fun _ _ _ => rfl) (fun _ _ _ => rfl) (fun _ _ _ => rfl)
  case avgu =>
    exact halfForms_of_zipH hs half_sum_unsigned (signExtended 16)
      (fun _ _ _ => rfl) (fun _ _ _ => rfl) (fun _ _ _ => rfl)
  case min =>
    exact halfForms_of_zipH hs ite_slt_min (signExtended 16)
      (fun _ _ _ => rfl) (fun _ _ _ => rfl) (fun _ _ _ => rfl)
  case minu =>
    exact halfForms_of_zipH hs ite_ult_min (zeroExtended 16)
      (fun _ _ _ => rfl) (fun _ _ _ => rfl) (fun _ _ _ => rfl)
  case max =>
    exact halfForms_of_zipH hs max_of_slt (signExtended 16)
      (fun _ _ _ => rfl) (fun _ _ _ => rfl) (fun _ _ _ => rfl)
  case maxu =>
    exact halfForms_of_zipH hs max_of_ult (zeroExtended 16)
      (fun _ _ _ => rfl) (fun _ _ _ => rfl) (fun _ _ _ => rfl)
  case srl =>
    exact halfForms_of_zipH hs (fun x y => ushiftRight_eq_ofNat x _) (zeroExtended 16)
      (fun _ _ _ => rfl) (fun _ _ _ => rfl) (fun _ _ _ => rfl)
  case sra =>
    exact halfForms_of_zipH hs (fun x y => sshiftRight_eq_ofInt x _) (zeroExtended 16)
      (fun _ _ _ => rfl) (fun _ _ _ => rfl) (fun _ _ _ => rfl)
  case sll =>
    exact halfForms_of_zipH hs (fun x y => shiftLeft_eq_ofNat x _) (zeroExtended 16)
      (fun _ _ _ => rfl) (fun _ _ _ => rfl) (fun _ _ _ => rfl)
  case or =>
    exact halfForms_of_zipH hs (fun _ _ => rfl) (signExtended 16)
      (fun _ _ _ => rfl) (fun _ _ _ => rfl) (fun _ _ _ => rfl)
  case xor =>
    exact halfForms_of_zipH hs (fun _ _ => rfl) (signExtended 16)
      (fun _ _ _ => rfl) (fun _ _ _ => rfl) (fun _ _ _ => rfl)
  case and =>
    exact halfForms_of_zipH hs (fun _ _ => rfl) (signExtended 16)
      (fun _ _ _ => rfl) (fun _ _ _ => rfl) (fun _ _ _ => rfl)
  case abs => exact writesHalves_of_zipH hs rfl fun k _ => ite_slt_zero_neg _

/-- Settles O42: it holds. Each operation on bytes is the operation of the integers. -/
theorem vectorByteAlu : Obligations.VectorByteAlu := by
  intro s hs
  refine ⟨?add, ?sub, ?avg, ?avgu, ?min, ?minu, ?max, ?maxu, ?srl, ?sra, ?sll, ?or, ?xor, ?and, fun rd rs1 => ?abs⟩
  case add =>
    exact byteForms_of_zipB hs add_eq_ofInt_toInt (signExtended 8)
      (fun _ _ _ => rfl) (fun _ _ _ => rfl) (fun _ _ _ => rfl)
  case sub =>
    exact byteForms_of_zipB hs sub_eq_ofInt_toInt (signExtended 8)
      (fun _ _ _ => rfl) (fun _ _ _ => rfl) (fun _ _ _ => rfl)
  case avg =>
    exact byteForms_of_zipB hs half_sum_signed (signExtended 8)
      (fun _ _ _ => rfl) (fun _ _ _ => rfl) (fun _ _ _ => rfl)
  case avgu =>
    exact byteForms_of_zipB hs half_sum_unsigned (signExtended 8)
      (fun _ _ _ => rfl) (fun _ _ _ => rfl) (fun _ _ _ => rfl)
  case min =>
    exact byteForms_of_zipB hs ite_slt_min (signExtended 8)
      (fun _ _ _ => rfl) (fun _ _ _ => rfl) (fun _ _ _ => rfl)
  case minu =>
    exact byteForms_of_zipB hs ite_ult_min (zeroExtended 8)
      (fun _ _ _ => rfl) (fun _ _ _ => rfl) (fun _ _ _ => rfl)
  case max =>
    exact byteForms_of_zipB hs max_of_slt (signExtended 8)
      (fun _ _ _ => rfl) (fun _ _ _ => rfl) (fun _ _ _ => rfl)
  case maxu =>
    exact byteForms_of_zipB hs max_of_ult (zeroExtended 8)
      (fun _ _ _ => rfl) (fun _ _ _ => rfl) (fun _ _ _ => rfl)
  case srl =>
    exact byteForms_of_zipB hs (fun x y => ushiftRight_eq_ofNat x _) (zeroExtended 8)
      (fun _ _ _ => rfl) (fun _ _ _ => rfl) (fun _ _ _ => rfl)
  case sra =>
    exact byteForms_of_zipB hs (fun x y => sshiftRight_eq_ofInt x _) (zeroExtended 8)
      (fun _ _ _ => rfl) (fun _ _ _ => rfl) (fun _ _ _ => rfl)
  case sll =>
    exact byteForms_of_zipB hs (fun x y => shiftLeft_eq_ofNat x _) (zeroExtended 8)
      (fun _ _ _ => rfl) (fun _ _ _ => rfl) (fun _ _ _ => rfl)
  case or =>
    exact byteForms_of_zipB hs (fun _ _ => rfl) (signExtended 8)
      (fun _ _ _ => rfl) (fun _ _ _ => rfl) (fun _ _ _ => rfl)
  case xor =>
    exact byteForms_of_zipB hs (fun _ _ => rfl) (signExtended 8)
      (fun _ _ _ => rfl) (fun _ _ _ => rfl) (fun _ _ _ => rfl)
  case and =>
    exact byteForms_of_zipB hs (fun _ _ => rfl) (signExtended 8)
      (fun _ _ _ => rfl) (fun _ _ _ => rfl) (fun _ _ _ => rfl)
  case abs => exact writesBytes_of_zipB hs rfl fun k _ => ite_slt_zero_neg _

/-! ## Comparisons -/

theorem allOnes_eq_ofNat (w : Nat) : BitVec.allOnes w = BitVec.ofNat w (2 ^ w - 1) := by
  apply BitVec.eq_of_toNat_eq
  rw [BitVec.toNat_allOnes, BitVec.toNat_ofNat, Nat.mod_eq_of_lt (Nat.sub_lt (Nat.two_pow_pos w) Nat.one_pos)]

/-- All ones where the condition holds, in the words of the statement. -/
theorem ite_allOnes {w : Nat} {c : Bool} {p : Prop} [Decidable p] (h : c = true ↔ p) :
    (if c then BitVec.allOnes w else 0) = if p then BitVec.ofNat w (2 ^ w - 1) else 0 := by
  simp only [h, allOnes_eq_ofNat]

section
variable {s : State} (hs : s.hitsShortLoop = false)
include hs

/-- The three forms of a comparison of half-words whose condition says `p`. -/
theorem halfForms_of_cmp {c : Half → Half → Bool} {p : Half → Half → Prop} [∀ x y, Decidable (p x y)]
    {vv sc : Reg → Reg → Reg → Instr} {sci : Reg → Reg → BitVec 6 → Instr} (hc : ∀ x y, c x y = true ↔ p x y)
    (hvv : ∀ rd rs1 rs2, exec (vv rd rs1 rs2) s = writeBack ilen4 rd (cmpH c (s.readX rs1) (s.readX rs2)) s)
    (hsc : ∀ rd rs1 rs2, exec (sc rd rs1 rs2) s = writeBack ilen4 rd (cmpH c (s.readX rs1) (scH (s.readX rs2))) s)
    (hsci : ∀ rd rs1 imm, exec (sci rd rs1 imm) s = writeBack ilen4 rd (cmpH c (s.readX rs1) (sciH imm)) s) :
    HalfForms s (fun a b => if p a b then BitVec.ofNat 16 (2 ^ 16 - 1) else 0) (fun i => BitVec.ofInt 16 i.toInt) vv sc
      sci :=
  halfForms_of_zipH hs (fun x y => ite_allOnes (hc x y)) (signExtended 16) hvv hsc hsci

theorem byteForms_of_cmp {c : Byte → Byte → Bool} {p : Byte → Byte → Prop} [∀ x y, Decidable (p x y)]
    {vv sc : Reg → Reg → Reg → Instr} {sci : Reg → Reg → BitVec 6 → Instr} (hc : ∀ x y, c x y = true ↔ p x y)
    (hvv : ∀ rd rs1 rs2, exec (vv rd rs1 rs2) s = writeBack ilen4 rd (cmpB c (s.readX rs1) (s.readX rs2)) s)
    (hsc : ∀ rd rs1 rs2, exec (sc rd rs1 rs2) s = writeBack ilen4 rd (cmpB c (s.readX rs1) (scB (s.readX rs2))) s)
    (hsci : ∀ rd rs1 imm, exec (sci rd rs1 imm) s = writeBack ilen4 rd (cmpB c (s.readX rs1) (sciB imm)) s) :
    ByteForms s (fun a b => if p a b then BitVec.ofNat 8 (2 ^ 8 - 1) else 0) (fun i => BitVec.ofInt 8 i.toInt) vv sc
      sci :=
  byteForms_of_zipB hs (fun x y => ite_allOnes (hc x y)) (signExtended 8) hvv hsc hsci

end

/-- Settles O43: it holds. The condition of each comparison is the order of the integers. -/
theorem vectorComparisons : Obligations.VectorComparisons := by
  intro s hs
  refine ⟨?eqH, ?neH, ?gtH, ?geH, ?ltH, ?leH, ?gtuH, ?geuH, ?ltuH, ?leuH,
    ?eqB, ?neB, ?gtB, ?geB, ?ltB, ?leB, ?gtuB, ?geuB, ?ltuB, ?leuB⟩
  case eqH =>
    exact halfForms_of_cmp hs (fun _ _ => beq_iff_eq) (fun _ _ _ => rfl) (fun _ _ _ => rfl) (fun _ _ _ => rfl)
  case neH =>
    exact halfForms_of_cmp hs (fun _ _ => bne_iff_ne) (fun _ _ _ => rfl) (fun _ _ _ => rfl) (fun _ _ _ => rfl)
  case gtH =>
    exact halfForms_of_cmp hs (fun _ _ => BitVec.slt_iff_toInt_lt) (fun _ _ _ => rfl) (fun _ _ _ => rfl) (fun _ _ _ => rfl)
  case geH =>
    exact halfForms_of_cmp hs (fun _ _ => BitVec.sle_iff_toInt_le) (fun _ _ _ => rfl) (fun _ _ _ => rfl) (fun _ _ _ => rfl)
  case ltH =>
    exact halfForms_of_cmp hs (fun _ _ => BitVec.slt_iff_toInt_lt) (fun _ _ _ => rfl) (fun _ _ _ => rfl) (fun _ _ _ => rfl)
  case leH =>
    exact halfForms_of_cmp hs (fun _ _ => BitVec.sle_iff_toInt_le) (fun _ _ _ => rfl) (fun _ _ _ => rfl) (fun _ _ _ => rfl)
  case gtuH =>
    exact halfForms_of_cmp hs (fun _ _ => BitVec.ult_iff_lt) (fun _ _ _ => rfl) (fun _ _ _ => rfl) (fun _ _ _ => rfl)
  case geuH =>
    exact halfForms_of_cmp hs (fun _ _ => BitVec.ule_iff_le) (fun _ _ _ => rfl) (fun _ _ _ => rfl) (fun _ _ _ => rfl)
  case ltuH =>
    exact halfForms_of_cmp hs (fun _ _ => BitVec.ult_iff_lt) (fun _ _ _ => rfl) (fun _ _ _ => rfl) (fun _ _ _ => rfl)
  case leuH =>
    exact halfForms_of_cmp hs (fun _ _ => BitVec.ule_iff_le) (fun _ _ _ => rfl) (fun _ _ _ => rfl) (fun _ _ _ => rfl)
  case eqB =>
    exact byteForms_of_cmp hs (fun _ _ => beq_iff_eq) (fun _ _ _ => rfl) (fun _ _ _ => rfl) (fun _ _ _ => rfl)
  case neB =>
    exact byteForms_of_cmp hs (fun _ _ => bne_iff_ne) (fun _ _ _ => rfl) (fun _ _ _ => rfl) (fun _ _ _ => rfl)
  case gtB =>
    exact byteForms_of_cmp hs (fun _ _ => BitVec.slt_iff_toInt_lt) (fun _ _ _ => rfl) (fun _ _ _ => rfl) (fun _ _ _ => rfl)
  case geB =>
    exact byteForms_of_cmp hs (fun _ _ => BitVec.sle_iff_toInt_le) (fun _ _ _ => rfl) (fun _ _ _ => rfl) (fun _ _ _ => rfl)
  case ltB =>
    exact byteForms_of_cmp hs (fun _ _ => BitVec.slt_iff_toInt_lt) (fun _ _ _ => rfl) (fun _ _ _ => rfl) (fun _ _ _ => rfl)
  case leB =>
    exact byteForms_of_cmp hs (fun _ _ => BitVec.sle_iff_toInt_le) (fun _ _ _ => rfl) (fun _ _ _ => rfl) (fun _ _ _ => rfl)
  case gtuB =>
    exact byteForms_of_cmp hs (fun _ _ => BitVec.ult_iff_lt) (fun _ _ _ => rfl) (fun _ _ _ => rfl) (fun _ _ _ => rfl)
  case geuB =>
    exact byteForms_of_cmp hs (fun _ _ => BitVec.ule_iff_le) (fun _ _ _ => rfl) (fun _ _ _ => rfl) (fun _ _ _ => rfl)
  case ltuB =>
    exact byteForms_of_cmp hs (fun _ _ => BitVec.ult_iff_lt) (fun _ _ _ => rfl) (fun _ _ _ => rfl) (fun _ _ _ => rfl)
  case leuB =>
    exact byteForms_of_cmp hs (fun _ _ => BitVec.ule_iff_le) (fun _ _ _ => rfl) (fun _ _ _ => rfl) (fun _ _ _ => rfl)

end Sys2Proof.Proofs
end

