-- ==== Sys2Proof/Proofs/PulpElementResults.lean ====
section
/-! PULP dot products, element extraction and insertion, and shuffles (49_pulp_vector.md R599 to R614). -/

namespace Sys2Proof.Proofs

open Sys2Proof.Machine

/-! ## Dot products -/

theorem ue_eq {n : Nat} (e : BitVec n) : ue e = BitVec.ofInt 32 e.toNat := setWidth_eq_ofInt 32 e

theorem se_eq {n : Nat} (e : BitVec n) : se e = BitVec.ofInt 32 e.toInt := rfl

/-- The old word and a sum modulo 2^32. -/
theorem accumulate_eq (d : Word) {v : Word} {n : Int} (h : v = BitVec.ofInt 32 n) :
    d + v = BitVec.ofInt 32 (d.toInt + n) := by
  rw [h, add_eq_ofInt]

section
variable {a b : Word}

/-- The sum of products of half-words, when each extension represents an integer of the element. -/
theorem dotH_eq {ea eb : Half → Word} {ia ib : Half → Int} {y : Nat → Half} (ha : ∀ e, ea e = BitVec.ofInt 32 (ia e))
    (hb : ∀ e, eb e = BitVec.ofInt 32 (ib e)) (hy : ∀ k < 2, halfAt b k = y k) :
    dotH ea eb a b = BitVec.ofInt 32 (ia (halfAt a 0) * ib (y 0) + ia (halfAt a 1) * ib (y 1)) := by
  rw [dotH, hy 0 (by omega), hy 1 (by omega)]
  simp only [ha, hb, ← BitVec.ofInt_mul, ← BitVec.ofInt_add]

theorem dotB_eq {ea eb : Byte → Word} {ia ib : Byte → Int} {y : Nat → Byte} (ha : ∀ e, ea e = BitVec.ofInt 32 (ia e))
    (hb : ∀ e, eb e = BitVec.ofInt 32 (ib e)) (hy : ∀ k < 4, byteAt b k = y k) :
    dotB ea eb a b = BitVec.ofInt 32 (ia (byteAt a 0) * ib (y 0) + ia (byteAt a 1) * ib (y 1) +
      ia (byteAt a 2) * ib (y 2) + ia (byteAt a 3) * ib (y 3)) := by
  rw [dotB, hy 0 (by omega), hy 1 (by omega), hy 2 (by omega), hy 3 (by omega)]
  simp only [ha, hb, ← BitVec.ofInt_mul, ← BitVec.ofInt_add]

theorem add_dotH_eq (d : Word) {ea eb : Half → Word} {ia ib : Half → Int} {y : Nat → Half}
    (ha : ∀ e, ea e = BitVec.ofInt 32 (ia e)) (hb : ∀ e, eb e = BitVec.ofInt 32 (ib e))
    (hy : ∀ k < 2, halfAt b k = y k) :
    d + dotH ea eb a b =
      BitVec.ofInt 32 (d.toInt + ia (halfAt a 0) * ib (y 0) + ia (halfAt a 1) * ib (y 1)) :=
  (accumulate_eq d (dotH_eq ha hb hy)).trans (congrArg _ (by ring))

theorem add_dotB_eq (d : Word) {ea eb : Byte → Word} {ia ib : Byte → Int} {y : Nat → Byte}
    (ha : ∀ e, ea e = BitVec.ofInt 32 (ia e)) (hb : ∀ e, eb e = BitVec.ofInt 32 (ib e))
    (hy : ∀ k < 4, byteAt b k = y k) :
    d + dotB ea eb a b =
      BitVec.ofInt 32 (d.toInt + ia (byteAt a 0) * ib (y 0) + ia (byteAt a 1) * ib (y 1) +
        ia (byteAt a 2) * ib (y 2) + ia (byteAt a 3) * ib (y 3)) :=
  (accumulate_eq d (dotB_eq ha hb hy)).trans (congrArg _ (by ring))

end

section
variable {s : State} (hs : s.hitsShortLoop = false)
include hs

/-- The three forms of a dot product whose value represents the integer `dot` of the elements. -/
theorem dotHalfForms_of_exec {dot : Word → (Nat → Half) → (Nat → Half) → Int} {value : Word → Word → Word → Word}
    {vv sc : Reg → Reg → Reg → Instr} {sci : Reg → Reg → BitVec 6 → Instr}
    (hvalue : ∀ d a b y, (∀ k < 2, halfAt b k = y k) → value d a b = BitVec.ofInt 32 (dot d (halfAt a) y))
    (hvv : ∀ rd rs1 rs2, exec (vv rd rs1 rs2) s = writeBack ilen4 rd (value (s.readX rd) (s.readX rs1) (s.readX rs2)) s)
    (hsc : ∀ rd rs1 rs2,
      exec (sc rd rs1 rs2) s = writeBack ilen4 rd (value (s.readX rd) (s.readX rs1) (scH (s.readX rs2))) s)
    (hsci : ∀ rd rs1 imm, exec (sci rd rs1 imm) s = writeBack ilen4 rd (value (s.readX rd) (s.readX rs1) (sciH imm)) s) :
    DotHalfForms s dot vv sc sci := by
  intro rd rs1 rs2 imm
  refine ⟨(hvv rd rs1 rs2).trans (writeBack_afterX hs (hvalue _ _ _ _ fun k _ => rfl)),
    (hsc rd rs1 rs2).trans (writeBack_afterX hs (hvalue _ _ _ _ fun k hk => ?scalar)),
    (hsci rd rs1 imm).trans (writeBack_afterX hs (hvalue _ _ _ _ fun k hk => ?immediate))⟩
  case scalar => exact halfAt_replH _ hk
  case immediate => exact halfAt_replH _ hk

theorem dotByteForms_of_exec {dot : Word → (Nat → Byte) → (Nat → Byte) → Int} {value : Word → Word → Word → Word}
    {vv sc : Reg → Reg → Reg → Instr} {sci : Reg → Reg → BitVec 6 → Instr}
    (hvalue : ∀ d a b y, (∀ k < 4, byteAt b k = y k) → value d a b = BitVec.ofInt 32 (dot d (byteAt a) y))
    (hvv : ∀ rd rs1 rs2, exec (vv rd rs1 rs2) s = writeBack ilen4 rd (value (s.readX rd) (s.readX rs1) (s.readX rs2)) s)
    (hsc : ∀ rd rs1 rs2,
      exec (sc rd rs1 rs2) s = writeBack ilen4 rd (value (s.readX rd) (s.readX rs1) (scB (s.readX rs2))) s)
    (hsci : ∀ rd rs1 imm, exec (sci rd rs1 imm) s = writeBack ilen4 rd (value (s.readX rd) (s.readX rs1) (sciB imm)) s) :
    DotByteForms s dot vv sc sci := by
  intro rd rs1 rs2 imm
  refine ⟨(hvv rd rs1 rs2).trans (writeBack_afterX hs (hvalue _ _ _ _ fun k _ => rfl)),
    (hsc rd rs1 rs2).trans (writeBack_afterX hs (hvalue _ _ _ _ fun k hk => ?scalar)),
    (hsci rd rs1 imm).trans (writeBack_afterX hs (hvalue _ _ _ _ fun k hk => ?immediate))⟩
  case scalar => exact byteAt_replB _ hk
  case immediate => exact byteAt_replB _ hk

end

/-- Settles O44: it holds. Each extension represents the element as the instruction reads it, and products and sums modulo
2^32 represent those of the integers. -/
theorem dotProducts : Obligations.DotProducts := by
  intro s hs
  refine ⟨?dotupH, ?dotuspH, ?dotspH, ?sdotupH, ?sdotuspH, ?sdotspH,
    ?dotupB, ?dotuspB, ?dotspB, ?sdotupB, ?sdotuspB, ?sdotspB⟩
  case dotupH =>
    exact dotHalfForms_of_exec hs (value := fun _ a b => dotH ue ue a b)
      (fun _ a _ y => dotH_eq (a := a) (ia := fun e => e.toNat) (ib := fun e => e.toNat) (y := y) ue_eq ue_eq)
      (fun _ _ _ => rfl) (fun _ _ _ => rfl) (fun _ _ _ => rfl)
  case dotuspH =>
    exact dotHalfForms_of_exec hs (value := fun _ a b => dotH ue se a b)
      (fun _ a _ y => dotH_eq (a := a) (ia := fun e => e.toNat) (ib := BitVec.toInt) (y := y) ue_eq se_eq)
      (fun _ _ _ => rfl) (fun _ _ _ => rfl) (fun _ _ _ => rfl)
  case dotspH =>
    exact dotHalfForms_of_exec hs (value := fun _ a b => dotH se se a b)
      (fun _ a _ y => dotH_eq (a := a) (ia := BitVec.toInt) (ib := BitVec.toInt) (y := y) se_eq se_eq)
      (fun _ _ _ => rfl) (fun _ _ _ => rfl) (fun _ _ _ => rfl)
  case sdotupH =>
    exact dotHalfForms_of_exec hs (value := fun d a b => d + dotH ue ue a b)
      (fun d a _ y => add_dotH_eq d (a := a) (ia := fun e => e.toNat) (ib := fun e => e.toNat) (y := y) ue_eq ue_eq)
      (fun _ _ _ => rfl) (fun _ _ _ => rfl) (fun _ _ _ => rfl)
  case sdotuspH =>
    exact dotHalfForms_of_exec hs (value := fun d a b => d + dotH ue se a b)
      (fun d a _ y => add_dotH_eq d (a := a) (ia := fun e => e.toNat) (ib := BitVec.toInt) (y := y) ue_eq se_eq)
      (fun _ _ _ => rfl) (fun _ _ _ => rfl) (fun _ _ _ => rfl)
  case sdotspH =>
    exact dotHalfForms_of_exec hs (value := fun d a b => d + dotH se se a b)
      (fun d a _ y => add_dotH_eq d (a := a) (ia := BitVec.toInt) (ib := BitVec.toInt) (y := y) se_eq se_eq)
      (fun _ _ _ => rfl) (fun _ _ _ => rfl) (fun _ _ _ => rfl)
  case dotupB =>
    exact dotByteForms_of_exec hs (value := fun _ a b => dotB ue ue a b)
      (fun _ a _ y => dotB_eq (a := a) (ia := fun e => e.toNat) (ib := fun e => e.toNat) (y := y) ue_eq ue_eq)
      (fun _ _ _ => rfl) (fun _ _ _ => rfl) (fun _ _ _ => rfl)
  case dotuspB =>
    exact dotByteForms_of_exec hs (value := fun _ a b => dotB ue se a b)
      (fun _ a _ y => dotB_eq (a := a) (ia := fun e => e.toNat) (ib := BitVec.toInt) (y := y) ue_eq se_eq)
      (fun _ _ _ => rfl) (fun _ _ _ => rfl) (fun _ _ _ => rfl)
  case dotspB =>
    exact dotByteForms_of_exec hs (value := fun _ a b => dotB se se a b)
      (fun _ a _ y => dotB_eq (a := a) (ia := BitVec.toInt) (ib := BitVec.toInt) (y := y) se_eq se_eq)
      (fun _ _ _ => rfl) (fun _ _ _ => rfl) (fun _ _ _ => rfl)
  case sdotupB =>
    exact dotByteForms_of_exec hs (value := fun d a b => d + dotB ue ue a b)
      (fun d a _ y => add_dotB_eq d (a := a) (ia := fun e => e.toNat) (ib := fun e => e.toNat) (y := y) ue_eq ue_eq)
      (fun _ _ _ => rfl) (fun _ _ _ => rfl) (fun _ _ _ => rfl)
  case sdotuspB =>
    exact dotByteForms_of_exec hs (value := fun d a b => d + dotB ue se a b)
      (fun d a _ y => add_dotB_eq d (a := a) (ia := fun e => e.toNat) (ib := BitVec.toInt) (y := y) ue_eq se_eq)
      (fun _ _ _ => rfl) (fun _ _ _ => rfl) (fun _ _ _ => rfl)
  case sdotspB =>
    exact dotByteForms_of_exec hs (value := fun d a b => d + dotB se se a b)
      (fun d a _ y => add_dotB_eq d (a := a) (ia := BitVec.toInt) (ib := BitVec.toInt) (y := y) se_eq se_eq)
      (fun _ _ _ => rfl) (fun _ _ _ => rfl) (fun _ _ _ => rfl)

/-! ## Extraction and insertion -/

theorem halfAt_eq (v : Word) (k : Nat) : halfAt v k = BitVec.ofNat 16 (v.toNat / 2 ^ (16 * k)) :=
  extractLsb'_eq_ofNat v (16 * k) 16

theorem byteAt_eq (v : Word) (k : Nat) : byteAt v k = BitVec.ofNat 8 (v.toNat / 2 ^ (8 * k)) :=
  extractLsb'_eq_ofNat v (8 * k) 8

theorem setHalf_eq (d : Word) (n : Nat) (e : Half) :
    setHalf d n e = ofHalves (if 1 = n then e else halfAt d 1) (if 0 = n then e else halfAt d 0) := by
  simp only [setHalf, eq_comm]

theorem setByte_eq (d : Word) (n : Nat) (e : Byte) :
    setByte d n e = ofBytes (if 3 = n then e else byteAt d 3) (if 2 = n then e else byteAt d 2)
      (if 1 = n then e else byteAt d 1) (if 0 = n then e else byteAt d 0) := by
  simp only [setByte, eq_comm]

theorem elementResult_named {named : Bool} (h : named = true) (rd : Reg) (v : Word) (s : State) :
    elementResult rd named v s = writeBack ilen4 rd v s := by
  rw [elementResult, if_pos h]

theorem elementResult_unnamed {s : State} (hs : s.hitsShortLoop = false) {named : Bool} (h : named = false) (rd : Reg)
    (v : Word) : elementResult rd named v s = .next (s.afterX 4 rd (Config.freeElement s.draws)) := by
  rw [elementResult, h]
  exact writeBack_eq_afterX 4 rd _ hs

/-- Settles O45: it holds. Where the index names an element the result is that of the element, else it is free. -/
theorem vectorExtractAndInsert : Obligations.VectorExtractAndInsert := by
  intro s rd rs1 i hs a d n
  refine ⟨fun index => ⟨?extractH, ?extractuH, ?insertH⟩, fun index => ⟨?extractB, ?extractuB, ?insertB⟩,
    fun past j mem => ?freeH, fun past j mem => ?freeB⟩
  case extractH =>
    exact (elementResult_named (decide_eq_true index) _ _ s).trans
      (writeBack_afterX hs (congrArg (BitVec.signExtend 32) (halfAt_eq a n)))
  case extractuH =>
    exact (elementResult_named (decide_eq_true index) _ _ s).trans
      (writeBack_afterX hs ((congrArg (BitVec.setWidth 32) (halfAt_eq a n)).trans (setWidth_ofNat ..)))
  case insertH =>
    refine writesHalves_of_exec _ hs ((elementResult_named (decide_eq_true index) _ _ s).trans ?_)
    rw [setHalf_eq]
  case extractB =>
    exact (elementResult_named (decide_eq_true index) _ _ s).trans
      (writeBack_afterX hs (congrArg (BitVec.signExtend 32) (byteAt_eq a n)))
  case extractuB =>
    exact (elementResult_named (decide_eq_true index) _ _ s).trans
      (writeBack_afterX hs ((congrArg (BitVec.setWidth 32) (byteAt_eq a n)).trans (setWidth_ofNat ..)))
  case insertB =>
    refine writesBytes_of_exec _ hs ((elementResult_named (decide_eq_true index) _ _ s).trans ?_)
    rw [setByte_eq]
  case freeH =>
    have unnamed : indexH? i = false := decide_eq_false (by omega)
    simp only [List.mem_cons, List.not_mem_nil, or_false] at mem
    obtain rfl | rfl | rfl := mem
    · exact elementResult_unnamed hs unnamed rd _
    · exact elementResult_unnamed hs unnamed rd _
    · exact elementResult_unnamed hs unnamed rd _
  case freeB =>
    have unnamed : indexB? i = false := decide_eq_false (by omega)
    simp only [List.mem_cons, List.not_mem_nil, or_false] at mem
    obtain rfl | rfl | rfl := mem
    · exact elementResult_unnamed hs unnamed rd _
    · exact elementResult_unnamed hs unnamed rd _
    · exact elementResult_unnamed hs unnamed rd _

/-! ## Shuffles -/

theorem extractLsb'_toNat_eq {n : Nat} (v : BitVec n) (start len : Nat) :
    (v.extractLsb' start len).toNat = v.toNat / 2 ^ start % 2 ^ len := by
  rw [BitVec.extractLsb'_toNat, Nat.shiftRight_eq_div_pow]

theorem low_bits_toNat {n : Nat} (v : BitVec n) (len : Nat) : (v.extractLsb' 0 len).toNat = v.toNat % 2 ^ len := by
  rw [extractLsb'_toNat_eq, Nat.pow_zero, Nat.div_one]

theorem getLsbD_iff {n : Nat} (v : BitVec n) (k : Nat) : v.getLsbD k = true ↔ v.toNat / 2 ^ k % 2 = 1 := by
  rw [BitVec.getLsbD, Nat.testBit_eq_decide_div_mod_eq, decide_eq_true_iff]

section
variable {s : State} (hs : s.hitsShortLoop = false) {i : Instr} {rd : Reg} {a : Word}
include hs

theorem writesHalves_of_picked {n : Nat} {imm : BitVec 6} (hn : imm.toNat = n)
    (hi : exec i s = writeBack ilen4 rd (shuffleSciH a imm) s) :
    WritesHalves s i rd (fun k => halfAt a (n / 2 ^ k % 2)) := by
  refine writesHalves_of_exec _ hs (hi.trans ?_)
  rw [shuffleSciH, extractLsb'_toNat_eq, low_bits_toNat, hn]
  simp

/-- A byte shuffle by the immediate: each byte but the top one is picked by two bits. -/
theorem writesBytes_of_picked {top n : Nat} {imm : BitVec 6} (hn : imm.toNat = n)
    (hi : exec i s = writeBack ilen4 rd (shuffleSciB top a imm) s) :
    WritesBytes s i rd (fun k => if k = 3 then byteAt a top else byteAt a (n / 4 ^ k % 4)) := by
  refine writesBytes_of_exec _ hs (hi.trans ?_)
  rw [shuffleSciB, extractLsb'_toNat_eq, extractLsb'_toNat_eq, low_bits_toNat, hn]
  simp

end

/-- Settles O46: it holds. The bits that name an element are the low bits of the number. -/
theorem vectorShuffles : Obligations.VectorShuffles := by
  intro s rd rs1 rs2 i hs a b d n sciB
  refine ⟨?shuffleH, ?shuffleB, ?sciH, ?sciB0, ?sciB1, ?sciB2, ?sciB3, ?shuffle2H, ?shuffle2B⟩
  case shuffleH => exact writesHalves_of_zipH hs rfl fun k _ => congrArg (halfAt a) (low_bits_toNat _ 1)
  case shuffleB => exact writesBytes_of_zipB hs rfl fun k _ => congrArg (byteAt a) (low_bits_toNat _ 2)
  case sciH => exact writesHalves_of_picked hs (imm := i) rfl rfl
  case sciB0 | sciB1 | sciB2 | sciB3 => exact writesBytes_of_picked hs (imm := i) rfl rfl
  case shuffle2H =>
    refine writesHalves_of_zipH hs rfl fun k _ => ?_
    simp only [getLsbD_iff, low_bits_toNat, Nat.pow_one]
    rfl
  case shuffle2B =>
    refine writesBytes_of_zipB hs rfl fun k _ => ?_
    simp only [getLsbD_iff, low_bits_toNat]
    rfl

end Sys2Proof.Proofs
end

