-- ==== Sys2Proof/Proofs/FloatMoves.lean ====
section
/-! RV32F: which result each instruction writes, the reserved rounding modes, and the moves, sign injections and classes
bit by bit (44_rv32f.md). -/

namespace Sys2Proof.Proofs

open Sys2Proof.Machine

/-! ## What the floating-point instructions end with -/

theorem withRounding_of_mode {s : State} {rm : BitVec 3} {m : Rounding} {k : Rounding → Result}
    (hm : s.rounding rm = some m) : withRounding rm s k = k m := by
  rw [withRounding, hm]

section
variable {s : State} (fpu : s.params.fpu = true)
include fpu

theorem needsFpu_withRounding_none {rm : BitVec 3} {k : Rounding → Result} (hm : s.rounding rm = none) :
    needsFpu s (withRounding rm s k) = .refused .reservedRounding := by
  rw [needsFpu_of_fpu _ fpu, withRounding, hm]

theorem fpIterative_none {rd : Reg} {rm : BitVec 3} {g : Rounding → Word × BitVec 5} (hm : s.rounding rm = none) :
    fpIterative rd rm g s = .refused .reservedRounding := by
  unfold fpIterative
  split
  · exact needsFpu_withRounding_none fpu hm
  · exact needsFpu_withRounding_none fpu hm

variable (hs : s.hitsShortLoop = false)
include hs

theorem fpRounded_eq {rd : Reg} {rm : BitVec 3} {m : Rounding} (hm : s.rounding rm = some m)
    (g : Rounding → Word × BitVec 5) :
    fpRounded rd rm g s = .next (((s.writeF rd (g m).1).raise (g m).2).after 4) := by
  rw [fpRounded, needsFpu_of_fpu _ fpu, withRounding_of_mode hm]
  exact writeBackF_of_not_short 4 rd _ _ hs

theorem fpIterative_eq_next {rd : Reg} {rm : BitVec 3} {m : Rounding} (hm : s.rounding rm = some m)
    (g : Rounding → Word × BitVec 5) {r : Word × BitVec 5}
    (hr : (if s.fprec = 0 then g m else (Config.freeFpResult s.draws, Config.freeFpFlags s.draws)) = r) :
    fpIterative rd rm g s = .next (((s.writeF rd r.1).raise r.2).after 4) := by
  subst hr
  unfold fpIterative
  split
  · exact fpRounded_eq fpu hs hm g
  · exact fpRounded_eq fpu hs hm _

theorem fpResult_eq (rd : Reg) (v : Word × BitVec 5) :
    fpResult rd v s = .next (((s.writeF rd v.1).raise v.2).after 4) := by
  rw [fpResult, needsFpu_of_fpu _ fpu]
  exact writeBackF_of_not_short 4 rd _ _ hs

theorem fpToX_eq (rd : Reg) (v : Word × BitVec 5) :
    fpToX rd v s = .next (((s.writeX rd v.1).raise v.2).after 4) := by
  rw [fpToX, needsFpu_of_fpu _ fpu]
  exact retire_of_not_short 4 (by rw [raise_hitsShortLoop, writeX_hitsShortLoop, hs])

theorem fpToXRounded_eq {rd : Reg} {rm : BitVec 3} {m : Rounding} (hm : s.rounding rm = some m)
    (g : Rounding → Word × BitVec 5) :
    fpToXRounded rd rm g s = .next (((s.writeX rd (g m).1).raise (g m).2).after 4) := by
  rw [fpToXRounded, needsFpu_of_fpu _ fpu, withRounding_of_mode hm]
  exact retire_of_not_short 4 (by rw [raise_hitsShortLoop, writeX_hitsShortLoop, hs])

/-- Without flags, nothing but the register is written. -/
theorem fpResult_afterF (rd : Reg) (v : Word) : fpResult rd (v, Flag.none) s = .next (s.afterF 4 rd v) := by
  rw [fpResult_eq fpu hs, raise_none]
  rfl

theorem fpToX_afterX (rd : Reg) (v : Word) : fpToX rd (v, Flag.none) s = .next (s.afterX 4 rd v) := by
  rw [fpToX_eq fpu hs, raise_none]
  rfl

end

/-! ## The rounding modes -/

theorem rounding_none {s : State} {rm : BitVec 3} (h : rm = 5 ∨ rm = 6 ∨ (rm = 7 ∧ 5 ≤ s.frm.toNat)) :
    s.rounding rm = none := by
  obtain rfl | rfl | ⟨rfl, reserved⟩ := h
  · rfl
  · rfl
  · have code : ∀ c : BitVec 3, 5 ≤ c.toNat → Rounding.ofCode c = none := by decide
    exact code s.frm reserved

/-- Settles O26: it holds. Each of the thirteen asks for the rounding mode, and there is none. -/
theorem reservedRoundingIsRefused : Obligations.ReservedRoundingIsRefused := by
  intro s rd rs1 rs2 rs3 rm fpu reserved i mem
  have none := rounding_none reserved
  have refused {g : Rounding → Word × BitVec 5} : fpRounded rd rm g s = .refused .reservedRounding :=
    needsFpu_withRounding_none fpu none
  have refusedX {g : Rounding → Word × BitVec 5} : fpToXRounded rd rm g s = .refused .reservedRounding :=
    needsFpu_withRounding_none fpu none
  simp only [List.mem_cons, List.not_mem_nil, or_false] at mem
  obtain rfl | rfl | rfl | rfl | rfl | rfl | rfl | rfl | rfl | rfl | rfl | rfl | rfl := mem
  case inr.inr.inr.inl => exact fpIterative_none fpu none
  case inr.inr.inr.inr.inl => exact fpIterative_none fpu none
  case inr.inr.inr.inr.inr.inr.inr.inr.inr.inl => exact refusedX
  case inr.inr.inr.inr.inr.inr.inr.inr.inr.inr.inl => exact refusedX
  all_goals exact refused

/-- Settles O20: it holds. Each of the eleven is the rounding of its operation in the selected mode. -/
theorem floatArithmeticCompletes : Obligations.FloatArithmeticCompletes := by
  intro s rd rs1 rs2 rs3 rm m fpu hs hm a b ends pa pb pc
  refine ⟨?add, ?sub, ?mul, ?madd, ?msub, ?nmsub, ?nmadd, ?ofSigned, ?ofUnsigned, ?div, ?sqrt⟩
  case div => exact fpIterative_eq_next fpu hs hm (fun m => Ieee.div m a b) rfl
  case sqrt => exact fpIterative_eq_next fpu hs hm (fun m => Ieee.sqrt m a) rfl
  all_goals exact fpRounded_eq fpu hs hm _

/-! ## Sign injection -/

theorem withSign_getLsbD_sign (b : Bool) (w : Word) : (withSign b w).getLsbD 31 = b := by
  cases b <;> simp [withSign]

theorem withSign_getLsbD (b : Bool) (w : Word) {k : Nat} (hk : k < 31) : (withSign b w).getLsbD k = w.getLsbD k := by
  have masks : ∀ j < 31, (0x7FFFFFFF#32).getLsbD j = true ∧ (0x80000000#32).getLsbD j = false := by decide
  obtain ⟨low, high⟩ := masks k hk
  rw [withSign, BitVec.getLsbD_or, BitVec.getLsbD_and]
  cases b
  · exact (congrArg (_ || w.getLsbD k && ·) low).trans (by simp)
  · exact (congrArg₂ (· || w.getLsbD k && ·) high low).trans (by simp)

/-! ## The fields of a word -/

theorem expOf_eq (w : Word) : Ieee.expOf w = w.toNat / 2 ^ 23 % 256 := extractLsb'_toNat_eq w 23 8

theorem fracOf_eq (w : Word) : Ieee.fracOf w = w.toNat % 2 ^ 23 := low_bits_toNat w 23

theorem quiet_iff (w : Word) : w.getLsbD 22 = false ↔ Ieee.fracOf w < 2 ^ 22 := by
  rw [← Bool.not_eq_true, getLsbD_iff, fracOf_eq]
  omega

section
variable {w : Word}

theorem unpack_inf (special : Ieee.expOf w = 255) (infinite : Ieee.fracOf w = 0) :
    Ieee.unpack w = .inf (Ieee.signOf w) := by
  rw [Ieee.unpack, if_pos special, if_pos infinite]

theorem unpack_nan (special : Ieee.expOf w = 255) (nan : Ieee.fracOf w ≠ 0) :
    Ieee.unpack w = .nan (!w.getLsbD 22) := by
  rw [Ieee.unpack, if_pos special, if_neg nan]

theorem unpack_subnormal (small : Ieee.expOf w = 0) :
    Ieee.unpack w = .fin (Ieee.signOf w) (Ieee.fracOf w) (-149) := by
  rw [Ieee.unpack, if_neg (by omega), if_pos small]

theorem unpack_normal (finite : Ieee.expOf w ≠ 255) (normal : Ieee.expOf w ≠ 0) :
    Ieee.unpack w = .fin (Ieee.signOf w) (2 ^ 23 + Ieee.fracOf w) ((Ieee.expOf w : Int) - 150) := by
  rw [Ieee.unpack, if_neg finite, if_neg normal]

end

theorem fracOf_lt (w : Word) : Ieee.fracOf w < 2 ^ 23 := fracOf_eq w ▸ Nat.mod_lt _ (by norm_num)

theorem classify_eq (w : Word) : Ieee.classify w = BitVec.twoPow 32 (
    if Ieee.expOf w = 255 then
      (if Ieee.fracOf w = 0 then (if Ieee.signOf w then 0 else 7) else if Ieee.fracOf w < 2 ^ 22 then 8 else 9)
    else if Ieee.expOf w = 0 then
      (if Ieee.fracOf w = 0 then (if Ieee.signOf w then 3 else 4) else if Ieee.signOf w then 2 else 5)
    else if Ieee.signOf w then 1 else 6) := by
  have fraction := fracOf_lt w
  unfold Ieee.classify
  by_cases special : Ieee.expOf w = 255
  · rw [if_pos special]
    by_cases infinite : Ieee.fracOf w = 0
    · rw [unpack_inf special infinite, if_pos infinite]
      cases Ieee.signOf w <;> rfl
    · rw [unpack_nan special infinite, if_neg infinite]
      simp only [← quiet_iff]
      cases w.getLsbD 22 <;> rfl
  rw [if_neg special]
  by_cases small : Ieee.expOf w = 0
  · rw [unpack_subnormal small, if_pos small]
    simp only [fraction, if_true]
    split <;> cases Ieee.signOf w <;> rfl
  · rw [unpack_normal special small, if_neg small]
    simp only [show ¬ 2 ^ 23 + Ieee.fracOf w = 0 by omega, show ¬ 2 ^ 23 + Ieee.fracOf w < 2 ^ 23 by omega, if_false]
    cases Ieee.signOf w <;> rfl

/-- Settles O19: it holds, bit by bit for the sign injections and field by field for the class. -/
theorem floatMovesAndSigns : Obligations.FloatMovesAndSigns := by
  intro s rd rs1 rs2 fpu hs a b e f neg
  have injects (sign : Bool) :
      ((withSign sign a).getLsbD 31 = sign) ∧ ∀ k < 31, (withSign sign a).getLsbD k = a.getLsbD k :=
    ⟨withSign_getLsbD_sign sign a, fun _ hk => withSign_getLsbD sign a hk⟩
  refine ⟨fpToX_afterX fpu hs rd a, fpResult_afterF fpu hs rd _, ⟨_, fpResult_afterF fpu hs rd _, injects _⟩,
    ⟨_, fpResult_afterF fpu hs rd _, injects _⟩, ⟨_, fpResult_afterF fpu hs rd _, ?exclusive⟩, ?classes⟩
  case exclusive => exact injects (Ieee.signOf a != Ieee.signOf b)
  case classes =>
    refine (fpToX_afterX fpu hs rd _).trans ?_
    rw [classify_eq, expOf_eq, fracOf_eq]
    rfl

end Sys2Proof.Proofs
end

