-- ==== Sys2Proof/Proofs/FetchAndDataPort.lean ====
section
/-! The fetch of the parcels at the pc, and the data port: what stops an access, its one or two transactions, and the
stores of other masters (20_memory.md). -/

namespace Sys2Proof.Proofs

open Sys2Proof.Machine

/-! ## Fetch -/

theorem fetched_two (s : State) (a : Word) : s.fetched a 2 = (s.code16 a).toNat := by
  rw [State.code16, toNat_append_eq]
  simp [State.fetched]
  omega

/-- Four bytes are two parcels. -/
theorem fetched_four (s : State) (a : Word) : s.fetched a 4 = (s.code16 (a + 2) ++ s.code16 a).toNat := by
  have third : a + 2 + 1 = a + BitVec.ofNat 32 3 := BitVec.add_assoc a 2 1
  have second : a + 2 = a + BitVec.ofNat 32 2 := rfl
  rw [toNat_append_eq, State.code16, State.code16, toNat_append_eq, toNat_append_eq, third, second]
  simp [State.fetched]
  omega

theorem isLong_iff (p : Half) : isLong p = true ↔ p.toNat % 4 = 3 := by
  rw [isLong, beq_iff_eq, ← BitVec.toNat_inj, cOp, BitVec.extractLsb'_toNat]
  rfl

theorem code16_eq (s : State) (a : Word) : s.code16 a = BitVec.ofNat 16 (s.fetched a 2) := by
  rw [fetched_two, BitVec.ofNat_toNat, BitVec.setWidth_eq]

section
variable {s : State} {a : Word}

theorem stopFetch_of_stopped {e : Stop} (h : s.stopAccess .fetch a 2 = some e) : s.stopFetch a = some e := by
  rw [State.stopFetch, h]
  rfl

theorem stopFetch_of_fresh (h : s.stopAccess .fetch a 2 = none) (d0 : s.isDirty a = false)
    (d1 : s.isDirty (a + 1) = false) : s.stopFetch a = none := by
  rw [State.stopFetch, h, d0, d1]
  rfl

theorem stopFetch_of_stale (h : s.stopAccess .fetch a 2 = none)
    (stale : ¬ (s.isDirty a = false ∧ s.isDirty (a + 1) = false)) :
    s.stopFetch a = some (.refuse (.staleFetch a)) := by
  have dirty : (s.isDirty a || s.isDirty (a + 1)) = true := by
    rw [← Bool.or_eq_false_iff, Bool.not_eq_false] at stale
    exact stale
  rw [State.stopFetch, h, dirty]
  rfl

theorem fetch_of_stop {e : Stop} (h : s.stopFetch s.pc = some e) : s.fetch = .error e := by
  rw [State.fetch, h]

theorem fetch_short (h : s.stopFetch s.pc = none) (short : s.fetched s.pc 2 % 4 ≠ 3) :
    s.fetch = .ok (.half (s.code16 s.pc)) := by
  rw [fetched_two] at short
  rw [State.fetch, h]
  exact if_neg ((isLong_iff _).not.mpr short)

theorem fetch_long (h : s.stopFetch s.pc = none) (long : s.fetched s.pc 2 % 4 = 3) :
    s.fetch = match s.stopFetch (s.pc + 2) with
      | some e => .error e
      | none => .ok (.word (s.code16 (s.pc + 2) ++ s.code16 s.pc)) := by
  rw [fetched_two] at long
  rw [State.fetch, h]
  exact if_pos ((isLong_iff _).mpr long)

theorem fetch_long_stop {e : Stop} (h : s.stopFetch s.pc = none) (long : s.fetched s.pc 2 % 4 = 3)
    (h2 : s.stopFetch (s.pc + 2) = some e) : s.fetch = .error e := by
  rw [fetch_long h long, h2]

end

/-- Settles O51: it holds. The two tests of a parcel are its answer and its freshness, and its low bits tell whether a
second one follows. -/
theorem fetchReadsTheParcelsAtThePc : Obligations.FetchReadsTheParcelsAtThePc := by
  intro s answers fresh p
  refine ⟨fun ok d short => ?half, fun ok d long ok2 d2 => ?word, fun ok stale => ?stale,
    fun ok d long ok2 stale => ?stale2, fun a memory => ?storage, fun a device => ?device⟩
  case half => rw [fetch_short (stopFetch_of_fresh ok d.1 d.2) short, code16_eq]
  case word =>
    rw [fetch_long (stopFetch_of_fresh ok d.1 d.2) long, stopFetch_of_fresh ok2 d2.1 d2.2, fetched_four,
      BitVec.ofNat_toNat, BitVec.setWidth_eq]
  case stale => exact fetch_of_stop (stopFetch_of_stale ok stale)
  case stale2 => exact fetch_long_stop (stopFetch_of_fresh ok d.1 d.2) long (stopFetch_of_stale ok2 stale)
  case storage =>
    rw [State.code8, memory]
    cases h : s.params.unified <;> simp [State.codeMem, h, State.read8]
  case device => rw [State.code8, if_pos device]

/-! ## What stops an access -/

theorem stopAt_of_none {s : State} {k : Access} {b : Word} (h : s.regionAt k b = none) :
    s.stopAt k b = some (.refuse (.noMemory b)) := by
  rw [State.stopAt, h]

theorem stopAt_of_some {s : State} {k : Access} {b : Word} {r : Region} (h : s.regionAt k b = some r) :
    s.stopAt k b = if r.kind = .silent then some (.fault (.stuck b)) else none := by
  rw [State.stopAt, h]
  cases hk : r.kind <;> simp [hk]

/-- A byte goes through where a region that is not silent answers. -/
theorem stopAt_eq_none_iff {s : State} {k : Access} {b : Word} :
    s.stopAt k b = none ↔ ∃ r, s.regionAt k b = some r ∧ r.kind ≠ .silent := by
  cases h : s.regionAt k b with
  | none => simp [stopAt_of_none h]
  | some r =>
    rw [stopAt_of_some h]
    by_cases silent : r.kind = .silent <;> simp [silent]

theorem offset_succ (b : Word) (j : Nat) : b + 1 + BitVec.ofNat 32 j = b + BitVec.ofNat 32 (j + 1) := by
  rw [BitVec.add_assoc, Nat.add_comm j 1, BitVec.ofNat_add]
  rfl

theorem stopAccess_eq_none_iff (s : State) (k : Access) (n : Nat) :
    ∀ b, s.stopAccess k b n = none ↔ ∀ j < n, s.stopAt k (b + BitVec.ofNat 32 j) = none := by
  induction n with
  | zero => simp [State.stopAccess]
  | succ n ih =>
    intro b
    rw [State.stopAccess, Option.or_eq_none_iff, ih]
    simp only [offset_succ]
    constructor
    · rintro ⟨first, rest⟩ j hj
      cases j with
      | zero => simpa using first
      | succ j => exact rest j (by omega)
    · intro all
      exact ⟨by simpa using all 0 (by omega), fun j hj => all (j + 1) (by omega)⟩

/-- The lowest byte that does not go through stops the access. -/
theorem stopAccess_eq_some_iff (s : State) (k : Access) (e : Stop) (n : Nat) :
    ∀ b, s.stopAccess k b n = some e ↔ ∃ j < n, s.stopAt k (b + BitVec.ofNat 32 j) = some e ∧
      ∀ l < j, s.stopAt k (b + BitVec.ofNat 32 l) = none := by
  induction n with
  | zero => simp [State.stopAccess]
  | succ n ih =>
    intro b
    rw [State.stopAccess, Option.or_eq_some_iff, ih]
    simp only [offset_succ]
    constructor
    · rintro (first | ⟨first, j, hj, stop, below⟩)
      · exact ⟨0, by omega, by simpa using first, fun l hl => absurd hl (Nat.not_lt_zero l)⟩
      · refine ⟨j + 1, by omega, stop, fun l hl => ?_⟩
        cases l with
        | zero => simpa using first
        | succ l => exact below l (by omega)
    · rintro ⟨j, hj, stop, below⟩
      cases j with
      | zero => exact .inl (by simpa using stop)
      | succ j =>
        exact .inr ⟨by simpa using below 0 (by omega), j, by omega, stop, fun l hl => below (l + 1) (by omega)⟩

/-! ## The instructions whose access does not go through -/

theorem guardAccess_of_some {s : State} {k : Access} {a : Word} {n : Nat} {e : Stop} (r : Result)
    (h : s.stopAccess k a n = some e) : guardAccess k a n s r = e.result := by
  rw [guardAccess, h]

/-- An instruction whose access does not go through ends with the reason. -/
theorem Meaning.stopped_of_access {s : State} {i : Instr} {r : Result} {d : DataAccess} {e : Stop}
    (hm : Meaning s i r) (hd : dataAccess s i = some d) (hx : raisesException s i = false)
    (he : s.stopAccess d.kind d.addr d.size = some e) : r = e.result := by
  have access {τ : Traits} {d' : DataAccess} (h : traits s i = τ) (hd' : τ.access = some d') :
      s.stopAccess d'.kind d'.addr d'.size = some e :=
    Option.some.inj (((dataAccess_of_traits h).trans hd').symm.trans hd) ▸ he
  have fpu {τ : Traits} (h : traits s i = τ) (hf : τ.float = true) : s.params.fpu = true := by
    rw [raisesException_of_traits h, hf] at hx
    cases hp : s.params.fpu <;> simp [hp] at hx ⊢
  cases hm with
  | loads h | postLoads h | stores h | postStores h => exact guardAccess_of_some _ (access h rfl)
  | loadsF h => exact (needsFpu_of_fpu _ (fpu h rfl)).trans (guardAccess_of_some _ (access h rfl))
  | storesF h => exact (needsFpu_of_fpu _ (fpu h rfl)).trans (guardAccess_of_some _ (access h rfl))
  | writes h | ends h | fenceI _ h | wfi _ h | mret _ h | ecall h | breaks h | jumps h | links h | branches h
  | fpRounds h | fpWrites h | fpToX h | fpToXRounds h | loopSetup h | csrReads h | csrWrites h =>
    exact nomatch (dataAccess_of_traits h).symm.trans hd

/-! ## The transactions of an access -/

theorem splits_of_within {b : Word} {n : Nat} (h : b.toNat % 4 + n ≤ 4) : splits b n = false :=
  decide_eq_false (Nat.not_lt.mpr h)

theorem settle_of_split (s : State) {b : Word} {n : Nat} (h : 4 < b.toNat % 4 + n) : s.settle b n = s.landed :=
  if_pos (decide_eq_true h)

theorem accessByte_within (s : State) {b : Word} {j : Nat} (h : b.toNat % 4 + j < 4) :
    s.accessByte b j = s.load8 (b + BitVec.ofNat 32 j) := by
  rw [State.accessByte, if_pos h]

/-- A store to a device changes no memory, and its byte may be stale for fetch. -/
theorem store8_eq (s : State) (b : Word) (v : Byte) : s.store8 b v =
    if s.deviceAt .store b then { s with dirty := AddrSet.insert b.toNat s.dirty } else s.put8 b v := rfl

/-! ## The stores of other masters -/

theorem isDirty_of_mem {s : State} {b : Word} (h : b.toNat ∈ s.dirty) : s.isDirty b = true := by
  simpa [State.isDirty] using h

theorem busAllowed_of_shared {a : Word} {s t : State} (h : s.sharedAt a = true) : busAllowed a s t = .next t := if_pos h

theorem busAllowed_of_not_shared {a : Word} {s t : State} (h : s.sharedAt a = false) :
    busAllowed a s t = .refused (.busWriteOutside a) := by
  rw [busAllowed, h]
  rfl

/-- Behind a port that reaches the memory of the data port, the store is one to that memory. -/
theorem busStore_of_data {s : State} {p : Port} (h : p = .data ∨ s.params.unified = true) (b : Word) (v : Byte) :
    s.busStore p b v = s.put8 b v := by
  cases p with
  | data => rfl
  | instr =>
    obtain h | h := h
    · exact nomatch h
    · exact if_pos h

theorem busStore_of_instr {s : State} (h : s.params.unified = false) (b : Word) (v : Byte) :
    s.busStore .instr b v =
      { s with imem := Memory.write8 s.imem b v, dirty := AddrSet.insert b.toNat s.dirty } := by
  rw [State.busStore, State.putCode8, h]
  rfl

theorem busStore_x (s : State) (p : Port) (b : Word) (v : Byte) : (s.busStore p b v).x = s.x := by
  cases p <;> simp [State.busStore]

theorem busStore_pc (s : State) (p : Port) (b : Word) (v : Byte) : (s.busStore p b v).pc = s.pc := by
  cases p <;> simp [State.busStore]

/-- Settles O60: it holds, clause by clause from the rules above; what a store of another master changes is the rule of the
storage it reaches. -/
theorem dataPortTransactions : Obligations.DataPortTransactions := by
  intro s
  refine ⟨fun b n within => ⟨settle_of_whole s within, fun j hj => accessByte_within s (by omega)⟩,
    fun b n split => ⟨settle_of_split s split, fun _ _ => rfl⟩, landed_between s, landed_x s, landed_pc s,
    fun canonical b => landed_read8 canonical b, fun _ => rfl, store8_eq s, fun d b c => AddrSet.mem_insert b c d,
    fun k b n => ?goesThrough, fun k b => ⟨stopAt_of_none, fun _ => stopAt_of_some⟩,
    fun k b n e => stopAccess_eq_some_iff s k e n b, fun i d hd hx => ⟨fun f he => ?fault, fun r he => ?refusal⟩,
    fun e he => fetch_of_stop (stopFetch_of_stopped he),
    fun e ok d0 d1 long he => fetch_long_stop (stopFetch_of_fresh ok d0 d1) long (stopFetch_of_stopped he),
    fun p b v rest hi => ⟨fun outside => ?outside, fun shared memWf imemWf => ?busStore⟩,
    fun b v rest hi => ⟨fun outside => ?outsideBetween, fun shared => ?between⟩⟩
  case goesThrough =>
    rw [stopAccess_eq_none_iff]
    simp only [stopAt_eq_none_iff]
  case fault => exact (exec_meaning s i).stopped_of_access hd hx he
  case refusal => exact (exec_meaning s i).stopped_of_access hd hx he
  case outside =>
    rw [step_of_input hi (by simp)]
    exact congrArg (mapNext _) (busAllowed_of_not_shared outside)
  case outsideBetween =>
    rw [step_of_input hi (by simp)]
    exact congrArg (mapNext _) (busAllowed_of_not_shared outside)
  case between =>
    rw [step_of_input hi (by simp)]
    exact congrArg (mapNext _) (busAllowed_of_shared (s := { s with inputs := rest }) shared)
  case busStore =>
    let u : State := { s with inputs := rest }
    let stored : State := u.busStore p b v
    refine ⟨{ stored with draws := stored.draws + 1 }, ?stepped, busStore_x u p b v, busStore_pc u p b v,
      fun data => ?data, fun instr notUnified => ?instr⟩
    case stepped =>
      rw [step_of_input hi (by simp)]
      exact congrArg (mapNext _) (busAllowed_of_shared (s := u) shared)
    case data =>
      have put : stored = u.put8 b v := busStore_of_data (s := u) data b v
      refine ⟨?same, fun c hc => ?other, ?imem, fun unified => ?stale⟩
      case same => exact (congrArg (State.read8 · b) put).trans (read8_put8_same u b v memWf)
      case other => exact (congrArg (State.read8 · c) put).trans (read8_put8_other u b c v hc)
      case imem =>
        have kept : stored.imem = u.imem := by rw [put, put8_imem]
        exact kept
      case stale =>
        refine isDirty_of_mem ?_
        have dirty : stored.dirty = AddrSet.insert b.toNat s.dirty :=
          (congrArg State.dirty put).trans ((put8_dirty u b v).trans (if_pos unified))
        exact dirty ▸ (AddrSet.mem_insert b.toNat b.toNat s.dirty).mpr (.inl rfl)
    case instr =>
      subst instr
      have put := busStore_of_instr (s := u) notUnified b v
      have kept : stored.mem = u.mem := (congrArg State.mem put).trans rfl
      refine ⟨?sameI, fun c hc => ?otherI, kept, ?staleI⟩
      case sameI =>
        exact (congrArg (fun t => Memory.read8 t.imem b) put).trans (Memory.read8_write8_same s.imem b v imemWf)
      case otherI =>
        exact (congrArg (fun t => Memory.read8 t.imem c) put).trans (Memory.read8_write8_other s.imem b c v hc)
      case staleI =>
        have dirty : stored.dirty = AddrSet.insert b.toNat s.dirty := congrArg State.dirty put
        exact isDirty_of_mem (dirty ▸ (AddrSet.mem_insert b.toNat b.toNat s.dirty).mpr (.inl rfl))

end Sys2Proof.Proofs
end

