-- ==== Sys2Proof/Proofs/Steps.lean ====
section
/-! One step of the machine: the decoded instruction, the interrupt, and sample words of the decoder (00_scope.md R11,
60_exceptions.md R706, 30_encoding.md). -/

namespace Sys2Proof.Proofs

open Sys2Proof.Machine

/-- Settles O49: it holds, by decoding each word. -/
theorem sampleWordsDecode : Obligations.SampleWordsDecode :=
  ⟨rfl, rfl, rfl, rfl, rfl, rfl, rfl, rfl, rfl, rfl, rfl, rfl, rfl, rfl, rfl⟩

/-! ## The end of a step -/

/-- Counting changes the counters alone. -/
theorem countEvents_eq (ev : Events) (b s : State) :
    countEvents ev b s = { s with pccr := (countEvents ev b s).pccr } := by
  unfold countEvents
  split <;> rfl

/-- The state after a step that led from `b` to `s`: what the step adds to `s`. -/
theorem complete_eq (ev : Events) (p : Word) (w : Option (List Reg)) (b s : State) : complete ev p w b s = { s with
    pccr := (countEvents ev b s).pccr
    ppc := p
    prevWrites := w
    halted := s.halted || s.sste
    ssth := s.ssth || s.sste
    dbgCause := if s.sste && !s.halted then Config.freeCause s.draws else s.dbgCause
    draws := s.draws + 1 } := by
  rw [complete, countEvents_eq]
  cases single : s.sste with
  | false => simp [State.singleStep]
  | true => cases halted : s.halted <;> simp [State.singleStep]

/-! ## The steps of a running hart -/

section
variable {s : State} (noInput : s.inputs = []) (running : s.halted = false)
include noInput running

theorem step_of_running (awake : (s.sleeping && s.irq.isNone) = false) (none : s.takeable = none) :
    step s = fetchAndRun s.begin := by
  rw [step_of_no_input noInput, hartStep_awake awake, running, none]
  rfl

theorem step_of_interrupt (awake : (s.sleeping && s.irq.isNone) = false) {i : BitVec 5} (taken : s.takeable = some i) :
    step s = runInterrupt i s.begin := by
  rw [step_of_no_input noInput, hartStep_awake awake, running, taken]
  rfl

end

theorem fetchAndRun_of_error {s : State} {e : Stop} (h : s.fetch = .error e) : fetchAndRun s = e.result := by
  rw [fetchAndRun, h]

theorem fetchAndRun_of_instr {s : State} {c : Code} {i : Instr} (h : s.fetch = .ok c) (hd : decodeCode c = .ok i) :
    fetchAndRun s = runInstr i (codeLength c) s := by
  simp only [fetchAndRun, h, hd]

theorem fetchAndRun_of_no_instr {s : State} {c : Code} {e : DecodeError} (h : s.fetch = .ok c)
    (hd : decodeCode c = .error e) : fetchAndRun s = runNoInstr e s := by
  simp only [fetchAndRun, h, hd]

theorem runInstr_of_next {i : Instr} {n : Word} {s t : State} (h : exec i s = .next t) :
    runInstr i n s = .next (complete (eventsOf s i n) s.pc (writesOf s i) s t) := by
  rw [runInstr, h]
  rfl

/-- Settles O50: it holds. The step is the fetch, the decoding, `exec` and the end of the step, in that order. -/
theorem stepRunsTheDecodedInstruction : Obligations.StepRunsTheDecodedInstruction := by
  intro s noInput running awake none ends
  have runs : step s = fetchAndRun s.begin :=
    step_of_running noInput running (by rw [awake, Bool.false_and]) none
  refine ⟨fun f hf => ?fault, fun r hr => ?refusal, fun c hc => ⟨fun i hi => ⟨fun t ht => ?next, fun f hf => ?execFault,
    fun r hr => ?execRefusal⟩, fun hi => ?illegal, fun r hr => ?reserved⟩⟩
  case fault => exact runs.trans (fetchAndRun_of_error hf)
  case refusal => exact runs.trans (fetchAndRun_of_error hr)
  case next =>
    rw [runs, fetchAndRun_of_instr hc hi, runInstr_of_next ht, complete_eq]
    rfl
  case execFault => rw [runs, fetchAndRun_of_instr hc hi, runInstr, hf]; rfl
  case execRefusal => rw [runs, fetchAndRun_of_instr hc hi, runInstr, hr]; rfl
  case illegal =>
    rw [runs, fetchAndRun_of_no_instr hc hi, runNoInstr, complete_eq]
    rfl
  case reserved => rw [runs, fetchAndRun_of_no_instr hc hr, runNoInstr]

/-! ## The interrupt -/

theorem takeable_eq {s : State} {i : BitVec 5} (mie : s.mstatus.getLsbD 3 = true) (request : s.irq = some i)
    (held : (s.heldIrq && Config.freeHolds s.draws) = false) : s.takeable = some i := by
  rw [State.takeable, State.mie, mie, held]
  exact request

theorem interruptCause_toNat (i : BitVec 5) : (0x80000000 ||| i.setWidth 32 : Word).toNat = 2 ^ 31 + i.toNat := by
  revert i; decide

theorem interruptOffset_toNat (i : BitVec 5) : (i.setWidth 8 <<< 2 : BitVec 8).toNat = 4 * i.toNat := by
  revert i; decide

/-- Settles O52: it holds. The step takes the interrupt, which is a trap entry with the cause and vector of the request. -/
theorem interruptIsTaken : Obligations.InterruptIsTaken := by
  intro s i noInput running mie request held
  have awake : (s.sleeping && s.irq.isNone) = false := by rw [request]; simp
  refine ⟨_, step_of_interrupt noInput running awake (takeable_eq mie request held), ?_⟩
  obtain ⟨cleared, saved, others⟩ := withMie_of_entry s
  rw [complete_eq]
  exact ⟨rfl, interruptCause_toNat i, cleared, saved.trans mie, others,
    (vector_toNat s _).trans (by rw [interruptOffset_toNat]), rfl, rfl, rfl, rfl, rfl, rfl, rfl, rfl, rfl, rfl⟩

end Sys2Proof.Proofs
end

