-- ==== Sys2Proof/Proofs/DebugHost.lean ====
section
/-! The debug host (60_exceptions.md section 6, 10_state.md R46): the address map, the reads and writes, the halt and resume
requests, the single step. -/

namespace Sys2Proof.Proofs

open Sys2Proof.Machine

/-! ## The address map -/

theorem ofAddr_gpr (r : Reg) : DebugReg.ofAddr (BitVec.ofNat 15 (0x400 + 4 * r.toNat)) = some (.gpr r) := by
  revert r; decide

theorem ofAddr_csr (n : CsrNum) : DebugReg.ofAddr (BitVec.ofNat 15 (0x4000 + 4 * n.toNat)) = some (.csr n) := by
  revert n; decide +kernel

theorem ofAddr_bpCtrl : ∀ k < 8, DebugReg.ofAddr (BitVec.ofNat 15 (0x40 + 8 * k)) = some (.bpCtrl (BitVec.ofNat 3 k)) := by
  decide

theorem ofAddr_bpData : ∀ k < 8, DebugReg.ofAddr (BitVec.ofNat 15 (0x44 + 8 * k)) = some (.bpData (BitVec.ofNat 3 k)) := by
  decide

section
variable {s : State} {a : BitVec 15} {r : DebugReg} (hr : DebugReg.ofAddr a = some r)
include hr

theorem debugReg_of_always (always : r.haltedOnly = false) : s.debugReg a = .ok r := by
  simp [State.debugReg, hr, always]

theorem debugReg_of_halted (halted : s.halted = true) : s.debugReg a = .ok r := by
  simp [State.debugReg, hr, halted]

theorem debugReg_of_running (only : r.haltedOnly = true) (running : s.halted = false) :
    s.debugReg a = .error (.debugAccess a) := by
  simp [State.debugReg, hr, only, running]

end

/-! ## Accesses of the debug host -/

section
variable {s : State} {a : BitVec 15} {rest : List Input}

theorem step_debugRead {r : DebugReg} {w : Word} (hi : s.inputs = .debugRead a :: rest) (hr : s.debugReg a = .ok r)
    (hw : s.readDebug r = .ok w) :
    step s = .next { s with inputs := rest, draws := s.draws + 1, dbgRdata := w } := by
  have access : State.debugReg { s with inputs := rest } a = .ok r := hr
  have value : State.readDebug { s with inputs := rest } r = .ok w := hw
  rw [step_of_input hi (by simp), environment]
  simp only [access, value]
  rfl

theorem step_debugRead_refused {r : DebugReg} {e : Refusal} (hi : s.inputs = .debugRead a :: rest)
    (hr : s.debugReg a = .ok r) (hw : s.readDebug r = .error e) : step s = .refused e := by
  have access : State.debugReg { s with inputs := rest } a = .ok r := hr
  have value : State.readDebug { s with inputs := rest } r = .error e := hw
  rw [step_of_input hi (by simp), environment]
  simp only [access, value]
  rfl

theorem step_debugRead_stopped {e : Refusal} (hi : s.inputs = .debugRead a :: rest) (hr : s.debugReg a = .error e) :
    step s = .refused e := by
  have access : State.debugReg { s with inputs := rest } a = .error e := hr
  rw [step_of_input hi (by simp), environment]
  simp only [access]
  rfl

theorem step_debugWrite {r : DebugReg} {v : Word} (hi : s.inputs = .debugWrite a v :: rest)
    (hr : s.debugReg a = .ok r) :
    step s = mapNext (fun t => { t with draws := t.draws + 1 }) (writeDebug a r v { s with inputs := rest }) := by
  have access : State.debugReg { s with inputs := rest } a = .ok r := hr
  rw [step_of_input hi (by simp), environment]
  simp only [access]

theorem step_debugWrite_stopped {e : Refusal} {v : Word} (hi : s.inputs = .debugWrite a v :: rest)
    (hr : s.debugReg a = .error e) : step s = .refused e := by
  have access : State.debugReg { s with inputs := rest } a = .error e := hr
  rw [step_of_input hi (by simp), environment]
  simp only [access]
  rfl

end

/-! ## What the writes change -/

/-- Writing a register and using up a free value commute. -/
theorem writeX_draws_comm (s : State) (r : Reg) (v : Word) :
    { s.writeX r v with draws := (s.writeX r v).draws + 1 } = State.writeX { s with draws := s.draws + 1 } r v := by
  unfold State.writeX
  split <;> rfl

theorem writeCsr_draws_comm (s : State) (c : Csr) (v : Word) :
    { s.writeCsr c v with draws := (s.writeCsr c v).draws + 1 } =
      State.writeCsr { s with draws := s.draws + 1 } c v := by
  cases c with
  | lpstart l => unfold State.writeCsr State.setLoopRegs; dsimp only; split <;> rfl
  | lpend l => unfold State.writeCsr State.setLoopRegs; dsimp only; split <;> rfl
  | lpcount l => unfold State.writeCsr State.setLoopRegs; dsimp only; split <;> rfl
  | pccr k =>
    unfold State.writeCsr State.writePccr
    dsimp only
    split
    · rfl
    · split <;> rfl
  | fflags | frm | fcsr | fprec | uhartid | mstatus | mtvec | mepc | mcause | pcer | pcmr | privlv | mhartid => rfl

theorem evenTarget_of_even {v : Word} (h : v.getLsbD 0 = false) : evenTarget v = v := by
  rw [getLsbD_zero_eq, decide_eq_false_iff_not] at h
  rw [evenTarget_eq_ofNat, Nat.div_mul_cancel (by omega), BitVec.ofNat_toNat, BitVec.setWidth_eq]

theorem bits16And0_eq (b c : Bool) :
    bits16And0 b c = BitVec.ofNat 32 ((if b then 65536 else 0) + if c then 1 else 0) := by
  cases b <;> cases c <;> rfl

theorem getLsbD_dbgIe_write (v : Word) (k : Nat) :
    (v &&& dbgIeMask).getLsbD k = (decide (k = 11 ∨ k < 8) && v.getLsbD k) :=
  getLsbD_mask dbgIeMask (fun k => decide (k = 11 ∨ k < 8)) (by decide) v k

/-- Leaving debug mode; a running core is left as it is. -/
theorem resume_eq (s : State) : s.resume = { s with
    halted := false
    heldIrq := if s.halted then s.irq.isSome else s.heldIrq
    prevWrites := if s.halted then none else s.prevWrites } := by
  unfold State.resume
  cases h : s.halted with
  | true => rfl
  | false =>
    obtain ⟨⟩ := s
    subst h
    rfl

/-! ## Halt requests -/

section
variable {s : State}

theorem haltRequest_of_halted (h : s.halted = true) : haltRequest s = .next s := if_pos h

theorem haltRequest_of_pending (running : s.halted = false)
    (pending : ((s.mstatus.getLsbD 3 && s.irq.isSome) || s.trapPending) = true) :
    haltRequest s = .refused .haltRace := by
  rw [haltRequest, running, State.interruptPending, State.mie, pending]
  rfl

theorem haltRequest_of_not_pending (running : s.halted = false)
    (pending : ((s.mstatus.getLsbD 3 && s.irq.isSome) || s.trapPending) = false) :
    haltRequest s = .next { s.halt (Config.freeCause s.draws) with
      sleeping := s.sleeping && Config.freeStaysAsleep s.draws } := by
  rw [haltRequest, running, State.interruptPending, State.mie, pending]
  rfl

/-- What is pending depends on neither the inputs nor DBG_CTRL.SSTE. -/
theorem trapPending_inputs_sste (s : State) (rest : List Input) (b : Bool) :
    State.trapPending { s with inputs := rest, sste := b } = s.trapPending := rfl

end

/-! ## The hart in debug mode and in a single step -/

/-- In debug mode a step changes the counters, the sleep bit, the acknowledge output and the free values at most. -/
theorem step_of_halted {s : State} (noInput : s.inputs = []) (halted : s.halted = true) :
    ∃ t, step s = .next t ∧ t.halted = true ∧ t.x = s.x ∧ t.f = s.f ∧ t.pc = s.pc ∧ t.mem = s.mem ∧ t.mepc = s.mepc ∧
      t.mcause = s.mcause ∧ t.mstatus = s.mstatus := by
  rw [step_of_no_input noInput]
  cases asleep : (s.sleeping && s.irq.isNone) with
  | true =>
    have sleeps : hartStep s = .next s := by rw [hartStep, asleep]; rfl
    exact ⟨s, sleeps, halted, rfl, rfl, rfl, rfl, rfl, rfl, rfl⟩
  | false =>
    rw [hartStep_awake asleep, if_pos halted, haltedStep]
    exact ⟨_, rfl, (countEvents_halted _ _ _).trans halted, countEvents_x _ _ _, countEvents_f _ _ _,
      countEvents_pc _ _ _, countEvents_mem _ _ _, countEvents_mepc _ _ _, countEvents_mcause _ _ _,
      countEvents_mstatus _ _ _⟩

theorem writeCsr_sste (s : State) (c : Csr) (v : Word) : (s.writeCsr c v).sste = s.sste := by
  cases c <;> simp [State.writeCsr]

/-- No instruction changes DBG_CTRL.SSTE. -/
theorem Effect.sste_eq {s t : State} {i : Instr} (he : Effect s i t) : t.sste = s.sste := by
  cases he with
  | ecall => exact takeException_sste s 11 0x88
  | illegal => exact takeException_sste s 2 0x84
  | mret | breaks | jumps => rfl
  | csrWrites => rw [stepLoops_sste, writeX_sste, writeCsr_sste]
  | writes | ends | fenceI | wfi | links | loads | postLoads | loadsF | stores | postStores | fpWrites | fpToX
  | loopSetup | csrReads => simp

section
variable {s : State} (noInput : s.inputs = []) (running : s.halted = false) (awake : s.sleeping = false)
  (single : s.sste = true)
include noInput running awake single

/-- With SSTE set, the interrupt that is taken is followed by debug mode. -/
theorem singleStep_of_interrupt {i : BitVec 5} (taken : s.takeable = some i) :
    ∃ t, step s = .next t ∧ t.halted = true ∧ t.ssth = true := by
  refine ⟨_, step_of_interrupt noInput running (by rw [awake, Bool.false_and]) taken, ?_⟩
  have kept : (s.begin.takeInterrupt i).sste = true := single
  rw [complete_eq]
  dsimp only
  rw [kept, Bool.or_true, Bool.or_true]
  exact ⟨rfl, rfl⟩

/-- With SSTE set, the instruction that is executed is followed by debug mode. -/
theorem singleStep_of_instr {c : Code} {i : Instr} {t : State} (none : s.takeable = none)
    (hc : s.begin.fetch = .ok c) (hi : decodeCode c = .ok i) (ht : exec i s.begin = .next t) :
    ∃ u, step s = .next u ∧ u.halted = true ∧ u.ssth = true ∧ u.ppc = s.pc ∧ u.pc = t.pc ∧ u.x = t.x ∧
      u.mem = t.mem := by
  have kept : t.sste = true := (exec_effect ht).sste_eq.trans single
  refine ⟨_, (step_of_running noInput running (by rw [awake, Bool.false_and]) none).trans
    ((fetchAndRun_of_instr hc hi).trans (runInstr_of_next ht)), ?_⟩
  rw [complete_eq]
  dsimp only
  rw [kept, Bool.or_true, Bool.or_true]
  exact ⟨rfl, rfl, rfl, rfl, rfl, rfl⟩

end

/-! ## The halt request of a running hart -/

section
variable {s : State} (running : s.halted = false) {rest : List Input} {b : Bool}
  (request : step s = mapNext (fun t => { t with draws := t.draws + 1 }) (haltRequest { s with inputs := rest, sste := b }))
include running request

/-- The halt request of a step that also takes its input and may write SSTE, when nothing is pending. -/
theorem halts_of_not_pending (pending : ((s.mstatus.getLsbD 3 && s.irq.isSome) || s.trapPending) = false) :
    ∃ t, step s = .next t ∧ t.halted = true ∧ t.pc = s.pc ∧ t.x = s.x ∧ t.ppc = s.ppc ∧ t.mem = s.mem ∧
      t.inputs = rest := by
  rw [haltRequest_of_not_pending (s := { s with inputs := rest, sste := b }) running pending] at request
  exact ⟨_, request, rfl, rfl, rfl, rfl, rfl, rfl⟩

theorem haltRace_of_pending (pending : ((s.mstatus.getLsbD 3 && s.irq.isSome) || s.trapPending) = true) :
    step s = .refused .haltRace := by
  rw [haltRequest_of_pending (s := { s with inputs := rest, sste := b }) running pending] at request
  exact request

end

/-- Settles O53: it holds. Each clause is the access at its address, or the halt or resume request. -/
theorem debugHostAccess : Obligations.DebugHostAccess := by
  intro s r n v rest gpr csr used resumed pending halts
  have resumes (b : Bool) :
      mapNext (fun t => { t with draws := t.draws + 1 }) (.next (State.resume { s with inputs := rest, sste := b })) =
        .next { resumed with sste := b } := by
    rw [resume_eq]
    rfl
  have asked (hi : s.inputs = .debugWrite 0x0000 v :: rest) (set : v.getLsbD 16 = true) :
      step s = mapNext (fun t => { t with draws := t.draws + 1 })
        (haltRequest { s with inputs := rest, sste := v.getLsbD 0 }) := by
    have request := step_debugWrite hi (debugReg_of_always (r := .ctrl) rfl rfl)
    rw [writeDebug, set] at request
    exact request
  refine ⟨step_of_halted, fun noInput running awake single => ⟨fun i taken => ?interrupt,
    fun c i t none hc hi ht => ?instr⟩, fun halted => ?halted, fun running a mem => ?running, fun hi => ?readCtrl,
    fun hi => ?readHit, fun hi => ?writeHit, fun hi => ?readIe, fun hi => ?writeIe, fun hi => ?readCause,
    fun hi => ?writeCause, fun k hk => ?breakpoints, fun hi clear => ?leave, fun hi => ?resumePulse,
    fun running => ⟨fun hi set => ⟨fun idle => ?halt, fun busy => ?race⟩,
      fun hi => ⟨fun idle => ?haltPulse, fun busy => ?racePulse⟩⟩⟩
  case interrupt => exact singleStep_of_interrupt noInput running awake single taken
  case instr => exact singleStep_of_instr noInput running awake single none hc hi ht
  case readCtrl =>
    exact step_debugRead hi (debugReg_of_always (r := .ctrl) rfl rfl) (congrArg _ (bits16And0_eq s.halted s.sste))
  case readHit =>
    exact step_debugRead hi (debugReg_of_always (r := .hit) rfl rfl) (congrArg _ (bits16And0_eq s.sleeping s.ssth))
  case writeHit => exact step_debugWrite hi (debugReg_of_always (r := .hit) rfl rfl)
  case readIe => exact step_debugRead hi (debugReg_of_always (r := .ie) rfl rfl) rfl
  case writeIe =>
    exact ⟨v &&& dbgIeMask, step_debugWrite hi (debugReg_of_always (r := .ie) rfl rfl), getLsbD_dbgIe_write v⟩
  case readCause =>
    refine ⟨_, step_debugRead hi (debugReg_of_always (r := .cause) rfl rfl) rfl, ?_⟩
    exact BitVec.toNat_setWidth_of_le (by omega)
  case writeCause => exact step_debugWrite hi (debugReg_of_always (r := .cause) rfl rfl)
  case breakpoints =>
    have ctrl := debugReg_of_always (s := s) (ofAddr_bpCtrl k hk) rfl
    have data := debugReg_of_always (s := s) (ofAddr_bpData k hk) rfl
    refine ⟨fun hi => step_debugRead hi ctrl rfl, fun hi => step_debugRead hi data rfl, ?_⟩
    rintro (hi | hi)
    · exact step_debugWrite hi ctrl
    · exact step_debugWrite hi data
  case leave =>
    rw [step_debugWrite hi (debugReg_of_always (r := .ctrl) rfl rfl), writeDebug, clear]
    exact resumes (v.getLsbD 0)
  case resumePulse => exact (step_of_input hi (by simp)).trans (resumes s.sste)
  case halt => exact halts_of_not_pending running (asked hi set) idle
  case race => exact haltRace_of_pending running (asked hi set) busy
  case haltPulse => exact halts_of_not_pending (b := s.sste) running (step_of_input hi (by simp)) idle
  case racePulse => exact haltRace_of_pending (b := s.sste) running (step_of_input hi (by simp)) busy
  case running =>
    have refused {b : BitVec 15} {q : DebugReg} (hq : DebugReg.ofAddr b = some q) (only : q.haltedOnly = true) :
        (s.inputs = .debugRead b :: rest → step s = .refused (.debugAccess b)) ∧
          (s.inputs = .debugWrite b v :: rest → step s = .refused (.debugAccess b)) :=
      ⟨fun hi => step_debugRead_stopped hi (debugReg_of_running hq only running),
        fun hi => step_debugWrite_stopped hi (debugReg_of_running hq only running)⟩
    simp only [List.mem_cons, List.not_mem_nil, or_false] at mem
    obtain rfl | rfl | rfl | rfl := mem
    · exact refused (ofAddr_gpr r) rfl
    · exact refused (q := .npc) rfl rfl
    · exact refused (q := .ppc) rfl rfl
    · exact refused (ofAddr_csr n) rfl
  case halted =>
    have gprAccess := debugReg_of_halted (ofAddr_gpr r) halted
    have csrAccess := debugReg_of_halted (ofAddr_csr n) halted
    have npcAccess : s.debugReg 0x2000 = .ok .npc := debugReg_of_halted rfl halted
    have ppcAccess : s.debugReg 0x2004 = .ok .ppc := debugReg_of_halted rfl halted
    refine ⟨fun hi => ?writeX, fun hi => step_debugRead hi gprAccess rfl, fun hi => ⟨fun even => ?writeNpc,
      fun odd => ?oddNpc⟩, fun hi => step_debugRead hi npcAccess rfl, fun hi => step_debugWrite hi ppcAccess,
      fun hi => step_debugRead hi ppcAccess rfl, fun c hc hi => ?readCsr, fun c hc hi => ?writeCsr, fun hc hi => ?noCsr,
      fun hi set => ?haltHalted, fun hi => ?pulseHalted⟩
    case writeX =>
      refine (step_debugWrite hi gprAccess).trans ?_
      exact congrArg Host.Outcome.next (writeX_draws_comm { s with inputs := rest } r v)
    case writeNpc =>
      rw [step_debugWrite hi npcAccess, writeDebug, even, evenTarget_of_even even]
      rfl
    case oddNpc =>
      rw [step_debugWrite hi npcAccess, writeDebug, odd]
      rfl
    case readCsr =>
      exact step_debugRead hi csrAccess (by rw [State.readDebug, csrLookup_of_some hc])
    case writeCsr =>
      rw [step_debugWrite hi csrAccess, writeDebug, csrLookup_of_some (s := { s with inputs := rest }) hc]
      dsimp only
      split
      · rfl
      · exact congrArg Host.Outcome.next (writeCsr_draws_comm { s with inputs := rest } c v)
    case noCsr =>
      obtain hi | hi := hi
      · exact step_debugRead_refused hi csrAccess (by rw [State.readDebug, csrLookup_of_none hc])
      · rw [step_debugWrite hi csrAccess, writeDebug, csrLookup_of_none (s := { s with inputs := rest }) hc]
        rfl
    case haltHalted =>
      refine (asked hi set).trans ?_
      exact congrArg (mapNext _) (haltRequest_of_halted (s := { s with inputs := rest, sste := v.getLsbD 0 }) halted)
    case pulseHalted =>
      rw [step_of_input hi (by simp)]
      exact congrArg (mapNext _) (haltRequest_of_halted (s := { s with inputs := rest }) halted)

end Sys2Proof.Proofs
end

