-- ==== Sys2Proof/Proofs/Counters.lean ====
section
/-! The performance counters (60_exceptions.md section 5): what the events of an instruction advance, and what writes leave. -/

namespace Sys2Proof.Proofs

open Sys2Proof.Machine

/-! ## Reading the counters -/

theorem counter_eq (s : State) {k : Nat} (hk : k < 31) : s.counter k = s.pccr[k] := by
  simp [State.counter, Vector.getD, hk]

theorem counter_of_ge (s : State) {k : Nat} (hk : 31 ≤ k) : s.counter k = 0 := by
  simp [State.counter, Vector.getD, Nat.not_lt.mpr hk]

theorem counter_setCounter (s : State) {n : Nat} (v : Word) (hn : n < 31) (k : Nat) :
    (s.setCounter n v).counter k = if k = n then v else s.counter k := by
  by_cases hk : k < 31
  · rw [counter_eq _ hk, counter_eq _ hk, State.setCounter, Vector.getElem_setIfInBounds]
    simp only [eq_comm]
  · rw [counter_of_ge _ (by omega), counter_of_ge _ (by omega), if_neg (by omega)]

/-! ## Advancing a counter -/

theorem advance_eq (saturate : Bool) (v : Word) (c : Nat) : advance saturate v c =
    if saturate then BitVec.ofNat 32 (min (v.toNat + c) (2 ^ 32 - 1)) else BitVec.ofNat 32 (v.toNat + c) := by
  rw [advance, add_eq_ofNat]

theorem advance_zero (saturate : Bool) (v : Word) : advance saturate v 0 = v := by
  have small := v.isLt
  rw [advance_eq, Nat.add_zero, Nat.min_eq_left (by omega), ite_self, BitVec.ofNat_toNat, BitVec.setWidth_eq]

section
variable {ev : Events} {s t : State}

theorem counter_countEvents (individual : t.params.perfCounters = .individual) {k : Nat} (hk : k < 31) :
    (countEvents ev s t).counter k = advance t.countersSaturate (t.counter k) (increment ev s t k) := by
  rw [counter_eq _ hk, counter_eq _ hk]
  simp only [countEvents, individual]
  exact Vector.getElem_mapIdx hk

theorem countEvents_single (single : t.params.perfCounters = .single) : countEvents ev s t =
    t.setCounter 0 (advance t.countersSaturate (t.counter 0) (incrementShared ev s t)) := by
  simp only [countEvents, single]

/-- A known event advances its counter by its number, when the counter is live. -/
theorem increment_of_known {k c : Nat} (live : t.live k = true) (known : ev k = some c) : increment ev s t k = c := by
  rw [increment, known]
  exact if_pos live

theorem increment_of_idle {k : Nat} (before : s.live k = false) (after : t.live k = false) : increment ev s t k = 0 := by
  cases known : ev k <;> simp [increment, known, before, after]

theorem live_lt {k : Nat} (live : t.live k = true) : k < 21 := by
  simp only [State.live, Bool.and_eq_true, decide_eq_true_eq] at live
  exact live.1.2

/-- A live counter of a known event, after the step has counted. -/
theorem counter_of_known (individual : t.params.perfCounters = .individual) {k c : Nat} (known : ev k = some c)
    (live : t.live k = true) : (countEvents ev s t).counter k =
      if t.pcmr.getLsbD 0 then BitVec.ofNat 32 (min ((t.counter k).toNat + c) (2 ^ 32 - 1))
      else BitVec.ofNat 32 ((t.counter k).toNat + c) := by
  have small := live_lt live
  rw [counter_countEvents individual (by omega), increment_of_known live known, advance_eq]
  rfl

end

/-! ## The events of an instruction -/

theorem eventsOf_eq {s : State} {i : Instr} (h : raisesException s i = false) (n : Word) :
    eventsOf s i n = instrEvents s i n := by
  rw [eventsOf, h]
  rfl

/-- The accesses of a kind, two for a split one. -/
theorem accesses_eq (s : State) (i : Instr) (kind : Access) : accesses s i kind =
    match dataAccess s i with
    | some d => if d.kind = kind then (if 4 < d.addr.toNat % 4 + d.size then 2 else 1) else 0
    | none => 0 := by
  unfold accesses
  cases dataAccess s i with
  | none => rfl
  | some d => simp [DataAccess.count, DataAccess.splits, splits]

theorem jumpHazards_of_none {s : State} {i : Instr} (h : jumpBase i = none) : jumpHazards s i = some 0 := by
  rw [jumpHazards, h]

theorem jumpHazards_of_known {s : State} {i : Instr} {w : List Reg} (h : s.prevWrites = some w) : jumpHazards s i =
    some (match jumpBase i with | some r => if r ≠ 0 ∧ r ∈ w then 1 else 0 | none => 0) := by
  unfold jumpHazards
  cases base : jumpBase i with
  | none => rfl
  | some r =>
    by_cases zero : r = 0
    · exact (if_pos zero).trans (by simp [zero])
    · refine (if_neg zero).trans ?_
      rw [h]
      simp only [ne_eq, zero, not_false_eq_true, true_and, Option.map_some]

/-! ## The shared counter -/

/-- The total of enabled events that are all known is their sum. -/
theorem foldl_enabled (ev : Events) (pcer : Word) (c : Nat → Nat) (l : List Nat)
    (known : ∀ n ∈ l, pcer.getLsbD n = true → ev n = some (c n)) : ∀ a : Nat,
    l.foldl (fun t n => if pcer.getLsbD n then t.bind fun k => (ev n).map fun m => k + m else t) (some a) =
      some (a + (l.map fun n => if pcer.getLsbD n then c n else 0).sum) := by
  induction l with
  | nil => intro a; simp
  | cons n l ih =>
    intro a
    have rest : ∀ m ∈ l, pcer.getLsbD m = true → ev m = some (c m) := fun m hm => known m (List.mem_cons_of_mem n hm)
    cases bit : pcer.getLsbD n with
    | false => simp [bit, ih rest]
    | true => simp [bit, known n List.mem_cons_self bit, ih rest, Nat.add_assoc]

/-- A sum over the 21 events of which only seven are enabled is the sum of these. -/
theorem sum_range_of_known {f : Nat → Nat} (zero : ∀ k < 21, k ∉ [1, 5, 6, 7, 8, 9, 10] → f k = 0) :
    ((List.range 21).map f).sum = ([1, 5, 6, 7, 8, 9, 10].map f).sum := by
  have whole : ((List.range 21).map f).sum = ∑ k ∈ Finset.range 21, f k := by
    rw [← List.toFinset_range, List.sum_toFinset f List.nodup_range]
  have part : ([1, 5, 6, 7, 8, 9, 10].map f).sum = ∑ k ∈ [1, 5, 6, 7, 8, 9, 10].toFinset, f k :=
    (List.sum_toFinset f (by decide)).symm
  rw [whole, part]
  refine (Finset.sum_subset (by decide) fun k hk out => zero k (Finset.mem_range.mp hk) ?_).symm
  exact fun inside => out (List.mem_toFinset.mpr inside)

theorem enabledTotal_eq {ev : Events} {pcer : Word} {c : Nat → Nat}
    (known : ∀ k ∈ [1, 5, 6, 7, 8, 9, 10], ev k = some (c k))
    (only : ∀ k < 21, pcer.getLsbD k = true → k ∈ [1, 5, 6, 7, 8, 9, 10]) :
    enabledTotal ev pcer =
      some ([1, 5, 6, 7, 8, 9, 10].map fun k => if pcer.getLsbD k then c k else 0).sum := by
  have all : ∀ n ∈ List.range 21, pcer.getLsbD n = true → ev n = some (c n) := fun n hn bit =>
    known n (only n (List.mem_range.mp hn) bit)
  rw [enabledTotal, foldl_enabled ev pcer c _ all, Nat.zero_add]
  exact congrArg some (sum_range_of_known fun k hk out => if_neg fun bit => out (only k hk bit))

section
variable {ev : Events} {s t : State} (pcer : t.pcer = s.pcer) (pcmr : t.pcmr = s.pcmr)
include pcer pcmr

theorem freeBeforeWrite_of_same : freeBeforeWrite ev s t = false := by
  have live : t.liveShared = s.liveShared := by simp [State.liveShared, State.countersOn, pcer, pcmr]
  rw [freeBeforeWrite, live, pcer]
  cases s.liveShared <;> simp

theorem incrementShared_of_not_live (off : t.liveShared = false) : incrementShared ev s t = 0 := by
  rw [incrementShared, freeBeforeWrite_of_same pcer pcmr, off]
  rfl

/-- With all enabled events known, the shared counter advances by one at least and by their number at most, and not at all
where none of them happens. -/
theorem incrementShared_of_known (on : t.liveShared = true) {total : Nat} (known : enabledTotal ev t.pcer = some total) :
    incrementShared ev s t = if total = 0 then 0 else 1 + t.freeUpTo (total - 1) 0 := by
  rw [incrementShared, freeBeforeWrite_of_same pcer pcmr, on, known]
  cases total <;> rfl

end

theorem freeUpTo_le (s : State) (k n : Nat) : s.freeUpTo k n ≤ k := Nat.min_le_left _ _

/-! ## Writes -/

theorem toNat_lt_of_ne {n : BitVec 5} (h : n ≠ 31) : n.toNat < 31 := by
  revert n; decide

theorem writeCsr_pccr_individual {s : State} (individual : s.params.perfCounters = .individual) (n : BitVec 5) (v : Word) :
    s.writeCsr (.pccr n) v = if n = 31 then { s with pccr := Vector.replicate 31 v } else s.setCounter n.toNat v := by
  simp only [State.writeCsr, State.writePccr, individual]

theorem writeCsr_pccr_single {s : State} (single : s.params.perfCounters = .single) (n : BitVec 5) (v : Word) :
    s.writeCsr (.pccr n) v = s.setCounter 0 v := by
  simp only [State.writeCsr, State.writePccr, single]

theorem readCsr_pccr_individual {s : State} (individual : s.params.perfCounters = .individual) {n : BitVec 5}
    (hn : n ≠ 31) (idle : s.live n.toNat = false) : s.readCsr (.pccr n) = s.counter n.toNat := by
  simp only [State.readCsr, State.readPccr, individual, hn, idle, decide_false, Bool.or_false, Bool.false_eq_true, if_false]

theorem readCsr_pccr_single {s : State} (single : s.params.perfCounters = .single) (idle : s.liveShared = false)
    (n : BitVec 5) : s.readCsr (.pccr n) = s.counter 0 := by
  simp [State.readCsr, State.readPccr, single, idle]

/-- Settles O59: it holds. Each counter is advanced by the increment of its event; the shared one by the total of the
enabled events; the writes are the rules of `writeCsr`. -/
theorem countersCountAndAreWritten : Obligations.CountersCountAndAreWritten := by
  refine ⟨fun i n s t perf quiet params => ?individual, fun i n s t perf quiet params pcer pcmr => ?shared,
    fun s v n => ⟨fun perf => ⟨fun k hk => ?writeAll, fun hn => ⟨fun k hk => ?writeOne, fun idle => ?readBack⟩⟩,
      fun perf => ⟨fun k hk => ?writeShared, fun idle m => ?readShared⟩⟩⟩
  case individual =>
    intro u limit advanced counts accesses'
    have perf' : t.params.perfCounters = .individual := params ▸ perf
    have counted {k c : Nat} (known : instrEvents s i n k = some c) : counts k c :=
      counter_of_known perf' (eventsOf_eq quiet n ▸ known)
    have loads : accesses s i .load = accesses' .load := accesses_eq s i .load
    have stores : accesses s i .store = accesses' .store := accesses_eq s i .store
    refine ⟨counted rfl, fun w hw => counted (jumpHazards_of_known hw), fun hb => counted (jumpHazards_of_none hb),
      counted (congrArg some loads), counted (congrArg some stores), counted rfl, counted ?branch, counted rfl, counted rfl,
      ⟨_, loads ▸ freeUpTo_le s _ 11, counted rfl⟩, ⟨_, stores ▸ freeUpTo_le s _ 12, counted rfl⟩,
      fun k hk before after => ?holds⟩
    case branch => cases h : branchTaken s i <;> simp [instrEvents, h]
    case holds =>
      exact (counter_countEvents perf' hk).trans (by rw [increment_of_idle before after, advance_zero])
  case shared =>
    intro u advancedBy accesses' known total
    have perf' : t.params.perfCounters = .single := params ▸ perf
    have counted : u = t.setCounter 0 (advance t.countersSaturate (t.counter 0) (incrementShared (eventsOf s i n) s t)) :=
      countEvents_single perf'
    have value : u.counter 0 =
        advance t.countersSaturate (t.counter 0) (incrementShared (eventsOf s i n) s t) := by
      rw [counted, counter_setCounter _ _ (by omega), if_pos rfl]
    refine ⟨fun k hk => ?others, fun off => ?off, fun on only => ?on⟩
    case others => rw [counted, counter_setCounter _ _ (by omega), if_neg hk]
    case off => rw [value, incrementShared_of_not_live pcer pcmr off, advance_zero]
    case on =>
      have events : ∀ k ∈ [1, 5, 6, 7, 8, 9, 10],
          eventsOf s i n k = some ((instrEvents s i n k).getD 0) := by
        rw [eventsOf_eq quiet n]
        simp [instrEvents]
      have sum : ([1, 5, 6, 7, 8, 9, 10].map fun k => if t.pcer.getLsbD k then (instrEvents s i n k).getD 0 else 0).sum
          = total := by
        have branch : (if (branchTaken s i).isSome then 1 else 0) = if branchTaken s i = none then 0 else 1 := by
          cases branchTaken s i <;> rfl
        simp only [List.map_cons, List.map_nil, instrEvents, Option.getD_some, branch, accesses_eq]
        rfl
      have step := incrementShared_of_known (s := s) pcer pcmr on (enabledTotal_eq events only)
      rw [sum] at step
      rw [step] at value
      clear_value total
      refine ⟨fun zeroTotal => ?zeroTotal, fun one => ?one, fun several => ⟨1 + t.freeUpTo (total - 1) 0, Nat.le_add_right 1 _,
        ?bound, ?advanced⟩⟩
      case zeroTotal => rw [value, if_pos zeroTotal, advance_zero]
      case one =>
        have idle : t.freeUpTo (total - 1) 0 = 0 := by
          rw [one]
          exact Nat.le_zero.mp (freeUpTo_le t 0 0)
        rw [if_neg (one ▸ Nat.one_ne_zero), idle, advance_eq] at value
        exact value
      case bound =>
        have := freeUpTo_le t (total - 1) 0
        omega
      case advanced =>
        rw [if_neg (Nat.ne_zero_of_lt several), advance_eq] at value
        exact value
  case writeAll =>
    rw [writeCsr_pccr_individual perf, if_pos rfl, counter_eq _ hk]
    exact Vector.getElem_replicate hk
  case writeOne =>
    rw [writeCsr_pccr_individual perf, if_neg hn, counter_setCounter _ _ (toNat_lt_of_ne hn)]
  case readBack =>
    rw [writeCsr_pccr_individual perf, if_neg hn, readCsr_pccr_individual (s := s.setCounter n.toNat v) perf hn idle,
      counter_setCounter _ _ (toNat_lt_of_ne hn), if_pos rfl]
  case writeShared => rw [writeCsr_pccr_single perf, counter_setCounter _ _ (by omega)]
  case readShared =>
    rw [writeCsr_pccr_single perf, readCsr_pccr_single (s := s.setCounter 0 v) perf idle, counter_setCounter _ _ (by omega),
      if_pos rfl]

end Sys2Proof.Proofs
end

