-- ==== Sys2Proof/Proofs/FloatNumbers.lean ====
section
/-! The binary32 numbers, counted in units of 2^-149: which words are finite, infinite and NaNs, and what number a finite word
is (44_rv32f.md R351, R352). The magnitude of a word, its low 31 bits, grows strictly with the number. -/

namespace Sys2Proof.Proofs

open Sys2Proof.Machine

/-! ## The units of a magnitude -/

/-- The number of units 2^-149 that the low 31 bits of a finite word denote. -/
def units (t : Nat) : Nat := if t < 2 ^ 23 then t else (2 ^ 23 + t % 2 ^ 23) * 2 ^ (t / 2 ^ 23 - 1)

theorem units_zero : units 0 = 0 := rfl

/-- A significand `q` of 24 bits at the `k`-th step; below the first one the numbers are subnormal. A carry into the 25th bit
is absorbed by the exponent field. -/
theorem units_pack {k q : Nat} (normal : k = 0 ∨ 2 ^ 23 ≤ q) (hq : q ≤ 2 ^ 24) : units (k * 2 ^ 23 + q) = q * 2 ^ k := by
  unfold units
  by_cases small : k * 2 ^ 23 + q < 2 ^ 23
  · obtain rfl : k = 0 := by omega
    simp only [zero_mul, zero_add, pow_zero, mul_one, ite_eq_left_iff]
    omega
  rw [if_neg small]
  by_cases carry : q = 2 ^ 24
  · rw [show (k * 2 ^ 23 + q) % 2 ^ 23 = 0 by omega, show (k * 2 ^ 23 + q) / 2 ^ 23 - 1 = k + 1 by omega, carry]
    ring
  · rw [show (k * 2 ^ 23 + q) % 2 ^ 23 = q - 2 ^ 23 by omega, show (k * 2 ^ 23 + q) / 2 ^ 23 - 1 = k by omega,
      show 2 ^ 23 + (q - 2 ^ 23) = q by omega]

/-- Every magnitude is a significand at a step. -/
theorem exists_pack (t : Nat) : ∃ k q, t = k * 2 ^ 23 + q ∧ q < 2 ^ 24 ∧ (k = 0 ∨ 2 ^ 23 ≤ q) :=
  ⟨t / 2 ^ 23 - 1, t - (t / 2 ^ 23 - 1) * 2 ^ 23, by omega, by omega, by omega⟩

theorem units_strictMono : StrictMono units := by
  refine strictMono_nat_of_lt_succ fun t => ?_
  obtain ⟨k, q, rfl, small, normal⟩ := exists_pack t
  rw [units_pack normal (by omega), show k * 2 ^ 23 + q + 1 = k * 2 ^ 23 + (q + 1) by omega,
    units_pack (by omega) (by omega)]
  exact Nat.mul_lt_mul_of_pos_right (Nat.lt_succ_self q) (Nat.two_pow_pos k)

theorem units_eq_zero_iff (t : Nat) : units t = 0 ↔ t = 0 := units_strictMono.injective.eq_iff' units_zero

/-- No magnitude lies between two neighbours of a step. -/
theorem units_le_or_le {k q : Nat} (normal : k = 0 ∨ 2 ^ 23 ≤ q) (hq : q < 2 ^ 24) (t : Nat) :
    units t ≤ q * 2 ^ k ∨ (q + 1) * 2 ^ k ≤ units t := by
  rw [← units_pack normal hq.le, ← units_pack (show k = 0 ∨ 2 ^ 23 ≤ q + 1 by omega) hq]
  rcases Nat.lt_or_ge (k * 2 ^ 23 + q) t with above | below
  · exact .inr (units_strictMono.monotone above)
  · exact .inl (units_strictMono.monotone below)

/-! ## Finite words, infinities and NaNs -/

theorem expOf_eq_div (w : Word) : Ieee.expOf w = w.toNat % 2 ^ 31 / 2 ^ 23 := by
  rw [expOf_eq]
  omega

theorem fracOf_eq_mod (w : Word) : Ieee.fracOf w = w.toNat % 2 ^ 31 % 2 ^ 23 := by
  rw [fracOf_eq]
  omega

theorem key_eq (w : Word) : Ieee.key w = Ieee.signed (Ieee.signOf w) (w.toNat % 2 ^ 31) :=
  congrArg (Ieee.signed (Ieee.signOf w)) (low_bits_toNat w 31)

theorem signOf_iff (w : Word) : Ieee.signOf w = true ↔ 2 ^ 31 ≤ w.toNat := by
  have small := w.isLt
  rw [Ieee.signOf, getLsbD_iff]
  omega

/-- Two words with the same magnitude and sign are one. -/
theorem eq_of_magnitude {v w : Word} (magnitude : v.toNat % 2 ^ 31 = w.toNat % 2 ^ 31)
    (sign : Ieee.signOf v = Ieee.signOf w) : v = w := by
  have hv := v.isLt
  have hw := w.isLt
  have signs : 2 ^ 31 ≤ v.toNat ↔ 2 ^ 31 ≤ w.toNat := by rw [← signOf_iff, ← signOf_iff, sign]
  exact BitVec.eq_of_toNat_eq (by omega)

section
variable {w : Word}

/-- The number of a finite word. -/
theorem unpack_of_finite (finite : w.toNat % 2 ^ 31 < 0x7F800000) :
    ∃ m e, Ieee.unpack w = .fin (Ieee.signOf w) m e ∧ (m : ℚ) * 2 ^ e = units (w.toNat % 2 ^ 31) * 2 ^ (-149 : ℤ) ∧
      -149 ≤ e ∧ e < 105 ∧ m < 2 ^ 24 := by
  have fraction := fracOf_lt w
  have parts : w.toNat % 2 ^ 31 = Ieee.expOf w * 2 ^ 23 + Ieee.fracOf w := by
    rw [expOf_eq_div, fracOf_eq_mod]
    omega
  by_cases small : Ieee.expOf w = 0
  · refine ⟨_, _, unpack_subnormal small, ?_, le_rfl, by norm_num, by omega⟩
    rw [parts, small, units_pack (.inl rfl) (by omega), pow_zero, mul_one]
  · obtain ⟨k, exponent⟩ := Nat.exists_eq_succ_of_ne_zero small
    have magnitude : w.toNat % 2 ^ 31 = k * 2 ^ 23 + (2 ^ 23 + Ieee.fracOf w) := by
      rw [parts, exponent, Nat.succ_mul, Nat.add_assoc]
    refine ⟨_, _, unpack_normal (by omega) small, ?_, by omega, by omega, by omega⟩
    rw [magnitude, units_pack (.inr (Nat.le_add_right _ _)) (by omega), exponent,
      show ((k.succ : ℕ) : ℤ) - 150 = (k : ℤ) + -149 by omega, zpow_add₀ two_ne_zero, zpow_natCast]
    push_cast
    ring

theorem unpack_of_infinite (infinite : w.toNat % 2 ^ 31 = 0x7F800000) : Ieee.unpack w = .inf (Ieee.signOf w) :=
  unpack_inf (by rw [expOf_eq_div]; omega) (by rw [fracOf_eq_mod]; omega)

theorem unpack_of_nan (nan : 0x7F800000 < w.toNat % 2 ^ 31) : Ieee.unpack w = .nan (!w.getLsbD 22) :=
  unpack_nan (by rw [expOf_eq_div]; omega) (by rw [fracOf_eq_mod]; omega)

/-- A word is finite, an infinity or a NaN, by its magnitude. -/
theorem isFin_iff : (Ieee.unpack w).isFin = true ↔ w.toNat % 2 ^ 31 < 0x7F800000 := by
  rcases lt_trichotomy (w.toNat % 2 ^ 31) 0x7F800000 with finite | infinite | nan
  · obtain ⟨m, e, unpacked, -⟩ := unpack_of_finite finite
    exact iff_of_true (by rw [unpacked]; rfl) finite
  · exact iff_of_false (by simp [unpack_of_infinite infinite, Ieee.Val.isFin]) infinite.not_lt
  · exact iff_of_false (by simp [unpack_of_nan nan, Ieee.Val.isFin]) nan.not_gt

theorem isNaN_iff : Ieee.isNaN w = true ↔ 0x7F800000 < w.toNat % 2 ^ 31 := by
  rcases lt_trichotomy (w.toNat % 2 ^ 31) 0x7F800000 with finite | infinite | nan
  · obtain ⟨m, e, unpacked, -⟩ := unpack_of_finite finite
    exact iff_of_false (by simp [unpacked, Ieee.isNaN]) finite.not_gt
  · exact iff_of_false (by simp [unpack_of_infinite infinite, Ieee.isNaN]) infinite.not_gt
  · exact iff_of_true (by simp [unpack_of_nan nan, Ieee.isNaN]) nan

theorem isSignalling_iff : Ieee.isSignalling w = true ↔ 0x7F800000 < w.toNat % 2 ^ 31 ∧ w.getLsbD 22 = false := by
  rcases lt_trichotomy (w.toNat % 2 ^ 31) 0x7F800000 with finite | infinite | nan
  · obtain ⟨m, e, unpacked, -⟩ := unpack_of_finite finite
    exact iff_of_false (by simp [unpacked, Ieee.isSignalling]) fun h => finite.not_gt h.1
  · exact iff_of_false (by simp [unpack_of_infinite infinite, Ieee.isSignalling]) fun h => infinite.not_gt h.1
  · rw [Ieee.isSignalling, unpack_of_nan nan, and_iff_right nan]
    exact iff_of_eq (Bool.not_eq_true' (w.getLsbD 22))

theorem not_isNaN_iff : Ieee.isNaN w = false ↔ w.toNat % 2 ^ 31 ≤ 0x7F800000 := by
  rw [← Bool.not_eq_true, isNaN_iff, not_lt]

/-- What the NaN of a word is. -/
theorem unpack_of_isNaN (nan : Ieee.isNaN w = true) : Ieee.unpack w = .nan (Ieee.isSignalling w) := by
  have unpacked := unpack_of_nan (isNaN_iff.mp nan)
  rw [Ieee.isSignalling, unpacked]

/-! ## The number of a finite word -/

theorem toRat_of_isFin (finite : (Ieee.unpack w).isFin = true) : (Ieee.unpack w).toRat =
    (if Ieee.signOf w then -1 else 1) * units (w.toNat % 2 ^ 31) * 2 ^ (-149 : ℤ) := by
  obtain ⟨m, e, unpacked, value, -⟩ := unpack_of_finite (isFin_iff.mp finite)
  rw [unpacked, Ieee.Val.toRat, mul_assoc, value, mul_assoc]

theorem toRat_eq_zero_iff (finite : (Ieee.unpack w).isFin = true) :
    (Ieee.unpack w).toRat = 0 ↔ w.toNat % 2 ^ 31 = 0 := by
  rw [toRat_of_isFin finite, ← units_eq_zero_iff]
  cases Ieee.signOf w <;> simp

end

end Sys2Proof.Proofs
end

