-- ==== Sys2Proof/Proofs/FloatComparisons.lean ====
section
/-! The comparisons and extrema (44_rv32f.md R368, R369, R373 to R375): the model's integer keys are ordered as the extended
real numbers of the words are. -/

namespace Sys2Proof.Proofs

open Sys2Proof.Machine

/-! ## The number of a key -/

/-- The number of units 2^-149, signed, of a signed magnitude. -/
def signedUnits (k : ℤ) : ℤ := if k < 0 then -units k.natAbs else units k.natAbs

theorem signedUnits_strictMono : StrictMono signedUnits := by
  intro k l less
  have mono {s t : ℕ} (h : s < t) : (units s : ℤ) < units t := Int.ofNat_lt.mpr (units_strictMono h)
  have least {t : ℕ} (h : 0 < t) : 0 < (units t : ℤ) := mono h
  unfold signedUnits
  split <;> split
  · have := mono (show l.natAbs < k.natAbs by omega)
    omega
  · have := least (show 0 < k.natAbs by omega)
    omega
  · omega
  · exact mono (by omega)

theorem signedUnits_signed (sign : Bool) (t : ℕ) : signedUnits (Ieee.signed sign t) = Ieee.signed sign (units t) := by
  cases sign with
  | false => simp [signedUnits, Ieee.signed]
  | true =>
    by_cases zero : t = 0
    · simp [zero, signedUnits, Ieee.signed, units_zero]
    · simp [signedUnits, Ieee.signed, zero]

/-- The extended real number of a key: the keys of the two infinities are the outermost ones. -/
noncomputable def keyValue (k : ℤ) : EReal :=
  if k = 0x7F800000 then ⊤ else if k = -0x7F800000 then ⊥ else (((signedUnits k : ℝ) * 2 ^ (-149 : ℤ) : ℝ) : EReal)

theorem keyValue_strictMonoOn : StrictMonoOn keyValue (Set.Icc (-0x7F800000) 0x7F800000) := by
  rintro k ⟨above, -⟩ l ⟨-, below⟩ less
  have inner : k ≠ 0x7F800000 := by omega
  have outer : l ≠ -0x7F800000 := by omega
  unfold keyValue
  rw [if_neg inner, if_neg outer]
  by_cases bottom : k = -0x7F800000 <;> by_cases top : l = 0x7F800000
  · rw [if_pos bottom, if_pos top]
    exact bot_lt_top
  · rw [if_pos bottom, if_neg top]
    exact EReal.bot_lt_coe _
  · rw [if_neg bottom, if_pos top]
    exact EReal.coe_lt_top _
  · rw [if_neg bottom, if_neg top, EReal.coe_lt_coe_iff]
    exact mul_lt_mul_of_pos_right (Int.cast_lt.mpr (signedUnits_strictMono less)) (by positivity)

section
variable {a b : Word}

theorem key_mem (number : Ieee.isNaN a = false) : Ieee.key a ∈ Set.Icc (-0x7F800000 : ℤ) 0x7F800000 := by
  have small := not_isNaN_iff.mp number
  rw [key_eq, Set.mem_Icc]
  cases Ieee.signOf a <;> simp only [Ieee.signed, Bool.false_eq_true, if_true, if_false] <;> omega

theorem toEReal_eq (number : Ieee.isNaN a = false) : (Ieee.unpack a).toEReal = keyValue (Ieee.key a) := by
  rw [key_eq]
  rcases (not_isNaN_iff.mp number).lt_or_eq with finite | infinite
  · obtain ⟨m, e, unpacked, -⟩ := unpack_of_finite finite
    have value : (Ieee.unpack a).toEReal = (((Ieee.unpack a).toRat : ℝ) : EReal) := by
      rw [unpacked]
      rfl
    have inner : Ieee.signed (Ieee.signOf a) (a.toNat % 2 ^ 31) ≠ 0x7F800000 ∧
        Ieee.signed (Ieee.signOf a) (a.toNat % 2 ^ 31) ≠ -0x7F800000 := by
      cases Ieee.signOf a <;> simp only [Ieee.signed, Bool.false_eq_true, if_true, if_false] <;> omega
    rw [value, toRat_of_isFin (isFin_iff.mpr finite), keyValue, if_neg inner.1, if_neg inner.2, signedUnits_signed]
    cases Ieee.signOf a <;> simp [Ieee.signed]
  · rw [unpack_of_infinite infinite, infinite]
    cases Ieee.signOf a <;> simp [Ieee.signed, Ieee.Val.toEReal, keyValue]

variable (ha : Ieee.isNaN a = false) (hb : Ieee.isNaN b = false)
include ha hb

theorem key_lt_iff : Ieee.key a < Ieee.key b ↔ (Ieee.unpack a).toEReal < (Ieee.unpack b).toEReal := by
  rw [toEReal_eq ha, toEReal_eq hb, keyValue_strictMonoOn.lt_iff_lt (key_mem ha) (key_mem hb)]

theorem key_le_iff : Ieee.key a ≤ Ieee.key b ↔ (Ieee.unpack a).toEReal ≤ (Ieee.unpack b).toEReal := by
  rw [toEReal_eq ha, toEReal_eq hb, keyValue_strictMonoOn.le_iff_le (key_mem ha) (key_mem hb)]

theorem key_eq_iff : Ieee.key a = Ieee.key b ↔ (Ieee.unpack a).toEReal = (Ieee.unpack b).toEReal := by
  rw [toEReal_eq ha, toEReal_eq hb, keyValue_strictMonoOn.injOn.eq_iff (key_mem ha) (key_mem hb)]

/-! ## The extrema of two numbers -/

/-- The smaller of two numbers: one of them, not above either. -/
theorem minimum_of_numbers : ((Ieee.minimum a b).1 = a ∨ (Ieee.minimum a b).1 = b) ∧
    Ieee.key (Ieee.minimum a b).1 ≤ Ieee.key a ∧ Ieee.key (Ieee.minimum a b).1 ≤ Ieee.key b := by
  simp only [Ieee.minimum, ha, hb, Bool.and_false, Bool.false_eq_true, if_false]
  split
  · exact ⟨.inl rfl, le_rfl, by omega⟩
  split
  · exact ⟨.inr rfl, by omega, le_rfl⟩
  split
  · exact ⟨.inl rfl, le_rfl, by omega⟩
  · exact ⟨.inr rfl, by omega, le_rfl⟩

theorem maximum_of_numbers : ((Ieee.maximum a b).1 = a ∨ (Ieee.maximum a b).1 = b) ∧
    Ieee.key a ≤ Ieee.key (Ieee.maximum a b).1 ∧ Ieee.key b ≤ Ieee.key (Ieee.maximum a b).1 := by
  simp only [Ieee.maximum, ha, hb, Bool.and_false, Bool.false_eq_true, if_false]
  split
  · exact ⟨.inl rfl, le_rfl, by omega⟩
  split
  · exact ⟨.inr rfl, by omega, le_rfl⟩
  split
  · exact ⟨.inr rfl, by omega, le_rfl⟩
  · exact ⟨.inl rfl, le_rfl, by omega⟩

end

section
variable {a b : Word}

/-- A NaN operand leaves the other one. -/
theorem extrema_of_left_nan (ha : Ieee.isNaN a = true) (hb : Ieee.isNaN b = false) :
    (Ieee.minimum a b).1 = b ∧ (Ieee.maximum a b).1 = b := by
  simp [Ieee.minimum, Ieee.maximum, ha, hb]

theorem extrema_of_right_nan (ha : Ieee.isNaN a = false) (hb : Ieee.isNaN b = true) :
    (Ieee.minimum a b).1 = a ∧ (Ieee.maximum a b).1 = a := by
  simp [Ieee.minimum, Ieee.maximum, ha, hb]

theorem extrema_of_nans (ha : Ieee.isNaN a = true) (hb : Ieee.isNaN b = true) :
    (Ieee.minimum a b).1 = Ieee.canonicalNaN ∧ (Ieee.maximum a b).1 = Ieee.canonicalNaN := by
  simp [Ieee.minimum, Ieee.maximum, ha, hb]

end

theorem isSignalling_of_number {a : Word} (number : Ieee.isNaN a = false) : Ieee.isSignalling a = false := by
  rw [← Bool.not_eq_true, isSignalling_iff]
  exact fun signalling => (not_isNaN_iff.mp number).not_gt signalling.1

theorem ofBool_mem (p : Bool) : ofBool p = 1 ∨ ofBool p = 0 := by
  cases p
  · exact .inr rfl
  · exact .inl rfl

theorem ofBool_eq_one_iff (p : Bool) : ofBool p = 1 ↔ p = true := by
  cases p <;> simp [ofBool]

/-- Settles O24: it holds. The keys are ordered as the numbers are; the NaN cases are those of the definitions. -/
theorem floatComparisonsAndExtrema : Obligations.FloatComparisonsAndExtrema := by
  intro s rd rs1 rs2 fpu hs a b ra rb
  have compare (v : Bool × BitVec 5) : fpCompare rd v s = .next (((s.writeX rd (ofBool v.1)).raise v.2).after 4) :=
    fpToX_eq fpu hs rd _
  refine ⟨fun ha hb => ?compared, fun nan => ?unordered, _, _, fpResult_eq fpu hs rd (Ieee.minimum a b),
    fpResult_eq fpu hs rd (Ieee.maximum a b), fun ha hb => ?extrema, fun zeros => ?zeros, fun ha hb => ?left,
    fun ha hb => ?right, fun ha hb => ?both⟩
  case compared =>
    have quiet : (Ieee.isSignalling a || Ieee.isSignalling b) = false := by
      rw [isSignalling_of_number ha, isSignalling_of_number hb]
      rfl
    have ordered : (Ieee.isNaN a || Ieee.isNaN b) = false := by
      rw [ha, hb]
      rfl
    have noFlag (p : Bool) : fpCompare rd (p, Flag.none) s = .next (s.afterX 4 rd (ofBool p)) :=
      fpToX_afterX fpu hs rd (ofBool p)
    have eq : Ieee.eq a b = (Ieee.key a == Ieee.key b, Flag.none) := by simp [Ieee.eq, ha, hb, quiet, Flag.when]
    have lt : Ieee.lt a b = (decide (Ieee.key a < Ieee.key b), Flag.none) := by simp [Ieee.lt, ha, hb, Flag.when]
    have le : Ieee.le a b = (decide (Ieee.key a ≤ Ieee.key b), Flag.none) := by simp [Ieee.le, ha, hb, Flag.when]
    refine ⟨_, _, _, (congrArg (fpCompare rd · s) eq).trans (noFlag _), (congrArg (fpCompare rd · s) lt).trans (noFlag _),
      (congrArg (fpCompare rd · s) le).trans (noFlag _), ofBool_mem _, ofBool_mem _, ofBool_mem _, ?_, ?_, ?_⟩
    · rw [ofBool_eq_one_iff, beq_iff_eq, key_eq_iff ha hb]
    · rw [ofBool_eq_one_iff, decide_eq_true_eq, key_lt_iff ha hb]
    · rw [ofBool_eq_one_iff, decide_eq_true_eq, key_le_iff ha hb]
  case unordered =>
    have incomparable : (!Ieee.isNaN a && !Ieee.isNaN b) = false := by
      rcases nan with ha | hb
      · rw [ha]
        rfl
      · rw [hb]
        exact Bool.and_false _
    have some : (Ieee.isNaN a || Ieee.isNaN b) = true := by simpa using nan
    have lt : Ieee.lt a b = (false, 0x10) := by simp [Ieee.lt, incomparable, some, Flag.when, Flag.nv]
    have le : Ieee.le a b = (false, 0x10) := by simp [Ieee.le, incomparable, some, Flag.when, Flag.nv]
    have eq : Ieee.eq a b = (false, if Ieee.isSignalling a || Ieee.isSignalling b then 0x10 else 0) := by
      simp only [Ieee.eq, incomparable, Bool.false_and]
      rfl
    exact ⟨(congrArg (fpCompare rd · s) lt).trans (compare _), (congrArg (fpCompare rd · s) le).trans (compare _),
      (congrArg (fpCompare rd · s) eq).trans (compare _)⟩
  case extrema =>
    obtain ⟨low, below⟩ := minimum_of_numbers ha hb
    obtain ⟨high, above⟩ := maximum_of_numbers ha hb
    have number {v : Word} (either : v = a ∨ v = b) : Ieee.isNaN v = false := by
      obtain rfl | rfl := either
      · exact ha
      · exact hb
    exact ⟨low, high, (key_le_iff (number low) ha).mp below.1, (key_le_iff (number low) hb).mp below.2,
      (key_le_iff ha (number high)).mp above.1, (key_le_iff hb (number high)).mp above.2⟩
  case zeros =>
    obtain ⟨ha, hb⟩ | ⟨ha, hb⟩ := zeros
    · rw [ha, hb]
      decide
    · rw [ha, hb]
      decide
  case left => exact extrema_of_left_nan ha hb
  case right => exact extrema_of_right_nan ha hb
  case both => exact extrema_of_nans ha hb

end Sys2Proof.Proofs
end

