-- ==== Sys2Proof/Proofs/Rounding.lean ====
section
/-! Rounding to binary32 (44_rv32f.md R353, R380). A number is rounded to the grid of its 24 significant bits, or to the subnormal
grid; the neighbour that `roundTo` takes is the one that the mode says against every finite number, since none lies between two
neighbours. The argument is for positive numbers; for negative ones the modes down and up change places. -/

namespace Sys2Proof.Proofs

open Sys2Proof.Machine

/-! ## Rounding to a grid -/

/-- The mode that rounds `-y` to the negative of what this one rounds `y` to. -/
def mirrored : Rounding → Rounding
  | .rdn => .rup
  | .rup => .rdn
  | m => m

/-- The remainder `f` over the `q`-th point of a grid of step `g` is rounded up. -/
def RoundsUp (m : Rounding) (q : ℕ) (f g : ℝ) : Prop :=
  match m with
  | .rne => g < 2 * f ∨ (2 * f = g ∧ q % 2 = 1)
  | .rtz => False
  | .rdn => False
  | .rup => f ≠ 0
  | .rmm => g ≤ 2 * f

/-- `n` points of a grid of step `g` are the positive number `y` rounded. -/
def RoundedTo (m : Rounding) (y g : ℝ) (n : ℕ) : Prop :=
  ∃ q : ℕ, ∃ f : ℝ, y = q * g + f ∧ 0 ≤ f ∧ f < g ∧ ((RoundsUp m q f g ∧ n = q + 1) ∨ (¬ RoundsUp m q f g ∧ n = q))

/-- The mode of the magnitude of a number with this sign. -/
def magnitudeMode (m : Rounding) (sign : Bool) : Rounding := if sign then mirrored m else m

/-- `n * 2^e` is `y`, or has an odd significand and lies so near to `y` that it rounds as `y` does. -/
def Represents (n : ℕ) (e : ℤ) (y : ℝ) : Prop :=
  y = n * 2 ^ e ∨ (n % 2 = 1 ∧ 2 ^ 25 ≤ n ∧ (n - 1 : ℝ) * 2 ^ e < y ∧ y < (n + 1) * 2 ^ e)

/-! ### The neighbour of a mode -/

section
variable {m : Rounding} {q : ℕ} {f g : ℝ}

theorem not_roundsUp_zero (hg : 0 < g) : ¬ RoundsUp m q 0 g := by
  cases m <;> simp [RoundsUp, hg.le, hg.ne, hg]

/-! The three ways a mode can be correct, for a number `A + f` between the neighbours `A` and `A + g`. -/

section
variable {A u : ℝ}

/-- To nearest, upwards: the upper neighbour is not farther than the lower one. -/
theorem nearest_up (high : f < g) (gap : u ≤ A ∨ A + g ≤ u) (near : g ≤ 2 * f) :
    |A + g - (A + f)| ≤ |u - (A + f)| ∧ (|A + g - (A + f)| = |u - (A + f)| → u = A + g ∨ (2 * f = g ∧ u = A)) := by
  rw [abs_of_nonneg (show 0 ≤ A + g - (A + f) by linarith)]
  rcases gap with below | above
  · rw [abs_of_nonpos (show u - (A + f) ≤ 0 by linarith)]
    exact ⟨by linarith, fun tie => .inr ⟨by linarith, by linarith⟩⟩
  · rw [abs_of_nonneg (show 0 ≤ u - (A + f) by linarith)]
    exact ⟨by linarith, fun tie => .inl (by linarith)⟩

/-- To nearest, downwards. -/
theorem nearest_down (low : 0 ≤ f) (high : f < g) (gap : u ≤ A ∨ A + g ≤ u) (near : 2 * f ≤ g) :
    |A - (A + f)| ≤ |u - (A + f)| ∧ (|A - (A + f)| = |u - (A + f)| → u = A ∨ 2 * f = g) := by
  rw [abs_of_nonpos (show A - (A + f) ≤ 0 by linarith)]
  rcases gap with below | above
  · rw [abs_of_nonpos (show u - (A + f) ≤ 0 by linarith)]
    exact ⟨by linarith, fun tie => .inl (by linarith)⟩
  · rw [abs_of_nonneg (show 0 ≤ u - (A + f) by linarith)]
    exact ⟨by linarith, fun tie => .inr (by linarith)⟩

theorem below_of_gap (high : f < g) (gap : u ≤ A ∨ A + g ≤ u) (hu : u ≤ A + f) : u ≤ A := by
  rcases gap with below | above <;> linarith

theorem above_of_gap (low : 0 ≤ f) (gap : u ≤ A ∨ A + g ≤ u) (hf : f ≠ 0) (hu : A + f ≤ u) : A + g ≤ u := by
  have positive : 0 < f := lt_of_le_of_ne low (Ne.symm hf)
  rcases gap with below | above <;> linarith

end

/-- The neighbour that the mode takes is the number, rounded, against every number that lies on the sides of both. -/
theorem roundedAgainst_of_gap {n : ℕ} {u : ℝ} (low : 0 ≤ f) (high : f < g)
    (rounded : (RoundsUp m q f g ∧ n = q + 1) ∨ (¬ RoundsUp m q f g ∧ n = q))
    (gap : u ≤ q * g ∨ q * g + g ≤ u) (gapAbs : |u| ≤ q * g ∨ q * g + g ≤ |u|) :
    Ieee.RoundedAgainst m (q * g + f) (n * g) (n % 2 = 0) u := by
  have least : 0 ≤ q * g := mul_nonneg q.cast_nonneg (low.trans high.le)
  have value : (n : ℝ) * g = if n = q then q * g else q * g + g := by
    obtain ⟨-, rfl⟩ | ⟨-, rfl⟩ := rounded
    · rw [if_neg (Nat.succ_ne_self q)]
      push_cast
      ring
    · rw [if_pos rfl]
  rw [value]
  clear value
  generalize (q : ℝ) * g = A at *
  cases m with
  | rne =>
    obtain ⟨up, rfl⟩ | ⟨down, rfl⟩ := rounded
    · rw [if_neg (Nat.succ_ne_self q)]
      obtain ⟨near, tie⟩ := nearest_up high gap (up.elim le_of_lt fun half => half.1.ge)
      refine ⟨near, fun same other => ?_⟩
      obtain upper | ⟨half, -⟩ := tie same
      · exact absurd upper other
      · have odd : q % 2 = 1 := up.elim (fun more => absurd half more.ne') And.right
        omega
    · rw [if_pos rfl]
      obtain ⟨less, notOdd⟩ := not_or.mp down
      obtain ⟨near, tie⟩ := nearest_down low high gap (not_lt.mp less)
      refine ⟨near, fun same other => ?_⟩
      have half : 2 * f = g := (tie same).resolve_left other
      have notOne : ¬ n % 2 = 1 := fun odd => notOdd ⟨half, odd⟩
      omega
  | rmm =>
    obtain ⟨up, rfl⟩ | ⟨down, rfl⟩ := rounded
    · rw [if_neg (Nat.succ_ne_self q)]
      obtain ⟨near, tie⟩ := nearest_up high gap up
      refine ⟨near, fun same => ?_⟩
      rw [abs_of_nonneg (show 0 ≤ A + g by linarith)]
      obtain upper | ⟨-, lower⟩ := tie same
      · exact (abs_of_nonneg (show 0 ≤ u by linarith)).trans_le upper.le
      · rw [lower, abs_of_nonneg least]
        linarith
    · rw [if_pos rfl]
      have near : 2 * f < g := not_le.mp down
      obtain ⟨nearest, tie⟩ := nearest_down low high gap near.le
      exact ⟨nearest, fun same => ((tie same).resolve_right near.ne) ▸ le_rfl⟩
  | rtz =>
    obtain ⟨up, -⟩ | ⟨-, rfl⟩ := rounded
    · exact up.elim
    · rw [if_pos rfl]
      refine ⟨by positivity, ?_, fun closer => ?_⟩
      · rw [abs_of_nonneg least, abs_of_nonneg (by positivity)]
        linarith
      · rw [abs_of_nonneg least]
        rw [abs_of_nonneg (show 0 ≤ A + f by positivity)] at closer
        exact below_of_gap high gapAbs closer
  | rdn =>
    obtain ⟨up, -⟩ | ⟨-, rfl⟩ := rounded
    · exact up.elim
    · rw [if_pos rfl]
      exact ⟨by linarith, below_of_gap high gap⟩
  | rup =>
    obtain ⟨up, rfl⟩ | ⟨down, rfl⟩ := rounded
    · rw [if_neg (Nat.succ_ne_self q)]
      exact ⟨by linarith, above_of_gap low gap up⟩
    · rw [if_pos rfl, not_not.mp down, add_zero]
      exact ⟨le_rfl, id⟩

end

/-! ### Rounding reaches a limit -/

/-- For a positive number the mode decides between the limit and the middle or the start of the last step below it. -/
theorem reaches_of_pos {m : Rounding} {y limit gap : ℝ} (hy : 0 < y) (positive : 0 < gap) (inside : gap < limit) :
    Ieee.Reaches m y limit gap ↔ match m with
      | .rne => limit - gap / 2 ≤ y
      | .rmm => limit - gap / 2 ≤ y
      | .rtz => limit ≤ y
      | .rdn => limit ≤ y
      | .rup => limit - gap < y := by
  cases m <;> simp only [Ieee.Reaches, abs_of_pos hy]
  case rdn => exact or_iff_left (by linarith)
  case rup => exact or_iff_left (by linarith)

/-- A number rounded to a grid reaches `2^24` steps of it exactly when it is rounded up to `2^24` steps. -/
theorem reaches_of_grid {m : Rounding} {y g : ℝ} {n : ℕ} (hg : 0 < g) (hy : 0 < y) (most : y < 2 ^ 24 * g)
    (rounded : RoundedTo m y g n) : Ieee.Reaches m y (2 ^ 24 * g) g ↔ n = 2 ^ 24 := by
  obtain ⟨q, f, rfl, low, high, taken⟩ := rounded
  rw [reaches_of_pos hy hg (by linarith)]
  have small : q < 2 ^ 24 := by
    have : (q : ℝ) * g < 2 ^ 24 * g := by linarith
    exact_mod_cast lt_of_mul_lt_mul_right this hg.le
  by_cases last : q = 2 ^ 24 - 1
  · have point : (q : ℝ) * g = 2 ^ 24 * g - g := by
      rw [last]
      push_cast
      ring
    have carries : n = 2 ^ 24 ↔ RoundsUp m q f g := by
      obtain ⟨up, rfl⟩ | ⟨down, rfl⟩ := taken
      · exact iff_of_true (by omega) up
      · exact iff_of_false (by omega) down
    rw [carries, point]
    cases m with
    | rne =>
      have odd : q % 2 = 1 := by omega
      simp only [RoundsUp, odd, and_true]
      rw [eq_comm, ← le_iff_lt_or_eq]
      exact ⟨fun h => by linarith, fun h => by linarith⟩
    | rmm => exact ⟨fun h => show g ≤ 2 * f by linarith, fun h : g ≤ 2 * f => by linarith⟩
    | rtz => exact ⟨fun h => by linarith, False.elim⟩
    | rdn => exact ⟨fun h => by linarith, False.elim⟩
    | rup =>
      refine ⟨fun h => ne_of_gt (by linarith), fun h : f ≠ 0 => ?_⟩
      have positive : 0 < f := lt_of_le_of_ne low (Ne.symm h)
      linarith
  · have point : (q : ℝ) * g ≤ (2 ^ 24 - 2) * g := by
      refine mul_le_mul_of_nonneg_right ?_ hg.le
      have : (q : ℝ) + 2 ≤ 2 ^ 24 := by exact_mod_cast show q + 2 ≤ 2 ^ 24 by omega
      linarith
    refine iff_of_false ?_ (by omega)
    cases m <;> simp only [not_le, not_lt] <;> linarith

/-- Rounded to its own 24 bits, a number reaches `2^24` steps of a grid exactly when its own grid is coarser, or is this one and
it is rounded up to `2^24` steps. -/
theorem reaches_iff {m : Rounding} {y : ℝ} {n : ℕ} {te : ℤ} (k : ℤ) (least : 2 ^ 23 * 2 ^ te ≤ y)
    (most : y < 2 ^ 24 * 2 ^ te) (rounded : RoundedTo m y (2 ^ te) n) :
    Ieee.Reaches m y (2 ^ 24 * 2 ^ k) (2 ^ k) ↔ k < te ∨ (te = k ∧ n = 2 ^ 24) := by
  have step : 0 < (2 : ℝ) ^ te := by positivity
  have gap : 0 < (2 : ℝ) ^ k := by positivity
  have hy : 0 < y := by linarith
  rcases lt_trichotomy te k with finer | rfl | coarser
  · have half : (2 : ℝ) ^ te * 2 ≤ 2 ^ k := by
      rw [← zpow_add_one₀ two_ne_zero]
      exact zpow_le_zpow_right₀ one_le_two finer
    rw [reaches_of_pos hy gap (by linarith)]
    refine iff_of_false ?_ (by omega)
    cases m <;> simp only [not_le, not_lt] <;> linarith
  · rw [reaches_of_grid step hy most rounded]
    simp
  · have double : (2 : ℝ) ^ k * 2 ≤ 2 ^ te := by
      rw [← zpow_add_one₀ two_ne_zero]
      exact zpow_le_zpow_right₀ one_le_two coarser
    rw [reaches_of_pos hy gap (by linarith)]
    refine iff_of_true ?_ (.inl coarser)
    cases m <;> simp only <;> linarith

/-! ## What `roundTo` rounds -/

/-- Cutting `s` bits, `n` and the number `z` it stands for lie on the same side of every point that a mode asks for. -/
theorem cut_sides {r s : ℕ} {z : ℝ} (small : r < 2 ^ s)
    (near : z = r ∨ (r % 2 = 1 ∧ 2 ≤ s ∧ (r : ℝ) - 1 < z ∧ z < r + 1)) :
    0 ≤ z ∧ z < 2 ^ s ∧ (2 ^ s < 2 * z ↔ 2 ^ s < 2 * r) ∧ (2 * z = 2 ^ s ↔ 2 * r = 2 ^ s) ∧ (z ≠ 0 ↔ r ≠ 0) := by
  obtain rfl | ⟨odd, two, above, below⟩ := near
  · exact ⟨by positivity, by exact_mod_cast small, by exact_mod_cast Iff.rfl, by exact_mod_cast Iff.rfl,
      by exact_mod_cast Iff.rfl⟩
  · obtain ⟨s, rfl⟩ := Nat.exists_eq_add_of_le two
    have whole : (2 : ℝ) ^ (2 + s) = 2 * (2 * 2 ^ s) := by ring
    have double : 2 ^ (2 + s) = 2 * (2 * 2 ^ s) := by ring
    have positive : 1 ≤ (r : ℝ) := by exact_mod_cast show 1 ≤ r by omega
    have top : (r : ℝ) + 1 ≤ 2 * (2 * 2 ^ s) := by exact_mod_cast show r + 1 ≤ 2 * (2 * 2 ^ s) by omega
    rw [whole, double]
    rcases Nat.lt_or_ge r (2 * 2 ^ s) with less | more
    · have under : (r : ℝ) + 1 ≤ 2 * 2 ^ s := by exact_mod_cast less
      exact ⟨by linarith, by linarith, iff_of_false (by linarith) (by omega), iff_of_false (by linarith) (by omega),
        iff_of_true (by linarith) (by omega)⟩
    · have beyond : 2 * 2 ^ s + 1 ≤ (r : ℝ) := by exact_mod_cast show 2 * 2 ^ s + 1 ≤ r by omega
      exact ⟨by linarith, by linarith, iff_of_true (by linarith) (by omega), iff_of_false (by linarith) (by omega),
        iff_of_true (by linarith) (by omega)⟩

/-- The model's test on the bits cut off is the one of the mode of the magnitude. -/
theorem roundsUp_iff {m : Rounding} {sign : Bool} {q r s : ℕ} {z : ℝ} (more : 2 ^ s < 2 * z ↔ 2 ^ s < 2 * r)
    (half : 2 * z = 2 ^ s ↔ 2 * r = 2 ^ s) (some : z ≠ 0 ↔ r ≠ 0) :
    Ieee.roundsUp m sign q r s = true ↔ RoundsUp (magnitudeMode m sign) q z (2 ^ s) := by
  cases m
  case rne => cases sign <;> simp [Ieee.roundsUp, magnitudeMode, mirrored, RoundsUp, more, half]
  case rtz => cases sign <;> simp [Ieee.roundsUp, magnitudeMode, mirrored, RoundsUp]
  case rdn => cases sign <;> simp [Ieee.roundsUp, magnitudeMode, mirrored, RoundsUp, some]
  case rup => cases sign <;> simp [Ieee.roundsUp, magnitudeMode, mirrored, RoundsUp, some]
  case rmm =>
    have least : (2 : ℝ) ^ s ≤ 2 * z ↔ 2 ^ s ≤ 2 * r := by
      rw [le_iff_lt_or_eq, le_iff_lt_or_eq, more, eq_comm, half, eq_comm (a := 2 ^ s)]
    cases sign <;> simp [Ieee.roundsUp, magnitudeMode, mirrored, RoundsUp, least]

/-- The step of the grid is a scale. -/
theorem roundsUp_scale {m : Rounding} {q : ℕ} {z g c : ℝ} (hc : 0 < c) :
    RoundsUp m q (z * c) (g * c) ↔ RoundsUp m q z g := by
  have assoc : 2 * (z * c) = 2 * z * c := (mul_assoc 2 z c).symm
  cases m <;> simp [RoundsUp, assoc, hc, hc.ne']

/-- A number that is rounded is off the grid exactly when it is changed. -/
theorem ne_iff_of_taken {m : Rounding} {q n : ℕ} {f g : ℝ} (low : 0 ≤ f) (high : f < g)
    (taken : (RoundsUp m q f g ∧ n = q + 1) ∨ (¬ RoundsUp m q f g ∧ n = q)) : q * g + f ≠ n * g ↔ f ≠ 0 := by
  have hg : 0 < g := low.trans_lt high
  obtain ⟨up, rfl⟩ | ⟨-, rfl⟩ := taken
  · have off : f ≠ 0 := by
      rintro rfl
      exact not_roundsUp_zero hg up
    refine iff_of_true (ne_of_lt ?_) off
    push_cast
    linarith
  · exact not_congr add_eq_left

/-- `roundTo` rounds the number to the grid of step `2^te`, and says whether that changed it. -/
theorem roundTo_roundedTo (m : Rounding) (sign : Bool) {n : ℕ} {e te : ℤ} {y : ℝ}
    (near : y = n * 2 ^ e ∨ (n % 2 = 1 ∧ e + 2 ≤ te ∧ (n - 1 : ℝ) * 2 ^ e < y ∧ y < (n + 1) * 2 ^ e)) :
    RoundedTo (magnitudeMode m sign) y (2 ^ te) (Ieee.roundTo m sign n e te).1 ∧
      ((Ieee.roundTo m sign n e te).2 = true ↔ y ≠ (Ieee.roundTo m sign n e te).1 * 2 ^ te) := by
  have step : 0 < (2 : ℝ) ^ te := by positivity
  by_cases fine : te ≤ e
  · have exact : y = n * 2 ^ e := near.resolve_right fun sticky => by omega
    obtain ⟨k, rfl⟩ := Int.le.dest fine
    have point : y = ((n <<< k : ℕ) : ℝ) * 2 ^ te := by
      rw [exact, Nat.shiftLeft_eq, zpow_add₀ two_ne_zero, zpow_natCast]
      push_cast
      ring
    have value : Ieee.roundTo m sign n (te + k) te = (n <<< k, false) := by
      simp [Ieee.roundTo]
    rw [value]
    exact ⟨⟨n <<< k, 0, by rw [add_zero, ← point], le_rfl, step, .inr ⟨not_roundsUp_zero step, rfl⟩⟩,
      iff_of_false Bool.false_ne_true (not_not.mpr point)⟩
  · obtain ⟨s, hs⟩ := Int.le.dest (not_le.mp fine).le
    obtain rfl := hs.symm
    have unit : 0 < (2 : ℝ) ^ e := by positivity
    have scale : (2 : ℝ) ^ (e + s : ℤ) = 2 ^ s * 2 ^ e := by
      rw [zpow_add₀ two_ne_zero, zpow_natCast, mul_comm]
    have parts : (n : ℝ) = ((n / 2 ^ s : ℕ) : ℝ) * 2 ^ s + ((n % 2 ^ s : ℕ) : ℝ) := by
      exact_mod_cast (Nat.div_add_mod' n (2 ^ s)).symm
    obtain ⟨z, hz⟩ : ∃ z : ℝ, y = ((n / 2 ^ s : ℕ) * 2 ^ s + z) * 2 ^ e :=
      ⟨y / 2 ^ e - (n / 2 ^ s : ℕ) * 2 ^ s, by field_simp; ring⟩
    have cut : z = (n % 2 ^ s : ℕ) ∨ ((n % 2 ^ s) % 2 = 1 ∧ 2 ≤ s ∧ ((n % 2 ^ s : ℕ) : ℝ) - 1 < z ∧
        z < (n % 2 ^ s : ℕ) + 1) := by
      rw [hz, parts] at near
      refine near.imp (fun same => ?_) fun ⟨odd, two, above, below⟩ => ⟨?_, by omega, ?_, ?_⟩
      · have := mul_right_cancel₀ unit.ne' same
        linarith
      · rw [Nat.mod_mod_of_dvd _ (dvd_pow_self 2 (by omega))]
        exact odd
      · have := lt_of_mul_lt_mul_right above unit.le
        linarith
      · have := lt_of_mul_lt_mul_right below unit.le
        linarith
    obtain ⟨low, high, more, half, some⟩ := cut_sides (Nat.mod_lt n (Nat.two_pow_pos s)) cut
    have up := (roundsUp_iff (m := m) (sign := sign) (q := n / 2 ^ s) more half some).trans (roundsUp_scale unit).symm
    have value : Ieee.roundTo m sign n e (e + s) =
        (if Ieee.roundsUp m sign (n / 2 ^ s) (n % 2 ^ s) s then n / 2 ^ s + 1 else n / 2 ^ s, n % 2 ^ s != 0) := by
      simp [Ieee.roundTo, Nat.shiftRight_eq_div_pow, show ¬ e + (s : ℤ) ≤ e from fine]
    have taken : (RoundsUp (magnitudeMode m sign) (n / 2 ^ s) (z * 2 ^ e) (2 ^ s * 2 ^ e) ∧
          (Ieee.roundTo m sign n e (e + s)).1 = n / 2 ^ s + 1) ∨
        (¬ RoundsUp (magnitudeMode m sign) (n / 2 ^ s) (z * 2 ^ e) (2 ^ s * 2 ^ e) ∧
          (Ieee.roundTo m sign n e (e + s)).1 = n / 2 ^ s) := by
      rw [value, ← up]
      cases Ieee.roundsUp m sign (n / 2 ^ s) (n % 2 ^ s) s
      · exact .inr ⟨Bool.false_ne_true, rfl⟩
      · exact .inl ⟨rfl, rfl⟩
    have low' : 0 ≤ z * 2 ^ e := by positivity
    have high' : z * 2 ^ e < 2 ^ s * 2 ^ e := mul_lt_mul_of_pos_right high unit
    have split : y = (n / 2 ^ s : ℕ) * (2 ^ s * 2 ^ e) + z * 2 ^ e := by
      rw [hz]
      ring
    rw [scale]
    refine ⟨⟨n / 2 ^ s, z * 2 ^ e, split, low', high', taken⟩, ?_⟩
    rw [split, ne_iff_of_taken low' high' taken, value, bne_iff_ne, ← some]
    exact (mul_ne_zero_iff_right unit.ne').symm

end Sys2Proof.Proofs
end

