-- ==== Sys2Proof/Proofs/RoundPack.lean ====
section
/-! The rounding of a number to a binary32 word with its flags is correct (44_rv32f.md R353, R377, R378). -/

namespace Sys2Proof.Proofs

open Sys2Proof.Machine

/-! ## The sign -/

/-- `y` with a sign. -/
def withMinus (sign : Bool) (y : ℝ) : ℝ := if sign then -y else y

theorem withMinus_withMinus (sign : Bool) (y : ℝ) : withMinus sign (withMinus sign y) = y := by
  cases sign <;> simp [withMinus]

theorem withMinus_injective (sign : Bool) : Function.Injective (withMinus sign) :=
  Function.LeftInverse.injective (withMinus_withMinus sign)

theorem abs_withMinus (sign : Bool) (y : ℝ) : |withMinus sign y| = |y| := by
  cases sign <;> simp [withMinus]

theorem reaches_withMinus (m : Rounding) (sign : Bool) (y limit gap : ℝ) :
    Ieee.Reaches m (withMinus sign y) limit gap ↔ Ieee.Reaches (magnitudeMode m sign) y limit gap := by
  cases sign with
  | false => rfl
  | true =>
    cases m <;> simp only [Ieee.Reaches, withMinus, magnitudeMode, mirrored, if_true, abs_neg]
    case rdn => rw [or_comm, neg_lt_neg_iff, le_neg]
    case rup => rw [or_comm, neg_le_neg_iff, lt_neg]

theorem roundedAgainst_withMinus (m : Rounding) (sign : Bool) (y v u : ℝ) (even : Prop) :
    Ieee.RoundedAgainst m (withMinus sign y) (withMinus sign v) even u ↔
      Ieee.RoundedAgainst (magnitudeMode m sign) y v even (withMinus sign u) := by
  cases sign with
  | false => rfl
  | true =>
    have flip (a b : ℝ) : |-a - -b| = |a - b| := by rw [neg_sub_neg, abs_sub_comm]
    have flip' (a b : ℝ) : |a - -b| = |-a - b| := by rw [← abs_neg, neg_sub', neg_neg]
    have other : u ≠ -v ↔ -u ≠ v := not_congr neg_eq_iff_eq_neg.symm
    cases m <;> simp only [Ieee.RoundedAgainst, withMinus, magnitudeMode, mirrored, if_true, abs_neg, flip, flip', other]
    case rtz => rw [neg_mul_neg]
    case rdn => rw [neg_le_neg_iff, le_neg (a := u) (b := y), le_neg (a := u) (b := v)]
    case rup => rw [neg_le_neg_iff, neg_le, neg_le (a := v)]

theorem overflowWord_eq (m : Rounding) (sign : Bool) {y : ℝ} (hy : 0 < y) :
    Ieee.overflowWord m sign = Ieee.overflowResult m (withMinus sign y) := by
  have negative : ¬ 0 < -y := by linarith
  cases sign <;> cases m <;>
    simp [Ieee.overflowWord, Ieee.overflowResult, withMinus, Ieee.infWord, Ieee.maxWord, hy, negative]

/-! ## The word of a magnitude and a sign -/

section
variable {sign : Bool} {t : ℕ} (small : t < 2 ^ 31)
include small

theorem toNat_pack : (BitVec.ofNat 32 t ||| Ieee.zeroWord sign).toNat = t + if sign then 2 ^ 31 else 0 := by
  cases sign with
  | false => simp [Ieee.zeroWord]; omega
  | true =>
    rw [BitVec.toNat_or, BitVec.toNat_ofNat, Nat.mod_eq_of_lt (by omega), if_pos rfl]
    have := Nat.two_pow_add_eq_or_of_lt small 1
    rw [Nat.or_comm, add_comm]
    simpa [Ieee.zeroWord] using this.symm

theorem magnitude_pack : (BitVec.ofNat 32 t ||| Ieee.zeroWord sign).toNat % 2 ^ 31 = t := by
  rw [toNat_pack small]
  cases sign <;> simp only [Bool.false_eq_true, if_true, if_false] <;> omega

theorem signOf_pack : Ieee.signOf (BitVec.ofNat 32 t ||| Ieee.zeroWord sign) = sign := by
  rw [Bool.eq_iff_iff, signOf_iff, toNat_pack small]
  cases sign <;> simp only [Bool.false_eq_true, if_true, if_false, iff_true, iff_false] <;> omega

theorem low_bit_pack : (BitVec.ofNat 32 t ||| Ieee.zeroWord sign).getLsbD 0 = false ↔ t % 2 = 0 := by
  rw [← Bool.not_eq_true, getLsbD_iff, toNat_pack small]
  cases sign <;> simp only [Bool.false_eq_true, if_true, if_false] <;> omega

end

/-- The real number of a finite word. -/
theorem toRat_cast {w : Word} (finite : (Ieee.unpack w).isFin = true) :
    ((Ieee.unpack w).toRat : ℝ) = withMinus (Ieee.signOf w) (units (w.toNat % 2 ^ 31) * 2 ^ (-149 : ℤ)) := by
  rw [toRat_of_isFin finite]
  cases Ieee.signOf w <;> simp [withMinus]

/-- No finite number lies between two neighbours of a grid. -/
theorem gap_of_isFin {w : Word} (finite : (Ieee.unpack w).isFin = true) {k q : ℕ} (normal : k = 0 ∨ 2 ^ 23 ≤ q)
    (hq : q < 2 ^ 24) : |((Ieee.unpack w).toRat : ℝ)| ≤ q * 2 ^ (k - 149 : ℤ) ∨
      q * 2 ^ (k - 149 : ℤ) + 2 ^ (k - 149 : ℤ) ≤ |((Ieee.unpack w).toRat : ℝ)| := by
  have step : (2 : ℝ) ^ (k - 149 : ℤ) = 2 ^ k * 2 ^ (-149 : ℤ) := by
    rw [sub_eq_add_neg, zpow_add₀ two_ne_zero, zpow_natCast]
  rw [toRat_cast finite, abs_withMinus, abs_of_nonneg (by positivity), step, ← add_one_mul, ← mul_assoc, ← mul_assoc]
  refine (units_le_or_le normal hq (w.toNat % 2 ^ 31)).imp (fun below => ?_) (fun above => ?_)
  · exact mul_le_mul_of_nonneg_right (by exact_mod_cast below) (by positivity)
  · exact mul_le_mul_of_nonneg_right (by exact_mod_cast above) (by positivity)

/-! ## The significant bits of a number -/

/-- The exponent of the last of 24 significant bits of `n * 2^e`. -/
def lastExponent (n : ℕ) (e : ℤ) : ℤ := e + (Ieee.bitLen n : ℤ) - 24

section
variable {n : ℕ} {e : ℤ} {y : ℝ} (hn : n ≠ 0) (rep : Represents n e y)
include hn

theorem bitLen_bounds : 2 ^ (Ieee.bitLen n - 1) ≤ n ∧ n < 2 ^ Ieee.bitLen n ∧ 0 < Ieee.bitLen n := by
  rw [Ieee.bitLen, if_neg hn]
  exact ⟨Nat.log2_self_le hn, Nat.lt_log2_self, Nat.succ_pos _⟩

include rep

/-- A grid of 24 bits or less is coarse enough for the bits that stand for a number. -/
theorem near_of_represents {te : ℤ} (coarse : lastExponent n e ≤ te) :
    y = n * 2 ^ e ∨ (n % 2 = 1 ∧ e + 2 ≤ te ∧ (n - 1 : ℝ) * 2 ^ e < y ∧ y < (n + 1) * 2 ^ e) := by
  refine rep.imp_right fun ⟨odd, long, near⟩ => ⟨odd, ?_, near⟩
  obtain ⟨-, most, -⟩ := bitLen_bounds hn
  have bits : 25 < Ieee.bitLen n := (Nat.pow_lt_pow_iff_right (by norm_num)).mp (long.trans_lt most)
  unfold lastExponent at coarse
  omega

theorem bounds_of_represents : 2 ^ 23 * 2 ^ lastExponent n e ≤ y ∧ y < 2 ^ 24 * 2 ^ lastExponent n e := by
  obtain ⟨least, most, positive⟩ := bitLen_bounds hn
  have unit : 0 < (2 : ℝ) ^ e := by positivity
  obtain ⟨b, hb⟩ := Nat.exists_eq_succ_of_ne_zero positive.ne'
  have lower : (2 : ℝ) ^ 23 * 2 ^ lastExponent n e = 2 ^ b * 2 ^ e := by
    rw [← zpow_natCast, ← zpow_natCast, ← zpow_add₀ two_ne_zero, ← zpow_add₀ two_ne_zero, lastExponent, hb]
    congr 1
    push_cast
    ring
  have upper : (2 : ℝ) ^ 24 * 2 ^ lastExponent n e = 2 ^ (b + 1) * 2 ^ e := by
    rw [pow_succ 2 23, pow_succ 2 b, mul_right_comm, lower, mul_right_comm]
  rw [lower, upper]
  rw [hb, Nat.succ_sub_one] at least
  rw [hb] at most
  obtain rfl | ⟨odd, long, above, below⟩ := rep
  · exact ⟨mul_le_mul_of_nonneg_right (by exact_mod_cast least) unit.le,
      mul_lt_mul_of_pos_right (by exact_mod_cast most) unit⟩
  · have even : 2 ∣ 2 ^ b := dvd_pow_self 2 fun zero => by
      rw [zero] at most
      omega
    have least' : (2 : ℝ) ^ b ≤ n - 1 := by
      have : 2 ^ b + 1 ≤ n := by omega
      rw [le_sub_iff_add_le]
      exact_mod_cast this
    have most' : (n : ℝ) + 1 ≤ 2 ^ (b + 1) := by exact_mod_cast most
    exact ⟨(mul_le_mul_of_nonneg_right least' unit.le).trans above.le,
      below.trans_le (mul_le_mul_of_nonneg_right most' unit.le)⟩

end

/-! ## The rounded word -/

/-- The grid that the format allows for 24 significant bits. -/
theorem exists_grid (te : ℤ) : ∃ k : ℕ, max te (-149) = k - 149 ∧ (k = 0 ∨ te = k - 149) ∧ te ≤ k - 149 :=
  ⟨(max te (-149) + 149).toNat, by omega, by omega, by omega⟩

section
variable {k q n : ℕ} {te : ℤ} {y f : ℝ} {m : Rounding}

/-- On that grid the significand has 24 bits, or the grid is the finest one. -/
theorem significand_bounds (least : 2 ^ 23 * 2 ^ te ≤ y) (most : y < 2 ^ 24 * 2 ^ te) (own : k = 0 ∨ te = k - 149)
    (coarse : te ≤ k - 149) (hy : y = q * 2 ^ (k - 149 : ℤ) + f) (low : 0 ≤ f) (high : f < 2 ^ (k - 149 : ℤ)) :
    q < 2 ^ 24 ∧ (k = 0 ∨ 2 ^ 23 ≤ q) := by
  have step : 0 < (2 : ℝ) ^ (k - 149 : ℤ) := by positivity
  have wide : (2 : ℝ) ^ te ≤ 2 ^ (k - 149 : ℤ) := zpow_le_zpow_right₀ one_le_two coarse
  constructor
  · have : (q : ℝ) * 2 ^ (k - 149 : ℤ) < 2 ^ 24 * 2 ^ (k - 149 : ℤ) := by linarith
    exact_mod_cast lt_of_mul_lt_mul_right this step.le
  · refine own.imp_right fun same => ?_
    rw [same] at least
    have : (2 : ℝ) ^ 23 * 2 ^ (k - 149 : ℤ) < (q + 1) * 2 ^ (k - 149 : ℤ) := by linarith
    have : 2 ^ 23 < q + 1 := by exact_mod_cast lt_of_mul_lt_mul_right this step.le
    omega

end

/-- The word packed from a significand on its grid: a finite number, correctly rounded against every finite number. -/
theorem packed_roundedAgainst {m : Rounding} {sign : Bool} {k q n : ℕ} {f : ℝ} (normal : k = 0 ∨ 2 ^ 23 ≤ q) (hq : q < 2 ^ 24)
    (low : 0 ≤ f) (high : f < 2 ^ (k - 149 : ℤ))
    (taken : (RoundsUp (magnitudeMode m sign) q f (2 ^ (k - 149 : ℤ)) ∧ n = q + 1) ∨
      (¬ RoundsUp (magnitudeMode m sign) q f (2 ^ (k - 149 : ℤ)) ∧ n = q))
    (finite : k * 2 ^ 23 + n < 0x7F800000) :
    let w := BitVec.ofNat 32 (k * 2 ^ 23 + n) ||| Ieee.zeroWord sign
    (Ieee.unpack w).isFin = true ∧ ((Ieee.unpack w).toRat : ℝ) = withMinus sign (n * 2 ^ (k - 149 : ℤ)) ∧
      ∀ v : Word, (Ieee.unpack v).isFin = true → Ieee.RoundedAgainst m (withMinus sign (q * 2 ^ (k - 149 : ℤ) + f))
        (Ieee.unpack w).toRat (w.getLsbD 0 = false) (Ieee.unpack v).toRat := by
  intro w
  have bounded : k * 2 ^ 23 + n < 2 ^ 31 := by omega
  have isFin : (Ieee.unpack w).isFin = true := isFin_iff.mpr (by rw [magnitude_pack bounded]; exact finite)
  have number : ((Ieee.unpack w).toRat : ℝ) = withMinus sign (n * 2 ^ (k - 149 : ℤ)) := by
    rw [toRat_cast isFin, signOf_pack bounded, magnitude_pack bounded, units_pack (by omega) (by omega), sub_eq_add_neg,
      zpow_add₀ two_ne_zero, zpow_natCast]
    push_cast
    rw [mul_assoc]
  refine ⟨isFin, number, fun v finite' => ?_⟩
  have gapAbs := gap_of_isFin finite' normal hq
  have gap : withMinus sign (Ieee.unpack v).toRat ≤ q * 2 ^ (k - 149 : ℤ) ∨
      q * 2 ^ (k - 149 : ℤ) + 2 ^ (k - 149 : ℤ) ≤ withMinus sign (Ieee.unpack v).toRat := by
    have least : 0 ≤ (q : ℝ) * 2 ^ (k - 149 : ℤ) := by positivity
    rw [← abs_withMinus sign] at gapAbs
    rcases abs_cases (withMinus sign (Ieee.unpack v).toRat) with ⟨same, -⟩ | ⟨-, negative⟩
    · rwa [same] at gapAbs
    · exact .inl (by linarith)
  have even : w.getLsbD 0 = false ↔ n % 2 = 0 := (low_bit_pack bounded).trans (by omega)
  rw [number, roundedAgainst_withMinus, propext even]
  rw [← abs_withMinus sign] at gapAbs
  exact roundedAgainst_of_gap low high taken gap gapAbs

/-- The flags of a rounding without overflow. -/
theorem flags_eq (tiny inexact : Bool) : let flags := Flag.when tiny Flag.uf ||| Flag.when inexact Flag.nx
    flags.getLsbD 4 = false ∧ flags.getLsbD 3 = false ∧ flags.getLsbD 2 = false ∧ flags.getLsbD 1 = tiny ∧
      flags.getLsbD 0 = inexact := by
  revert tiny inexact
  decide

/-- `roundPack` written with the grid of the format, and with one test for the limits of the exponent: what the number, rounded
to its own 24 bits, reaches. -/
theorem roundPack_eq {m : Rounding} {sign : Bool} {n k : ℕ} {e te : ℤ} (hn : n ≠ 0) (exponent : te = lastExponent n e)
    (grid : max te (-149) = k - 149) (top : (Ieee.roundTo m sign n e (k - 149)).1 ≤ 2 ^ 24) :
    Ieee.roundPack m sign n e =
      let reaches (j : ℤ) : Prop := j < te ∨ (te = j ∧ (Ieee.roundTo m sign n e te).1 = 2 ^ 24)
      if reaches 104 then (Ieee.overflowWord m sign, 0x05)
      else
        (BitVec.ofNat 32 (k * 2 ^ 23 + (Ieee.roundTo m sign n e (k - 149)).1) ||| Ieee.zeroWord sign,
          Flag.when ((Ieee.roundTo m sign n e (k - 149)).2 && !decide (reaches (-150))) Flag.uf |||
          Flag.when (Ieee.roundTo m sign n e (k - 149)).2 Flag.nx) := by
  have overflow : (104 < (k - 149 : ℤ) ∨ ((k - 149 : ℤ) = 104 ∧ 2 ^ 24 ≤ (Ieee.roundTo m sign n e (k - 149)).1)) ↔
      (104 < te ∨ (te = 104 ∧ (Ieee.roundTo m sign n e te).1 = 2 ^ 24)) := by
    rcases le_or_gt (-149) te with own | finer
    · rw [max_eq_left own] at grid
      rw [← grid] at top ⊢
      omega
    · omega
  have tiny : (decide (te < -149) && !(te == -150 && (Ieee.roundTo m sign n e te).1 == 2 ^ 24)) =
      !decide (-150 < te ∨ (te = -150 ∧ (Ieee.roundTo m sign n e te).1 = 2 ^ 24)) := by
    rw [Bool.eq_iff_iff]
    simp only [Bool.and_eq_true, decide_eq_true_eq, Bool.not_eq_true', Bool.and_eq_false_iff, beq_eq_false_iff_ne,
      decide_eq_false_iff_not]
    omega
  have exponent' : e + (Ieee.bitLen n : ℤ) - 24 = te := exponent.symm
  simp only [Ieee.roundPack, if_neg hn, exponent', grid, overflow, tiny, sub_add_cancel, Int.toNat_natCast]
  rfl

/-- Rounding the significand `n` at the exponent `e` rounds the number it stands for. -/
theorem roundPack_roundsTo (m : Rounding) (sign : Bool) {n : ℕ} {e : ℤ} {y : ℝ} (hn : n ≠ 0) (rep : Represents n e y) :
    Ieee.RoundsTo m (withMinus sign y) (Ieee.roundPack m sign n e) := by
  obtain ⟨least, most⟩ := bounds_of_represents hn rep
  have positive : 0 < y := by
    have : (0 : ℝ) < 2 ^ 23 * 2 ^ lastExponent n e := by positivity
    linarith
  obtain ⟨k, grid, own, coarse⟩ := exists_grid (lastExponent n e)
  obtain ⟨ownRounded, -⟩ := roundTo_roundedTo m sign (near_of_represents hn rep le_rfl)
  obtain ⟨⟨q, f, hy, low, high, taken⟩, inexact⟩ := roundTo_roundedTo m sign (near_of_represents hn rep coarse)
  obtain ⟨hq, normal⟩ := significand_bounds least most own coarse hy low high
  have top : (Ieee.roundTo m sign n e (k - 149)).1 ≤ 2 ^ 24 := by
    obtain ⟨-, up⟩ | ⟨-, down⟩ := taken <;> omega
  have reaches (j : ℤ) : Ieee.Reaches m (withMinus sign y) (2 ^ 24 * 2 ^ j) (2 ^ j) ↔ j < lastExponent n e ∨
      (lastExponent n e = j ∧ (Ieee.roundTo m sign n e (lastExponent n e)).1 = 2 ^ 24) :=
    (reaches_withMinus m sign _ _ _).trans (reaches_iff j least most ownRounded)
  have overflow := reaches 104
  rw [show (2 : ℝ) ^ 24 * 2 ^ (104 : ℤ) = 2 ^ 128 by norm_num, show (2 : ℝ) ^ (104 : ℤ) = 2 ^ 104 by norm_num] at overflow
  have tiny := reaches (-150)
  rw [show (2 : ℝ) ^ 24 * 2 ^ (-150 : ℤ) = 1 / 2 ^ 126 by norm_num, show (2 : ℝ) ^ (-150 : ℤ) = 1 / 2 ^ 150 by norm_num]
    at tiny
  rw [roundPack_eq hn rfl grid top]
  dsimp only
  by_cases beyond : 104 < lastExponent n e ∨
      (lastExponent n e = 104 ∧ (Ieee.roundTo m sign n e (lastExponent n e)).1 = 2 ^ 24)
  · rw [if_pos beyond, overflowWord_eq m sign positive]
    obtain ⟨nv, dz, raised⟩ : (0x05 : BitVec 5).getLsbD 4 = false ∧ (0x05 : BitVec 5).getLsbD 3 = false ∧
        (0x05 : BitVec 5).getLsbD 2 = true := by decide
    exact ⟨nv, dz, iff_of_true raised (overflow.mpr beyond), fun _ => rfl, fun none => absurd (raised.symm.trans none) nofun⟩
  · have finite : k * 2 ^ 23 + (Ieee.roundTo m sign n e (k - 149)).1 < 0x7F800000 := by
      rcases own with rfl | own
      · omega
      · rw [← own] at top ⊢
        omega
    obtain ⟨isFin, number, against⟩ := packed_roundedAgainst normal hq low high taken finite
    have changed : (Ieee.roundTo m sign n e (k - 149)).2 = true ↔ withMinus sign
        ((Ieee.roundTo m sign n e (k - 149)).1 * 2 ^ (k - 149 : ℤ)) ≠ withMinus sign y := by
      rw [inexact, (withMinus_injective sign).ne_iff, ne_comm]
    have bounded : k * 2 ^ 23 + (Ieee.roundTo m sign n e (k - 149)).1 < 2 ^ 31 := finite.trans (by norm_num)
    obtain ⟨nv, dz, of, uf, nx⟩ := flags_eq ((Ieee.roundTo m sign n e (k - 149)).2 && !decide (-150 < lastExponent n e ∨
      (lastExponent n e = -150 ∧ (Ieee.roundTo m sign n e (lastExponent n e)).1 = 2 ^ 24)))
      (Ieee.roundTo m sign n e (k - 149)).2
    rw [← hy] at against
    rw [if_neg beyond, Ieee.RoundsTo]
    dsimp only
    rw [nv, dz, of, uf, nx, Bool.and_eq_true, Bool.not_eq_true', decide_eq_false_iff_not, number, changed]
    refine ⟨rfl, rfl, iff_of_false Bool.false_ne_true (overflow.not.mpr beyond), fun none => absurd none Bool.false_ne_true,
      fun _ => ⟨isFin, fun above => (signOf_pack bounded).trans ?_, fun below => (signOf_pack bounded).trans ?_, Iff.rfl,
        and_congr_right' (not_congr tiny.symm), number ▸ against⟩⟩
    · rw [← Bool.not_eq_true]
      rintro rfl
      exact absurd above (not_lt.mpr (neg_nonpos.mpr positive.le))
    · rw [← Bool.not_eq_false]
      rintro rfl
      exact absurd below (not_lt.mpr positive.le)

/-- A zero rounds to itself. -/
theorem roundPack_zero (m : Rounding) (sign : Bool) (e : ℤ) :
    Ieee.roundPack m sign 0 e = (if sign then 0x80000000 else 0, 0) := by
  cases sign <;> rfl

/-- The zeros are the number 0, rounded. -/
theorem zero_roundsTo (m : Rounding) (sign : Bool) : Ieee.RoundsTo m 0 (if sign then 0x80000000 else 0, 0) := by
  have magnitude : (if sign then (0x80000000 : Word) else 0).toNat % 2 ^ 31 = 0 := by cases sign <;> rfl
  have isFin : (Ieee.unpack (if sign then (0x80000000 : Word) else 0)).isFin = true :=
    isFin_iff.mpr (by rw [magnitude]; norm_num)
  have number : (Ieee.unpack (if sign then (0x80000000 : Word) else 0)).toRat = 0 :=
    (toRat_eq_zero_iff isFin).mpr magnitude
  have even : (if sign then (0x80000000 : Word) else 0).getLsbD 0 = false := by cases sign <;> rfl
  have short : ¬ Ieee.Reaches m 0 (2 ^ 128) (2 ^ 104) := by
    cases m <;> simp only [Ieee.Reaches, abs_zero] <;> norm_num
  have noFlag (j : ℕ) : (0 : BitVec 5).getLsbD j = false := BitVec.getLsbD_zero
  rw [Ieee.RoundsTo]
  dsimp only
  rw [noFlag, noFlag, noFlag, noFlag, noFlag, number, Rat.cast_zero]
  refine ⟨rfl, rfl, iff_of_false Bool.false_ne_true short, fun none => absurd none Bool.false_ne_true, fun _ => ?_⟩
  refine ⟨isFin, fun above => absurd above (lt_irrefl 0), fun below => absurd below (lt_irrefl 0),
    iff_of_false Bool.false_ne_true (· rfl), iff_of_false Bool.false_ne_true (·.1 rfl), fun w _ => ?_⟩
  cases m
  case rne => exact ⟨by simp, fun _ _ => even⟩
  case rmm =>
    refine ⟨by simp, fun tie => ?_⟩
    rw [sub_zero, sub_zero, abs_zero] at tie
    rw [abs_zero, ← tie]
  case rdn => exact ⟨le_rfl, id⟩
  case rup => exact ⟨le_rfl, id⟩
  case rtz => exact ⟨by simp, le_rfl, id⟩

/-! ## The obligation -/

/-- `roundPack` rounds every number of the form `(-1)^sign * n * 2^e`. -/
theorem roundPack_roundsTo_toRat (m : Rounding) (sign : Bool) (n : ℕ) (e : ℤ) :
    Ieee.RoundsTo m ((Ieee.Val.fin sign n e).toRat : ℝ) (Ieee.roundPack m sign n e) := by
  have number : ((Ieee.Val.fin sign n e).toRat : ℝ) = withMinus sign (n * 2 ^ e) := by
    cases sign <;> simp [Ieee.Val.toRat, withMinus]
  by_cases zero : n = 0
  · subst zero
    have value : ((Ieee.Val.fin sign 0 e).toRat : ℝ) = 0 := by simp [Ieee.Val.toRat]
    rw [roundPack_zero, value]
    exact zero_roundsTo m sign
  · rw [number]
    exact roundPack_roundsTo m sign zero (.inl rfl)

/-- Settles O21: it holds. The result of `roundPack` is the neighbour that the mode takes; the conversions
round an integer at exponent 0. -/
theorem roundingIsCorrect : Obligations.RoundingIsCorrect := by
  refine ⟨fun m sign n e => ⟨roundPack_roundsTo_toRat m sign n e, roundPack_zero m sign e⟩, fun m v => ⟨?_, ?_, rfl, rfl⟩⟩
  · have number : ((v.toInt : ℤ) : ℝ) = ((Ieee.Val.fin v.msb v.toInt.natAbs 0).toRat : ℝ) := by
      have magnitude : v.toInt = if v.msb then -(v.toInt.natAbs : ℤ) else v.toInt.natAbs := by
        have negative : v.msb = true ↔ v.toInt < 0 := BitVec.msb_eq_toInt ▸ decide_eq_true_iff
        by_cases below : v.msb = true
        · have := negative.mp below
          rw [if_pos below]
          omega
        · have := negative.not.mp below
          rw [if_neg below]
          omega
      generalize v.toInt.natAbs = n at magnitude ⊢
      rw [magnitude]
      cases v.msb <;> simp [Ieee.Val.toRat]
    rw [number]
    exact roundPack_roundsTo_toRat m v.msb v.toInt.natAbs 0
  · have number : (v.toNat : ℝ) = ((Ieee.Val.fin false v.toNat 0).toRat : ℝ) := by simp [Ieee.Val.toRat]
    rw [number]
    exact roundPack_roundsTo_toRat m false v.toNat 0

end Sys2Proof.Proofs
end

