-- ==== Sys2Proof/Proofs/QuotientAndRoot.lean ====
section
/-! Division and square root (44_rv32f.md R363, R364): the quotient and the root cut below their 26th bit, with a last bit that
says whether something was cut, stand for the exact ones. -/

namespace Sys2Proof.Proofs

open Sys2Proof.Machine

/-! ## A number cut to an integer -/

/-- The integer part of `z`, with a bit below it that says whether something was cut, stands for `z`. -/
theorem represents_of_cut {c : ℕ} {e : ℤ} {z : ℝ} {exact : Prop} [Decidable exact] (low : c ≤ z) (high : z < c + 1)
    (long : 2 ^ 24 ≤ c) (whole : exact ↔ z = c) : Represents (2 * c + if exact then 0 else 1) (e - 1) (z * 2 ^ e) := by
  have unit : 0 < (2 : ℝ) ^ e := by positivity
  have half : (2 : ℝ) ^ (e - 1) = 2 ^ e / 2 := by rw [zpow_sub_one₀ two_ne_zero, div_eq_mul_inv]
  by_cases same : exact
  · left
    rw [if_pos same, half, whole.mp same]
    push_cast
    ring
  · right
    have above : (c : ℝ) < z := lt_of_le_of_ne low fun h => same (whole.mpr h.symm)
    rw [if_neg same, half]
    refine ⟨by omega, by omega, ?_, ?_⟩
    · calc ((2 * c + 1 : ℕ) - 1 : ℝ) * (2 ^ e / 2) = c * 2 ^ e := by
            push_cast
            ring
        _ < z * 2 ^ e := mul_lt_mul_of_pos_right above unit
    · calc z * 2 ^ e < (c + 1) * 2 ^ e := mul_lt_mul_of_pos_right high unit
        _ = ((2 * c + 1 : ℕ) + 1 : ℝ) * (2 ^ e / 2) := by
            push_cast
            ring

theorem ne_zero_of_represents {n : ℕ} {e : ℤ} {y : ℝ} (rep : Represents n e y) (hy : y ≠ 0) : n ≠ 0 := by
  rintro rfl
  obtain rfl | ⟨odd, -⟩ := rep
  · simp at hy
  · exact absurd odd (by norm_num)

/-! ## The quotient -/

theorem represents_quotient {m n : ℕ} (hm : m ≠ 0) (hn : n ≠ 0) (small : n < 2 ^ 24) (e : ℤ) :
    Represents (2 * (m * 2 ^ 50 / n) + if m * 2 ^ 50 % n = 0 then 0 else 1) (e - 51) ((m : ℝ) / n * 2 ^ e) := by
  have positive : 0 < (n : ℝ) := by exact_mod_cast Nat.pos_of_ne_zero hn
  have scaled : (m : ℝ) / n * 2 ^ e = ((m * 2 ^ 50 : ℕ) : ℝ) / n * 2 ^ (e - 50) := by
    rw [zpow_sub₀ two_ne_zero]
    push_cast
    field_simp
    norm_num
  have parts : ((m * 2 ^ 50 : ℕ) : ℝ) = n * (m * 2 ^ 50 / n : ℕ) + (m * 2 ^ 50 % n : ℕ) := by
    exact_mod_cast (Nat.div_add_mod (m * 2 ^ 50) n).symm
  have rest : ((m * 2 ^ 50 % n : ℕ) : ℝ) < n := by exact_mod_cast Nat.mod_lt _ (Nat.pos_of_ne_zero hn)
  rw [scaled, show e - 51 = e - 50 - 1 by ring]
  refine represents_of_cut ?low ?high ?long ?whole
  case low => exact Nat.cast_div_le
  case high =>
    rw [div_lt_iff₀ positive, parts, add_one_mul, mul_comm (n : ℝ)]
    exact add_lt_add_right rest _
  case long =>
    rw [Nat.le_div_iff_mul_le (Nat.pos_of_ne_zero hn)]
    have := Nat.pos_of_ne_zero hm
    omega
  case whole =>
    rw [div_eq_iff positive.ne', parts, mul_comm (n : ℝ), add_eq_left]
    exact Nat.cast_eq_zero.symm

/-! ## The root -/

/-- The search keeps a root that is at most the integer root, and its remaining bits can reach it. -/
theorem isqrt_spec : ∀ {k n r : ℕ}, r * r ≤ n → n < (r + 2 ^ k) * (r + 2 ^ k) →
    Ieee.isqrt k n r * Ieee.isqrt k n r ≤ n ∧ n < (Ieee.isqrt k n r + 1) * (Ieee.isqrt k n r + 1)
  | 0, _, _, low, high => ⟨low, high⟩
  | k + 1, n, r, low, high => by
    rw [Ieee.isqrt]
    by_cases fits : (r + 2 ^ k) * (r + 2 ^ k) ≤ n
    · rw [if_pos fits]
      refine isqrt_spec fits ?_
      rwa [add_assoc, ← two_mul, ← pow_succ']
    · rw [if_neg fits]
      exact isqrt_spec low (not_le.mp fits)

/-- The root of a number with a scale of even exponent. -/
theorem sqrt_mul_zpow {x : ℝ} (hx : 0 ≤ x) (e : ℤ) : Real.sqrt (x * 2 ^ (2 * e)) = Real.sqrt x * 2 ^ e := by
  rw [Real.sqrt_mul hx, zpow_mul' , show ((2 : ℝ) ^ e) ^ (2 : ℤ) = (2 ^ e) ^ 2 from zpow_natCast _ 2,
    Real.sqrt_sq (by positivity)]

theorem represents_root {n : ℕ} (least : 2 ^ 48 ≤ n) (most : n < 2 ^ 88) (e : ℤ) :
    Represents (2 * Ieee.isqrt 44 n 0 + if Ieee.isqrt 44 n 0 * Ieee.isqrt 44 n 0 = n then 0 else 1) (e - 1)
      (Real.sqrt n * 2 ^ e) := by
  obtain ⟨low, high⟩ := isqrt_spec (k := 44) (n := n) (r := 0) (Nat.zero_le n) (by omega)
  generalize Ieee.isqrt 44 n 0 = r at low high ⊢
  refine represents_of_cut ?low ?high ?long ?whole
  case low => exact Real.le_sqrt_of_sq_le (by rw [sq]; exact_mod_cast low)
  case high => exact (Real.sqrt_lt' (by positivity)).mpr (by rw [sq]; exact_mod_cast high)
  case long =>
    by_contra short
    have : (r + 1) * (r + 1) ≤ 2 ^ 24 * 2 ^ 24 := Nat.mul_le_mul (by omega) (by omega)
    omega
  case whole =>
    rw [Real.sqrt_eq_iff_mul_self_eq (Nat.cast_nonneg n) (Nat.cast_nonneg r)]
    rw [eq_comm]
    norm_cast

/-! ## Finite values -/

section
variable {s : Bool} {m : ℕ} {e : ℤ}

theorem toRat_fin_eq_zero_iff : (Ieee.Val.fin s m e).toRat = 0 ↔ m = 0 := by
  have unit : (2 : ℚ) ^ e ≠ 0 := by positivity
  cases s <;> simp [Ieee.Val.toRat, unit]

theorem toRat_fin_cast : ((Ieee.Val.fin s m e).toRat : ℝ) = withMinus s (m * 2 ^ e) := by
  cases s <;> simp [Ieee.Val.toRat, withMinus]

/-- A negative finite number is one with the sign that is not zero. -/
theorem toRat_fin_neg_iff : (Ieee.Val.fin s m e).toRat < 0 ↔ s = true ∧ m ≠ 0 := by
  have unit : (0 : ℚ) < 2 ^ e := by positivity
  cases s with
  | false =>
    refine iff_of_false (not_lt.mpr ?_) (fun h => Bool.false_ne_true h.1)
    rw [Ieee.Val.toRat, if_neg Bool.false_ne_true, one_mul]
    positivity
  | true => simp [Ieee.Val.toRat, mul_pos_iff_of_pos_right unit, Nat.pos_iff_ne_zero]

end

/-- The word of a zero. -/
theorem eq_zeroWord {w : Word} (zero : w.toNat % 2 ^ 31 = 0) : w = Ieee.zeroWord (Ieee.signOf w) := by
  refine eq_of_magnitude ?_ ?_
  · rw [zero]
    cases Ieee.signOf w <;> rfl
  · cases Ieee.signOf w <;> rfl

/-! ## The root and the quotient of words -/

section
variable (rm : Rounding) {a b : Word}

theorem sqrt_of_zero {s : Bool} {e : ℤ} (ha : Ieee.unpack a = .fin s 0 e) :
    Ieee.sqrt rm a = (Ieee.zeroWord s, Flag.none) := by
  rw [Ieee.sqrt, ha]
  rfl

theorem sqrt_of_negative {m : ℕ} {e : ℤ} (ha : Ieee.unpack a = .fin true m e) (hm : m ≠ 0) :
    Ieee.sqrt rm a = Ieee.invalid := by
  simp only [Ieee.sqrt, ha, if_neg hm, if_true]

/-- The model takes the root of an integer of an even exponent. -/
theorem sqrt_of_positive {m : ℕ} {e : ℤ} (ha : Ieee.unpack a = .fin false m e) (hm : m ≠ 0) :
    ∃ (j : ℕ) (h : ℤ), (j = 60 ∨ j = 61) ∧ e = 2 * h + j ∧ Ieee.sqrt rm a = Ieee.roundPack rm false
      (2 * Ieee.isqrt 44 (m * 2 ^ j) 0 + if Ieee.isqrt 44 (m * 2 ^ j) 0 * Ieee.isqrt 44 (m * 2 ^ j) 0 = m * 2 ^ j
        then 0 else 1) (h - 1) := by
  by_cases even : e % 2 = 0
  · refine ⟨60, (e - 60) / 2, .inl rfl, by omega, ?_⟩
    simp only [Ieee.sqrt, ha, if_neg hm, even, bne_self_eq_false, Bool.false_eq_true, if_false]
  · refine ⟨61, (e - 61) / 2, .inr rfl, by omega, ?_⟩
    simp only [Ieee.sqrt, ha, if_neg hm, bne_iff_ne.mpr even, Bool.false_eq_true, if_true, if_false]

theorem sqrt_roundsTo {m : ℕ} {e : ℤ} (ha : Ieee.unpack a = .fin false m e) (hm : m ≠ 0) (small : m < 2 ^ 24) :
    Ieee.RoundsTo rm (Real.sqrt (m * 2 ^ e)) (Ieee.sqrt rm a) := by
  obtain ⟨j, h, size, exponent, value⟩ := sqrt_of_positive rm ha hm
  have least : 2 ^ 60 ≤ m * 2 ^ j := by
    obtain rfl | rfl := size <;> omega
  have most : m * 2 ^ j < 2 ^ 88 := by
    obtain rfl | rfl := size <;> omega
  have scaled : Real.sqrt (m * 2 ^ e) = Real.sqrt (m * 2 ^ j : ℕ) * 2 ^ h := by
    rw [← sqrt_mul_zpow (Nat.cast_nonneg _), exponent, add_comm, zpow_add₀ two_ne_zero, zpow_natCast, ← mul_assoc]
    push_cast
    rfl
  rw [value, scaled]
  have rep := represents_root (le_trans (by norm_num) least) most h
  have positive : 0 < Real.sqrt (m * 2 ^ j : ℕ) * 2 ^ h :=
    mul_pos (Real.sqrt_pos.mpr (by exact_mod_cast lt_of_lt_of_le (by norm_num) least)) (by positivity)
  exact roundPack_roundsTo rm false (ne_zero_of_represents rep positive.ne') rep

/-- The quotient of finite values by one that is not zero. -/
theorem div_of_finite {s t : Bool} {m n : ℕ} {e d : ℤ} (ha : Ieee.unpack a = .fin s m e)
    (hb : Ieee.unpack b = .fin t n d) (hn : n ≠ 0) : Ieee.div rm a b =
      Ieee.roundPack rm (s != t) (2 * (m * 2 ^ 50 / n) + if m * 2 ^ 50 % n = 0 then 0 else 1) (e - d - 51) := by
  simp only [Ieee.div, ha, hb, if_neg hn]

theorem div_by_zero {s t : Bool} {m : ℕ} {e d : ℤ} (ha : Ieee.unpack a = .fin s m e)
    (hb : Ieee.unpack b = .fin t 0 d) :
    Ieee.div rm a b = if m = 0 then Ieee.invalid else (Ieee.infWord (s != t), Flag.dz) := by
  simp only [Ieee.div, ha, hb, if_true]

theorem div_of_zero {s t : Bool} {n : ℕ} {e d : ℤ} (ha : Ieee.unpack a = .fin s 0 e)
    (hb : Ieee.unpack b = .fin t n d) (hn : n ≠ 0) : Ieee.div rm a b = (Ieee.zeroWord (s != t), Flag.none) := by
  rw [div_of_finite rm ha hb hn]
  simp [Ieee.roundPack]

theorem withMinus_div (s t : Bool) (x y : ℝ) : withMinus s x / withMinus t y = withMinus (s != t) (x / y) := by
  cases s <;> cases t <;> simp [withMinus, neg_div, div_neg]

theorem div_roundsTo {s t : Bool} {m n : ℕ} {e d : ℤ} (ha : Ieee.unpack a = .fin s m e)
    (hb : Ieee.unpack b = .fin t n d) (hn : n ≠ 0) (small : n < 2 ^ 24) :
    Ieee.RoundsTo rm ((Ieee.Val.fin s m e).toRat / (Ieee.Val.fin t n d).toRat : ℝ) (Ieee.div rm a b) := by
  by_cases hm : m = 0
  · subst hm
    rw [div_of_zero rm ha hb hn, (toRat_fin_eq_zero_iff (s := s) (e := e)).mpr rfl, Rat.cast_zero, zero_div]
    exact zero_roundsTo rm (s != t)
  · have scaled : ((m : ℝ) * 2 ^ e) / (n * 2 ^ d) = m / n * 2 ^ (e - d) := by
      rw [zpow_sub₀ two_ne_zero]
      field_simp
    rw [div_of_finite rm ha hb hn, toRat_fin_cast, toRat_fin_cast, withMinus_div, scaled]
    have rep := represents_quotient hm hn small (e - d)
    exact roundPack_roundsTo rm (s != t) (ne_zero_of_represents rep (by positivity)) rep

/-! ### Infinities and NaNs -/

theorem div_of_nan (nan : Ieee.isNaN a = true ∨ Ieee.isNaN b = true) :
    Ieee.div rm a b = Ieee.nanResult (Ieee.isSignalling a || Ieee.isSignalling b) := by
  have quiet {w : Word} (number : ¬ Ieee.isNaN w = true) : Ieee.isSignalling w = false :=
    isSignalling_of_number (Bool.not_eq_true _ ▸ number)
  unfold Ieee.div
  by_cases ha : Ieee.isNaN a = true
  · rw [unpack_of_isNaN ha]
    by_cases hb : Ieee.isNaN b = true
    · rw [unpack_of_isNaN hb]
    · rw [quiet hb, Bool.or_false]
      cases h : Ieee.unpack b with
      | nan x => exact absurd (show Ieee.isNaN b = true by rw [Ieee.isNaN, h]) hb
      | inf s => rfl
      | fin s m e => rfl
  · have hb : Ieee.isNaN b = true := nan.resolve_left ha
    rw [unpack_of_isNaN hb, quiet ha, Bool.false_or]
    cases h : Ieee.unpack a with
    | nan x => exact absurd (show Ieee.isNaN a = true by rw [Ieee.isNaN, h]) ha
    | inf s => rfl
    | fin s m e => rfl

theorem sqrt_of_nan (nan : Ieee.isNaN a = true) : Ieee.sqrt rm a = Ieee.nanResult (Ieee.isSignalling a) := by
  rw [Ieee.sqrt, unpack_of_isNaN nan]

variable {s t : Bool}

theorem div_of_infinities (ha : Ieee.unpack a = .inf s) (hb : Ieee.unpack b = .inf t) : Ieee.div rm a b = Ieee.invalid := by
  rw [Ieee.div, ha, hb]

theorem div_of_infinity {n : ℕ} {d : ℤ} (ha : Ieee.unpack a = .inf s) (hb : Ieee.unpack b = .fin t n d) :
    Ieee.div rm a b = (Ieee.infWord (s != t), Flag.none) := by
  rw [Ieee.div, ha, hb]

theorem div_by_infinity {m : ℕ} {e : ℤ} (ha : Ieee.unpack a = .fin s m e) (hb : Ieee.unpack b = .inf t) :
    Ieee.div rm a b = (Ieee.zeroWord (s != t), Flag.none) := by
  rw [Ieee.div, ha, hb]

end

/-- The word of a sign that is the exclusive or of two. -/
theorem ite_sign_eq {α : Type} (s t : Bool) (f : Bool → α) : f (s != t) = if s = t then f false else f true := by
  cases s <;> cases t <;> rfl

/-- Settles O23: it holds. The cut quotient and root stand for the exact ones; the rest is the table of the definitions. -/
theorem quotientAndRootAreCorrectlyRounded : Obligations.QuotientAndRootAreCorrectlyRounded := by
  intro rm a b va vb invalid isInf same
  have infinite {w : Word} (h : isInf w) : Ieee.unpack w = .inf (w.getLsbD 31) := unpack_of_infinite h
  refine ⟨fun ha => ?finite, fun nan => div_of_nan rm nan, fun nan => sqrt_of_nan rm nan,
    fun ha hb => div_of_infinities rm (infinite ha) (infinite hb), fun ha hb => ?overFinite, fun ha hb => ?overInfinity,
    ?ofInfinity, ?ofNegativeInfinity⟩
  case finite =>
    obtain ⟨m, e, unpacked, -, -, -, small⟩ := unpack_of_finite (isFin_iff.mp ha)
    have zero : va.toRat = 0 ↔ m = 0 := by rw [show va = _ from unpacked, toRat_fin_eq_zero_iff]
    refine ⟨fun least => ?root, fun h => ?rootZero, fun negative => ?negative, fun hb => ?quotient⟩
    case root =>
      by_cases hm : m = 0
      · subst hm
        rw [zero.mpr rfl, Rat.cast_zero, Real.sqrt_zero, sqrt_of_zero rm unpacked]
        exact zero_roundsTo rm _
      · have positive : Ieee.signOf a = false := by
          rw [← Bool.not_eq_true]
          intro sign
          rw [show va = _ from unpacked] at least
          exact least.not_gt (toRat_fin_neg_iff.mpr ⟨sign, hm⟩)
        rw [positive] at unpacked
        rw [show va = _ from unpacked, toRat_fin_cast]
        exact sqrt_roundsTo rm unpacked hm small
    case rootZero =>
      obtain rfl := zero.mp h
      rw [sqrt_of_zero rm unpacked, ← eq_zeroWord ((toRat_eq_zero_iff ha).mp h)]
      rfl
    case negative =>
      rw [show va = _ from unpacked, toRat_fin_neg_iff] at negative
      exact sqrt_of_negative rm (negative.1 ▸ unpacked) negative.2
    case quotient =>
      obtain ⟨n, d, unpacked', -, -, -, small'⟩ := unpack_of_finite (isFin_iff.mp hb)
      have zero' : vb.toRat = 0 ↔ n = 0 := by rw [show vb = _ from unpacked', toRat_fin_eq_zero_iff]
      rw [ne_eq, ne_eq, zero, zero']
      refine ⟨fun hn => ?_, fun hm hn => ?_, fun hm hn => ?_, fun hm hn => ?_⟩
      · rw [show va = _ from unpacked, show vb = _ from unpacked']
        exact div_roundsTo rm unpacked unpacked' hn small'
      · subst hm
        rw [div_of_zero rm unpacked unpacked' hn]
        exact congrArg (·, Flag.none) (ite_sign_eq (Ieee.signOf a) (Ieee.signOf b) Ieee.zeroWord)
      · subst hn
        rw [div_by_zero rm unpacked unpacked', if_neg hm]
        exact congrArg (·, Flag.dz) (ite_sign_eq (Ieee.signOf a) (Ieee.signOf b) Ieee.infWord)
      · subst hm hn
        rw [div_by_zero rm unpacked unpacked', if_pos rfl]
        rfl
  case overFinite =>
    obtain ⟨n, d, unpacked, -⟩ := unpack_of_finite (isFin_iff.mp hb)
    have value := (div_of_infinity rm (infinite ha) unpacked).trans
      (ite_sign_eq _ _ fun sign => (Ieee.infWord sign, Flag.none))
    exact ⟨fun equal => value.trans (if_pos equal), fun other => value.trans (if_neg other)⟩
  case overInfinity =>
    obtain ⟨m, e, unpacked, -⟩ := unpack_of_finite (isFin_iff.mp ha)
    have value := (div_by_infinity rm unpacked (infinite hb)).trans
      (ite_sign_eq _ _ fun sign => (Ieee.zeroWord sign, Flag.none))
    exact ⟨fun equal => value.trans (if_pos equal), fun other => value.trans (if_neg other)⟩
  case ofInfinity =>
    rintro rfl
    rfl
  case ofNegativeInfinity =>
    rintro rfl
    rfl

end Sys2Proof.Proofs
end

