-- ==== Sys2Proof/Proofs/FloatToInteger.lean ====
section
/-! The conversions to integers (44_rv32f.md R370, R371): the number rounded to a grid of step 1, clipped to the range. -/

namespace Sys2Proof.Proofs

open Sys2Proof.Machine

/-! ## Rounding to an integer -/

/-- `r` is `x` rounded to an integer in a mode. -/
def IntegerRounded (m : Rounding) (x : ℝ) (r : ℤ) : Prop :=
  match m with
  | .rtz => r = if 0 ≤ x then ⌊x⌋ else ⌈x⌉
  | .rdn => r = ⌊x⌋
  | .rup => r = ⌈x⌉
  | .rne => |(r : ℝ) - x| ≤ 1 / 2 ∧ (|(r : ℝ) - x| = 1 / 2 → r % 2 = 0)
  | .rmm => |(r : ℝ) - x| ≤ 1 / 2 ∧ (|(r : ℝ) - x| = 1 / 2 → |x| ≤ |(r : ℝ)|)

/-- On the grid of step 1 the neighbour that a mode takes is the rounded integer. -/
theorem integerRounded_of_roundedTo {m : Rounding} {y : ℝ} {n : ℕ} (rounded : RoundedTo m y 1 n) : IntegerRounded m y n := by
  obtain ⟨q, f, rfl, low, high, taken⟩ := rounded
  have least : (0 : ℝ) ≤ q := q.cast_nonneg
  have below : ⌊(q : ℝ) * 1 + f⌋ = q := Int.floor_eq_iff.mpr ⟨by push_cast; linarith, by push_cast; linarith⟩
  have upper : |((q + 1 : ℕ) : ℤ) - ((q : ℝ) * 1 + f)| = 1 - f := by
    push_cast
    rw [abs_of_nonneg (by linarith)]
    ring
  have lower : |((q : ℕ) : ℤ) - ((q : ℝ) * 1 + f)| = f := by
    push_cast
    rw [abs_of_nonpos (by linarith)]
    ring
  cases m with
  | rne =>
    obtain ⟨up, rfl⟩ | ⟨down, rfl⟩ := taken
    · have near : 1 ≤ 2 * f := up.elim le_of_lt fun half => half.1.ge
      rw [IntegerRounded, upper]
      refine ⟨by linarith, fun tie => ?_⟩
      have odd : q % 2 = 1 := up.elim (fun more => by linarith) And.right
      omega
    · obtain ⟨less, notOdd⟩ := not_or.mp down
      rw [IntegerRounded, lower]
      refine ⟨by linarith, fun tie => ?_⟩
      have notOne : ¬ n % 2 = 1 := fun odd => notOdd ⟨by linarith, odd⟩
      omega
  | rmm =>
    obtain ⟨up, rfl⟩ | ⟨down, rfl⟩ := taken
    · have near : 1 ≤ 2 * f := up
      rw [IntegerRounded, upper]
      refine ⟨by linarith, fun _ => ?_⟩
      rw [abs_of_nonneg (by linarith), Int.cast_natCast, Nat.abs_cast]
      push_cast
      linarith
    · have near : 2 * f < 1 := not_le.mp down
      rw [IntegerRounded, lower]
      exact ⟨by linarith, fun tie => absurd tie (by linarith)⟩
  | rtz =>
    obtain ⟨up, -⟩ | ⟨-, rfl⟩ := taken
    · exact up.elim
    · rw [IntegerRounded, if_pos (by linarith), below]
  | rdn =>
    obtain ⟨up, -⟩ | ⟨-, rfl⟩ := taken
    · exact up.elim
    · exact below.symm
  | rup =>
    obtain ⟨up, rfl⟩ | ⟨down, rfl⟩ := taken
    · have positive : 0 < f := lt_of_le_of_ne low (Ne.symm up)
      exact (Int.ceil_eq_iff.mpr ⟨by push_cast; linarith, by push_cast; linarith⟩).symm
    · have zero : f = 0 := not_not.mp down
      rw [IntegerRounded, zero, mul_one, add_zero, Int.ceil_natCast]

/-- Rounding a negative number mirrors the rounding of its magnitude. -/
theorem integerRounded_withMinus {m : Rounding} {sign : Bool} {y : ℝ} {n : ℕ} (hy : 0 ≤ y)
    (rounded : IntegerRounded (magnitudeMode m sign) y n) :
    IntegerRounded m (withMinus sign y) (Ieee.signed sign n) := by
  cases sign with
  | false => exact rounded
  | true =>
    have flip : |((-n : ℤ) : ℝ) - -y| = |((n : ℤ) : ℝ) - y| := by
      rw [abs_sub_comm]
      push_cast
      ring_nf
    cases m <;> simp only [IntegerRounded, magnitudeMode, mirrored, withMinus, Ieee.signed, if_true, flip] at rounded ⊢
    case rne => exact ⟨rounded.1, fun tie => by have := rounded.2 tie; omega⟩
    case rtz =>
      rw [if_pos hy] at rounded
      by_cases zero : y = 0
      · rw [zero, Int.floor_zero] at rounded
        rw [zero, neg_zero, if_pos le_rfl, Int.floor_zero, rounded, neg_zero]
      · rw [if_neg (by simpa using lt_of_le_of_ne hy (Ne.symm zero)), Int.ceil_neg, rounded]
    case rdn => rw [Int.floor_neg, rounded]
    case rup => rw [Int.ceil_neg, rounded]
    case rmm => simpa using rounded

/-- `roundTo` the grid of step 1 rounds a finite value to an integer. -/
theorem roundTo_integerRounded (m : Rounding) (sign : Bool) (n : ℕ) (e : ℤ) :
    let r := Ieee.signed sign (Ieee.roundTo m sign n e 0).1
    IntegerRounded m (withMinus sign (n * 2 ^ e)) r ∧
      ((Ieee.roundTo m sign n e 0).2 = true ↔ withMinus sign (n * 2 ^ e) ≠ r) := by
  intro r
  obtain ⟨rounded, inexact⟩ := roundTo_roundedTo m sign (te := 0) (y := n * 2 ^ e) (.inl rfl)
  rw [zpow_zero] at rounded inexact
  refine ⟨integerRounded_withMinus (by positivity) (integerRounded_of_roundedTo rounded), ?_⟩
  have value : (r : ℝ) = withMinus sign (Ieee.roundTo m sign n e 0).1 := by
    cases sign <;> simp [r, Ieee.signed, withMinus]
  rw [inexact, value, (withMinus_injective sign).ne_iff, mul_one]

/-! ## Clipping -/

/-- A finite value: the rounded integer, clipped to the range. -/
theorem toInteger_of_finite {rm : Rounding} {lo hi : ℤ} {w : Word} {s : Bool} {m : ℕ} {e : ℤ}
    (unpacked : Ieee.unpack w = .fin s m e) :
    let r := Ieee.signed s (Ieee.roundTo rm s m e 0).1
    Ieee.toInteger rm lo hi w = (BitVec.ofInt 32 (if r < lo then lo else if hi < r then hi else r),
      if r < lo ∨ hi < r then 0x10 else Flag.when (Ieee.roundTo rm s m e 0).2 Flag.nx) := by
  intro r
  rw [Ieee.toInteger, unpacked]
  dsimp only
  by_cases low : r < lo
  · rw [if_pos low, if_pos low, if_pos (.inl low)]
    rfl
  by_cases high : hi < r
  · rw [if_neg low, if_neg low, if_pos high, if_pos high, if_pos (.inr high)]
    rfl
  · rw [if_neg low, if_neg low, if_neg high, if_neg high, if_neg (not_or.mpr ⟨low, high⟩)]

/-- What a conversion gives for a finite value, from its rounded integer: the clipped integer and the flags. -/
theorem clipped_flags {lo hi r : ℤ} {exact : Prop} [Decidable exact] {inexact : Bool} (changed : inexact = true ↔ ¬ exact) :
    (if r < lo ∨ hi < r then 0x10 else Flag.when inexact Flag.nx) =
      if r < lo ∨ hi < r then (0x10 : BitVec 5) else if exact then 0 else 1 := by
  by_cases same : exact
  · have clear : inexact = false := by
      rw [← Bool.not_eq_true, changed, not_not]
      exact same
    rw [if_pos same, clear]
    rfl
  · rw [if_neg same, changed.mpr same]
    rfl

theorem toInt_clip (r : ℤ) : (BitVec.ofInt 32 (if r < -2 ^ 31 then -2 ^ 31 else if 2 ^ 31 - 1 < r then 2 ^ 31 - 1 else r)).toInt =
    if r < -2 ^ 31 then -2 ^ 31 else if 2 ^ 31 - 1 < r then 2 ^ 31 - 1 else r := by
  refine BitVec.toInt_ofInt_eq_self (by norm_num) ?_ ?_ <;> split <;> omega

theorem toNat_clip (r : ℤ) :
    ((BitVec.ofInt 32 (if r < 0 then 0 else if 2 ^ 32 - 1 < r then 2 ^ 32 - 1 else r)).toNat : ℤ) =
      if r < 0 then 0 else if 2 ^ 32 - 1 < r then 2 ^ 32 - 1 else r := by
  rw [BitVec.toNat_ofInt]
  split <;> omega

/-- Settles O25: it holds. A finite value is the one `roundTo` rounds to the grid of step 1, then clipped. -/
theorem floatToIntegerConversions : Obligations.FloatToIntegerConversions := by
  intro s rd rs1 rm m fpu hs hm a X
  refine ⟨_, _, fpToXRounded_eq fpu hs hm fun m => Ieee.toSigned m a, fpToXRounded_eq fpu hs hm fun m => Ieee.toUnsigned m a,
    fun top => ?top, fun bottom => ?bottom, fun finite => ?finite⟩
  case top =>
    obtain nan | infinite := top
    · rw [Ieee.toSigned, Ieee.toUnsigned, Ieee.toInteger, Ieee.toInteger, unpack_of_isNaN nan]
      exact ⟨rfl, rfl⟩
    · rw [infinite]
      exact ⟨rfl, rfl⟩
  case bottom =>
    rw [bottom]
    exact ⟨rfl, rfl⟩
  case finite =>
    obtain ⟨n, e, unpacked, -⟩ := unpack_of_finite (isFin_iff.mp finite)
    obtain ⟨rounded, inexact⟩ := roundTo_integerRounded m (Ieee.signOf a) n e
    have number : ((X : ℚ) : ℝ) = withMinus (Ieee.signOf a) (n * 2 ^ e) := by
      rw [show X = _ from congrArg Ieee.Val.toRat unpacked, toRat_fin_cast]
    have signed : Ieee.toSigned m a = _ := toInteger_of_finite unpacked
    have unsigned : Ieee.toUnsigned m a = _ := toInteger_of_finite unpacked
    rw [← number] at rounded inexact
    generalize Ieee.signed (Ieee.signOf a) (Ieee.roundTo m (Ieee.signOf a) n e 0).1 = r at rounded inexact signed unsigned
    have exact : (Ieee.roundTo m (Ieee.signOf a) n e 0).2 = true ↔ X ≠ r :=
      inexact.trans (not_congr (by exact_mod_cast Iff.rfl))
    have near (nearest : m = .rne ∨ m = .rmm) : |(r : ℝ) - X| ≤ 1 / 2 := by
      obtain rfl | rfl := nearest
      · exact rounded.1
      · exact rounded.1
    have distance : ((|(r : ℚ) - X| : ℚ) : ℝ) = |(r : ℝ) - X| := by push_cast; rfl
    have half : (((1 / 2 : ℚ)) : ℝ) = 1 / 2 := by norm_num
    rw [← distance, ← half] at near
    rw [signed, unsigned]
    refine ⟨r, ?rtz, ?rdn, ?rup, fun nearest => Rat.cast_le.mp (near nearest), ?even, ?away, toInt_clip r, clipped_flags exact,
      toNat_clip r, clipped_flags exact⟩
    case rtz =>
      rintro rfl
      rw [IntegerRounded, Rat.floor_cast, Rat.ceil_cast] at rounded
      simpa using rounded
    case rdn =>
      rintro rfl
      rwa [IntegerRounded, Rat.floor_cast] at rounded
    case rup =>
      rintro rfl
      rwa [IntegerRounded, Rat.ceil_cast] at rounded
    case even =>
      rintro rfl tie
      exact rounded.2 (by rw [← distance, tie, half])
    case away =>
      rintro rfl tie
      exact_mod_cast rounded.2 (by rw [← distance, tie, half])

end Sys2Proof.Proofs
end

