-- ==== Sys2Proof/Proofs/FloatSums.lean ====
section
/-! Sums, products and product-sums (44_rv32f.md R356 to R362): the exact number that is rounded once, and the table of zeros,
infinities and NaNs. -/

namespace Sys2Proof.Proofs

open Sys2Proof.Machine

/-! ## The exact sum and product -/

/-- The value of a signed integer at an exponent. -/
theorem toRat_natAbs (t : ℤ) (e : ℤ) : (Ieee.Val.fin (decide (t < 0)) t.natAbs e).toRat = t * 2 ^ e := by
  rcases lt_or_ge t 0 with negative | least
  · have value : (t.natAbs : ℚ) = -t := by rw [Nat.cast_natAbs, abs_of_neg negative, Int.cast_neg]
    simp [Ieee.Val.toRat, negative, value]
  · have value : (t.natAbs : ℚ) = t := by rw [Nat.cast_natAbs, abs_of_nonneg least]
    simp [Ieee.Val.toRat, not_lt.mpr least, value]

/-- A value at a smaller exponent. -/
theorem signed_shift (s : Bool) (m : ℕ) {e d : ℤ} (le : e ≤ d) :
    (Ieee.signed s (m <<< (d - e).toNat) : ℚ) * 2 ^ e = (Ieee.Val.fin s m d).toRat := by
  obtain ⟨k, rfl⟩ := Int.le.dest le
  rw [add_sub_cancel_left, Int.toNat_natCast, Nat.shiftLeft_eq]
  cases s <;> simp [Ieee.signed, Ieee.Val.toRat, zpow_add₀, mul_comm, mul_left_comm]

/-- The sign of an exact zero sum of terms with these signs. -/
theorem zeroWord_of_signs (rm : Rounding) (s t : Bool) : (Ieee.zeroWord (if s == t then s else rm == .rdn), Flag.none) =
    (if s = t then (if s then 0x80000000 else 0) else if rm = .rdn then (0x80000000 : Word) else 0, (0 : BitVec 5)) := by
  cases rm <;> cases s <;> cases t <;> rfl

section
variable (rm : Rounding) (s t : Bool) (m n : ℕ) (e d : ℤ)

/-- The sum of finite values: the rounding of the exact sum, or the zero of the mode. -/
theorem addFinite_spec :
    ((Ieee.Val.fin s m e).toRat + (Ieee.Val.fin t n d).toRat ≠ 0 → ∃ sign k c,
      Ieee.addFinite rm s m e t n d = Ieee.roundPack rm sign k c ∧
        (Ieee.Val.fin sign k c).toRat = (Ieee.Val.fin s m e).toRat + (Ieee.Val.fin t n d).toRat) ∧
    ((Ieee.Val.fin s m e).toRat + (Ieee.Val.fin t n d).toRat = 0 → Ieee.addFinite rm s m e t n d =
      (Ieee.zeroWord (if s == t then s else rm == .rdn), Flag.none)) := by
  have sum : ((Ieee.signed s (m <<< (e - min e d).toNat) + Ieee.signed t (n <<< (d - min e d).toNat) : ℤ) : ℚ) *
      2 ^ min e d = (Ieee.Val.fin s m e).toRat + (Ieee.Val.fin t n d).toRat := by
    push_cast
    rw [add_mul, signed_shift s m (min_le_left e d), signed_shift t n (min_le_right e d)]
  rw [← sum, mul_ne_zero_iff_right (by positivity), mul_eq_zero_iff_right (by positivity), Int.cast_eq_zero,
    Int.cast_ne_zero]
  unfold Ieee.addFinite
  exact ⟨fun some => ⟨_, _, _, if_neg some, toRat_natAbs _ _⟩, fun zero => if_pos zero⟩

theorem toRat_mul : (Ieee.Val.fin s m e).toRat * (Ieee.Val.fin t n d).toRat =
    (Ieee.Val.fin (s ^^ t) (m * n) (e + d)).toRat := by
  have signs : (if s ^^ t then -1 else 1 : ℚ) = (if s then -1 else 1) * if t then -1 else 1 := by
    cases s <;> cases t <;> simp
  simp only [Ieee.Val.toRat]
  rw [signs, zpow_add₀ two_ne_zero]
  push_cast
  ring

theorem toRat_negVal (v : Ieee.Val) : (Ieee.negVal v).toRat = -v.toRat := by
  cases v with
  | nan x => simp [Ieee.negVal, Ieee.Val.toRat]
  | inf s => simp [Ieee.negVal, Ieee.Val.toRat]
  | fin s m e => cases s <;> simp [Ieee.negVal, Ieee.Val.toRat]

end

/-! ## NaNs -/

/-- The value is a signalling NaN. -/
def signals : Ieee.Val → Bool
  | .nan s => s
  | _ => false

theorem signals_iff (v : Ieee.Val) : signals v = true ↔ v = .nan true := by
  cases v <;> simp [signals]

theorem signals_negVal (v : Ieee.Val) : signals (Ieee.negVal v) = signals v := by
  cases v <;> rfl

theorem isSignalling_eq (w : Word) : Ieee.isSignalling w = signals (Ieee.unpack w) := by
  rw [Ieee.isSignalling]
  cases Ieee.unpack w <;> rfl

section
variable (rm : Rounding) {p q r : Ieee.Val}

theorem addVal_of_nan (nan : (∃ x, p = .nan x) ∨ ∃ x, q = .nan x) :
    Ieee.addVal rm p q = Ieee.nanResult (signals p || signals q) := by
  obtain ⟨x, rfl⟩ | ⟨y, rfl⟩ := nan
  · cases q <;> simp [Ieee.addVal, signals]
  · cases p <;> simp [Ieee.addVal, signals]

theorem mul_of_nan {a b : Word} (nan : (∃ x, Ieee.unpack a = .nan x) ∨ ∃ x, Ieee.unpack b = .nan x) :
    Ieee.mul rm a b = Ieee.nanResult (signals (Ieee.unpack a) || signals (Ieee.unpack b)) := by
  unfold Ieee.mul
  obtain ⟨x, ha⟩ | ⟨y, hb⟩ := nan
  · rw [ha]
    cases Ieee.unpack b <;> simp [signals]
  · rw [hb]
    cases Ieee.unpack a <;> simp [signals]

theorem fmaVal_of_nan (nan : (∃ x, p = .nan x) ∨ ∃ x, q = .nan x) :
    Ieee.fmaVal rm p q r = Ieee.nanResult (signals p || signals q || signals r) := by
  obtain ⟨x, rfl⟩ | ⟨y, rfl⟩ := nan
  · cases q <;> cases r <;> simp [Ieee.fmaVal, signals]
  · cases p <;> cases r <;> simp [Ieee.fmaVal, signals]

end

/-- The NaN of a signalling operand. -/
theorem nanResult_signals (p q r : Ieee.Val) : Ieee.nanResult (signals p || signals q || signals r) =
    (0x7FC00000, if p = .nan true ∨ q = .nan true ∨ r = .nan true then 0x10 else 0) := by
  have any : (signals p || signals q || signals r) = true ↔ p = .nan true ∨ q = .nan true ∨ r = .nan true := by
    rw [Bool.or_eq_true, Bool.or_eq_true, signals_iff, signals_iff, signals_iff, or_assoc]
  rw [Ieee.nanResult, Flag.when]
  simp only [any]
  rfl

/-! ## Sums and products of words -/

section
variable (rm : Rounding) {a b : Word}

theorem sums_of_nan (nan : Ieee.isNaN a = true ∨ Ieee.isNaN b = true) :
    Ieee.add rm a b = Ieee.nanResult (Ieee.isSignalling a || Ieee.isSignalling b) ∧
    Ieee.sub rm a b = Ieee.nanResult (Ieee.isSignalling a || Ieee.isSignalling b) ∧
    Ieee.mul rm a b = Ieee.nanResult (Ieee.isSignalling a || Ieee.isSignalling b) := by
  have unpacked : (∃ x, Ieee.unpack a = .nan x) ∨ ∃ x, Ieee.unpack b = .nan x :=
    nan.imp (fun ha => ⟨_, unpack_of_isNaN ha⟩) (fun hb => ⟨_, unpack_of_isNaN hb⟩)
  have negated : (∃ x, Ieee.unpack a = .nan x) ∨ ∃ x, Ieee.negVal (Ieee.unpack b) = .nan x :=
    unpacked.imp_right fun ⟨x, hb⟩ => ⟨x, congrArg Ieee.negVal hb⟩
  rw [isSignalling_eq, isSignalling_eq]
  exact ⟨addVal_of_nan rm unpacked, (addVal_of_nan rm negated).trans (by rw [signals_negVal]), mul_of_nan rm unpacked⟩

variable {s t : Bool}

theorem sums_of_infinities (ha : Ieee.unpack a = .inf s) (hb : Ieee.unpack b = .inf t) :
    Ieee.add rm a b = (if s = t then (Ieee.infWord s, Flag.none) else Ieee.invalid) ∧
    Ieee.sub rm a b = (if s = t then Ieee.invalid else (Ieee.infWord s, Flag.none)) ∧
    Ieee.mul rm a b = (Ieee.infWord (s ^^ t), Flag.none) := by
  rw [Ieee.add, Ieee.sub, Ieee.mul, ha, hb]
  cases s <;> cases t <;> exact ⟨rfl, rfl, rfl⟩

theorem sums_of_infinity {n : ℕ} {d : ℤ} (ha : Ieee.unpack a = .inf s) (hb : Ieee.unpack b = .fin t n d) :
    Ieee.add rm a b = (Ieee.infWord s, Flag.none) ∧ Ieee.sub rm a b = (Ieee.infWord s, Flag.none) ∧
    Ieee.mul rm a b = if n = 0 then Ieee.invalid else (Ieee.infWord (s ^^ t), Flag.none) := by
  rw [Ieee.add, Ieee.sub, Ieee.mul, ha, hb]
  exact ⟨rfl, rfl, rfl⟩

theorem sums_with_infinity {n : ℕ} {d : ℤ} (ha : Ieee.unpack a = .fin s n d) (hb : Ieee.unpack b = .inf t) :
    Ieee.add rm a b = (Ieee.infWord t, Flag.none) ∧ Ieee.sub rm a b = (Ieee.infWord (!t), Flag.none) ∧
    Ieee.mul rm a b = if n = 0 then Ieee.invalid else (Ieee.infWord (s ^^ t), Flag.none) := by
  rw [Ieee.add, Ieee.sub, Ieee.mul, ha, hb]
  exact ⟨rfl, rfl, rfl⟩

theorem sums_of_finite {m n : ℕ} {e d : ℤ} (ha : Ieee.unpack a = .fin s m e) (hb : Ieee.unpack b = .fin t n d) :
    Ieee.add rm a b = Ieee.addFinite rm s m e t n d ∧ Ieee.sub rm a b = Ieee.addFinite rm s m e (!t) n d ∧
    Ieee.mul rm a b = Ieee.roundPack rm (s ^^ t) (m * n) (e + d) := by
  rw [Ieee.add, Ieee.sub, Ieee.mul, ha, hb]
  exact ⟨rfl, rfl, rfl⟩

end

theorem addVal_of_infinities (rm : Rounding) (s t : Bool) : Ieee.addVal rm (.inf s) (.inf t) =
    if s = t then (Ieee.infWord s, Flag.none) else Ieee.invalid := by
  cases s <;> cases t <;> rfl

theorem exists_fin {v : Ieee.Val} (finite : v.isFin = true) : ∃ s m e, v = .fin s m e := by
  cases v with
  | nan x => exact absurd finite Bool.false_ne_true
  | inf s => exact absurd finite Bool.false_ne_true
  | fin s m e => exact ⟨s, m, e, rfl⟩

/-! ## Product-sums -/

section
variable (rm : Rounding) {s t : Bool} {r : Ieee.Val}

theorem fmaVal_of_finite (m n : ℕ) (e d : ℤ) : Ieee.fmaVal rm (.fin s m e) (.fin t n d) r =
    Ieee.addVal rm (.fin (s ^^ t) (m * n) (e + d)) r := by
  cases r <;> rfl

/-- An infinity times a zero. -/
theorem fmaVal_of_invalid {p q : Ieee.Val} {e : ℤ}
    (product : (p = .inf s ∧ q = .fin t 0 e) ∨ (p = .fin t 0 e ∧ q = .inf s)) :
    Ieee.fmaVal rm p q r = Ieee.invalid := by
  obtain ⟨rfl, rfl⟩ | ⟨rfl, rfl⟩ := product <;> cases r <;> rfl

/-- An infinity times an infinity, or times a number that is not zero. -/
theorem fmaVal_of_infinite {p q : Ieee.Val} (product : (p = .inf s ∧ q = .inf t) ∨
      ∃ n e, n ≠ 0 ∧ ((p = .inf s ∧ q = .fin t n e) ∨ (p = .fin t n e ∧ q = .inf s))) :
    Ieee.fmaVal rm p q r = Ieee.addVal rm (.inf (s ^^ t)) r := by
  obtain ⟨rfl, rfl⟩ | ⟨n, e, some, ⟨rfl, rfl⟩ | ⟨rfl, rfl⟩⟩ := product
  · cases r <;> rfl
  · cases r <;> exact if_neg some
  · rw [Bool.xor_comm]
    cases r <;> exact if_neg some

end

/-- Every product is one with a NaN, one of an infinity and a zero, an infinite one or a finite one. -/
theorem product_cases (p q : Ieee.Val) : ((∃ x, p = .nan x) ∨ ∃ x, q = .nan x) ∨
    (∃ s t e, (p = .inf s ∧ q = .fin t 0 e) ∨ (p = .fin t 0 e ∧ q = .inf s)) ∨
    (∃ s t, (p = .inf s ∧ q = .inf t) ∨
      ∃ n e, n ≠ 0 ∧ ((p = .inf s ∧ q = .fin t n e) ∨ (p = .fin t n e ∧ q = .inf s))) ∨
    (∃ s m e t n d, p = .fin s m e ∧ q = .fin t n d) := by
  cases p with
  | nan x => exact .inl (.inl ⟨x, rfl⟩)
  | inf s =>
    cases q with
    | nan y => exact .inl (.inr ⟨y, rfl⟩)
    | inf t => exact .inr (.inr (.inl ⟨s, t, .inl ⟨rfl, rfl⟩⟩))
    | fin t n d =>
      by_cases zero : n = 0
      · exact .inr (.inl ⟨s, t, d, .inl ⟨rfl, by rw [zero]⟩⟩)
      · exact .inr (.inr (.inl ⟨s, t, .inr ⟨n, d, zero, .inl ⟨rfl, rfl⟩⟩⟩))
  | fin s m e =>
    cases q with
    | nan y => exact .inl (.inr ⟨y, rfl⟩)
    | inf t =>
      by_cases zero : m = 0
      · exact .inr (.inl ⟨t, s, e, .inr ⟨by rw [zero], rfl⟩⟩)
      · exact .inr (.inr (.inl ⟨t, s, .inr ⟨m, e, zero, .inr ⟨rfl, rfl⟩⟩⟩))
    | fin t n d => exact .inr (.inr (.inr ⟨s, m, e, t, n, d, rfl, rfl⟩))

/-- Without an invalid product, a NaN addend gives a NaN. -/
theorem fmaVal_of_nan_addend (rm : Rounding) {p q r : Ieee.Val}
    (valid : ¬ ∃ s t e, (p = .inf s ∧ q = .fin t 0 e) ∨ (p = .fin t 0 e ∧ q = .inf s)) (nan : ∃ x, r = .nan x) :
    Ieee.fmaVal rm p q r = Ieee.nanResult (signals p || signals q || signals r) := by
  obtain nans | invalid | ⟨s, t, product⟩ | ⟨s, m, e, t, n, d, rfl, rfl⟩ := product_cases p q
  · exact fmaVal_of_nan rm nans
  · exact absurd invalid valid
  · rw [fmaVal_of_infinite rm product, addVal_of_nan rm (.inr nan)]
    obtain ⟨rfl, rfl⟩ | ⟨n, e, -, ⟨rfl, rfl⟩ | ⟨rfl, rfl⟩⟩ := product <;> rfl
  · rw [fmaVal_of_finite, addVal_of_nan rm (.inr nan)]
    rfl

/-- Settles O22: it holds. Sums are formed at the smaller exponent and rounded once; the rest is the table of the
definitions. -/
theorem floatSumsAndProductsAreRoundedOnce : Obligations.FloatSumsAndProductsAreRoundedOnce := by
  refine ⟨fun m a b => ?words, fun m sa sb sc ma mb mc ea eb ec => ?products, fun m p q r => ?special⟩
  case words =>
    intro va vb zero nan invalid inf isInf sa sb
    have infinite {w : Word} (h : isInf w) : Ieee.unpack w = .inf (w.getLsbD 31) := unpack_of_infinite h
    refine ⟨isNaN_iff, isSignalling_iff, infinite, unpack_of_isNaN, isFin_iff.mpr, fun ha hb => ?finite, sums_of_nan m,
      fun ha hb => sums_of_infinities m (infinite ha) (infinite hb), fun ha hb => ?left, fun ha hb => ?right⟩
    case finite =>
      obtain ⟨m1, e1, ha, -⟩ := unpack_of_finite (isFin_iff.mp ha)
      obtain ⟨m2, e2, hb, -⟩ := unpack_of_finite (isFin_iff.mp hb)
      obtain ⟨add, sub, mul⟩ := sums_of_finite m ha hb
      obtain ⟨sum, zeroSum⟩ := addFinite_spec m sa sb m1 m2 e1 e2
      obtain ⟨difference, zeroDifference⟩ := addFinite_spec m sa (!sb) m1 m2 e1 e2
      have negated : (Ieee.Val.fin (!sb) m2 e2).toRat = -(Ieee.Val.fin sb m2 e2).toRat := toRat_negVal (.fin sb m2 e2)
      rw [negated, ← sub_eq_add_neg] at difference zeroDifference
      rw [show va = .fin sa m1 e1 from ha, show vb = .fin sb m2 e2 from hb, add, sub, mul]
      exact ⟨sum, fun h => (zeroSum h).trans (zeroWord_of_signs m sa sb), difference,
        fun h => (zeroDifference h).trans (zeroWord_of_signs m sa (!sb)), _, _, rfl, (toRat_mul sa sb m1 m2 e1 e2).symm⟩
    case left =>
      obtain ⟨n, d, hb, -⟩ := unpack_of_finite (isFin_iff.mp hb)
      obtain ⟨add, sub, mul⟩ := sums_of_infinity m (infinite ha) hb
      rw [show vb = .fin sb n d from hb]
      exact ⟨add, sub, mul.trans (if_congr toRat_fin_eq_zero_iff.symm rfl rfl)⟩
    case right =>
      obtain ⟨n, d, ha, -⟩ := unpack_of_finite (isFin_iff.mp ha)
      obtain ⟨add, sub, mul⟩ := sums_with_infinity m ha (infinite hb)
      rw [show va = .fin sa n d from ha]
      exact ⟨add, sub, mul.trans (if_congr toRat_fin_eq_zero_iff.symm rfl rfl)⟩
  case products =>
    obtain ⟨sum, zeroSum⟩ := addFinite_spec m (sa ^^ sb) sc (ma * mb) mc (ea + eb) ec
    intro va vb vc
    have product : va.toRat * vb.toRat = _ := toRat_mul sa sb ma mb ea eb
    have value : Ieee.fmaVal m va vb vc = Ieee.addFinite m (sa ^^ sb) (ma * mb) (ea + eb) sc mc ec :=
      fmaVal_of_finite m ma mb ea eb
    rw [product, value]
    refine ⟨sum, fun h => (zeroSum h).trans ((zeroWord_of_signs m _ _).trans ?_), rfl⟩
    by_cases same : (sa ^^ sb) = sc
    · rw [if_pos same, if_pos same, same]
    · rw [if_neg same, if_neg same]
  case special =>
    intro nan invalid inf isNan invalidProduct infiniteProduct
    refine ⟨fun nans => (fmaVal_of_nan m nans).trans (nanResult_signals p q r), fun ⟨s1, s2, e, product⟩ =>
      fmaVal_of_invalid m product, fun valid addend => (fmaVal_of_nan_addend m valid addend).trans (nanResult_signals p q r),
      fun sp ⟨s1, s2, signs, product⟩ => ⟨fun finite => ?_, fun s3 infinite => ?_⟩, fun hp hq s3 infinite => ?_,
      fun x => ⟨rfl, rfl⟩⟩
    · rw [fmaVal_of_infinite m product, ← signs]
      obtain ⟨s3, n, e, rfl⟩ := exists_fin finite
      rfl
    · rw [fmaVal_of_infinite m product, ← signs, infinite]
      exact addVal_of_infinities m sp s3
    · obtain ⟨s1, n, e, rfl⟩ := exists_fin hp
      obtain ⟨s2, k, d, rfl⟩ := exists_fin hq
      rw [fmaVal_of_finite, infinite]
      rfl

end Sys2Proof.Proofs
end
